-- ==== Sys2Proof/Word.lean ====
section
/-! DEFINITION. The words of the Ompera 760 that the manual treats as bits: the bytes of frames and
messages (R21), 16-bit slot words and signal sets (R42), and the serials of field stations. -/

namespace Sys2Proof

/-- One byte of a frame, a segment or a message (R21). -/
abbrev Byte := BitVec 8

/-- A 16-bit word: a slot value, an event value, a two-byte argument. -/
abbrev Word16 := BitVec 16

/-- A set of the 16 signals of a BINARY point; signal `k` is bit `k` (R51). -/
abbrev Signals := BitVec 16

/-- A serial field as it travels: 48 bits, the most significant byte 0 for a station's serial. -/
abbrev Serial := BitVec 48

end Sys2Proof
end

