-- ==== Sys2Proof/Syntax.lean ====
section
/-! DEFINITION. The commands of the block: one constructor of `Instr` per row of the table of operations
and events (spec/opcode_table.json). A row's operands are what the step needs from outside: the frame that
arrives, the line or point whose timer expires, the arguments of a management command as its bytes carry
them (the forms of section 11.1), the fields of a telecontrol message (R21, R167). -/

namespace Sys2Proof

/-- The two combustion lines (section 0.4). -/
inductive LineId where
  | one
  | two
deriving DecidableEq, Repr

/-- The three dosing loops of a line (section 6.5). -/
inductive DosingLoop where
  | urea
  | lime
  | carbon
deriving DecidableEq, Repr

/-- The cause of an allocation run (R137). -/
inductive RunCause where
  | period
  | turbine
  | line
  | cap
deriving DecidableEq, Repr

/-- The cause of a WARM reset (R191): by command, or by a second ring reset request. -/
inductive WarmCause where
  | command
  | ringRequest
deriving DecidableEq, Repr

/-- A link frame as a port receives or sends it: the protocol type of its link header, whether its
link-level check passes (R2 checks it as pass or fail only), and its payload bytes. -/
structure LinkFrame where
  protocol : BitVec 16
  checkOk  : Bool
  payload  : List Byte
deriving DecidableEq, Repr

/-- The pattern argument of FORCE-POINT as its bytes carry it (section 11.1, R54): FIXED, STAIRCASE, or a
pattern byte that is neither. -/
inductive ForcePattern where
  | fixed (value : Word16)
  | staircase (steps : Byte) (duration spanLow spanHigh : Word16)
  | other (pattern : Byte)
deriving DecidableEq, Repr

/-- The commands, in the order of the table's rows. -/
inductive Instr where
  /-- COLD_RESET (R22, R19). -/
  | coldReset
  /-- PORT_S_LINK_DOWN (R1). -/
  | portSLinkDown
  /-- PORT_S_LINK_UP (R1). -/
  | portSLinkUp
  /-- PORT_N_LINK_CHANGE (R1): the new state of the link. -/
  | portNLinkChange (up : Bool)
  /-- OUTBOUND_PASS (R4 to R6, R8): the frame arriving on Port N. -/
  | outboundPass (frame : LinkFrame)
  /-- INBOUND_PASS (R9, R10): the frame arriving on Port S. -/
  | inboundPass (frame : LinkFrame)
  /-- ENUM_FRAME_RETURN (R18, R26): the fields of a sound returned ENUM frame. -/
  | enumFrameReturn (round : Byte) (arbitration confirmSerial : Serial) (confirmNumber : Byte)
  /-- RETURN_TIMEOUT (R7, R18). -/
  | returnTimeout
  /-- SEGMENT_RESTART (R20). -/
  | segmentRestart
  /-- WARM_RESET (R20, R191): its cause. -/
  | warmReset (cause : WarmCause)
  /-- ESCALATION_WINDOW_EXPIRY (R40). -/
  | escalationWindowExpiry
  /-- STALE_TIMER_EXPIRY (R45) of a point. -/
  | staleTimerExpiry (point : Nat)
  /-- HOLD_TIMER_EXPIRY (R45) of a point. -/
  | holdTimerExpiry (point : Nat)
  /-- STAIRCASE_STEP (R55) of a point. -/
  | staircaseStep (point : Nat)
  /-- CONTROL_PERIOD (R77). -/
  | controlPeriod (line : LineId)
  /-- PERMISSIVE_DELAY_EXPIRY (R70). -/
  | permissiveDelayExpiry (line : LineId)
  /-- LINE_HOLD_EXPIRY (R67). -/
  | lineHoldExpiry (line : LineId)
  /-- BURNOUT_END (R68). -/
  | burnoutEnd (line : LineId)
  /-- STROKE_TIMEOUT (R74). -/
  | strokeTimeout (line : LineId)
  /-- DUE_TIME_REACHED (R71). -/
  | dueTimeReached (line : LineId)
  /-- BURN_MINUTE_CLOSE (R87, R88). -/
  | burnMinuteClose (line : LineId)
  /-- SAMPLE_INSTANT (R98). -/
  | sampleInstant (line : LineId)
  /-- FGC_MINUTE_CLOSE (R102). -/
  | fgcMinuteClose (line : LineId)
  /-- SATURATION_TIMER_EXPIRY (R109). -/
  | saturationTimerExpiry (line : LineId) (loop : DosingLoop)
  /-- ABNORMAL_SECOND (R126). -/
  | abnormalSecond (line : LineId)
  /-- ALLOCATION_RUN (R137): its cause. -/
  | allocationRun (cause : RunCause)
  /-- BYPASS_RELEASE_TIMER_EXPIRY (R145). -/
  | bypassReleaseTimerExpiry
  /-- INDICATION_TIMEOUT (R158). -/
  | indicationTimeout
  /-- SETTLE_TIMER_EXPIRY (R156). -/
  | settleTimerExpiry
  /-- SCHEDULE (R170): address pair, number field and body of the checked message. -/
  | schedule (plant unit number : Byte) (body : List Byte)
  /-- CANCEL (R172). -/
  | cancel (plant unit number : Byte) (body : List Byte)
  /-- LINK_CHECK (R177); its number field and body are not read. -/
  | linkCheck (plant unit : Byte)
  /-- NOTICE_ACK (R179): the notice number acknowledged. -/
  | noticeAck (plant unit number : Byte)
  /-- RESYNC (R169): the new expected number. -/
  | resync (plant unit number : Byte)
  /-- KIND_DISCARD (R167): a message of an unhandled kind. -/
  | kindDiscard (plant unit kind : Byte)
  /-- BLOCK_START (R173) of the queued block with this order number and block index. -/
  | blockStart (order index : Nat)
  /-- BLOCK_END (R173). -/
  | blockEnd (order index : Nat)
  /-- SUPERVISION_TIMER_EXPIRY (R177). -/
  | supervisionTimerExpiry
  /-- ACK_TIMER_EXPIRY (R178). -/
  | ackTimerExpiry
  /-- READ-TABLE (R184). -/
  | readTable (table page : Byte) (start : Word16) (count : Byte)
  /-- WRITE-TABLE (R185): the argument bytes after the start index. -/
  | writeTable (table page : Byte) (start : Word16) (records : List Byte)
  /-- READ-POINT (R53). -/
  | readPoint (point clear : Byte)
  /-- FORCE-POINT (R54). -/
  | forcePoint (point : Byte) (pattern : ForcePattern)
  /-- RELEASE-POINT (R56). -/
  | releasePoint (point : Byte)
  /-- READ-EVENTS (R189). -/
  | readEvents (count : Byte)
  /-- SET-TIME with mode ABSOLUTE (R186). -/
  | setTimeAbsolute (value : BitVec 48)
  /-- SET-TIME with mode STEP (R186); the value is signed. -/
  | setTimeStep (value : BitVec 48)
  /-- LOAD-BUDGET (R128). -/
  | loadBudget (line : Byte) (annual : BitVec 32) (consecutive : Word16) (validity : Byte)
  /-- LINE-CONTROL START (R62). -/
  | start (line : Byte)
  /-- LINE-CONTROL STOP (R63). -/
  | stop (line : Byte)
  /-- LINE-CONTROL RESUME (R64). -/
  | resume (line : Byte)
  /-- LINE-CONTROL RESET-TRIP (R65). -/
  | resetTrip (line : Byte)
  /-- TURBINE-CONTROL RUNUP (R152). -/
  | turbineRunup
  /-- TURBINE-CONTROL STOP (R153). -/
  | turbineStop
  /-- SET-CAP SET (R134); the value is signed. -/
  | setCapSet (line : Byte) (value : Word16)
  /-- SET-CAP RELEASE (R134). -/
  | setCapRelease (line : Byte)
  /-- SET-OVERRIDE ON (R91). -/
  | setOverrideOn (line : Byte) (value : Word16)
  /-- SET-OVERRIDE OFF (R91). -/
  | setOverrideOff (line : Byte)
  /-- SEGMENT-MODE RUN (R16). -/
  | segmentModeRun
  /-- SEGMENT-MODE CONFIG (R17). -/
  | segmentModeConfig
  /-- ENUMERATE (R30). -/
  | enumerate
  /-- RENUMBER (R34). -/
  | renumber (old new : Byte)
  /-- LOCK-NUMBER set (R35). -/
  | lockNumberSet (number : Byte)
  /-- LOCK-NUMBER clear (R35). -/
  | lockNumberClear (number : Byte)
  /-- RESTART-SEGMENT (R187). -/
  | restartSegment
  /-- WARM-RESTART (R187). -/
  | warmRestart
  /-- READ-STATUS (R190): the section and the start item. -/
  | readStatus (sect : Byte) (start : Word16)
  /-- RESET_N_LOW (R22). -/
  | resetNLow
deriving DecidableEq, Repr

end Sys2Proof
end

