-- ==== Sys2Proof/Config.lean ====
section
/-! DEFINITION. The values the manual leaves open. Each is an opaque constant with no body: nothing in
Lean can evaluate it, so a statement about it holds whatever the part does. -/

namespace Sys2Proof.Config

/-- The bytes in which READ-STATUS lays out the fields of a section (argument: the section number, and
the fields in the order R190 lists them). R190 names the fields and gives no byte layout (log 4). -/
opaque statusLayout : Nat → List Int → List Byte

/-- The bytes in which READ-POINT lays out its fields. R53 names the fields and gives no layout (log 4). -/
opaque pointLayout : List Int → List Byte

/-- How the 6-byte plant time of a READ-EVENTS entry shows UNSET; R188 and R189 give no code (log 5). -/
opaque unsetPlantTime : BitVec 48

/-- The byte that names an event's source in a READ-EVENTS entry (argument: the source's place in the
list of R188, counted from 0). The manual gives no code for sources (log 5). -/
opaque eventSourceCode : Nat → Byte

/-- What a field of a table record carries when it holds no value (argument: the table code): an average
"or none" of R115 and R117. R183 gives no code for none (log 6). -/
opaque noneField : Nat → Nat

/-- The command code that a BAD-LENGTH or BUSY answer bears when the complete command had no byte at all,
so that it had no command code (R182; log 7). -/
opaque missingCommandCode : Byte

/-- The mailbox error bytes nobody states: the data of a BAD-STATE answer of RENUMBER, ENUMERATE and the
table commands is empty in this model; the number of clamped fields is one byte (log 8). When that number
passes 255 the byte is this value of it. -/
opaque clampedCountByte : Nat → Byte

/-- The cycle number that CYCLE-LOST gives for a damaged outbound frame without a sound header (argument: its payload).
R12 asks for the cycle number, and R2 lets the part read none from a frame whose link check or header check fails
(log 21). -/
opaque damagedCycle : List Byte → Word16

end Sys2Proof.Config
end

