-- ==== Sys2Proof/Machine/State.lean ====
section
/-! DEFINITION. Everything the part holds (section 0.2 and the chapters' "holds" lists), as plain data,
and the machine right after a COLD reset (R19, R41, R57, R81, R96, R111, R130, R146, R162, R180, R191). -/

namespace Sys2Proof.Machine

/-- Why a command stops the machine. -/
inductive Fault where
  /-- Raised by STALE_TIMER_EXPIRY, HOLD_TIMER_EXPIRY and STAIRCASE_STEP for a point number outside 0 to 191:
  the point table has no such record (R42), so there is no such timer. Safe. -/
  | noSuchPoint
deriving DecidableEq, Repr

/-- Why a command has no meaning here. -/
inductive Refusal where
  /-- Raised by an arm of `exec` whose row has no meaning yet; no arm raises it. Safe. -/
  | notModelled (mnemonic : String)
deriving DecidableEq, Repr

/-! ### Small containers -/

/-- One value for each combustion line. -/
structure Two (α : Type) where
  one : α
  two : α
deriving DecidableEq, Repr

/-- One value for each dosing loop. -/
structure Three (α : Type) where
  urea   : α
  lime   : α
  carbon : α
deriving DecidableEq, Repr

/-- One value for each limited component. -/
structure Six (α : Type) where
  dust : α
  co   : α
  nox  : α
  so2  : α
  hcl  : α
  toc  : α
deriving DecidableEq, Repr

/-- The six limited components, in the order of their codes 1 to 6 (R113). -/
inductive Component where
  | dust
  | co
  | nox
  | so2
  | hcl
  | toc
deriving DecidableEq, Repr

/-! ### Points (chapter 3) -/

/-- The kind of a point record (R42); EMPTY is a record that is not configured. -/
inductive PointKind where
  | empty
  | analog
  | binary
  | output
  | request
  | report
deriving DecidableEq, Repr

/-- The roles of R43, in the order of its table, each row read from left to right. -/
inductive Role where
  | furnaceTemp
  | steamFlow
  | o2Furnace
  | feederStatus
  | lineStatus
  | dust
  | co
  | nox
  | so2
  | hcl
  | toc
  | o2Flue
  | h2oFlue
  | feederCommand
  | grateSpeed
  | primaryAir
  | secondaryAir
  | ureaDose
  | limeDose
  | carbonDose
  | operatorCap
  | lineState
  | lhvUsed
  | effectiveCap
  | budgetRemaining
  | dustValidated
  | coValidated
  | noxValidated
  | so2Validated
  | hclValidated
  | tocValidated
  | headerPressure
  | turbineSteam
  | turbineIndication
  | bypassStatus
  | heatDemand
  | turbineRequest
  | turbineSetpoint
  | turbineReserve
  | bypassSetpoint
  | capability
  | setpointSent
deriving DecidableEq, Repr

/-- The seven qualities of section 0.4. -/
inductive Quality where
  | good
  | held
  | substituted
  | bad
  | forced
  | clamped
  | degraded
deriving DecidableEq, Repr

/-- The substitution policy of a point (R42). -/
inductive Substitution where
  | holdLast
  | fixed
  | none
deriving DecidableEq, Repr

/-- The input states of R45. -/
inductive InputState where
  | unsampled
  | fresh
  | holding
  | substituting
  | failed
deriving DecidableEq, Repr

/-- A forcing record (R54, R55); a STAIRCASE carries its current step and its step timer's expiry. -/
inductive Forcing where
  | fixed (value : Int)
  | staircase (steps : Nat) (duration : Nat) (low high : Int) (step : Nat) (expiry : Nat)
deriving DecidableEq, Repr

/-- A record of the point table (R42, R47). `value`, `quality` and `level` are the qualified ones; a
forcing record or the degraded flag lays others over them. -/
structure Point where
  kind       : PointKind
  role       : Role
  /-- The line of a line-scope role; `none` is COMMON. -/
  line       : Option LineId
  gain       : Int
  offset     : Int
  low        : Int
  high       : Int
  staleLimit : Nat
  subst      : Substitution
  substValue : Int
  holdLimit  : Nat
  polarity   : Signals
  riseMask   : Signals
  fallMask   : Signals
  raw        : Int
  value      : Int
  quality    : Quality
  level      : Signals
  riseLatch  : Signals
  fallLatch  : Signals
  input      : InputState
  degraded   : Bool
  forcing    : Option Forcing
  staleAt    : Option Nat
  holdAt     : Option Nat
  logFlag    : Bool
  goodRun    : Nat
  /-- The point has had its starting level (R51, R58). -/
  started    : Bool
deriving DecidableEq, Repr

/-- An EMPTY record: no role, no line, no value (R42, R57). The role field of an EMPTY record is not read. -/
def Point.empty : Point where
  kind := .empty
  role := .furnaceTemp
  line := none
  gain := 0
  offset := 0
  low := 0
  high := 0
  staleLimit := 50
  subst := .holdLast
  substValue := 0
  holdLimit := 1
  polarity := 0
  riseMask := 0
  fallMask := 0
  raw := 0
  value := 0
  quality := .bad
  level := 0
  riseLatch := 0
  fallLatch := 0
  input := .unsampled
  degraded := false
  forcing := none
  staleAt := none
  holdAt := none
  logFlag := false
  goodRun := 0
  started := false

/-! ### The frame engine (chapter 1) -/

/-- The directions of R3. -/
inductive Direction where
  | unused
  | input
  | output
  | request
  | report
deriving DecidableEq, Repr

/-- An entry of the slot map (R3). -/
structure SlotEntry where
  direction : Direction
  point     : Nat
  writer    : Nat
deriving DecidableEq, Repr

/-- The segment states (section 1.6). -/
inductive SegState where
  | down
  | enumerating
  | config
  | run
  | broken
deriving DecidableEq, Repr

/-- The two working states: the resume target, and the state BROKEN was entered from. -/
inductive Working where
  | config
  | run
deriving DecidableEq, Repr

/-- The outstanding cycle (section 1.4): cycle number, slot count, run time at which the frame left, the
expiry of the return timer in tenths of a millisecond (R7), and the value written into each OUTPUT slot. -/
structure Outstanding where
  cycle  : Nat
  slots  : Nat
  leftAt : Nat
  expiry : Nat
  echo   : List (Nat × Word16)
deriving DecidableEq, Repr

/-- What an ENUM frame carries from the segment manager (R18, R24). -/
structure EnumCarry where
  round  : Nat
  serial : Serial
  number : Nat
deriving DecidableEq, Repr

/-- The ENUM frame in flight with the expiry of its return timer, in tenths of a millisecond (R18). -/
structure EnumFlight where
  carry  : EnumCarry
  expiry : Nat
deriving DecidableEq, Repr

/-- The frame counters of R12, each 32 bits and wrapping. -/
structure Counters where
  taken           : Nat
  lostTimeout     : Nat
  lostLate        : Nat
  lostDamaged     : Nat
  damagedInbound  : Nat
  damagedOutbound : Nat
  foreign         : Nat
  mismatches      : Nat
  collisions      : Nat
  echoMismatches  : Nat
deriving DecidableEq, Repr

/-- What the frame engine holds (R1 to R20). -/
structure Ring where
  linkN         : Bool
  linkS         : Bool
  slotMap       : List SlotEntry
  segment       : SegState
  resume        : Working
  brokenFrom    : Working
  lostInRow     : Nat
  takenInRow    : Nat
  outstanding   : Option Outstanding
  flight        : Option EnumFlight
  counters      : Counters
  lossRun       : Bool
  mismatchRun   : Bool
  echoCounts    : List Nat
  collisions    : List Bool
  returnTimeout : Nat
  brokenCount   : Nat
  /-- The frame last sent out of Port N and out of Port S (the part's outputs). -/
  sentN         : Option LinkFrame
  sentS         : Option LinkFrame
deriving DecidableEq, Repr

/-! ### The segment manager (chapter 2) -/

/-- The states of a station entry (R23). -/
inductive StationState where
  | absent
  | joining
  | active
  | silent
deriving DecidableEq, Repr

/-- An entry of the station table (R23). -/
structure Station where
  serial    : Option Serial
  kindCode  : Nat
  state     : StationState
  lock      : Bool
  attention : Bool
  maxLength : Nat
  missed    : Nat
  due       : Bool
deriving DecidableEq, Repr

/-- The kinds of enumeration run (R24). -/
inductive EnumKind where
  | full
  | added
deriving DecidableEq, Repr

/-- The outcomes of an enumeration run (R28). -/
inductive EnumOutcome where
  | complete
  | exhausted
  | incomplete
deriving DecidableEq, Repr

/-- The enumeration record (section 2.2). `offer` is the frame the segment manager offers, `exhausted`
says that the run found no number left (R27). -/
structure EnumRecord where
  running   : Bool
  kind      : EnumKind
  lastRound : Nat
  rounds    : Nat
  lost      : Nat
  winner    : Option (Serial × Nat)
  awaiting  : Option (Serial × Nat)
  numbered  : Nat
  exhausted : Bool
  offer     : Option EnumCarry
  outcome   : Option EnumOutcome
deriving DecidableEq, Repr

/-- The reset level of R40. -/
inductive ResetLevel where
  | unknown
  | clear
  | set
deriving DecidableEq, Repr

/-- What the segment manager holds. `ackSet` bit k stands for station k + 1; `dropFlags` index 0 is the flag
of unnumbered and out-of-range records, index n that of station n (R38); `window` is the run time at which
the escalation window closes (R40). -/
structure Segment where
  stations     : List Station
  enum         : EnumRecord
  ackSet       : BitVec 32
  dropFlags    : List Bool
  resetLevel   : ResetLevel
  window       : Option Nat
  silenceCount : Nat
  joinEnable   : Bool
deriving DecidableEq, Repr

/-! ### The line controllers (chapters 4 and 5) -/

/-- The line states (section 4.1). -/
inductive LineState where
  | off
  | feeding
  | feedHold
  | burnout
  | tripped
deriving DecidableEq, Repr

/-- The hold causes of R66. -/
inductive HoldCause where
  | permissive
  | jam
  | feederOutput
  | segment
  | steamPoint
  | strokeTimeout
deriving DecidableEq, Repr

/-- The trip causes of R69. -/
inductive TripCause where
  | flame
  | fan
  | both
  | statusLost
deriving DecidableEq, Repr

/-- The trip record (R69). -/
structure TripRecord where
  cause : TripCause
  state : LineState
  at_   : Nat
deriving DecidableEq, Repr

/-- The phase of a stroke (section 4.7). -/
inductive Phase where
  | out
  | back
deriving DecidableEq, Repr

/-- The stroke record (section 4.7). -/
structure Stroke where
  number : Nat
  start  : Nat
  phase  : Phase
deriving DecidableEq, Repr

/-- When the next stroke may start (R71). -/
inductive Due where
  | none
  | atOnce
  | at_ (time : Nat)
deriving DecidableEq, Repr

/-- A burn entry (R86). -/
structure BurnEntry where
  heat    : Nat
  mass    : Nat
  gap     : Bool
  periods : Nat
deriving DecidableEq, Repr

/-- The LINE page (R61, R83), in the order of the two tables. -/
structure LinePage where
  period        : Nat
  threshold     : Nat
  permDelay     : Nat
  holdLimit     : Nat
  burnoutTime   : Nat
  strokeTimeout : Nat
  strokeMass    : Nat
  nominalFlow   : Nat
  airPerMWh     : Nat
  lambda        : Nat
  o2Set         : Nat
  o2Gain        : Nat
  split         : Nat
  fMax          : Nat
  fFloor        : Nat
  enthalpy      : Nat
  efficiency    : Nat
  heatWindow    : Nat
  massLag       : Nat
  alpha         : Nat
  lhvHi         : Nat
  lhvLo         : Nat
  lhvInit       : Nat
  trimGain      : Nat
  trimLimit     : Nat
  iMax          : Nat
  iMin          : Nat
deriving DecidableEq, Repr

/-- What one line controller holds (chapters 4 and 5). Timers are held as the run time of their expiry.
`ranPeriod` says that a control period has run since START (R71), `burnAt` is the plant time at which the
burn minute closes while plant time is set, `burnTimer` the line's minute timer while it is UNSET (R87).
`alloc` and `cap` are the allocation and effective cap last handed by the allocator (R92). -/
structure Line where
  page       : LinePage
  state      : LineState
  causes     : List HoldCause
  trip       : Option TripRecord
  permissive : Bool
  permAt     : Option Nat
  jam        : Bool
  stroke     : Option Stroke
  strokeAt   : Option Nat
  lastNumber : Nat
  lastDone   : Option Nat
  due        : Due
  completed  : Nat
  aborted    : Nat
  o2Trim     : Int
  lowCount   : Nat
  highCount  : Nat
  periodAt   : Option Nat
  holdAt     : Option Nat
  burnoutAt  : Option Nat
  ranPeriod  : Bool
  qIn        : Nat
  dEff       : Nat
  qReq       : Nat
  mReq       : Nat
  unclamped  : Nat
  interval   : Nat
  lhvEst     : Nat
  override   : Bool
  lhvOvr     : Nat
  heldRun    : Bool
  trim       : Int
  entry      : Option BurnEntry
  /-- The burn record, newest entry first: position is the entry's age (section 5.3). -/
  record     : List BurnEntry
  burnAt     : Option Nat
  burnTimer  : Option Nat
  alloc      : Nat
  cap        : Nat
deriving DecidableEq, Repr

/-! ### The flue gas units (chapters 6 and 7) -/

/-- The basis of a component's analyser (R97). -/
inductive Basis where
  | wet
  | dry
deriving DecidableEq, Repr

/-- A component's record of the EMISSION page (R97, R113). -/
structure ComponentPage where
  basis     : Basis
  halfLimit : Nat
  dayLimit  : Nat
  uncert    : Nat
  rOn       : Nat
  rOff      : Nat
deriving DecidableEq, Repr

/-- The EMISSION page (R97, R113). -/
structure EmissionPage where
  comps          : Six ComponentPage
  o2Ref          : Nat
  minuteThr      : Nat
  halfHourThr    : Nat
  dayThr         : Nat
  restraintStep  : Nat
  consecLimit    : Nat
deriving DecidableEq, Repr

/-- The triggers of a dosing loop (R104). -/
inductive Trigger where
  | controlPeriod
  | minute
  | strokeDone
deriving DecidableEq, Repr

/-- A record of the DOSING page (R104). -/
structure LoopPage where
  trigger   : Trigger
  ratio     : Nat
  target    : Nat
  trimGain  : Nat
  trimLimit : Nat
  outputMax : Nat
  satTime   : Nat
deriving DecidableEq, Repr

/-- What a dosing loop holds (R104, R109), with the base of its last run. -/
structure Loop where
  trim      : Int
  base      : Nat
  output    : Nat
  satAt     : Option Nat
  saturated : Bool
deriving DecidableEq, Repr

/-- A component's share of the minute in progress (R101). -/
structure MinuteComp where
  samples       : Nat
  good          : Nat
  sum           : Nat
  touched       : Bool
  forcedInvalid : Bool
deriving DecidableEq, Repr

/-- The minute in progress (R101). -/
structure Minute where
  start     : Nat
  comps     : Six MinuteComp
  satAll    : Three Bool
  adjusted  : Bool
deriving DecidableEq, Repr

/-- A component's share of the half-hour in progress (R114). -/
structure HalfComp where
  valid : Nat
  sum   : Nat
deriving DecidableEq, Repr

/-- The half-hour in progress (R114). -/
structure HalfHour where
  start     : Nat
  comps     : Six HalfComp
  operating : Nat
  calib     : Bool
  adjusted  : Bool
deriving DecidableEq, Repr

/-- The status of a component in a half-hour record (R115). -/
inductive HalfStatus where
  | notOperating
  | valid
  | invalid
  | none
deriving DecidableEq, Repr

/-- The closing mark of a record or summary (R115, R117). -/
inductive ClosingMark where
  | boundary
  | early
deriving DecidableEq, Repr

/-- A component of a half-hour record (R115); the average and the validated average, or none. -/
structure HalfRecComp where
  status   : HalfStatus
  averages : Option (Nat × Nat)
  valid    : Nat
  exceeded : Bool
deriving DecidableEq, Repr

/-- A half-hour record (R115). -/
structure HalfRecord where
  start     : Nat
  comps     : Six HalfRecComp
  operating : Nat
  calib     : Bool
  adjusted  : Bool
  exceeded  : Bool
  mark      : ClosingMark
deriving DecidableEq, Repr

/-- A component of a day summary (R117). -/
structure DayComp where
  count    : Nat
  average  : Option Nat
  valid    : Bool
  exceeded : Bool
deriving DecidableEq, Repr

/-- A day summary (R117). -/
structure DayRecord where
  start    : Nat
  comps    : Six DayComp
  records  : Nat
  adjusted : Bool
  mark     : ClosingMark
deriving DecidableEq, Repr

/-- The newest good sample of a component (R98) and the reason of the newest sample that was not good
(0 when there was none). -/
structure Latest where
  sample : Option (Nat × Nat)
  reason : Nat
deriving DecidableEq, Repr

/-- The abnormal-operation record (section 7.6); `beganAt` is the run time at which the episode began. -/
structure Abnormal where
  active     : Bool
  exceedance : Bool
  equipment  : Bool
  consec     : Nat
  annual     : Nat
  valid      : Bool
  beganAt    : Nat
  exhausted  : Bool
deriving DecidableEq, Repr

/-- What one flue gas unit holds. `basis` are the bases in force, which are those of the page at the last sample instant
(R97); `cal` are the component calibration flags, `calO2` and `calH2O` those of O2_FLUE and H2O_FLUE (R100). -/
structure Fgc where
  page       : EmissionPage
  dosing     : Three LoopPage
  sampleAt   : Nat
  basis      : Six Basis
  latest     : Six Latest
  cal        : Six Bool
  calO2      : Bool
  calH2O     : Bool
  minute     : Option Minute
  loops      : Three Loop
  half       : Option HalfHour
  table      : List (Option HalfRecord)
  dayLatest  : Option DayRecord
  dayPrev    : Option DayRecord
  capAsked   : Option Nat
  lowCloses  : Nat
  abn        : Abnormal
  trainFault : Bool
  secondAt   : Option Nat
deriving DecidableEq, Repr

/-! ### The envelope allocator (chapter 8) -/

/-- The share modes of R136. -/
inductive ShareMode where
  | proportional
  | baseLine1
  | baseLine2
deriving DecidableEq, Repr

/-- The sources of caps, in the order of their codes 1 to 4 (section 8.1). -/
inductive CapSource where
  | operator
  | emission
  | feedLimit
  | bypass
deriving DecidableEq, Repr

/-- A cap entry: its value and the run time of its last setting. -/
structure CapEntry where
  value : Nat
  at_   : Nat
deriving DecidableEq, Repr

/-- The cap list of a line: at most one entry a source. -/
structure CapList where
  operator  : Option CapEntry
  emission  : Option CapEntry
  feedLimit : Option CapEntry
  bypass    : Option CapEntry
deriving DecidableEq, Repr

/-- The HEADER page (R136). -/
structure HeaderPage where
  period       : Nat
  share        : ShareMode
  heatPriority : Bool
  heatRate     : Nat
  heatMax      : Nat
  bypassMin    : Nat
  bypassMax    : Nat
  pressureSet  : Nat
  pressureGain : Nat
  pressureLim  : Nat
deriving DecidableEq, Repr

/-- The results of the last allocation run (R137 to R143): the demand terms (S_t, S_x, S_b_min, S_p), S_tot, U, S_a, the
allocations, V, the grants (B_min, G_t, G_x, P_c), B and C_e. S_t may be negative (log 12). -/
structure RunResult where
  sT      : Int
  sX      : Nat
  sBMin   : Nat
  sP      : Int
  sTot    : Nat
  u       : Nat
  sA      : Nat
  alloc1  : Nat
  alloc2  : Nat
  supply  : Nat
  bMin    : Nat
  gT      : Nat
  gX      : Nat
  pC      : Int
  bypass  : Int
  cE      : Nat
deriving DecidableEq, Repr

/-- What the envelope allocator holds. -/
structure Envelope where
  page      : HeaderPage
  caps      : Two CapList
  effCap    : Two Nat
  lastHeat  : Nat
  keptFlow  : Two Nat
  result    : RunResult
  lastCause : Option RunCause
  lastRunAt : Nat
  shortfall : Bool
  overFlag  : Bool
  releaseAt : Option Nat
  periodAt  : Nat
deriving DecidableEq, Repr

/-! ### The turbine interface (chapter 9) -/

/-- The turbine states, in the order of their codes 0 to 8 (R149). -/
inductive TurbineState where
  | unknown
  | stopped
  | runup
  | ready
  | synchronising
  | loaded
  | unloading
  | tripped
  | local_
deriving DecidableEq, Repr

/-- The request codes 0 to 6 (section 9.1). -/
inductive Request where
  | none
  | runup
  | sync
  | confirmClose
  | load
  | release
  | stop
deriving DecidableEq, Repr

/-- The indication codes 1 to 9 (section 9.1). -/
inductive Indication where
  | stopped
  | runningUp
  | atSpeed
  | closeReady
  | onGrid
  | unloadPending
  | unloaded
  | trip
  | local_
deriving DecidableEq, Repr

/-- The TURBINE page (R151). -/
structure TurbinePage where
  steamRate   : Nat
  rating      : Nat
  pMin        : Nat
  indTimeout  : Nat
  settleTime  : Nat
  defaultRamp : Nat
deriving DecidableEq, Repr

/-- The source of a target record (section 9.3). -/
inductive TargetSource where
  | block
  | hold
  | default_
deriving DecidableEq, Repr

/-- The target record (section 9.3, R175): `firm` is given for source BLOCK. -/
structure Target where
  power   : Nat
  reserve : Nat
  ramp    : Option Nat
  source  : TargetSource
  firm    : Option Bool
deriving DecidableEq, Repr

/-- The turbine record (section 9.1). P_ramped and P_sent follow the tracked value of R159, which a negative
TURBINE_STEAM makes negative (log 12). -/
structure Turbine where
  page        : TurbinePage
  state       : TurbineState
  request     : Request
  lastStable  : TurbineState
  awaited     : Option Indication
  indAt       : Option Nat
  stopPending : Bool
  closeHeld   : Bool
  released    : Bool
  unknownRun  : Bool
  settleAt    : Option Nat
  target      : Target
  ramped      : Int
  reserve     : Nat
  sent        : Int
deriving DecidableEq, Repr

/-! ### The dispatch unit (chapter 10) -/

/-- The state of a reassembly buffer (R165, R181): ASSEMBLING holds the bytes gathered, and the index
expected next (lane) or the number of segments taken (mailbox). -/
inductive Reassembly where
  | idle
  | assembling (bytes : List Byte) (count : Nat)
  | skipping
deriving DecidableEq, Repr

/-- The status of a block (section 10.6). -/
inductive BlockStatus where
  | pending
  | active
  | unmet
deriving DecidableEq, Repr

/-- A block of the schedule queue (section 10.6); start and end in plant time, ms. -/
structure Block where
  order     : Nat
  index     : Nat
  start     : Nat
  stop      : Nat
  power     : Nat
  reserve   : Nat
  accPower  : Nat
  accReserve : Nat
  ramp      : Nat
  firm      : Bool
  capAt     : Nat
  status    : BlockStatus
deriving DecidableEq, Repr

/-- An outgoing message with the index of its next segment (R168). -/
structure OutMessage where
  bytes : List Byte
  next  : Nat
deriving DecidableEq, Repr

/-- The link states (R177). -/
inductive LinkState where
  | down
  | up
  | silent
deriving DecidableEq, Repr

/-- The reason of a capability notice (R168, R178). -/
inductive NoticeReason where
  | change
  | unmet
deriving DecidableEq, Repr

/-- A capability notice outstanding: its number, the C_e it carried and its reason. -/
structure Notice where
  number : Nat
  cE     : Nat
  reason : NoticeReason
deriving DecidableEq, Repr

/-- The notice record (section 10.10). -/
structure NoticeRecord where
  outstanding  : Option Notice
  lastNotified : Nat
  next         : Nat
  ackAt        : Option Nat
  overdue      : Bool
  unmetPending : Bool
deriving DecidableEq, Repr

/-- The DISPATCH page (R164). -/
structure DispatchPage where
  unit       : Byte × Byte
  pool       : Byte × Byte
  lead       : Nat
  supTime    : Nat
  noticeThr  : Nat
  ackTimeout : Nat
  pDef       : Nat
deriving DecidableEq, Repr

/-- The discard counts of R166 by reason, each 32 bits and wrapping. -/
structure LaneDiscards where
  incomplete : Nat
  orphan     : Nat
  gap        : Nat
  overlong   : Nat
  length     : Nat
  check      : Nat
  kind       : Nat
deriving DecidableEq, Repr

/-- What the dispatch unit holds. `unitUsed` and `poolUsed` are the pairs in force, those of the page as they stood at
the last message completed, and `thrUsed` the notice threshold in force, that of the last hand-over of C_e (R164,
log 58). -/
structure Dispatch where
  page       : DispatchPage
  unitUsed   : Byte × Byte
  poolUsed   : Byte × Byte
  thrUsed    : Nat
  rx         : Reassembly
  out        : List OutMessage
  queue      : List Block
  vr         : Nat
  retained   : Option (Nat × List Byte)
  link       : LinkState
  supAt      : Option Nat
  probe      : Bool
  notice     : NoticeRecord
  target     : Target
  lastCe     : Nat
  discards   : LaneDiscards
  ignored    : Nat
  discardRun : Bool
deriving DecidableEq, Repr

/-! ### The management unit (chapter 11) -/

/-- The sources of events, in the order of section 11.4. -/
inductive Source where
  | ring
  | station
  | point
  | line1
  | line2
  | fgc1
  | fgc2
  | envelope
  | turbine
  | dispatch
  | mgmt
deriving DecidableEq, Repr

/-- The events of R188's table, source by source in code order. -/
inductive EventName where
  | segmentState
  | cycleLost
  | cycleMismatch
  | slotCollision
  | echoMismatch
  | runNotResumed
  | ringReset
  | stationUnconfirmed
  | numbersExhausted
  | enumerationDone
  | joinRefused
  | joinTimeout
  | stationJoined
  | stationReturned
  | stationRenumbered
  | stationSilent
  | attentionDropped
  | note
  | pointBad
  | pointSubstituted
  | pointForced
  | pointReleased
  | lineState
  | holdCause
  | holdExpired
  | lineTrip
  | permissiveLost
  | permissiveRegained
  | strokeTimeout
  | strokeAborted
  | feederJam
  | feederJamClear
  | lhvHeld
  | lhvOverride
  | calibration
  | dosingSaturated
  | halfHourExceeded
  | dayExceeded
  | restraintRaised
  | restraintReleased
  | trainFault
  | abnormalBegin
  | abnormalEnd
  | budgetExhausted
  | exhaustedCleared
  | budgetLoaded
  | capRaised
  | capReleased
  | shortfall
  | bypassOver
  | bypassReleased
  | turbineState
  | codeUnknown
  | codeUnexpected
  | closeHeld
  | turbineNoResponse
  | laneDiscard
  | laneOutOverflow
  | order
  | blockExpired
  | blockUnmet
  | linkUp
  | linkSilent
  | noticeOverdue
  | coldStart
  | warmStart
  | timeSet
  | mailboxDiscard
deriving DecidableEq, Repr

/-- An entry of the event queue (section 11.4). -/
structure Event where
  runTime : Nat
  plant   : Option Nat
  source  : Source
  name    : EventName
  subject : Word16
  first   : Word16
  second  : Word16
deriving DecidableEq, Repr

/-- The response codes of R21. -/
inductive RespCode where
  | done
  | doneClamped
  | busy
  | badCommand
  | badLength
  | badTable
  | badIndex
  | badState
  | badValue
  | locked
  | timeUnset
  | aborted
deriving DecidableEq, Repr

/-- The data of a response: bytes whose layout the manual states, or the named fields of READ-STATUS (of a
section) and READ-POINT, whose byte layout it does not state (log 4). -/
inductive RespData where
  | bytes (data : List Byte)
  | status (section_ : Nat) (fields : List Int)
  | point (fields : List Int)
deriving DecidableEq, Repr

/-- A response (R21, R182). -/
structure Response where
  command : Byte
  code    : RespCode
  data    : RespData
deriving DecidableEq, Repr

/-- What the management unit holds, with the two clocks. `executing` is the code of the command in
execution; `response` the response buffer and `nextSegment` the segment to be sent next; `abortedCommand` the
4-byte ABORTED response of a WARM reset, for the code it carries (R191, log 9). -/
structure Mgmt where
  rx             : Reassembly
  executing      : Option Byte
  response       : Option Response
  nextSegment    : Nat
  abortedCommand : Option Byte
  busyAnswer     : Option Byte
  events         : List Event
  lost           : Nat
  incomplete     : Nat
  orphan         : Nat
  overlong       : Nat
  discardRun     : Bool
  lastWarm       : Nat
deriving DecidableEq, Repr

/-- The two clocks (section 0.4): run time, counted in tenths of a millisecond because the return timer of
R7 is, and plant time in ms or UNSET. -/
structure Clock where
  tenths : Nat
  plant  : Option Nat
deriving DecidableEq, Repr

/-- The whole part. `resetLow` is the level of RESET_N (R22). `owed` are the steps of the table that the part
itself has called for and that come before anything else (log 1); `pending` is the queue of commands from
outside, first in, first out. -/
structure State where
  clock    : Clock
  resetLow : Bool
  ring     : Ring
  seg      : Segment
  points   : List Point
  lines    : Two Line
  fgcs     : Two Fgc
  env      : Envelope
  turb     : Turbine
  disp     : Dispatch
  mgmt     : Mgmt
  owed     : List Instr
  pending  : List Instr
deriving DecidableEq, Repr

/-! ### Reset values -/

/-- R19: an UNUSED entry. -/
def SlotEntry.unused : SlotEntry := ⟨.unused, 0, 0⟩

/-- R12, R19: every counter 0. -/
def Counters.zero : Counters := ⟨0, 0, 0, 0, 0, 0, 0, 0, 0, 0⟩

/-- R19; the links as the ports report them, DOWN in `State.reset` (log 2). -/
def Ring.reset (linkN linkS : Bool) : Ring where
  linkN := linkN
  linkS := linkS
  slotMap := List.replicate 256 .unused
  segment := .down
  resume := .config
  brokenFrom := .config
  lostInRow := 0
  takenInRow := 0
  outstanding := none
  flight := none
  counters := .zero
  lossRun := false
  mismatchRun := false
  echoCounts := List.replicate 256 0
  collisions := List.replicate 256 false
  returnTimeout := 20
  brokenCount := 5
  sentN := none
  sentS := none

/-- R41: a free entry, attention disabled, maximum length 5. -/
def Station.free : Station := ⟨none, 0, .absent, false, false, 5, 0, false⟩

/-- R41: IDLE, last round 255. The run kind FULL, no outcome, and 0 for the rounds counted, the frames lost in a row and
the stations numbered are the model's (log 2). -/
def EnumRecord.reset : EnumRecord where
  running := false
  kind := .full
  lastRound := 255
  rounds := 0
  lost := 0
  winner := none
  awaiting := none
  numbered := 0
  exhausted := false
  offer := none
  outcome := none

/-- R41, column COLD. -/
def Segment.reset : Segment where
  stations := List.replicate 30 .free
  enum := .reset
  ackSet := 0
  dropFlags := List.replicate 31 false
  resetLevel := .unknown
  window := none
  silenceCount := 20
  joinEnable := true

/-- The defaults of R61 and R83. -/
def LinePage.default : LinePage where
  period := 500
  threshold := 8500
  permDelay := 10
  holdLimit := 900
  burnoutTime := 60
  strokeTimeout := 30
  strokeMass := 1000
  nominalFlow := 20000
  airPerMWh := 950
  lambda := 1800
  o2Set := 800
  o2Gain := 16
  split := 650
  fMax := 500
  fFloor := 150
  enthalpy := 2800
  efficiency := 850
  heatWindow := 30
  massLag := 20
  alpha := 4
  lhvHi := 20000
  lhvLo := 4000
  lhvInit := 9000
  trimGain := 32
  trimLimit := 50
  iMax := 300000
  iMin := 15000

/-- R81, R96; the effective cap handed at reset is F_max (R146). -/
def Line.reset : Line where
  page := .default
  state := .off
  causes := []
  trip := none
  permissive := false
  permAt := none
  jam := false
  stroke := none
  strokeAt := none
  lastNumber := 0
  lastDone := none
  due := .none
  completed := 0
  aborted := 0
  o2Trim := 0
  lowCount := 0
  highCount := 0
  periodAt := none
  holdAt := none
  burnoutAt := none
  ranPeriod := false
  qIn := 0
  dEff := 0
  qReq := 0
  mReq := 0
  unclamped := 0
  interval := 0
  lhvEst := 9000
  override := false
  lhvOvr := 9000
  heldRun := false
  trim := 0
  entry := none
  record := []
  burnAt := none
  burnTimer := none
  alloc := 0
  cap := 500

/-- The defaults of R97 and R113. -/
def EmissionPage.default : EmissionPage where
  comps :=
    { dust := ⟨.dry, 100, 50, 300, 900, 750⟩
      co := ⟨.dry, 1000, 500, 100, 900, 750⟩
      nox := ⟨.dry, 2000, 1500, 200, 900, 750⟩
      so2 := ⟨.dry, 500, 250, 200, 900, 750⟩
      hcl := ⟨.dry, 100, 50, 400, 900, 750⟩
      toc := ⟨.dry, 200, 100, 300, 900, 750⟩ }
  o2Ref := 1100
  minuteThr := 75
  halfHourThr := 20
  dayThr := 43
  restraintStep := 20
  consecLimit := 14400

/-- The defaults of R104; the CARBON fields it marks with a dash are 0 (log 10). -/
def dosingDefault : Three LoopPage where
  urea := ⟨.controlPeriod, 300, 1500, 8, 300, 2000, 300⟩
  lime := ⟨.controlPeriod, 600, 600, 16, 500, 4000, 300⟩
  carbon := ⟨.strokeDone, 50, 0, 0, 0, 2000, 300⟩

/-- R111: trim 0, output 0, timer stopped, flag clear. The base of the last run is 0 (log 2). -/
def Loop.reset : Loop := ⟨0, 0, 0, none, false⟩

/-- An empty latest-sample record (R111); it shows reason 0 (log 2). -/
def Latest.empty : Latest := ⟨none, 0⟩

/-- One value for all six components. -/
def Six.all {α : Type} (a : α) : Six α := ⟨a, a, a, a, a, a⟩

/-- One value for all three loops. -/
def Three.all {α : Type} (a : α) : Three α := ⟨a, a, a⟩

/-- R130: NORMAL, nothing counted, the budget INVALID with nothing remaining. -/
def Abnormal.reset : Abnormal := ⟨false, false, false, 0, 0, false, 0, false⟩

/-- R111, R130. -/
def Fgc.reset : Fgc where
  page := .default
  dosing := dosingDefault
  sampleAt := 1000
  basis := Six.all .dry
  latest := Six.all .empty
  cal := Six.all false
  calO2 := false
  calH2O := false
  minute := none
  loops := Three.all .reset
  half := none
  table := List.replicate 48 none
  dayLatest := none
  dayPrev := none
  capAsked := none
  lowCloses := 0
  abn := .reset
  trainFault := false
  secondAt := none

/-- The defaults of R136. -/
def HeaderPage.default : HeaderPage where
  period := 1000
  share := .proportional
  heatPriority := true
  heatRate := 140
  heatMax := 500
  bypassMin := 20
  bypassMax := 300
  pressureSet := 4000
  pressureGain := 64
  pressureLim := 50

/-- R146: every allocation, grant, demand term, U, B and C_e at 0. -/
def RunResult.zero : RunResult := ⟨0, 0, 0, 0, 0, 0, 0, 0, 0, 0, 0, 0, 0, 0, 0, 0⟩

/-- An empty cap list. -/
def CapList.empty : CapList := ⟨none, none, none, none⟩

/-- R146. -/
def Envelope.reset : Envelope where
  page := .default
  caps := ⟨.empty, .empty⟩
  effCap := ⟨500, 500⟩
  lastHeat := 0
  keptFlow := ⟨0, 0⟩
  result := .zero
  lastCause := none
  lastRunAt := 0
  shortfall := false
  overFlag := false
  releaseAt := none
  periodAt := 1000

/-- The defaults of R151. -/
def TurbinePage.default : TurbinePage := ⟨450, 200, 40, 120, 30, 30⟩

/-- R162, R180: target 0, reserve 0, no ramp, source HOLD. -/
def Target.reset : Target := ⟨0, 0, none, .hold, none⟩

/-- R162 over a TURBINE page (a WARM reset keeps the page). -/
def Turbine.resetWith (page : TurbinePage) : Turbine where
  page := page
  state := .unknown
  request := .none
  lastStable := .stopped
  awaited := none
  indAt := none
  stopPending := false
  closeHeld := false
  released := false
  unknownRun := false
  settleAt := none
  target := .reset
  ramped := 0
  reserve := 0
  sent := 0

/-- The defaults of R164. -/
def DispatchPage.default : DispatchPage := ⟨(0, 0), (0, 0), 10, 60, 10, 30, 0⟩

/-- R180 over a DISPATCH page (a WARM reset keeps the page). -/
def Dispatch.resetWith (page : DispatchPage) : Dispatch where
  page := page
  unitUsed := page.unit
  poolUsed := page.pool
  thrUsed := page.noticeThr
  rx := .idle
  out := []
  queue := []
  vr := 0
  retained := none
  link := .down
  supAt := none
  probe := false
  notice := ⟨none, 0, 0, none, false, false⟩
  target := .reset
  lastCe := 0
  discards := ⟨0, 0, 0, 0, 0, 0, 0⟩
  ignored := 0
  discardRun := false

/-- R191, column COLD: the queue holds COLD-START alone. -/
def Mgmt.reset : Mgmt where
  rx := .idle
  executing := none
  response := none
  nextSegment := 0
  abortedCommand := none
  busyAnswer := none
  events := [⟨0, none, .mgmt, .coldStart, 0, 0, 0⟩]
  lost := 0
  incomplete := 0
  orphan := 0
  overlong := 0
  discardRun := false
  lastWarm := 0

/-- The part right after a COLD reset, with both links DOWN (log 2). -/
def State.reset : State where
  clock := ⟨0, none⟩
  resetLow := false
  ring := Ring.reset false false
  seg := .reset
  points := List.replicate 192 .empty
  lines := ⟨.reset, .reset⟩
  fgcs := ⟨.reset, .reset⟩
  env := .reset
  turb := Turbine.resetWith .default
  disp := Dispatch.resetWith .default
  mgmt := .reset
  owed := []
  pending := []

end Sys2Proof.Machine
end

