-- ==== Sys2Proof/Machine/Ops.lean ====
section
/-! DEFINITION. The named operations every block works through: the per-line and per-component containers,
the two clocks, the event queue, the points as their owners set them and their consumers read them, and the
steps the part owes. -/

namespace Sys2Proof.Machine

/-! ### Containers -/

/-- The value of a line. -/
def Two.get {α : Type} (t : Two α) : LineId → α
  | .one => t.one
  | .two => t.two

/-- Replaces the value of a line. -/
def Two.set {α : Type} (t : Two α) (l : LineId) (a : α) : Two α :=
  match l with
  | .one => { t with one := a }
  | .two => { t with two := a }

/-- The value of a dosing loop. -/
def Three.get {α : Type} (t : Three α) : DosingLoop → α
  | .urea => t.urea
  | .lime => t.lime
  | .carbon => t.carbon

/-- Replaces the value of a dosing loop. -/
def Three.set {α : Type} (t : Three α) (d : DosingLoop) (a : α) : Three α :=
  match d with
  | .urea => { t with urea := a }
  | .lime => { t with lime := a }
  | .carbon => { t with carbon := a }

/-- The value of a component. -/
def Six.get {α : Type} (t : Six α) : Component → α
  | .dust => t.dust
  | .co => t.co
  | .nox => t.nox
  | .so2 => t.so2
  | .hcl => t.hcl
  | .toc => t.toc

/-- Replaces the value of a component. -/
def Six.set {α : Type} (t : Six α) (c : Component) (a : α) : Six α :=
  match c with
  | .dust => { t with dust := a }
  | .co => { t with co := a }
  | .nox => { t with nox := a }
  | .so2 => { t with so2 := a }
  | .hcl => { t with hcl := a }
  | .toc => { t with toc := a }

/-- One value for each component, from a function. -/
def Six.of {α : Type} (f : Component → α) : Six α :=
  ⟨f .dust, f .co, f .nox, f .so2, f .hcl, f .toc⟩

/-- The components in the order of their codes (R113). -/
def Component.all : List Component := [.dust, .co, .nox, .so2, .hcl, .toc]

/-- The code of a component (R113). -/
def Component.code : Component → Nat
  | .dust => 1
  | .co => 2
  | .nox => 3
  | .so2 => 4
  | .hcl => 5
  | .toc => 6

/-- The loops in the order of their codes (R109). -/
def loopsAll : List DosingLoop := [.urea, .lime, .carbon]

/-- The code of a loop (R109). -/
def loopCode : DosingLoop → Nat
  | .urea => 1
  | .lime => 2
  | .carbon => 3

/-- The two lines, line 1 first. -/
def bothLines : List LineId := [.one, .two]

/-- The number of a line. -/
def lineNumber : LineId → Nat
  | .one => 1
  | .two => 2

/-- The line a byte names, if it is 1 or 2. -/
def lineOf (b : Byte) : Option LineId :=
  if b = 1 then some .one else if b = 2 then some .two else none

/-- The event source of a line controller (R60). -/
def lineSource : LineId → Source
  | .one => .line1
  | .two => .line2

/-- The event source of a flue gas unit (R100). -/
def fgcSource : LineId → Source
  | .one => .fgc1
  | .two => .fgc2

/-! ### Arithmetic of section 0.4 -/

/-- `clamp(x, a, b)`: x limited to the range a to b. -/
def clampInt (x a b : Int) : Int := max a (min x b)

/-- `clamp` on counts. -/
def clampNat (x a b : Nat) : Nat := max a (min x b)

/-- Division of counts rounded up; 0 by 0. -/
def ceilDiv (a b : Nat) : Nat := (a + b - 1) / b

/-- Division of a signed number rounded up. -/
def ceilInt (a b : Int) : Int := -((-a) / b)

/-- A 32-bit count that wraps to 0 takes one more (R12). -/
def wrap32 (n : Nat) : Nat := (n + 1) % 4294967296

/-! ### The clocks -/

/-- Run time in ms. -/
def State.runTime (s : State) : Nat := s.clock.tenths / 10

/-- Moves the clock on to a run time given in tenths of a millisecond, plant time with it; a time already
passed moves nothing. Plant time is 48 bits (section 11.3). -/
def Clock.reach (c : Clock) (t : Nat) : Clock :=
  if t ≤ c.tenths then c
  else ⟨t, c.plant.map fun p => (p + (t / 10 - c.tenths / 10)) % 281474976710656⟩

/-- Run time has come to `t` tenths of a millisecond: an expiry event comes when its timer's time has
(log 1). -/
def State.reachTenths (s : State) (t : Nat) : State := { s with clock := s.clock.reach t }

/-- Run time has come to `t` ms. -/
def State.reach (s : State) (t : Nat) : State := s.reachTenths (10 * t)

/-- Plant time has come to `p` ms, if it is set. -/
def State.reachPlant (s : State) (p : Nat) : State :=
  match s.clock.plant with
  | none => s
  | some q => if p ≤ q then s else s.reach (s.runTime + (p - q))

/-! ### The event queue -/

/-- An event value as its 16 bits; values above 65,535 are given as 65,535 (R115). -/
def eventWord (x : Int) : Word16 := if 65535 < x then 65535 else BitVec.ofInt 16 x

/-- R188: an event is stamped with both clocks and placed at the tail; at 64 entries it is discarded and the
lost count adds 1, staying at 65,535. A subject or value that the event's rule does not name is 0 (log 53). -/
def State.log (s : State) (source : Source) (name : EventName) (subject first second : Int := 0) : State :=
  if s.mgmt.events.length < 64 then
    { s with mgmt.events := s.mgmt.events ++
        [⟨s.runTime, s.clock.plant, source, name, eventWord subject, eventWord first, eventWord second⟩] }
  else { s with mgmt.lost := min 65535 (s.mgmt.lost + 1) }

/-! ### What the part owes itself -/

/-- A step of the table that the part has called for (log 1). -/
def State.owe (s : State) (i : Instr) : State := { s with owed := s.owed ++ [i] }

/-- An allocation run is due (R137). The cap changes of one event are followed by one run (R133). -/
def State.oweRun (s : State) (c : RunCause) : State :=
  if c = .cap ∧ Instr.allocationRun .cap ∈ s.owed then s else s.owe (.allocationRun c)

/-! ### Updates of the blocks -/

/-- The line controller of a line. -/
def State.line (s : State) (l : LineId) : Line := s.lines.get l

/-- Replaces the line controller of a line. -/
def State.setLine (s : State) (l : LineId) (c : Line) : State := { s with lines := s.lines.set l c }

/-- The flue gas unit of a line. -/
def State.fgc (s : State) (l : LineId) : Fgc := s.fgcs.get l

/-- Replaces the flue gas unit of a line. -/
def State.setFgc (s : State) (l : LineId) (f : Fgc) : State := { s with fgcs := s.fgcs.set l f }

/-! ### Points -/

/-- A record of the point table; numbers beyond it read as EMPTY. -/
def State.point (s : State) (i : Nat) : Point := s.points.getD i .empty

/-- Stores a record of the point table. -/
def State.setPoint (s : State) (i : Nat) (p : Point) : State := { s with points := s.points.set i p }

/-- The point configured for a role and a line, if there is one (R43). -/
def State.findPoint (s : State) (r : Role) (l : Option LineId) : Option Nat :=
  s.points.findIdx? fun p => decide (p.kind ≠ .empty ∧ p.role = r ∧ p.line = l)

/-- R55: the levels of a staircase are span low + k × increment, the increment truncated. -/
def forcedValue : Forcing → Int
  | .fixed v => v
  | .staircase steps _ low high k _ => low + k * (high - low).tdiv steps

/-- The presented value (R42, R54): the forcing record's while one stands. -/
def Point.shownValue (p : Point) : Int :=
  match p.forcing with
  | some f => forcedValue f
  | none => p.value

/-- The presented level of a BINARY point (R51, R54): a forced value is taken as a set of signals. -/
def Point.shownLevel (p : Point) : Signals :=
  match p.forcing with
  | some f => BitVec.ofInt 16 (forcedValue f)
  | none => p.level

/-- The presented quality (R50, R54). -/
def Point.shownQuality (p : Point) : Quality :=
  if p.kind = .output ∧ p.degraded then .degraded
  else if p.forcing.isSome then .forced
  else p.quality

/-- Scaling (R45, R49): floor(value × gain / 4096) + offset, truncated toward zero. -/
def Point.scaled (p : Point) (v : Int) : Int := (v * p.gain).tdiv 4096 + p.offset

/-- The slot word of an OUTPUT or REPORT point (R49). -/
def Point.word (p : Point) (v : Int) : Int := clampInt (p.scaled v) p.low p.high

/-- R49: the word is computed from the presented value and stored as the point's raw. -/
def Point.present (p : Point) : Point := { p with raw := p.word p.shownValue }

/-- R49: the owner sets the value. A REPORT whose word needed the clamp is CLAMPED and otherwise GOOD; an
OUTPUT is GOOD. Every setting presents the value anew, under the range as it stands (log 67). -/
def Point.own (p : Point) (v : Int) : Point :=
  { p with
    value := v
    quality := if p.kind = PointKind.report ∧ ¬(p.low ≤ p.scaled v ∧ p.scaled v ≤ p.high) then Quality.clamped else Quality.good : Point }.present

/-- The owner of an OUTPUT or REPORT role sets its point; without a configured point nothing is kept (R43). -/
def State.own (s : State) (r : Role) (l : Option LineId) (v : Int) : State :=
  match s.findPoint r l with
  | none => s
  | some i =>
    if (s.point i).kind = .output ∨ (s.point i).kind = .report then s.setPoint i ((s.point i).own v) else s

/-- R46: usable to line control and trips. -/
def Quality.lineOk (q : Quality) : Bool :=
  match q with
  | .good | .held | .substituted | .forced => true
  | .bad | .clamped | .degraded => false

/-- R46: usable to the feed permissive. -/
def Quality.permOk (q : Quality) : Bool :=
  match q with
  | .good | .held | .forced => true
  | .substituted | .bad | .clamped | .degraded => false

/-- R46: usable to the envelope allocator. -/
def Quality.envOk (q : Quality) : Bool :=
  match q with
  | .good | .held | .clamped => true
  | .substituted | .bad | .forced | .degraded => false

/-- R46: usable to the turbine interface. -/
def Quality.turbOk (q : Quality) : Bool :=
  match q with
  | .good | .held | .forced => true
  | .substituted | .bad | .clamped | .degraded => false

/-- R46: the emission sums accept GOOD alone. -/
def Quality.sumOk (q : Quality) : Bool := decide (q = .good)

/-- The presented value of a role's point when its quality is accepted; a role without a configured point is
unusable (R43). -/
def State.read (s : State) (ok : Quality → Bool) (r : Role) (l : Option LineId) : Option Int :=
  match s.findPoint r l with
  | none => none
  | some i => if ok (s.point i).shownQuality then some (s.point i).shownValue else none

/-- The presented level of a BINARY role's point when its quality is accepted. -/
def State.readLevel (s : State) (ok : Quality → Bool) (r : Role) (l : Option LineId) : Option Signals :=
  match s.findPoint r l with
  | none => none
  | some i => if ok (s.point i).shownQuality then some (s.point i).shownLevel else none

/-- Whether a role's OUTPUT point is configured and DEGRADED. -/
def State.isDegraded (s : State) (r : Role) (l : Option LineId) : Bool :=
  match s.findPoint r l with
  | none => false
  | some i => decide ((s.point i).shownQuality = .degraded)

/-! ### The slot map as it acts -/

/-- The point's kind agrees with the entry's direction (R16, check 2). -/
def kindAgrees (d : Direction) (k : PointKind) : Bool :=
  match d, k with
  | .input, .analog => true
  | .input, .binary => true
  | .output, .output => true
  | .request, .request => true
  | .report, .report => true
  | _, _ => false

/-- The entry of a slot as both passes treat it: an entry of an EMPTY point, or of a point whose kind does
not agree, is UNUSED (R3). -/
def State.entry (s : State) (k : Nat) : SlotEntry :=
  let e := s.ring.slotMap.getD k .unused
  if kindAgrees e.direction (s.point e.point).kind then e else .unused

/-- A point is mapped to a slot of this direction. -/
def State.mapped (s : State) (d : Direction) (i : Nat) : Bool :=
  s.ring.slotMap.any fun e => decide (e.direction = d ∧ e.point = i)

/-! ### Codes of the points the part writes -/

/-- The LINE_STATE codes (section 4.1). -/
def LineState.code : LineState → Nat
  | .off => 0
  | .feeding => 1
  | .feedHold => 2
  | .burnout => 3
  | .tripped => 4

/-- The turbine state codes (R149). -/
def TurbineState.code : TurbineState → Nat
  | .unknown => 0
  | .stopped => 1
  | .runup => 2
  | .ready => 3
  | .synchronising => 4
  | .loaded => 5
  | .unloading => 6
  | .tripped => 7
  | .local_ => 8

/-- The request codes (section 9.1). -/
def Request.code : Request → Nat
  | .none => 0
  | .runup => 1
  | .sync => 2
  | .confirmClose => 3
  | .load => 4
  | .release => 5
  | .stop => 6

/-- The indication codes (section 9.1). -/
def Indication.code : Indication → Nat
  | .stopped => 1
  | .runningUp => 2
  | .atSpeed => 3
  | .closeReady => 4
  | .onGrid => 5
  | .unloadPending => 6
  | .unloaded => 7
  | .trip => 8
  | .local_ => 9

/-- The segment state codes of the inbound flags (R21). -/
def SegState.code : SegState → Nat
  | .down => 0
  | .enumerating => 1
  | .config => 2
  | .run => 3
  | .broken => 4

/-- FEEDING or FEED-HOLD. -/
def LineState.feeds (st : LineState) : Bool :=
  match st with
  | .feeding | .feedHold => true
  | .off | .burnout | .tripped => false

/-- FEEDING, FEED-HOLD or BURNOUT: the states in which a minute is operating (R102). -/
def LineState.operates (st : LineState) : Bool :=
  match st with
  | .feeding | .feedHold | .burnout => true
  | .off | .tripped => false

/-- The code of a cap source (section 8.1). -/
def CapSource.code : CapSource → Nat
  | .operator => 1
  | .emission => 2
  | .feedLimit => 3
  | .bypass => 4

/-- The role of a component's analyser. -/
def Component.role : Component → Role
  | .dust => .dust
  | .co => .co
  | .nox => .nox
  | .so2 => .so2
  | .hcl => .hcl
  | .toc => .toc

/-- The role of a component's validated report. -/
def Component.report : Component → Role
  | .dust => .dustValidated
  | .co => .coValidated
  | .nox => .noxValidated
  | .so2 => .so2Validated
  | .hcl => .hclValidated
  | .toc => .tocValidated

/-- The role of a loop's output (section 6.5). -/
def loopRole : DosingLoop → Role
  | .urea => .ureaDose
  | .lime => .limeDose
  | .carbon => .carbonDose

end Sys2Proof.Machine
end

