-- ==== Sys2Proof/Machine/Operands.lean ====
section
/-! DEFINITION. The operand forms: how bytes carry numbers (R21), the two checks, the cycle frame with its areas,
the ENUM frame, the segments of the mailbox and the lane, and the telecontrol message. -/

namespace Sys2Proof.Machine

/-! ### Numbers in bytes -/

/-- A number in `n` bytes, the most significant first (R21). -/
def bytesOf : Nat → Nat → List Byte
  | 0, _ => []
  | n + 1, x => BitVec.ofNat 8 (x / 256 ^ n) :: bytesOf n x

/-- The number that bytes spell, the most significant first (R21). -/
def natOf (b : List Byte) : Nat := b.foldl (fun a x => a * 256 + x.toNat) 0

/-- A signed value of 16 bits in two bytes. -/
def bytesOfInt (v : Int) : List Byte := bytesOf 2 (BitVec.ofInt 16 v).toNat

/-- The signed value of a 16-bit word. -/
def intOf (w : Word16) : Int := w.toInt

/-- `n` bytes from an offset; bytes beyond the end are absent. -/
def field (b : List Byte) (offset n : Nat) : List Byte := (b.drop offset).take n

/-- The number in a field. -/
def fieldNat (b : List Byte) (offset n : Nat) : Nat := natOf (field b offset n)

/-- The byte at an offset, 0 beyond the end. -/
def byteAt (b : List Byte) (offset : Nat) : Byte := b.getD offset 0

/-- Bytes filled with zeros to a length (R21: bytes beyond the length are 0). -/
def padTo (n : Nat) (b : List Byte) : List Byte := b ++ List.replicate (n - b.length) 0

/-! ### Checks -/

/-- One bit of the CRC-8 with polynomial x⁸+x²+x+1 (R21). -/
def crc8Bit (c : BitVec 8) : BitVec 8 := if c.msb then (c <<< 1) ^^^ 0x07 else c <<< 1

/-- CRC-8, initial value 0 (R21). -/
def crc8 (b : List Byte) : Byte := b.foldl (fun c x => Nat.repeat crc8Bit 8 (c ^^^ x)) 0

/-- One bit of the CRC-16 with polynomial 0x1021 (R21). -/
def crc16Bit (c : BitVec 16) : BitVec 16 := if c.msb then (c <<< 1) ^^^ 0x1021 else c <<< 1

/-- CRC-16, initial value 0xFFFF, not reflected, no final XOR (R21). -/
def crc16 (b : List Byte) : BitVec 16 :=
  b.foldl (fun (c : BitVec 16) x => Nat.repeat crc16Bit 8 (c ^^^ (BitVec.setWidth 16 x).shiftLeft 8)) 0xFFFF

/-! ### The cycle frame -/

/-- A slot: value, quality byte and writer tag (R21). -/
structure Slot where
  value   : Word16
  quality : Byte
  tag     : Byte
deriving DecidableEq, Repr

/-- A cycle frame taken apart (R21). `cycle`, `ack`, `assign` are the header fields; an area the part does not
write keeps its bytes. `rest` is what the link frame carries beyond the areas. -/
structure CycleFrame where
  flags  : Byte
  cycle  : Nat
  ack    : BitVec 32
  serial : Serial
  number : Byte
  slots  : List Slot
  attn   : List Byte
  mbox   : List Byte
  lane   : List Byte
  rest   : List Byte
deriving DecidableEq, Repr

/-- The slots that bytes spell, `n` of them. -/
def slotsOf : Nat → List Byte → List Slot
  | 0, _ => []
  | n + 1, b => ⟨BitVec.ofNat 16 (fieldNat b 0 2), byteAt b 2, byteAt b 3⟩ :: slotsOf n (b.drop 4)

/-- The bytes of a slot. -/
def Slot.bytes (s : Slot) : List Byte := bytesOf 2 s.value.toNat ++ [s.quality, s.tag]

/-- R2: a cycle frame is sound when its header check, its slot count and its length pass; a sound frame is taken
apart. The first byte is looked at by the caller. -/
def parseCycle (p : List Byte) : Option CycleFrame :=
  let n := fieldNat p 4 2
  if p.length < 18 ∨ crc8 (p.take 17) ≠ byteAt p 17 ∨ 256 < n ∨ p.length < 132 + 4 * n then none
  else
    let areas := p.drop (18 + 4 * n)
    some
      { flags := byteAt p 1
        cycle := fieldNat p 2 2
        ack := BitVec.ofNat 32 (fieldNat p 6 4)
        serial := BitVec.ofNat 48 (fieldNat p 10 6)
        number := byteAt p 16
        slots := slotsOf n (p.drop 18)
        attn := field areas 0 32
        mbox := field areas 32 50
        lane := field areas 82 32
        rest := areas.drop 114 }

/-- The bytes of a cycle frame, its header check formed over the header as written (R4, R5, R10). -/
def CycleFrame.bytes (f : CycleFrame) : List Byte :=
  let head := [0x01, f.flags] ++ bytesOf 2 f.cycle ++ bytesOf 2 f.slots.length ++ bytesOf 4 f.ack.toNat ++
    bytesOf 6 f.serial.toNat ++ [f.number]
  head ++ [crc8 head] ++ f.slots.flatMap Slot.bytes ++ f.attn ++ f.mbox ++ f.lane ++ f.rest

/-- The protocol type of the ring (R2). -/
def ringProtocol : BitVec 16 := 0x88B5

/-- A cycle frame as a port sends it. -/
def CycleFrame.link (f : CycleFrame) : LinkFrame := ⟨ringProtocol, true, f.bytes⟩

/-- The four attention records, empty (R4). -/
def emptyAttention : List Byte := (List.replicate 4 [0xFF, 0, 0, 0, 0, 0, 0, 0]).flatten

/-! ### Attention records -/

/-- An attention record (R21). -/
structure Attention where
  station : Byte
  code    : Byte
  length  : Byte
  payload : List Byte
deriving DecidableEq, Repr

/-- The four records of an attention area, in area order (R10). -/
def attentionOf (area : List Byte) : List Attention :=
  [0, 8, 16, 24].map fun o => ⟨byteAt area o, byteAt area (o + 1), byteAt area (o + 2), field area (o + 3) 5⟩

/-! ### Segments -/

/-- A segment of the mailbox or the lane (R21): its flags, its index (lane), its length and its data area. -/
structure AreaSegment where
  first  : Bool
  last   : Bool
  index  : Nat
  length : Nat
  data   : List Byte
deriving DecidableEq, Repr

/-- The segment of an area whose valid flag is set. -/
def segmentOf (area : List Byte) : Option AreaSegment :=
  let f := byteAt area 0
  if f.getLsbD 0 then
    some ⟨f.getLsbD 1, f.getLsbD 2, f.toNat / 8 % 4, (byteAt area 1).toNat, area.drop 2⟩
  else none

/-- A segment's flags byte. -/
def segmentFlags (first last : Bool) (index : Nat) : Byte :=
  BitVec.ofNat 8 (1 + (if first then 2 else 0) + (if last then 4 else 0) + 8 * index)

/-- An area of `n` bytes that carries a segment (R21). -/
def segmentArea (n : Nat) (first last : Bool) (index : Nat) (data : List Byte) : List Byte :=
  padTo n (segmentFlags first last index :: BitVec.ofNat 8 data.length :: data)

/-- An area of `n` bytes with the valid flag clear (R4, R10). -/
def emptyArea (n : Nat) : List Byte := List.replicate n 0

/-- Segment `k` of a message cut into pieces of `n` bytes: its data, and whether it is the last (R168, R182). -/
def cutSegment (n k : Nat) (bytes : List Byte) : List Byte × Bool :=
  ((bytes.drop (n * k)).take n, decide (bytes.length ≤ n * (k + 1)))

/-! ### The ENUM frame -/

/-- The all-ones serial: arbitration idle and full-run marker (section 2). -/
def allOnes : Serial := BitVec.allOnes 48

/-- A returned ENUM frame's fields (R18). -/
structure EnumReturn where
  round         : Nat
  arbitration   : Serial
  confirmSerial : Serial
  confirmNumber : Byte
deriving DecidableEq, Repr

/-- R2: a sound ENUM frame taken apart. -/
def parseEnum (p : List Byte) : Option EnumReturn :=
  if p.length < 24 ∨ crc8 (p.take 23) ≠ byteAt p 23 then none
  else
    some ⟨fieldNat p 1 1, BitVec.ofNat 48 (fieldNat p 2 6), BitVec.ofNat 48 (fieldNat p 15 6), byteAt p 21⟩

/-- The ENUM frame as sent south: arbitration all-ones, confirm fields 0, padded to 46 bytes (R18, R21, R24). -/
def EnumCarry.link (c : EnumCarry) : LinkFrame :=
  let head := [0x02, BitVec.ofNat 8 c.round] ++ bytesOf 6 allOnes.toNat ++ bytesOf 6 c.serial.toNat ++
    [BitVec.ofNat 8 c.number] ++ List.replicate 8 0
  ⟨ringProtocol, true, padTo 46 (head ++ [crc8 head])⟩

/-! ### The telecontrol message -/

/-- A telecontrol message by its layout: address pair, kind, number, body and CRC-16 (R21). -/
def messageBytes (pair : Byte × Byte) (kind : Byte) (number : Nat) (body : List Byte) : List Byte :=
  let b := [pair.1, pair.2, kind, BitVec.ofNat 8 number, BitVec.ofNat 8 body.length] ++ body
  b ++ bytesOf 2 (crc16 b).toNat

/-- Why a complete message is discarded (R166). -/
inductive MessageFault where
  | length
  | check
deriving DecidableEq, Repr

/-- R166: the two checks of a complete message. -/
def checkMessage (m : List Byte) : Option MessageFault :=
  if m.length < 7 ∨ m.length ≠ 7 + fieldNat m 4 1 then some .length
  else if (crc16 (m.take (m.length - 2))).toNat ≠ natOf (m.drop (m.length - 2)) then some .check
  else none

end Sys2Proof.Machine
end

