-- ==== Sys2Proof/Machine/Flags.lean ====
section
/-! DEFINITION. Every flag the part shows outside: the inbound flags of the header (R21, R188) and the LED drives
(R22). -/

namespace Sys2Proof.Machine

/-- R188: the events-pending flag. -/
def State.eventsPending (s : State) : Bool := !s.mgmt.events.isEmpty

/-- R5, R10, R21: the inbound flags: segment state in bits 3 to 1, events pending in bit 4. Bit 0 is the DCS's and
stays; the bits not named are sent as 0. -/
def State.inboundFlags (s : State) (flags : Byte) : Byte :=
  BitVec.ofNat 8 (flags.toNat % 2 + 2 * s.ring.segment.code + (if s.eventsPending then 16 else 0))

/-- What an LED drive does (R22). -/
inductive Led where
  | off
  | on
  | blink1
  | blink4
  | flash
deriving DecidableEq, Repr

/-- LED_LINKN and LED_LINKS (R22). -/
def ledLink (up : Bool) : Led := if up then .on else .off

/-- LED_SEG (R22). -/
def State.ledSeg (s : State) : Led :=
  match s.ring.segment with
  | .down => .off
  | .enumerating => .blink4
  | .config => .blink1
  | .run => .on
  | .broken => .flash

/-- LED_ALERT (R22): an OUTPUT point is DEGRADED or the segment is BROKEN. -/
def State.ledAlert (s : State) : Led :=
  if s.ring.segment = .broken ∨ (s.points.any fun p => decide (p.kind = .output) && p.degraded) then .on else .off

end Sys2Proof.Machine
end

