-- ==== Sys2Proof/Machine/Answer.lean ====
section
/-! DEFINITION. The answer a management command places in the response buffer (R182, R21). -/

namespace Sys2Proof.Machine

/-- The codes of the commands (R21). -/
inductive CommandCode where
  | readTable
  | writeTable
  | readPoint
  | forcePoint
  | releasePoint
  | readEvents
  | setTime
  | loadBudget
  | lineControl
  | turbineControl
  | setCap
  | setOverride
  | segmentMode
  | enumerate
  | renumber
  | lockNumber
  | restartSegment
  | warmRestart
  | readStatus
deriving DecidableEq, Repr

/-- The command bytes of R21. -/
def CommandCode.byte : CommandCode → Byte
  | .readTable => 0x01
  | .writeTable => 0x02
  | .readPoint => 0x03
  | .forcePoint => 0x04
  | .releasePoint => 0x05
  | .readEvents => 0x06
  | .setTime => 0x07
  | .loadBudget => 0x08
  | .lineControl => 0x09
  | .turbineControl => 0x0A
  | .setCap => 0x0B
  | .setOverride => 0x0C
  | .segmentMode => 0x0D
  | .enumerate => 0x0E
  | .renumber => 0x0F
  | .lockNumber => 0x10
  | .restartSegment => 0x11
  | .warmRestart => 0x12
  | .readStatus => 0x13

/-- The response bytes of R21. -/
def RespCode.byte : RespCode → Byte
  | .done => 0x00
  | .doneClamped => 0x01
  | .busy => 0x10
  | .badCommand => 0x11
  | .badLength => 0x12
  | .badTable => 0x13
  | .badIndex => 0x14
  | .badState => 0x15
  | .badValue => 0x16
  | .locked => 0x17
  | .timeUnset => 0x18
  | .aborted => 0x20

/-- Places a response in the response buffer (R182). -/
def State.place (s : State) (r : Response) : State :=
  { s with mgmt.response := some r, mgmt.nextSegment := 0 }

/-- Answers a command with a code and data bytes. -/
def State.answer (s : State) (cmd : CommandCode) (code : RespCode) (data : List Byte := []) : State :=
  s.place ⟨cmd.byte, code, .bytes data⟩

/-- The number of clamped fields as one data byte (log 8). -/
def countByte (n : Nat) : Byte := if n < 256 then BitVec.ofNat 8 n else Config.clampedCountByte n

/-- DONE, or DONE-CLAMPED with the number of clamped fields. -/
def State.answerClamped (s : State) (cmd : CommandCode) (n : Nat) : State :=
  if n = 0 then s.answer cmd .done else s.answer cmd .doneClamped [countByte n]

/-- BAD-STATE with a reason byte, and any further bytes. -/
def State.badState (s : State) (cmd : CommandCode) (reason : Nat) (more : List Byte := []) : State :=
  s.answer cmd .badState (BitVec.ofNat 8 reason :: more)

end Sys2Proof.Machine
end

