-- ==== Sys2Proof/Machine/Caps.lean ====
section
/-! DEFINITION. The cap lists and the effective cap (section 8.1), as every block's requests change them. -/

namespace Sys2Proof.Machine

/-- The entry of a source. -/
def CapList.get (c : CapList) : CapSource → Option CapEntry
  | .operator => c.operator
  | .emission => c.emission
  | .feedLimit => c.feedLimit
  | .bypass => c.bypass

/-- Replaces the entry of a source. -/
def CapList.set (c : CapList) (src : CapSource) (e : Option CapEntry) : CapList :=
  match src with
  | .operator => { c with operator := e }
  | .emission => { c with emission := e }
  | .feedLimit => { c with feedLimit := e }
  | .bypass => { c with bypass := e }

/-- A bound taken into account when it stands. -/
def lowerOf (x : Nat) (e : Option CapEntry) : Nat :=
  match e with
  | none => x
  | some v => min x v.value

/-- R132: the effective cap is the lowest of F_max and the entries of the list. -/
def effectiveCap (fMax : Nat) (c : CapList) : Nat :=
  lowerOf (lowerOf (lowerOf (lowerOf fMax c.operator) c.emission) c.feedLimit) c.bypass

/-- The value of a standing entry. -/
def State.capOf (s : State) (l : LineId) (src : CapSource) : Option Nat :=
  ((s.env.caps.get l).get src).map (·.value)

/-- R132: the effective cap is formed anew. When it changes it is handed to the line controller, which lowers
D_eff to it (R92), set into EFFECTIVE_CAP, and makes an allocation run due. -/
def State.formCap (s : State) (l : LineId) : State :=
  let e := effectiveCap (s.line l).page.fMax (s.env.caps.get l)
  if e = s.env.effCap.get l then s
  else
    let s := { s with env.effCap := s.env.effCap.set l e }
    let s := s.setLine l { s.line l with cap := e, dEff := min (s.line l).dEff e }
    (s.own .effectiveCap (some l) e).oweRun .cap

/-- R133: sets a source's entry, its value clamped to 0 to 2,000. An entry that already holds the value is left
as it is. -/
def State.capSetCore (s : State) (l : LineId) (src : CapSource) (v : Int) : State :=
  let v := (clampInt v 0 2000).toNat
  if s.capOf l src = some v then s
  else
    let list := (s.env.caps.get l).set src (some ⟨v, s.runTime⟩)
    let s := { s with env.caps := s.env.caps.set l list }
    let s := s.log .envelope .capRaised (lineNumber l) src.code v
    (s.formCap l).oweRun .cap

/-- R133: removes a source's entry; an absent entry is left absent. R145: when the last BYPASS entry goes, the
release timer stops. -/
def State.capReleaseCore (s : State) (l : LineId) (src : CapSource) : State :=
  if s.capOf l src = none then s
  else
    let list := (s.env.caps.get l).set src none
    let s := { s with env.caps := s.env.caps.set l list }
    let s := s.formCap l
    let s := s.log .envelope .capReleased (lineNumber l) src.code (s.env.effCap.get l)
    let s := s.oweRun .cap
    if s.capOf .one .bypass = none ∧ s.capOf .two .bypass = none then { s with env.releaseAt := none } else s

end Sys2Proof.Machine
end

