-- ==== Sys2Proof/Machine/Dosing.lean ====
section
/-! DEFINITION. The dosing loops of a flue gas unit (section 6.5), and what a change of line state does to the
unit (R110, R122, R126). -/

namespace Sys2Proof.Machine

/-- A latest sample no older than 60,000 ms of run time (R106). -/
def recentSample (now : Nat) (r : Latest) : Option Nat :=
  match r.sample with
  | some (c, t) => if now - t ≤ 60000 then some c else none
  | none => none

/-- The base of a loop (R106 to R108). -/
def loopBase (d : DosingLoop) (ratio qIn mReq : Nat) : Nat :=
  match d with
  | .urea => qIn * ratio / 10000
  | .lime => qIn * ratio / 10000
  | .carbon => mReq * ratio / 1000

/-- R107: the load of a component in per mille of its half-hour limit. -/
def acidLoad (now : Nat) (f : Fgc) (c : Component) : Option Nat :=
  (recentSample now (f.latest.get c)).map fun r => r * 1000 / (f.page.comps.get c).halfLimit

/-- The larger of the loads formed, or the one that is (R107). -/
def largerLoad (a b : Option Nat) : Option Nat :=
  match a, b with
  | some x, some y => some (max x y)
  | some x, none => some x
  | none, b => b

/-- What a loop's trim is updated from (R106, R107): NOX for UREA, the acid gas load for LIME, nothing for
CARBON; none freezes the trim. -/
def trimInput (now : Nat) (f : Fgc) (d : DosingLoop) : Option Nat :=
  match d with
  | .urea => recentSample now (f.latest.get .nox)
  | .lime => largerLoad (acidLoad now f .so2) (acidLoad now f .hcl)
  | .carbon => none

/-- R106, R107: the trim after a run; a frozen trim stays, also beyond a lowered limit (log 75). CARBON has no trim
(R108). -/
def loopTrim (p : LoopPage) (trim : Int) (input : Option Nat) : Int :=
  match input with
  | none => trim
  | some x => clampInt (trim + (((x : Int) - p.target) * p.trimGain).tdiv 256) (-(p.trimLimit : Int)) p.trimLimit

/-- R105: clamp(base + trim, 0, output maximum); CARBON adds no trim. -/
def loopOutput (p : LoopPage) (d : DosingLoop) (base : Nat) (trim : Int) : Nat :=
  match d with
  | .carbon => (clampInt base 0 p.outputMax).toNat
  | .urea => (clampInt (base + trim) 0 p.outputMax).toNat
  | .lime => (clampInt (base + trim) 0 p.outputMax).toNat

/-- R109: the saturated flag clears; the minute's mark clears with it (R101) and the clearing is logged. -/
def State.clearSaturated (s : State) (l : LineId) (d : DosingLoop) : State :=
  let f := s.fgc l
  let lo := f.loops.get d
  let s := s.setFgc l
    { f with
      loops := f.loops.set d { lo with saturated := false, satAt := none }
      minute := f.minute.map fun m => { m with satAll := m.satAll.set d false } }
  if lo.saturated then s.log (fgcSource l) .dosingSaturated (loopCode d) 0 else s

/-- R109: the examination of saturation at a run. -/
def State.judgeSaturation (s : State) (l : LineId) (d : DosingLoop) : State :=
  let f := s.fgc l
  let p := f.dosing.get d
  let lo := f.loops.get d
  if lo.output = p.outputMax then
    if lo.satAt = none ∧ lo.saturated = false then
      s.setFgc l { f with loops := f.loops.set d { lo with satAt := some (s.runTime + 1000 * p.satTime) } }
    else s
  else s.clearSaturated l d

/-- R105: one run of a loop. -/
def State.runLoop (s : State) (l : LineId) (d : DosingLoop) : State :=
  let f := s.fgc l
  let p := f.dosing.get d
  let lo := f.loops.get d
  let base := loopBase d p.ratio (s.line l).qIn (s.line l).mReq
  let trim := loopTrim p lo.trim (trimInput s.runTime f d)
  let out := loopOutput p d base trim
  let s := s.setFgc l { f with loops := f.loops.set d { lo with base := base, trim := trim, output := out } }
  let s := s.own (loopRole d) (some l) out
  s.judgeSaturation l d

/-- R105: the line states in which a trigger's event comes. -/
def triggerComes (t : Trigger) (st : LineState) : Bool :=
  match t with
  | .controlPeriod => st.feeds
  | .strokeDone => st.feeds
  | .minute => st.operates

/-- R105: the loops with this trigger run, in the order UREA, LIME, CARBON (log 73). -/
def State.runLoops (s : State) (l : LineId) (t : Trigger) : State :=
  loopsAll.foldl (init := s) fun s d =>
    if ((s.fgc l).dosing.get d).trigger = t ∧ triggerComes t (s.line l).state then s.runLoop l d else s

/-- R110: in OFF and TRIPPED a loop's output and trim are 0, its timer stopped and its flag cleared. -/
def State.stopLoop (s : State) (l : LineId) (d : DosingLoop) : State :=
  let s := s.clearSaturated l d
  let f := s.fgc l
  let s := s.setFgc l { f with loops := f.loops.set d { f.loops.get d with output := 0, trim := 0 } }
  s.own (loopRole d) (some l) 0

/-- R122: on entry into OFF or TRIPPED a standing EMISSION cap is released and the count is 0. -/
def State.dropRestraint (s : State) (l : LineId) : State :=
  let stood := (s.fgc l).capAsked.isSome
  let s := s.setFgc l { s.fgc l with capAsked := none, lowCloses := 0 }
  if stood then (s.capReleaseCore l .emission).log (fgcSource l) .restraintReleased 0 1 else s

/-- R126: the abnormal-second timer runs while the record is ABNORMAL and the line is FEEDING or FEED-HOLD. -/
def State.judgeCounting (s : State) (l : LineId) : State :=
  let f := s.fgc l
  if f.abn.active ∧ (s.line l).state.feeds then
    if f.secondAt = none then s.setFgc l { f with secondAt := some (s.runTime + 1000) } else s
  else s.setFgc l { f with secondAt := none }

/-- R60, R110, R122, R126: the flue gas unit is handed a change of line state: the loops in their order, then the
restraint (log 73). -/
def State.fgcLineState (s : State) (l : LineId) : State :=
  let s :=
    if (s.line l).state.operates then s
    else (loopsAll.foldl (init := s) fun s d => s.stopLoop l d).dropRestraint l
  s.judgeCounting l

end Sys2Proof.Machine
end

