-- ==== Sys2Proof/Machine/LineCore.lean ====
section
/-! DEFINITION. The line controller's shared operations (chapter 4): changes of line state (R60), hold causes
(R66), trips (R69), the feed permissive (R70) and strokes (R71 to R76). -/

namespace Sys2Proof.Machine

/-- The codes of the hold causes (R66). -/
def HoldCause.code : HoldCause → Nat
  | .permissive => 1
  | .jam => 2
  | .feederOutput => 3
  | .segment => 4
  | .steamPoint => 5
  | .strokeTimeout => 6

/-- The codes of the trip causes (R69). -/
def TripCause.code : TripCause → Nat
  | .flame => 1
  | .fan => 2
  | .both => 3
  | .statusLost => 4

/-- The codes of the phases (R74). -/
def Phase.code : Phase → Nat
  | .out => 1
  | .back => 2

/-- The causes of a LINE-STATE event (R60). -/
inductive StateCause where
  | start
  | stop
  | forcedStop
  | belowFloor
  | holdLimit
  | burnoutEnd
  | trip
  | resetTrip
  | holdSet
  | holdCleared
deriving DecidableEq, Repr

/-- The codes of the causes (R60). -/
def StateCause.code : StateCause → Nat
  | .start => 1
  | .stop => 2
  | .forcedStop => 3
  | .belowFloor => 4
  | .holdLimit => 5
  | .burnoutEnd => 6
  | .trip => 7
  | .resetTrip => 8
  | .holdSet => 9
  | .holdCleared => 10

/-- R91: the heating value in use. -/
def Line.lhvUsed (c : Line) : Nat := if c.override then c.lhvOvr else c.lhvEst

/-! ### Strokes -/

/-- R71: when the next stroke may start, taken while no stroke is in flight. -/
def Line.nextDue (c : Line) : Due :=
  if c.ranPeriod ∧ c.mReq = 0 then .none
  else
    match c.lastDone with
    | none => .atOnce
    | some t => if c.ranPeriod then .at_ (t + c.interval) else .atOnce

/-- R94: a due time that has come is not moved later; any other takes the new one. -/
def Due.replace (old new : Due) (now : Nat) : Due :=
  match old, new with
  | .at_ t, .at_ u => if t ≤ now then .at_ (min t u) else .at_ u
  | _, _ => new

/-- R71, R94: the due time is set at control periods, completions and aborts while no stroke is in flight. -/
def State.setDue (s : State) (l : LineId) : State :=
  let c := s.line l
  if c.stroke = none then s.setLine l { c with due := c.due.replace c.nextDue s.runTime } else s

/-- A stroke is due (R71). -/
def Line.isDue (c : Line) (now : Nat) : Bool :=
  match c.due with
  | .none => false
  | .atOnce => true
  | .at_ t => decide (t ≤ now)

/-- HOME is high in the level of FEEDER_STATUS, usable to line control (R72). -/
def State.homeHigh (s : State) (l : LineId) : Bool :=
  match s.readLevel Quality.lineOk .feederStatus (some l) with
  | none => false
  | some lv => lv.getLsbD 0

/-- R72: the number after the last issued, 255 followed by 1. -/
def nextStroke (n : Nat) : Nat := if 255 ≤ n then 1 else n + 1

/-- R72: a stroke starts when one is due, the line is FEEDING, the permissive HELD, HOME high and no stroke in
flight. -/
def State.tryStroke (s : State) (l : LineId) : State :=
  let c := s.line l
  if c.isDue s.runTime ∧ c.state = .feeding ∧ c.permissive = true ∧ s.homeHigh l = true ∧ c.stroke = none then
    let n := nextStroke c.lastNumber
    let s := s.setLine l
      { c with
        lastNumber := n
        stroke := some ⟨n, s.runTime, .out⟩
        strokeAt := some (s.runTime + 1000 * c.page.strokeTimeout)
        due := .none }
    s.own .feederCommand (some l) n
  else s

/-- The end of a stroke that delivers no mass (R74 to R76): FEEDER_COMMAND 0, the record empty, one more abort. -/
def State.dropStroke (s : State) (l : LineId) : State :=
  let c := s.line l
  let s := s.setLine l { c with stroke := none, strokeAt := none, aborted := wrap32 c.aborted }
  s.own .feederCommand (some l) 0

/-- R76: a stroke in flight is withdrawn; no due time is set (log 79). -/
def State.withdraw (s : State) (l : LineId) : State :=
  match (s.line l).stroke with
  | none => s
  | some k => (s.dropStroke l).log (lineSource l) .strokeAborted 0 k.number 2

/-- R73: the completion of a stroke, in its seven steps; the loops with trigger STROKE-DONE run last. -/
def State.completeStroke (s : State) (l : LineId) : State :=
  match (s.line l).stroke with
  | none => s
  | some k =>
    let s := s.own .feederCommand (some l) 0
    let c := s.line l
    let s := s.setLine l
      { c with
        strokeAt := none
        entry := c.entry.map fun e => { e with mass := e.mass + c.page.strokeMass }
        lastDone := some k.start
        stroke := none
        completed := wrap32 c.completed }
    (s.setDue l).runLoops l .strokeDone

/-! ### Changes of line state -/

/-- R60, second effect, with R62, R67, R68, R69, R77 and R95: the timers of the new state, the emptied set of
hold causes, the discarded burn entry and the results that are 0 in OFF and TRIPPED. -/
def Line.enter (c : Line) (new : LineState) (now : Nat) : Line :=
  { c with
    state := new
    causes := if new = .feedHold then c.causes else []
    holdAt := if new = .feedHold then some (now + 1000 * c.page.holdLimit) else none
    burnoutAt := if new = .burnout then some (now + 60000 * c.page.burnoutTime) else none
    periodAt := if new.feeds then c.periodAt else none
    entry := if new.feeds then c.entry else none
    burnAt := if new.feeds then c.burnAt else none
    burnTimer := if new.feeds then c.burnTimer else none
    qIn := if new.operates then c.qIn else 0
    dEff := if new.operates then c.dEff else 0
    qReq := if new.operates then c.qReq else 0
    mReq := if new.operates then c.mReq else 0
    unclamped := if new.operates then c.unclamped else 0
    lowCount := if new.feeds then c.lowCount else 0
    highCount := if new.feeds then c.highCount else 0 }

/-- R60, third effect: GRATE_SPEED and the air as the new state requires (R78, R79). -/
def State.lineOutputs (s : State) (l : LineId) (new : LineState) : State :=
  match new with
  | .feeding => s
  | .feedHold => s
  | .burnout => s.own .grateSpeed (some l) 300
  | .off => ((s.own .grateSpeed (some l) 0).own .primaryAir (some l) 0).own .secondaryAir (some l) 0
  | .tripped => ((s.own .grateSpeed (some l) 0).own .primaryAir (some l) 0).own .secondaryAir (some l) 0

/-- R60: one change of line state with its effects in order: the stroke withdrawn (R76), timers and causes,
outputs, LINE_STATE, the event; then the FEED-LIMIT cap released on leaving feeding (R80), the hand-over to the
allocator, which drops the BYPASS entry of a stopped line (R133) and makes a run due (R137), and the hand-over
to the flue gas unit. -/
def State.changeOnce (s : State) (l : LineId) (new : LineState) (cause : StateCause) : State :=
  let old := (s.line l).state
  if old = new then s
  else
    let s := if new.feeds then s else s.withdraw l
    let s := s.setLine l ((s.line l).enter new s.runTime)
    let s := s.lineOutputs l new
    let s := s.own .lineState (some l) new.code
    let s := s.log (lineSource l) .lineState cause.code old.code new.code
    let s := if new.feeds then s else s.capReleaseCore l .feedLimit
    let s := if new.operates then s else s.capReleaseCore l .bypass
    let s := s.oweRun .line
    s.fgcLineState l

/-- A request to go to BURNOUT (R68): taken from FEEDING and FEED-HOLD, and from no other state. -/
def State.toBurnout (s : State) (l : LineId) (cause : StateCause) : State :=
  if (s.line l).state.feeds then s.changeOnce l .burnout cause else s

/-- R60 with R127: a hand-over into FEEDING or FEED-HOLD while the exhausted condition holds brings a
forced-stop request. -/
def State.changeLine (s : State) (l : LineId) (new : LineState) (cause : StateCause) : State :=
  if (s.line l).state = new then s
  else
    let s := s.changeOnce l new cause
    if new.feeds ∧ (s.fgc l).abn.exhausted = true then s.toBurnout l .forcedStop else s

/-! ### Caps that may reach the floor -/

/-- R135: a FEEDING or FEED-HOLD line whose effective cap is below its floor is sent to BURNOUT. -/
def State.judgeFloor (s : State) (l : LineId) : State :=
  if s.env.effCap.get l < (s.line l).page.fFloor then s.toBurnout l .belowFloor else s

/-- R133 with R135: a set request; a change of the effective cap is judged against the floor. -/
def State.capSet (s : State) (l : LineId) (src : CapSource) (v : Int) : State :=
  let before := s.env.effCap.get l
  let s := s.capSetCore l src v
  if s.env.effCap.get l = before then s else s.judgeFloor l

/-- R133 with R135: a release request; a change of the effective cap is judged against the floor. -/
def State.capRelease (s : State) (l : LineId) (src : CapSource) : State :=
  let before := s.env.effCap.get l
  let s := s.capReleaseCore l src
  if s.env.effCap.get l = before then s else s.judgeFloor l

/-! ### Hold causes -/

/-- R66: a cause is added while the line is FEEDING or FEED-HOLD; the first one moves FEEDING to FEED-HOLD. -/
def State.addCause (s : State) (l : LineId) (k : HoldCause) : State :=
  let c := s.line l
  if c.state.feeds ∧ k ∉ c.causes then
    let s := s.setLine l { c with causes := c.causes ++ [k] }
    let s := s.log (lineSource l) .holdCause k.code 1
    s.changeLine l .feedHold .holdSet
  else s

/-- R66: a cause is removed; when the last one goes the line returns to FEEDING, and a stroke starts if one is
due (R72). -/
def State.removeCause (s : State) (l : LineId) (k : HoldCause) : State :=
  let c := s.line l
  if c.state.feeds ∧ k ∈ c.causes then
    let rest := c.causes.filter fun x => decide (x ≠ k)
    let s := s.setLine l { c with causes := rest }
    let s := s.log (lineSource l) .holdCause k.code 0
    if rest = [] then (s.changeLine l .feeding .holdCleared).tryStroke l else s
  else s

/-- A cause follows its condition (R66). -/
def State.setCause (s : State) (l : LineId) (k : HoldCause) (stands : Bool) : State :=
  if stands then s.addCause l k else s.removeCause l k

/-! ### Trips and the feed permissive -/

/-- R69: a line that is not TRIPPED trips; the record is filled, the trip logged, and the state changes. -/
def State.tripLine (s : State) (l : LineId) (k : TripCause) : State :=
  let c := s.line l
  if c.state = .tripped then s
  else
    let s := s.setLine l { c with trip := some ⟨k, c.state, s.runTime⟩ }
    let s := s.log (lineSource l) .lineTrip 0 k.code c.state.code
    s.changeLine l .tripped .trip

/-- R69: an update of LINE_STATUS, with its fallen signals and whether the point is usable to line control. A fall is
judged before a loss (log 68). -/
def State.lineStatusUpdate (s : State) (l : LineId) (fallen : Signals) (usable : Bool) : State :=
  if fallen.getLsbD 0 ∧ fallen.getLsbD 1 then s.tripLine l .both
  else if fallen.getLsbD 0 then s.tripLine l .flame
  else if fallen.getLsbD 1 then s.tripLine l .fan
  else if usable = false ∧ (s.line l).state.operates then s.tripLine l .statusLost
  else s

/-- R70: the permissive changes; in FEEDING and FEED-HOLD the change is logged with the furnace temperature and
moves the hold cause PERMISSIVE. A regain tests the next stroke (R72). -/
def State.setPermissive (s : State) (l : LineId) (held : Bool) (temp : Int) : State :=
  let c := s.line l
  if c.permissive = held then s
  else
    let s := s.setLine l { c with permissive := held, permAt := none }
    if c.state.feeds then
      if held then
        ((s.log (lineSource l) .permissiveRegained 0 temp).removeCause l .permissive).tryStroke l
      else (s.log (lineSource l) .permissiveLost 0 temp).addCause l .permissive
    else s

/-- The value of FURNACE_TEMP as presented, 0 when no point is configured (log 80). -/
def State.furnaceTemp (s : State) (l : LineId) : Int :=
  (s.read (fun _ => true) .furnaceTemp (some l)).getD 0

/-- R70: the permissive is judged at an update of FURNACE_TEMP. -/
def State.judgePermissive (s : State) (l : LineId) : State :=
  let c := s.line l
  match s.read Quality.permOk .furnaceTemp (some l) with
  | none =>
    if c.permissive then
      (s.setLine l { c with permAt := none }).setPermissive l false (s.furnaceTemp l)
    else s
  | some t =>
    if c.permissive then
      if t < c.page.threshold then
        if c.permAt.isSome then s
        else if c.page.permDelay = 0 then s.setPermissive l false t
        else s.setLine l { c with permAt := some (s.runTime + 1000 * c.page.permDelay) }
      else s.setLine l { c with permAt := none }
    else if (c.page.threshold : Int) + 100 ≤ t then s.setPermissive l true t
    else s

/-! ### The feeder -/

/-- R73: an update of FEEDER_STATUS advances a stroke in flight, FORWARD_END first and HOME second. -/
def State.advanceStroke (s : State) (l : LineId) (risen : Signals) : State :=
  let c := s.line l
  match c.stroke with
  | none => s
  | some k =>
    let s :=
      if risen.getLsbD 1 ∧ k.phase = .out then s.setLine l { c with stroke := some { k with phase := .back } } else s
    match (s.line l).stroke with
    | some k' => if risen.getLsbD 0 ∧ k'.phase = .back then s.completeStroke l else s
    | none => s

/-- R73, R72: an update of FEEDER_STATUS. -/
def State.feederStatusUpdate (s : State) (l : LineId) (risen : Signals) : State :=
  (s.advanceStroke l risen).tryStroke l

/-- R75: the feeder is jammed, reported by a station: the flag is set, a stroke in flight aborted, the cause added. -/
def State.jamSet (s : State) (l : LineId) (station : Nat) : State :=
  let c := s.line l
  if c.jam then s
  else
    let s := s.setLine l { c with jam := true }
    let s := s.log (lineSource l) .feederJam station
    let s :=
      match c.stroke with
      | none => s
      | some k => ((s.dropStroke l).log (lineSource l) .strokeAborted 0 k.number 1).setDue l
    s.addCause l .jam

/-- R75: the jam is cleared: the flag clears and the cause is removed. The event has the station as its subject (log
53). -/
def State.jamClear (s : State) (l : LineId) (station : Nat) : State :=
  let c := s.line l
  if c.jam then
    let s := s.setLine l { c with jam := false }
    let s := s.log (lineSource l) .feederJamClear station
    s.removeCause l .jam
  else s

/-- R66: each change of segment state is handed to both line controllers. -/
def State.segmentCause (s : State) (running : Bool) : State :=
  (s.setCause .one .segment (!running)).setCause .two .segment (!running)

end Sys2Proof.Machine
end

