-- ==== Sys2Proof/Machine/Line.lean ====
section
/-! DEFINITION. The line controller's own events and commands: the control period with the feed-rate
arithmetic (R77 to R80, R84 to R94), the burn minute (R87 to R90), the timers, and LINE-CONTROL and
SET-OVERRIDE (R62 to R65, R91). -/

namespace Sys2Proof.Machine

/-! ### The control period -/

/-- STEAM_FLOW clamped to 0 to 2,000 (R85). -/
def steamClamped (f : Int) : Nat := (clampInt f 0 2000).toNat

/-- Stages A and G (R85, R93): floor(floor(F × K / 36) × 1000 / η). -/
def thermal (p : LinePage) (f : Nat) : Nat := f * p.enthalpy / 36 * 1000 / p.efficiency

/-- Stages A and B (R85, R86): Q_in and the period heat, without bound (log 76), or the steam gap when STEAM_FLOW is
unusable. -/
def Line.stageAB (c : Line) (steam : Option Int) : Line :=
  match steam with
  | none => { c with entry := c.entry.map fun e => { e with gap := true } }
  | some f =>
    let q := thermal c.page (steamClamped f)
    { c with
      qIn := q
      entry := c.entry.map fun e => { e with heat := e.heat + q * c.page.period / 1000, periods := e.periods + 1 } }

/-- Stage F (R92): the demand trim and D_eff. -/
def Line.stageF (c : Line) (steam : Option Int) : Line :=
  let trim :=
    match steam with
    | none => c.trim
    | some f =>
      if c.state = .feeding ∧ 0 ≤ (c.alloc : Int) + c.trim ∧ (c.alloc : Int) + c.trim ≤ c.cap then
        clampInt (c.trim + (((c.alloc : Int) - steamClamped f) * c.page.trimGain).tdiv 256)
          (-(c.page.trimLimit : Int)) c.page.trimLimit
      else c.trim
  { c with trim := trim, dEff := (clampInt (c.alloc + trim) 0 c.cap).toNat }

/-- Stages G, H and I (R93, R94): Q_req, m_req, the unclamped interval and I. With m_req 0 there is no interval;
the unclamped interval is then held as 0 and the interval last computed stays (log 11). -/
def Line.stageGHI (c : Line) : Line :=
  let q := thermal c.page c.dEff
  let m := q * 3600 / c.lhvUsed
  if m = 0 then { c with qReq := q, mReq := 0, unclamped := 0 }
  else
    let u := c.page.strokeMass * 3600000 / m
    { c with qReq := q, mReq := m, unclamped := u, interval := clampNat u c.page.iMin c.page.iMax }

/-- R78: GRATE_SPEED of a control period. -/
def grateSpeed (p : LinePage) (m : Nat) : Nat := clampNat (m * 1000 / p.nominalFlow) 100 1000

/-- R79: the O2 trim of a control period. -/
def o2TrimNext (p : LinePage) (trim : Int) (o2 : Option Int) : Int :=
  match o2 with
  | none => trim
  | some v => clampInt (trim + (((p.o2Set : Int) - v) * p.o2Gain).tdiv 256) (-200) 200

/-- R79: total air in Nm³/h. -/
def totalAir (p : LinePage) (q : Nat) (trim : Int) : Int :=
  ((q * p.airPerMWh / 1000 : Nat) * ((p.lambda : Int) + trim)).tdiv 1000

/-- R79: the air of a control period. -/
def State.setAir (s : State) (l : LineId) : State :=
  let c := s.line l
  let trim := o2TrimNext c.page c.o2Trim (s.read Quality.lineOk .o2Furnace (some l))
  let total := totalAir c.page c.qReq trim
  let primary := (total * c.page.split).tdiv 1000
  let s := s.setLine l { c with o2Trim := trim }
  (s.own .primaryAir (some l) primary).own .secondaryAir (some l) (total - primary)

/-- R80: the low and high counts of a period, from m_req and the unclamped interval. -/
def Line.saturationCounts (c : Line) : Nat × Nat :=
  if c.mReq = 0 ∨ c.page.iMin * 11 / 10 ≤ c.unclamped then (0, min 3 (c.highCount + 1))
  else if c.unclamped < c.page.iMin then (min 3 (c.lowCount + 1), 0)
  else (0, 0)

/-- R80: the low count has come to 3: a FEED-LIMIT cap at STEAM_FLOW, set when none stands and lowered when it is
above. -/
def State.raiseFeedLimit (s : State) (l : LineId) : State :=
  match s.read Quality.lineOk .steamFlow (some l) with
  | none => s
  | some f =>
    match s.capOf l .feedLimit with
    | none => s.capSet l .feedLimit f
    | some v => if f < v then s.capSet l .feedLimit f else s

/-- R80: feed saturation, examined at each control period of a line in FEEDING. -/
def State.feedSaturation (s : State) (l : LineId) : State :=
  let c := s.line l
  if c.state = .feeding then
    let (low, high) := c.saturationCounts
    if low = 3 then (s.setLine l { c with lowCount := 0, highCount := 0 }).raiseFeedLimit l
    else if high = 3 ∧ (s.capOf l .feedLimit).isSome then
      (s.setLine l { c with lowCount := 0, highCount := 0 }).capRelease l .feedLimit
    else s.setLine l { c with lowCount := low, highCount := high }
  else s

/-- R77, R84: the stages of a control period in their order. -/
def State.runPeriod (s : State) (l : LineId) : State :=
  let steam := s.read Quality.lineOk .steamFlow (some l)
  let c := s.line l
  let c := { c with periodAt := some (s.runTime + c.page.period), ranPeriod := true }
  let s := s.setLine l (((c.stageAB steam).stageF steam).stageGHI)
  let s := s.own .grateSpeed (some l) (grateSpeed (s.line l).page (s.line l).mReq)
  let s := s.setAir l
  let s := s.feedSaturation l
  let s := (s.setDue l).tryStroke l
  s.runLoops l .controlPeriod

/-- CONTROL_PERIOD: the control period timer expires (R77). -/
def State.controlPeriod (s : State) (l : LineId) : State :=
  match (s.line l).periodAt with
  | none => s
  | some t => (s.reach t).runPeriod l

/-! ### The line's timers -/

/-- PERMISSIVE_DELAY_EXPIRY (R70). -/
def State.permissiveDelay (s : State) (l : LineId) : State :=
  match (s.line l).permAt with
  | none => s
  | some t =>
    let s := s.reach t
    s.setPermissive l false (s.furnaceTemp l)

/-- The causes held, bit c − 1 for cause code c (R67). -/
def causeBits (k : List HoldCause) : Nat := (k.map fun x => 2 ^ (x.code - 1)).sum

/-- LINE_HOLD_EXPIRY (R67): the expiry is logged with the causes held, and the line goes to BURNOUT. -/
def State.lineHoldExpiry (s : State) (l : LineId) : State :=
  match (s.line l).holdAt with
  | none => s
  | some t =>
    let s := s.reach t
    let s := s.log (lineSource l) .holdExpired 0 (causeBits (s.line l).causes)
    s.toBurnout l .holdLimit

/-- BURNOUT_END (R68): the line goes to OFF. -/
def State.burnoutEnd (s : State) (l : LineId) : State :=
  match (s.line l).burnoutAt with
  | none => s
  | some t => (s.reach t).changeLine l .off .burnoutEnd

/-- STROKE_TIMEOUT (R74): the stroke is aborted, the due time set, and the cause STROKE-TIMEOUT added. -/
def State.strokeTimeout (s : State) (l : LineId) : State :=
  match (s.line l).strokeAt, (s.line l).stroke with
  | some t, some k =>
    let s := (s.reach t).dropStroke l
    let s := s.log (lineSource l) .strokeTimeout 0 k.number k.phase.code
    (s.setDue l).addCause l .strokeTimeout
  | _, _ => s

/-- DUE_TIME_REACHED (R71): the due time arrives, and a stroke starts if R72 allows. -/
def State.dueTimeReached (s : State) (l : LineId) : State :=
  match (s.line l).due with
  | .none => s
  | .atOnce => s.tryStroke l
  | .at_ t => (s.reach t).tryStroke l

/-! ### The burn minute -/

/-- The first minute boundary after a plant time. -/
def nextMinute (p : Nat) : Nat := (p / 60000 + 1) * 60000

/-- The heat of a window (R88). -/
def heatOf (w : List BurnEntry) : Nat := (w.map (·.heat)).sum

/-- The mass of a window (R88). -/
def massOf (w : List BurnEntry) : Nat := (w.map (·.mass)).sum

/-- Stage D (R89): the raw estimate, or the reason it is held (1 SHORT, 2 STEAM-GAP, 3 NO-MASS). -/
def rawEstimate (p : LinePage) (record : List BurnEntry) : Except Nat Nat :=
  let heatW := record.take p.heatWindow
  let mass := massOf ((record.drop p.massLag).take p.heatWindow)
  if record.length < p.heatWindow + p.massLag then .error 1
  else if heatW.any (·.gap) then .error 2
  else if mass < p.strokeMass then .error 3
  else .ok (clampNat (heatOf heatW / mass) p.lhvLo p.lhvHi)

/-- Stage E (R90): LHV_est + trunc((raw − LHV_est) × α / 16). -/
def filtered (p : LinePage) (est raw : Nat) : Nat :=
  ((est : Int) + (((raw : Int) - est) * p.alpha).tdiv 16).toNat

/-- A fresh burn entry (R86). -/
def BurnEntry.fresh : BurnEntry := ⟨0, 0, false, 0⟩

/-- R88 to R90: the entry in progress closes into the record, the estimate is formed or held, and a fresh entry
opens; LHV_USED is set. -/
def State.closeBurnMinute (s : State) (l : LineId) (e : BurnEntry) : State :=
  let c := s.line l
  let record := (e :: c.record).take (c.page.heatWindow + c.page.massLag)
  let c := { c with record := record, entry := some .fresh }
  let s :=
    match rawEstimate c.page record with
    | .ok raw => s.setLine l { c with lhvEst := filtered c.page c.lhvEst raw, heldRun := false }
    | .error reason =>
      let s := s.setLine l { c with heldRun := true }
      if c.heldRun then s else s.log (lineSource l) .lhvHeld reason c.lhvEst
  s.own .lhvUsed (some l) (s.line l).lhvUsed

/-- BURN_MINUTE_CLOSE (R87): at the plant-time minute boundary, or at the minute timer while plant time is
UNSET; taken while the line is FEEDING or FEED-HOLD. The next boundary does not wrap with plant time (log 35). -/
def State.burnMinuteClose (s : State) (l : LineId) : State :=
  let c := s.line l
  match c.entry with
  | none => s
  | some e =>
    match c.burnAt, c.burnTimer with
    | some p, _ =>
      let s := s.reachPlant p
      (s.setLine l { s.line l with burnAt := some (p + 60000) }).closeBurnMinute l e
    | none, some t =>
      let s := s.reach t
      (s.setLine l { s.line l with burnTimer := some (s.runTime + 60000) }).closeBurnMinute l e
    | none, none => s

/-- The first minute boundary at or after a plant time. -/
def minuteFrom (p : Nat) : Nat := ceilDiv p 60000 * 60000

/-- R87: a plant time lies in the minute that ends at the boundary `b`, on the same side of it as the plant time
before. -/
def sameMinute (b t : Nat) : Bool := decide (b ≤ t + 60000 ∧ t < b)

/-- R87: SET-TIME while an entry is in progress: the minute timer stops, and the entry closes at the first minute
boundary of the new plant time. One that stays in the minute under way changes nothing (log 44). -/
def State.burnSetTime (s : State) (l : LineId) (t : Nat) : State :=
  let c := s.line l
  if c.entry.isSome = false ∨ c.burnAt.any (fun b => sameMinute b t) = true then s
  else s.setLine l { c with burnTimer := none, burnAt := some (minuteFrom t) }

/-! ### LINE-CONTROL -/

/-- A role's input point is configured, mapped to an INPUT slot and usable to line control (R62, check 3). -/
def State.inputReady (s : State) (r : Role) (l : LineId) : Bool :=
  match s.findPoint r (some l) with
  | none => false
  | some i => s.mapped .input i && (s.point i).shownQuality.lineOk

/-- FEEDER_COMMAND is configured, mapped to an OUTPUT slot and not DEGRADED (R62, check 3). -/
def State.feederReady (s : State) (l : LineId) : Bool :=
  match s.findPoint .feederCommand (some l) with
  | none => false
  | some i => s.mapped .output i && decide ((s.point i).shownQuality ≠ .degraded)

/-- R62, check 3: the first failing role, coded 1 to 5. -/
def State.failingRole (s : State) (l : LineId) : Option Nat :=
  if s.inputReady .furnaceTemp l = false then some 1
  else if s.inputReady .steamFlow l = false then some 2
  else if s.inputReady .feederStatus l = false then some 3
  else if s.inputReady .lineStatus l = false then some 4
  else if s.feederReady l = false then some 5
  else none

/-- FLAME_PROVEN and ID_FAN_RUNNING both high in the level of LINE_STATUS, usable to line control (R62, R65). -/
def State.tripSignalsHigh (s : State) (l : LineId) : Bool :=
  match s.readLevel Quality.lineOk .lineStatus (some l) with
  | none => false
  | some lv => lv.getLsbD 0 && lv.getLsbD 1

/-- R62: the checks of START in their order; the data bytes of the refusal, or none. -/
def State.startCheck (s : State) (l : LineId) : Option (List Byte) :=
  let c := s.line l
  if c.state ≠ .off ∧ c.state ≠ .burnout then some [1]
  else if s.ring.segment ≠ .run then some [2]
  else
    match s.failingRole l with
    | some k => some [3, BitVec.ofNat 8 k]
    | none =>
      if c.permissive = false then some [4]
      else if (s.fgc l).abn.exhausted then some [5]
      else if c.jam then some [6]
      else if s.tripSignalsHigh l = false then some [7]
      else none

/-- R62, R95: what START prepares before the change to FEEDING. The fresh entry closes at the first minute boundary
after START (log 44). -/
def Line.prepareStart (c : Line) (now : Nat) (plant : Option Nat) : Line :=
  { c with
    record := []
    entry := some .fresh
    heldRun := false
    lhvEst := c.page.lhvInit
    trim := 0
    o2Trim := 0
    lowCount := 0
    highCount := 0
    lastDone := none
    due := .atOnce
    ranPeriod := false
    burnoutAt := none
    periodAt := some (now + c.page.period)
    burnAt := plant.map nextMinute
    burnTimer := if plant = none then some (now + 60000) else none }

/-- R62: the line enters FEEDING, and a stroke starts if R72 allows. -/
def State.startLine (s : State) (l : LineId) : State :=
  let s := s.setLine l ((s.line l).prepareStart s.runTime s.clock.plant)
  let s := s.own .lhvUsed (some l) (s.line l).lhvUsed
  (s.changeLine l .feeding .start).tryStroke l

/-- LINE-CONTROL START (R62). -/
def State.cmdStart (s : State) (line : Byte) : State :=
  match lineOf line with
  | none => s.answer .lineControl .badIndex
  | some l =>
    match s.startCheck l with
    | some data => s.answer .lineControl .badState data
    | none => (s.startLine l).answer .lineControl .done

/-- LINE-CONTROL STOP (R63). -/
def State.cmdStop (s : State) (line : Byte) : State :=
  match lineOf line with
  | none => s.answer .lineControl .badIndex
  | some l =>
    if (s.line l).state = .tripped then s.badState .lineControl 1
    else (s.toBurnout l .stop).answer .lineControl .done

/-- LINE-CONTROL RESUME (R64). -/
def State.cmdResume (s : State) (line : Byte) : State :=
  match lineOf line with
  | none => s.answer .lineControl .badIndex
  | some l =>
    match (s.line l).state with
    | .feeding => s.answer .lineControl .done
    | .feedHold =>
      if .strokeTimeout ∈ (s.line l).causes then (s.removeCause l .strokeTimeout).answer .lineControl .done
      else s.badState .lineControl 8
    | .off => s.badState .lineControl 1
    | .burnout => s.badState .lineControl 1
    | .tripped => s.badState .lineControl 1

/-- LINE-CONTROL RESET-TRIP (R65). -/
def State.cmdResetTrip (s : State) (line : Byte) : State :=
  match lineOf line with
  | none => s.answer .lineControl .badIndex
  | some l =>
    if (s.line l).state ≠ .tripped then s.badState .lineControl 1
    else if s.tripSignalsHigh l = false then s.badState .lineControl 7
    else
      let s := s.changeLine l .off .resetTrip
      (s.setLine l { s.line l with trip := none }).answer .lineControl .done

/-! ### SET-OVERRIDE -/

/-- R91: the override changes; a change of the switch or the value is logged, and LHV_USED follows LHV_used. -/
def State.setOverride (s : State) (l : LineId) (on : Bool) (value : Nat) : State :=
  let c := s.line l
  if c.override = on ∧ c.lhvOvr = value then s
  else
    let s := s.setLine l { c with override := on, lhvOvr := value }
    let s := s.log (lineSource l) .lhvOverride (if on then 1 else 0) (s.line l).lhvUsed
    if (s.line l).lhvUsed = c.lhvUsed then s else s.own .lhvUsed (some l) (s.line l).lhvUsed

/-- SET-OVERRIDE ON (R91): the value is clamped to 2,000 to 30,000. -/
def State.cmdOverrideOn (s : State) (line : Byte) (value : Word16) : State :=
  match lineOf line with
  | none => s.answer .setOverride .badIndex
  | some l =>
    let v := clampNat value.toNat 2000 30000
    (s.setOverride l true v).answer .setOverride (if v = value.toNat then .done else .doneClamped)

/-- SET-OVERRIDE OFF (R91). -/
def State.cmdOverrideOff (s : State) (line : Byte) : State :=
  match lineOf line with
  | none => s.answer .setOverride .badIndex
  | some l => (s.setOverride l false (s.line l).lhvOvr).answer .setOverride .done

end Sys2Proof.Machine
end

