-- ==== Sys2Proof/Machine/Fgc.lean ====
section
/-! DEFINITION. The flue gas unit's events: sample instants and normalisation (R98, R99), calibration (R100),
the minute (R101 to R103), half-hours and days (R114 to R117), restraint (R119 to R121) and abnormal operation
(R123 to R129). -/

namespace Sys2Proof.Machine

/-! ### Samples -/

/-- A wet reading taken to dry gas (R99, step 2). -/
def toDry (b : Basis) (h2o x : Nat) : Nat :=
  match b with
  | .dry => x
  | .wet => x * 10000 / (10000 - h2o)

/-- R99: the normalised value C_ref, or none when the dry oxygen is 2,000 or more. -/
def normalise (b : Basis) (o2Ref : Nat) (o2 h2o c : Int) : Option Nat :=
  let h := (clampInt h2o 0 4000).toNat
  let o2Dry := toDry b h o2.toNat
  let cDry := toDry b h c.toNat
  if 2000 ≤ o2Dry then none
  else if o2Ref < o2Dry then some (cDry * (2100 - o2Ref) / (2100 - o2Dry))
  else some cDry

/-- A calibration stands on the component point, on O2_FLUE, or for a WET component on H2O_FLUE (R98, R100); a component
is WET by the basis in force (R97). -/
def Fgc.calibrating (f : Fgc) (c : Component) : Bool :=
  f.cal.get c || f.calO2 || (decide (f.basis.get c = .wet) && f.calH2O)

/-- R98: a sample of a configured component, good with its C_ref or not good with its reason. -/
def State.judgeSample (s : State) (l : LineId) (c : Component) : Except Nat Nat :=
  let f := s.fgc l
  match s.read Quality.sumOk c.role (some l) with
  | none => .error 1
  | some v =>
    if f.calibrating c then .error 2
    else
      match s.read Quality.sumOk .o2Flue (some l) with
      | none => .error 3
      | some o2 =>
        match f.basis.get c, s.read Quality.sumOk .h2oFlue (some l) with
        | .wet, none => .error 4
        | _, h2o =>
          match normalise (f.basis.get c) f.page.o2Ref o2 (h2o.getD 0) v with
          | none => .error 5
          | some x => .ok x

/-- R98, R101: the latest-sample record and the minute take a sample. -/
def Fgc.addSample (f : Fgc) (c : Component) (now : Nat) (r : Except Nat Nat) : Fgc :=
  match r with
  | .ok x =>
    { f with
      latest := f.latest.set c { f.latest.get c with sample := some (x, now) }
      minute := f.minute.map fun m =>
        let k := m.comps.get c
        { m with comps := m.comps.set c { k with samples := k.samples + 1, good := k.good + 1, sum := k.sum + x } } }
  | .error e =>
    { f with
      latest := f.latest.set c { f.latest.get c with reason := e }
      minute := f.minute.map fun m =>
        let k := m.comps.get c
        { m with comps := m.comps.set c { k with samples := k.samples + 1 } } }

/-- A component whose role has no configured point takes no sample (R98). -/
def State.sampleComponent (s : State) (l : LineId) (c : Component) : State :=
  if (s.findPoint c.role (some l)).isSome then
    s.setFgc l ((s.fgc l).addSample c s.runTime (s.judgeSample l c))
  else s

/-- R97: the bases of the page come into force (log 81). -/
def Fgc.takeBasis (f : Fgc) : Fgc := { f with basis := Six.of fun c => (f.page.comps.get c).basis }

/-- SAMPLE_INSTANT (R98): the 1 s sample timer expires and restarts; the samples are judged on the bases of the page,
which hold from here on (R97). -/
def State.sampleInstant (s : State) (l : LineId) : State :=
  let s := s.reach (s.fgc l).sampleAt
  let s := s.setFgc l { (s.fgc l).takeBasis with sampleAt := s.runTime + 1000 }
  Component.all.foldl (init := s) fun s c => s.sampleComponent l c

/-! ### Calibration -/

/-- The eight points of a unit (R97). -/
inductive FgcPoint where
  | comp (c : Component)
  | o2
  | h2o
deriving DecidableEq, Repr

/-- The eight points in the order of R97, in which their flags are taken (log 73). -/
def FgcPoint.all : List FgcPoint := Component.all.map .comp ++ [.o2, .h2o]

/-- The role of a unit's point. -/
def FgcPoint.role : FgcPoint → Role
  | .comp c => c.role
  | .o2 => .o2Flue
  | .h2o => .h2oFlue

/-- The calibration flag of a point. -/
def Fgc.calFlag (f : Fgc) : FgcPoint → Bool
  | .comp c => f.cal.get c
  | .o2 => f.calO2
  | .h2o => f.calH2O

/-- Sets or clears the calibration flag of a point. -/
def Fgc.setCal (f : Fgc) (p : FgcPoint) (on : Bool) : Fgc :=
  match p with
  | .comp c => { f with cal := f.cal.set c on }
  | .o2 => { f with calO2 := on }
  | .h2o => { f with calH2O := on }

/-- The components a flag of this point touches (R100), WET by the basis in force (R97). -/
def Fgc.touches (f : Fgc) (p : FgcPoint) (c : Component) : Bool :=
  match p with
  | .comp d => decide (c = d)
  | .o2 => true
  | .h2o => decide (f.basis.get c = .wet)

/-- R100: the minute in progress is touched at the moment a flag is set. -/
def Fgc.touchMinute (f : Fgc) (p : FgcPoint) : Fgc :=
  { f with minute := f.minute.map fun m =>
      { m with comps := Six.of fun c =>
          { m.comps.get c with touched := (m.comps.get c).touched || f.touches p c } } }

/-- R100: a flag changes and the change is logged with the point number; a flag that stands as asked is left. -/
def State.setCalibration (s : State) (l : LineId) (p : FgcPoint) (pointNo : Nat) (on : Bool) : State :=
  let f := s.fgc l
  if f.calFlag p = on then s
  else
    let f := f.setCal p on
    let f := if on then f.touchMinute p else f
    (s.setFgc l f).log (fgcSource l) .calibration pointNo (if on then 1 else 0)

/-- A point's INPUT slot names a station as expected writer. -/
def State.writtenBy (s : State) (i station : Nat) : Bool :=
  s.ring.slotMap.any fun e => decide (e.direction = .input ∧ e.point = i ∧ e.writer = station)

/-- R100: CAL-BEGIN or CAL-END of a station reaches a line's unit: every point of the line it writes, in the order of
R97 (log 73). -/
def State.calibrate (s : State) (l : LineId) (station : Nat) (on : Bool) : State :=
  FgcPoint.all.foldl (init := s) fun s p =>
    match s.findPoint p.role (some l) with
    | none => s
    | some i => if s.writtenBy i station then s.setCalibration l p i on else s

/-! ### Abnormal operation -/

/-- R127: the effective remaining. -/
def Abnormal.remaining (a : Abnormal) : Nat := if a.valid then a.annual else 0

/-- R127: the exhausted condition as it stands. -/
def Fgc.isExhausted (f : Fgc) : Bool :=
  f.abn.active && (decide (f.page.consecLimit ≤ f.abn.consec) || decide (f.abn.remaining = 0))

/-- R127: the exhausted condition is judged; coming to hold it is logged and brings a forced-stop request,
ceasing it is logged. -/
def State.judgeExhausted (s : State) (l : LineId) : State :=
  let f := s.fgc l
  if f.isExhausted then
    if f.abn.exhausted then s
    else
      let s := s.setFgc l { f with abn.exhausted := true }
      let s := s.log (fgcSource l) .budgetExhausted (if f.page.consecLimit ≤ f.abn.consec then 1 else 2)
        f.abn.consec (f.abn.remaining / 60 : Nat)
      s.toBurnout l .forcedStop
  else if f.abn.exhausted then
    (s.setFgc l { f with abn.exhausted := false }).log (fgcSource l) .exhaustedCleared
  else s

/-- R124: an event that brings ABNORMAL: cause 1 EXCEEDANCE or 2 EQUIPMENT. Counting and the exhausted condition
are judged after it. -/
def State.enterAbnormal (s : State) (l : LineId) (equipment : Bool) : State :=
  let f := s.fgc l
  let a := f.abn
  let s :=
    if a.active then
      s.setFgc l { f with abn := { a with exceedance := a.exceedance || !equipment, equipment := a.equipment || equipment } }
    else
      (s.setFgc l { f with abn :=
          { a with active := true, exceedance := !equipment, equipment := equipment, beganAt := s.runTime } }).log
        (fgcSource l) .abnormalBegin (if equipment then 2 else 1) a.consec
  (s.judgeCounting l).judgeExhausted l

/-- R125: the record returns to NORMAL. -/
def State.endAbnormal (s : State) (l : LineId) : State :=
  let f := s.fgc l
  let s := s.log (fgcSource l) .abnormalEnd 0 f.abn.consec (f.abn.remaining / 60 : Nat)
  let s := s.setFgc l
    { f with
      abn := { f.abn with active := false, exceedance := false, equipment := false, consec := 0 }
      secondAt := none }
  s.judgeExhausted l

/-- R129: BUDGET_REMAINING in minutes. -/
def State.showBudget (s : State) (l : LineId) : State :=
  s.own .budgetRemaining (some l) ((s.fgc l).abn.remaining / 60 : Nat)

/-- ABNORMAL_SECOND (R126): one second is counted. -/
def State.abnormalSecond (s : State) (l : LineId) : State :=
  match (s.fgc l).secondAt with
  | none => s
  | some t =>
    let s := s.reach t
    let f := s.fgc l
    let a := f.abn
    let b := { a with
      consec := min 14400 (a.consec + 1)
      annual := if a.valid then a.annual - 1 else a.annual }
    let s := s.setFgc l { f with abn := b, secondAt := some (s.runTime + 1000) }
    let s := if b.remaining / 60 = a.remaining / 60 then s else s.showBudget l
    s.judgeExhausted l

/-- R123: a FAULT or FAULT-CLEAR of a station bound to the unit's points; either event has the station as its subject
(log 53). -/
def State.trainFault (s : State) (l : LineId) (station : Nat) (on : Bool) : State :=
  let f := s.fgc l
  if f.trainFault = on then s
  else
    let s := (s.setFgc l { f with trainFault := on }).log (fgcSource l) .trainFault station (if on then 1 else 0)
    if on then s.enterAbnormal l true else s

/-! ### Half-hours and days -/

/-- R113: the uncertainty deduction. -/
def deduction (p : ComponentPage) : Nat := p.dayLimit * p.uncert / 1000

/-- R115: the average and the validated average of a component, or none. -/
def averagesOf (p : ComponentPage) (k : HalfComp) : Option (Nat × Nat) :=
  if k.valid = 0 then none else some (k.sum / k.valid, k.sum / k.valid - deduction p)

/-- R115: the status of a component. -/
def halfStatus (configured : Bool) (thr operating valid : Nat) : HalfStatus :=
  if configured = false then .none
  else if operating < 15 then .notOperating
  else if thr ≤ valid then .valid
  else .invalid

/-- R115: a component of the record. -/
def halfComp (configured : Bool) (f : Fgc) (h : HalfHour) (c : Component) : HalfRecComp :=
  let p := f.page.comps.get c
  let k := h.comps.get c
  let st := halfStatus configured f.page.halfHourThr h.operating k.valid
  let av := averagesOf p k
  { status := st
    averages := av
    valid := k.valid
    exceeded := decide (st = .valid) && (av.map fun a => decide (p.halfLimit < a.2)).getD false }

/-- A component's role has a configured point. -/
def State.configured (s : State) (l : LineId) (c : Component) : Bool := (s.findPoint c.role (some l)).isSome

/-- R115: the record of the half-hour in progress. -/
def State.halfRecord (s : State) (l : LineId) (h : HalfHour) (mark : ClosingMark) : HalfRecord :=
  let comps := Six.of fun c => halfComp (s.configured l c) (s.fgc l) h c
  { start := h.start
    comps := comps
    operating := h.operating
    calib := h.calib
    adjusted := h.adjusted || decide (mark = .early)
    exceeded := Component.all.any fun c => (comps.get c).exceeded
    mark := mark }

/-- R115: the index of a half-hour of its day. -/
def halfIndex (start : Nat) : Nat := start % 86400000 / 1800000

/-- R125: a close that may end an episode. -/
def endsEpisode (r : HalfRecord) : Bool :=
  decide (r.mark = .boundary) && !r.exceeded &&
    Component.all.all fun c =>
      match (r.comps.get c).status with
      | .valid | .notOperating | .none => true
      | .invalid => false

/-- R124, R125: the abnormal-operation record is judged at a half-hour close. -/
def State.judgeHalf (s : State) (l : LineId) (r : HalfRecord) : State :=
  if r.exceeded then s.enterAbnormal l false
  else if (s.fgc l).abn.active ∧ endsEpisode r ∧ (s.fgc l).trainFault = false then s.endAbnormal l
  else s

/-- R115, step 3: the report of a VALID component is set to its validated average. -/
def State.reportHalf (s : State) (l : LineId) (r : HalfRecord) (c : Component) : State :=
  match (r.comps.get c).status, (r.comps.get c).averages with
  | .valid, some a => s.own c.report (some l) (a.2 : Nat)
  | _, _ => s

/-- R115, step 1: an exceeded component is logged. -/
def State.logExceeded (s : State) (l : LineId) (r : HalfRecord) (c : Component) : State :=
  if (r.comps.get c).exceeded then
    s.log (fgcSource l) .halfHourExceeded c.code (((r.comps.get c).averages.map (·.2)).getD 0 : Nat)
      (((s.fgc l).page.comps.get c).halfLimit)
  else s

/-- R115, steps 1 to 4. -/
def State.closeHalf (s : State) (l : LineId) (h : HalfHour) (mark : ClosingMark) : State :=
  let r := s.halfRecord l h mark
  let s := Component.all.foldl (init := s) fun s c => s.logExceeded l r c
  let s := s.setFgc l { s.fgc l with table := (s.fgc l).table.set (halfIndex r.start) (some r) }
  let s := Component.all.foldl (init := s) fun s c => s.reportHalf l r c
  s.judgeHalf l r

/-- R117: the validated averages of the records in which a component is VALID. -/
def validatedOf (table : List (Option HalfRecord)) (c : Component) : List Nat :=
  table.filterMap fun e =>
    match e with
    | none => none
    | some r => if (r.comps.get c).status = .valid then (r.comps.get c).averages.map (·.2) else none

/-- R117: a component of the day summary. -/
def dayComp (f : Fgc) (c : Component) : DayComp :=
  let v := validatedOf f.table c
  let avg := if v.length = 0 then none else some (v.sum / v.length)
  let valid := decide (f.page.dayThr ≤ v.length)
  { count := v.length
    average := avg
    valid := valid
    exceeded := valid && (avg.map fun a => decide ((f.page.comps.get c).dayLimit < a)).getD false }

/-- R117: the summary of the day that starts at `start`. -/
def daySummary (f : Fgc) (start : Nat) (mark : ClosingMark) : DayRecord :=
  { start := start
    comps := Six.of (dayComp f)
    records := (f.table.filter (·.isSome)).length
    adjusted := f.table.any fun e => (e.map (·.adjusted)).getD false
    mark := mark }

/-- R117: a day-exceeded component is logged. -/
def State.logDay (s : State) (l : LineId) (r : DayRecord) (c : Component) : State :=
  if (r.comps.get c).exceeded then
    s.log (fgcSource l) .dayExceeded c.code ((r.comps.get c).average.getD 0 : Nat)
      (((s.fgc l).page.comps.get c).dayLimit)
  else s

/-- R117: the day closes. -/
def State.closeDay (s : State) (l : LineId) (halfStart : Nat) (mark : ClosingMark) : State :=
  let r := daySummary (s.fgc l) (halfStart / 86400000 * 86400000) mark
  let s := Component.all.foldl (init := s) fun s c => s.logDay l r c
  let f := s.fgc l
  s.setFgc l { f with dayLatest := some r, dayPrev := f.dayLatest, table := List.replicate 48 none }

/-- A fresh half-hour (R115, R116). -/
def HalfHour.fresh (start : Nat) (adjusted : Bool) : HalfHour := ⟨start, Six.all ⟨0, 0⟩, 0, false, adjusted⟩

/-- R114: a minute handed on is added to the half-hour in progress, also beyond the 30 of a clock that is not set back
(log 76). -/
def HalfHour.add (h : HalfHour) (values : Six (Option Nat)) (operating touched adjusted : Bool) : HalfHour :=
  { h with
    comps := Six.of fun c =>
      match values.get c with
      | none => h.comps.get c
      | some v => ⟨(h.comps.get c).valid + 1, (h.comps.get c).sum + v⟩
    operating := if operating then h.operating + 1 else h.operating
    calib := h.calib || touched
    adjusted := h.adjusted || adjusted }

/-! ### Restraint -/

/-- The findings of R119. -/
inductive Finding where
  | unjudged
  | above
  | low
  | between
deriving DecidableEq, Repr

/-- The loop that stands for a component (R109). -/
def loopOf : Component → Option DosingLoop
  | .nox => some .urea
  | .so2 => some .lime
  | .hcl => some .lime
  | .dust => none
  | .co => none
  | .toc => none

/-- R119: the finding of a component on the half-hour in progress. -/
def finding (configured : Bool) (f : Fgc) (h : HalfHour) (satAll : Three Bool) (c : Component) : Finding :=
  let p := f.page.comps.get c
  let k := h.comps.get c
  if configured = false ∨ k.valid < 5 then .unjudged
  else
    let mean := k.sum / k.valid - deduction p
    let on := p.halfLimit * p.rOn / 1000
    let off := p.halfLimit * p.rOff / 1000
    let sat := ((loopOf c).map satAll.get).getD false
    if on < mean ∨ (off < mean ∧ sat) then .above
    else if mean ≤ off then .low
    else .between

/-- R120: the base of a lowering. -/
def restraintBase (cap : Option Nat) (steam : Option Int) (fMax : Nat) : Int :=
  match steam, cap with
  | some f, some v => if (v : Int) < f then v else f
  | some f, none => f
  | none, some v => v
  | none, none => fMax

/-- R120: the EMISSION cap is lowered; RESTRAINT-RAISED follows what the request brings (log 71). -/
def State.lowerEmission (s : State) (l : LineId) (c : Component) : State :=
  let f := s.fgc l
  let p := (s.line l).page
  let base := restraintBase f.capAsked (s.read Quality.lineOk .steamFlow (some l)) p.fMax
  let new := (max (base - f.page.restraintStep) p.fFloor).toNat
  if f.capAsked = some new then s
  else
    let s := s.setFgc l { f with capAsked := some new }
    let s := s.capSet l .emission new
    if f.capAsked = none then s.log (fgcSource l) .restraintRaised c.code new else s

/-- R121: the EMISSION cap is raised by the step, or removed at F_max. -/
def State.raiseEmission (s : State) (l : LineId) : State :=
  let f := s.fgc l
  match f.capAsked with
  | none => s
  | some v =>
    let new := v + f.page.restraintStep
    if (s.line l).page.fMax ≤ new then
      ((s.setFgc l { f with capAsked := none }).capRelease l .emission).log (fgcSource l) .restraintReleased 0 0
    else (s.setFgc l { f with capAsked := some new }).capSet l .emission new

/-- R119: one evaluation, on the findings. -/
def State.restrain (s : State) (l : LineId) (finds : Six Finding) : State :=
  let f := s.fgc l
  match Component.all.find? fun c => decide (finds.get c = .above) with
  | some c => (s.setFgc l { f with lowCloses := 0 }).lowerEmission l c
  | none =>
    if Component.all.any fun c => decide (finds.get c = .between) then s.setFgc l { f with lowCloses := 0 }
    else if Component.all.any fun c => decide (finds.get c = .low) then
      if 3 ≤ f.lowCloses + 1 then (s.setFgc l { f with lowCloses := 0 }).raiseEmission l
      else s.setFgc l { f with lowCloses := f.lowCloses + 1 }
    else s

/-- R119: the evaluation at a minute close, when the line is FEEDING or FEED-HOLD. -/
def State.evaluateRestraint (s : State) (l : LineId) (satAll : Three Bool) : State :=
  let f := s.fgc l
  match f.half with
  | none => s
  | some h =>
    if (s.line l).state.feeds then s.restrain l (Six.of fun c => finding (s.configured l c) f h satAll c) else s

/-! ### The minute -/

/-- R102: a component's minute value, or none when it is invalid. -/
def minuteValue (configured : Bool) (thr : Nat) (k : MinuteComp) : Option Nat :=
  if configured = true ∧ 1 ≤ k.samples ∧ k.samples * thr ≤ k.good * 100 ∧ k.touched = false ∧
      k.forcedInvalid = false then
    some (k.sum / k.good)
  else none

/-- R102, step 3: a fresh minute. -/
def Fgc.freshMinute (f : Fgc) (start : Nat) (adjusted : Bool) : Minute :=
  { start := start
    comps := Six.of fun c => ⟨0, 0, 0, f.calibrating c, false⟩
    satAll := ⟨f.loops.urea.saturated, f.loops.lime.saturated, f.loops.carbon.saturated⟩
    adjusted := adjusted }

/-- R102, step 3: a minute opens. -/
def Fgc.openMinute (f : Fgc) (start : Nat) (adjusted : Bool) : Fgc :=
  { f with minute := some (f.freshMinute start adjusted) }

/-- R102, step 1, and R114: the minute record is handed to the half-hour in progress. -/
def State.handMinute (s : State) (l : LineId) (m : Minute) (values : Six (Option Nat)) (adjusted : Bool) : State :=
  let f := s.fgc l
  let touched := Component.all.any fun c => (m.comps.get c).touched
  s.setFgc l { f with half := f.half.map fun h => h.add values (s.line l).state.operates touched adjusted }

/-- R114, R115, R117: the half-hour and, at a day boundary, the day close at a boundary `b` of plant time. -/
def State.boundaryCloses (s : State) (l : LineId) (b : Nat) : State :=
  if b % 1800000 = 0 then
    match (s.fgc l).half with
    | none => s
    | some h =>
      let s := s.closeHalf l h .boundary
      let s := if b % 86400000 = 0 then s.closeDay l h.start .boundary else s
      s.setFgc l { s.fgc l with half := some (.fresh b false) }
  else s

/-- FGC_MINUTE_CLOSE (R102, R114): the minute in progress closes at its boundary. -/
def State.fgcMinuteClose (s : State) (l : LineId) : State :=
  match (s.fgc l).minute with
  | none => s
  | some m =>
    let b := nextMinute m.start
    let s := s.reachPlant b
    let values := Six.of fun c => minuteValue (s.configured l c) (s.fgc l).page.minuteThr (m.comps.get c)
    let s := s.handMinute l m values m.adjusted
    let s := s.evaluateRestraint l m.satAll
    let s := s.runLoops l .minute
    let s := s.setFgc l ((s.fgc l).openMinute b false)
    s.boundaryCloses l b

/-! ### SET-TIME -/

/-- R103, step 2: how many skipped minutes lie in the half-hour of `t`, after an interrupted minute. -/
def skippedMinutes (interrupted t : Nat) : Nat :=
  (t / 60000 * 60000 - max (nextMinute interrupted) (t / 1800000 * 1800000)) / 60000

/-- R116: the half-hour at a SET-TIME to `t`. -/
def State.halfSetTime (s : State) (l : LineId) (t : Nat) : State :=
  let opened (s : State) : State :=
    s.setFgc l { s.fgc l with half := some (.fresh (t / 1800000 * 1800000) true) }
  match (s.fgc l).half with
  | none => opened s
  | some h =>
    if t / 1800000 = h.start / 1800000 then s
    else
      let s := s.closeHalf l h .early
      let s := if t / 86400000 = h.start / 86400000 then s else s.closeDay l h.start .early
      opened s

/-- R103: the skipped minutes are handed on, each with every value invalid and time adjusted set, and untouched by
calibration (log 74). -/
def HalfHour.skip (h : HalfHour) (operating : Bool) : Nat → HalfHour
  | 0 => h
  | n + 1 => (h.add (Six.all none) operating false true).skip operating n

/-- R103 with R116: SET-TIME at a flue gas unit. -/
def State.fgcSetTime (s : State) (l : LineId) (t : Nat) : State :=
  let before := (s.fgc l).minute
  let s :=
    match before with
    | none => s
    | some m => s.handMinute l m (Six.all none) true
  let s := s.halfSetTime l t
  let n := (before.map fun m => skippedMinutes m.start t).getD 0
  let f := s.fgc l
  let s := s.setFgc l { f with half := f.half.map fun h => h.skip (s.line l).state.operates n }
  s.setFgc l ((s.fgc l).openMinute t true)

/-! ### Timers and LOAD-BUDGET -/

/-- SATURATION_TIMER_EXPIRY (R109). -/
def State.saturationExpiry (s : State) (l : LineId) (d : DosingLoop) : State :=
  let lo := (s.fgc l).loops.get d
  match lo.satAt with
  | none => s
  | some t =>
    let s := s.reach t
    let f := s.fgc l
    let s := s.setFgc l { f with loops := f.loops.set d { lo with saturated := true, satAt := none } }
    s.log (fgcSource l) .dosingSaturated (loopCode d) 1 lo.output

/-- R128: the effect of a taken LOAD-BUDGET. -/
def State.loadBudget (s : State) (l : LineId) (annual consec : Nat) (valid : Bool) : State :=
  let f := s.fgc l
  let s := s.setFgc l { f with abn := { f.abn with annual := annual, consec := consec, valid := valid } }
  let s := s.log (fgcSource l) .budgetLoaded (if valid then 1 else 0) (annual / 60 : Nat) consec
  (s.showBudget l).judgeExhausted l

/-- One when a value was clamped. -/
def clampCount (before after : Nat) : Nat := if before = after then 0 else 1

/-- LOAD-BUDGET (R128). The line is judged before the validity byte (log 20). -/
def State.cmdLoadBudget (s : State) (line : Byte) (annual : BitVec 32) (consec : Word16) (validity : Byte) : State :=
  match lineOf line with
  | none => s.answer .loadBudget .badIndex
  | some l =>
    if validity ≠ 0 ∧ validity ≠ 1 then s.answer .loadBudget .badValue
    else
      let a := min annual.toNat 1000000
      let k := min consec.toNat 14400
      (s.loadBudget l a k (decide (validity = 1))).answerClamped .loadBudget
        (clampCount annual.toNat a + clampCount consec.toNat k)

end Sys2Proof.Machine
end

