-- ==== Sys2Proof/Machine/Turbine.lean ====
section
/-! DEFINITION. The turbine interface (chapter 9): changes of turbine state (R149), the judgement of
indications (R150, R158), the handshakes (R152 to R157), the governor's authority (R159), the ramped target and
the setpoint (R160, R161), and TURBINE-CONTROL. -/

namespace Sys2Proof.Machine

/-- The causes of a TURBINE-STATE event (R149). -/
inductive TurbCause where
  | command
  | indication
  | dispatch
  | timeout
  | trip
  | local_
  | unexpected
deriving DecidableEq, Repr

/-- The codes of the causes (R149). -/
def TurbCause.code : TurbCause → Nat
  | .command => 1
  | .indication => 2
  | .dispatch => 3
  | .timeout => 4
  | .trip => 5
  | .local_ => 6
  | .unexpected => 7

/-- The indication of a code (section 9.1). -/
def indicationOf (v : Int) : Option Indication :=
  if v = 1 then some .stopped
  else if v = 2 then some .runningUp
  else if v = 3 then some .atSpeed
  else if v = 4 then some .closeReady
  else if v = 5 then some .onGrid
  else if v = 6 then some .unloadPending
  else if v = 7 then some .unloaded
  else if v = 8 then some .trip
  else if v = 9 then some .local_
  else none

/-- The standing request of a state at its entry (R149). -/
def standingRequest : TurbineState → Request
  | .unknown => .none
  | .stopped => .none
  | .runup => .runup
  | .ready => .none
  | .synchronising => .sync
  | .loaded => .load
  | .unloading => .load
  | .tripped => .none
  | .local_ => .none

/-- STOPPED, READY and LOADED are the stable states (section 9.1). -/
def isStable (st : TurbineState) : Bool :=
  match st with
  | .stopped | .ready | .loaded => true
  | .unknown | .runup | .synchronising | .unloading | .tripped | .local_ => false

/-- The tracked value (R159), with no lower limit: a negative TURBINE_STEAM gives a negative one (log 12). -/
def State.tracked (s : State) : Int :=
  match s.read Quality.turbOk .turbineSteam none with
  | none => 0
  | some v => min s.turb.page.rating ((v * 100).tdiv s.turb.page.steamRate)

/-- R159: P_ramped at a change of state. -/
def State.rampedAt (s : State) (new : TurbineState) : Int :=
  match new with
  | .loaded => if s.turb.state = .synchronising then 0 else s.tracked
  | .local_ => s.turb.ramped
  | .unknown => 0
  | .stopped => 0
  | .runup => 0
  | .ready => 0
  | .synchronising => 0
  | .unloading => 0
  | .tripped => 0

/-- The request is set, and TURBINE_REQUEST to its code. -/
def State.request (s : State) (r : Request) : State :=
  ({ s with turb.request := r }).own .turbineRequest none r.code

/-- A handshake awaits an indication, and its timer starts with the indication timeout (R158). -/
def State.await (s : State) (i : Indication) : State :=
  { s with turb.awaited := some i, turb.indAt := some (s.runTime + 1000 * s.turb.page.indTimeout) }

/-- R149: one change of turbine state with its effects in order. -/
def State.changeTurbine (s : State) (new : TurbineState) (cause : TurbCause) : State :=
  let old := s.turb.state
  let ramped := s.rampedAt new
  let s := { s with turb :=
    { s.turb with
      state := new, awaited := none, indAt := none, settleAt := none, closeHeld := false, released := false
      ramped := ramped, lastStable := if isStable new then new else s.turb.lastStable } }
  let s := s.request (standingRequest new)
  (s.log .turbine .turbineState cause.code old.code new.code).oweRun .turbine

/-- R153: stop pending, request STOP, awaiting STOPPED. -/
def State.askStop (s : State) : State :=
  (({ s with turb.stopPending := true }).request .stop).await .stopped

/-- R154: the synchronising trigger, judged in READY with stop pending clear. -/
def State.judgeSync (s : State) : State :=
  let t := s.turb.target
  if s.turb.state = .ready ∧ s.turb.stopPending = false ∧ t.source = .block ∧ t.firm = some true ∧ 0 < t.power then
    (s.changeTurbine .synchronising .dispatch).await .closeReady
  else s

/-- R155: CONFIRM-CLOSE is sent, and close held clears. -/
def State.confirmClose (s : State) : State :=
  (({ s with turb.closeHeld := false }).request .confirmClose).await .onGrid

/-- R155: CLOSE-READY found while the request is SYNC. -/
def State.judgeClose (s : State) : State :=
  if s.turb.request ≠ .sync then s
  else if s.turb.page.pMin ≤ s.env.result.cE then s.confirmClose
  else if s.turb.closeHeld then s
  else ({ s with turb.closeHeld := true }).log .turbine .closeHeld 0 s.env.result.cE s.turb.page.pMin

/-- R156: the turbine enters UNLOADING and the settle timer starts. -/
def State.unload (s : State) (cause : TurbCause) : State :=
  let s := s.changeTurbine .unloading cause
  { s with turb.settleAt := some (s.runTime + 1000 * s.turb.page.settleTime) }

/-- R156: RELEASE is sent, once. -/
def State.release (s : State) : State :=
  if s.turb.state = .unloading ∧ s.turb.released = false then
    (({ s with turb.settleAt := none, turb.released := true }).request .release).await .unloaded
  else s

/-- R158: a match: the state the indication shows is entered with cause UNEXPECTED; it clears stop pending.
CODE-UNEXPECTED is logged after the change (log 71). -/
def State.matchState (s : State) (i : Indication) (new : TurbineState) : State :=
  let old := s.turb.state
  let s := { s with turb.stopPending := false }
  (s.changeTurbine new .unexpected).log .turbine .codeUnexpected i.code old.code

/-- R158: an unexpected indication that changes no state is logged. -/
def State.logUnexpected (s : State) (i : Indication) : State :=
  s.log .turbine .codeUnexpected i.code s.turb.state.code

/-- R153, R157: STOPPED ends a stop. -/
def State.stopped (s : State) : State :=
  ({ s with turb.stopPending := false }).changeTurbine .stopped .indication

/-- R157: the unloading completes in READY; a pending stop goes on as in R153. -/
def State.unloaded (s : State) : State :=
  let pending := s.turb.stopPending
  let s := s.changeTurbine .ready .indication
  if pending then s.askStop else s

/-- R152: AT-SPEED in RUNUP. -/
def State.atSpeed (s : State) : State :=
  let pending := s.turb.stopPending
  let s := s.changeTurbine .ready .indication
  if pending then s.askStop else s.judgeSync

/-- R158, R159: a usable indication is judged against the state it finds. -/
def State.judgeIndication (s : State) (i : Indication) : State :=
  match i with
  | .trip =>
    if s.turb.state = .tripped then s
    else ({ s with turb.stopPending := false }).changeTurbine .tripped .trip
  | .local_ =>
    if s.turb.state = .local_ then s
    else ({ s with turb.stopPending := false }).changeTurbine .local_ .local_
  | .stopped =>
    match s.turb.state with
    | .unknown => s.changeTurbine .stopped .indication
    | .stopped => s
    | .runup => if s.turb.stopPending then s.stopped else s.matchState i .stopped
    | .ready => if s.turb.stopPending then s.stopped else s.matchState i .stopped
    | .synchronising => s.matchState i .stopped
    | .loaded => s.matchState i .stopped
    | .unloading => if s.turb.released ∧ s.turb.stopPending then s.stopped else s.matchState i .stopped
    | .tripped => s.changeTurbine .stopped .indication
    | .local_ => s.changeTurbine .stopped .indication
  | .runningUp =>
    match s.turb.state with
    | .runup => s
    | .tripped => s
    | .local_ => s
    | .unknown => s.logUnexpected i
    | .stopped => s.logUnexpected i
    | .ready => s.logUnexpected i
    | .synchronising => s.logUnexpected i
    | .loaded => s.logUnexpected i
    | .unloading => s.logUnexpected i
  | .atSpeed =>
    match s.turb.state with
    | .unknown => s.changeTurbine .ready .indication
    | .stopped => s.matchState i .ready
    | .runup => s.atSpeed
    | .ready => s
    | .synchronising => s
    | .loaded => s.matchState i .ready
    | .unloading => if s.turb.released then s.unloaded else s.matchState i .ready
    | .tripped => s.matchState i .ready
    | .local_ => s.changeTurbine .ready .indication
  | .closeReady =>
    match s.turb.state with
    | .synchronising => s.judgeClose
    | .tripped => s
    | .local_ => s
    | .unknown => s.logUnexpected i
    | .stopped => s.logUnexpected i
    | .runup => s.logUnexpected i
    | .ready => s.logUnexpected i
    | .loaded => s.logUnexpected i
    | .unloading => s.logUnexpected i
  | .onGrid =>
    match s.turb.state with
    | .unknown => s.changeTurbine .loaded .indication
    | .stopped => s.matchState i .loaded
    | .runup => s.matchState i .loaded
    | .ready => s.matchState i .loaded
    | .synchronising =>
      if s.turb.request = .confirmClose then s.changeTurbine .loaded .indication else s.matchState i .loaded
    | .loaded => if s.turb.request = .none then s.request .load else s
    | .unloading => s
    | .tripped => s.matchState i .loaded
    | .local_ => s.changeTurbine .loaded .indication
  | .unloadPending =>
    match s.turb.state with
    | .loaded => s.unload .indication
    | .unloading => s
    | .tripped => s
    | .local_ => s
    | .unknown => s.logUnexpected i
    | .stopped => s.logUnexpected i
    | .runup => s.logUnexpected i
    | .ready => s.logUnexpected i
    | .synchronising => s.logUnexpected i
  | .unloaded =>
    match s.turb.state with
    | .unloading => if s.turb.released then s.unloaded else s.logUnexpected i
    | .tripped => s
    | .local_ => s
    | .unknown => s.logUnexpected i
    | .stopped => s.logUnexpected i
    | .runup => s.logUnexpected i
    | .ready => s.logUnexpected i
    | .synchronising => s.logUnexpected i
    | .loaded => s.logUnexpected i

/-- R150: TURBINE_INDICATION is judged, at an update of the point and where R158 asks. -/
def State.indicationUpdate (s : State) : State :=
  match s.read Quality.turbOk .turbineIndication none with
  | none => s
  | some v =>
    match indicationOf v with
    | some i => ({ s with turb.unknownRun := false }).judgeIndication i
    | none =>
      if s.turb.unknownRun then s
      else ({ s with turb.unknownRun := true }).log .turbine .codeUnknown 0 v

/-- R156: an update of BYPASS_STATUS, usable to the turbine interface, that shows signal 0 risen. -/
def State.bypassUpdate (s : State) (risen : Signals) (usable : Bool) : State :=
  if usable ∧ risen.getLsbD 0 then s.release else s

/-- INDICATION_TIMEOUT (R158): the handshake has failed; the turbine returns to its last stable state with request
NONE, and the indication presented is judged there. -/
def State.indicationTimeout (s : State) : State :=
  match s.turb.indAt with
  | none => s
  | some t =>
    let s := s.reach t
    let u := s.turb
    let s := s.log .turbine .turbineNoResponse ((u.awaited.map (·.code)).getD 0 : Nat) u.request.code u.state.code
    let s := { s with turb.stopPending := false, turb.awaited := none, turb.indAt := none }
    let s := if u.state = u.lastStable then s else s.changeTurbine u.lastStable .timeout
    (s.request .none).indicationUpdate

/-- SETTLE_TIMER_EXPIRY (R156). -/
def State.settleExpiry (s : State) : State :=
  match s.turb.settleAt with
  | none => s
  | some t => (s.reach t).release

/-! ### The target, the ramp and the setpoint -/

/-- R160: a target record is taken, its power and reserve clamped to the rating; R takes its reserve, and the
synchronising trigger is judged. -/
def State.takeTarget (s : State) (t : Target) : State :=
  let r := s.turb.page.rating
  let t := { t with power := min t.power r, reserve := min t.reserve r }
  ({ s with turb.target := t, turb.reserve := t.reserve }).judgeSync

/-- R160: the ramp in force. -/
def Turbine.rampInForce (u : Turbine) : Nat := u.target.ramp.getD u.page.defaultRamp

/-- R160: the step of a PERIOD run, at least 1. -/
def rampStep (ramp period : Nat) : Nat := max 1 (ramp * period / 60000)

/-- R160: one step toward the target, stopping at it. -/
def rampToward (p target step : Int) : Int :=
  if p < target then min target (p + step) else max target (p - step)

/-- R161: P_sent. -/
def pSent (ramped : Int) (gT steamRate reserve cE rating : Nat) : Int :=
  min ramped ((min (gT * 100 / steamRate - reserve) (min cE rating) : Nat) : Int)

/-- R160: P_ramped moves at PERIOD runs while the turbine is LOADED and TURBINE_SETPOINT is not DEGRADED. -/
def State.stepRamp (s : State) (cause : RunCause) : State :=
  let u := s.turb
  if cause = .period ∧ u.state = .loaded ∧ s.isDegraded .turbineSetpoint none = false ∧ u.ramped ≠ u.target.power then
    { s with turb.ramped := rampToward u.ramped u.target.power (rampStep u.rampInForce s.env.page.period) }
  else s

/-- R155: with close held set, the C_e handed over is judged again. -/
def State.judgeHeldClose (s : State) : State :=
  if s.turb.closeHeld ∧ s.turb.page.pMin ≤ s.env.result.cE then s.confirmClose else s

/-- R161: the setpoint and the reserve are formed and set. -/
def State.sendSetpoint (s : State) : State :=
  let u := s.turb
  let p := pSent u.ramped s.env.result.gT u.page.steamRate u.reserve s.env.result.cE u.page.rating
  let s := { s with turb.sent := p }
  let s := (s.own .turbineSetpoint none p).own .setpointSent none p
  s.own .turbineReserve none (if u.state = .loaded then u.reserve else 0 : Nat)

/-- R142, item 4: the turbine interface is handed a run's results. -/
def State.turbineHandOver (s : State) (cause : RunCause) : State :=
  ((s.stepRamp cause).judgeHeldClose).sendSetpoint

/-! ### TURBINE-CONTROL -/

/-- R152, check 3. -/
def State.turbineReady (s : State) : Bool :=
  (match s.findPoint .turbineRequest none with
    | none => false
    | some i => s.mapped .output i && decide ((s.point i).shownQuality ≠ .degraded)) &&
  (match s.findPoint .turbineIndication none with
    | none => false
    | some i => s.mapped .input i && (s.point i).shownQuality.turbOk)

/-- TURBINE-CONTROL RUNUP (R152). -/
def State.cmdRunup (s : State) : State :=
  match s.turb.state with
  | .stopped =>
    if s.ring.segment ≠ .run then s.badState .turbineControl 2
    else if s.turbineReady = false then s.badState .turbineControl 3
    else ((s.changeTurbine .runup .command).await .atSpeed).answer .turbineControl .done
  | .runup => s.answer .turbineControl .done
  | .ready => s.answer .turbineControl .done
  | .synchronising => s.answer .turbineControl .done
  | .loaded => s.answer .turbineControl .done
  | .unloading => s.answer .turbineControl .done
  | .unknown => s.badState .turbineControl 1
  | .tripped => s.badState .turbineControl 1
  | .local_ => s.badState .turbineControl 1

/-- TURBINE-CONTROL STOP (R153). -/
def State.cmdTurbineStop (s : State) : State :=
  match s.turb.state with
  | .unknown => s.badState .turbineControl 1
  | .local_ => s.badState .turbineControl 1
  | .stopped => s.answer .turbineControl .done
  | .tripped => s.answer .turbineControl .done
  | .runup => (if s.turb.stopPending then s else s.askStop).answer .turbineControl .done
  | .ready => (if s.turb.stopPending then s else s.askStop).answer .turbineControl .done
  | .synchronising =>
    (if s.turb.stopPending then s else (s.changeTurbine .ready .command).askStop).answer .turbineControl .done
  | .loaded =>
    (if s.turb.stopPending then s else ({ s with turb.stopPending := true }).unload .command).answer
      .turbineControl .done
  | .unloading => ({ s with turb.stopPending := true }).answer .turbineControl .done

end Sys2Proof.Machine
end

