-- ==== Sys2Proof/Machine/Telecontrol.lean ====
section
/-! DEFINITION. The dispatch unit (chapter 10): lane reassembly (R165, R166), addresses and supervision (R167,
R177), outgoing messages (R168), order numbers (R169), the schedule queue (R170 to R174), the target (R175),
unmet blocks and capability notices (R176, R178, R179). -/

namespace Sys2Proof.Machine

/-! ### Outgoing messages -/

/-- R168: a formed message is placed at the tail of the outgoing queue, or discarded at 4 messages with
LANE-OUT-OVERFLOW. -/
def State.sendBytes (s : State) (m : List Byte) : State :=
  if s.disp.out.length < 4 then { s with disp.out := s.disp.out ++ [⟨m, 0⟩] }
  else s.log .dispatch .laneOutOverflow 0 (byteAt m 2).toNat

/-- R168: the part sends a message to a pair. -/
def State.sendTo (s : State) (pair : Byte × Byte) (kind : Byte) (number : Nat) (body : List Byte) : State :=
  s.sendBytes (messageBytes pair kind number body)

/-- R164: a pair of (0, 0) is unconfigured. -/
def pairSet (p : Byte × Byte) : Bool := decide (p ≠ (0, 0))

/-- R164: a message is completed: from it on the pairs of the DISPATCH page are in force (log 58). -/
def State.messageDone (s : State) : State :=
  { s with disp.unitUsed := s.disp.page.unit, disp.poolUsed := s.disp.page.pool }

/-- R168: a message the part sends of its own accord goes to the UNIT pair, and is not formed while that is
unconfigured. -/
def State.sendUnit (s : State) (kind : Byte) (number : Nat) (body : List Byte) : State :=
  if pairSet s.disp.unitUsed then s.sendTo s.disp.unitUsed kind number body else s

/-- R168: the segment that an outbound pass writes into the lane area. -/
def State.laneArea (s : State) : List Byte :=
  match s.disp.out with
  | [] => emptyArea 32
  | m :: _ =>
    let (data, last) := cutSegment 30 m.next m.bytes
    segmentArea 32 (decide (m.next = 0)) last m.next data

/-- R168: the queue after its next segment has been written. -/
def State.laneWritten (s : State) : State :=
  match s.disp.out with
  | [] => s
  | m :: rest =>
    if (cutSegment 30 m.next m.bytes).2 then { s with disp.out := rest }
    else { s with disp.out := { m with next := m.next + 1 } :: rest }

/-! ### Discards and reassembly -/

/-- The reasons of R166. -/
inductive Discard where
  | incomplete
  | orphan
  | gap
  | overlong
  | length
  | check
  | kind
deriving DecidableEq, Repr

/-- The codes of the reasons (R166). -/
def Discard.code : Discard → Nat
  | .incomplete => 1
  | .orphan => 2
  | .gap => 3
  | .overlong => 4
  | .length => 5
  | .check => 6
  | .kind => 7

/-- The counts with one more discard. -/
def LaneDiscards.add (c : LaneDiscards) : Discard → LaneDiscards
  | .incomplete => { c with incomplete := wrap32 c.incomplete }
  | .orphan => { c with orphan := wrap32 c.orphan }
  | .gap => { c with gap := wrap32 c.gap }
  | .overlong => { c with overlong := wrap32 c.overlong }
  | .length => { c with length := wrap32 c.length }
  | .check => { c with check := wrap32 c.check }
  | .kind => { c with kind := wrap32 c.kind }

/-- R166: a discard is counted, and logged when the discard-run flag is clear. -/
def State.laneDiscard (s : State) (d : Discard) : State :=
  let run := s.disp.discardRun
  let s := { s with disp.discards := s.disp.discards.add d, disp.discardRun := true }
  if run then s else s.log .dispatch .laneDiscard d.code

/-- R165: the message of a segment is discarded; a segment that is not LAST leaves the buffer SKIPPING. -/
def State.laneSkip (s : State) (d : Discard) (last : Bool) : State :=
  ({ s with disp.rx := if last then .idle else .skipping }).laneDiscard d

/-- The step of the table that acts on a message of a kind (R167). -/
def messageStep (plant unit kind number : Byte) (body : List Byte) : Instr :=
  if kind = 0x10 then .schedule plant unit number body
  else if kind = 0x11 then .cancel plant unit number body
  else if kind = 0x12 then .noticeAck plant unit number
  else if kind = 0x13 then .resync plant unit number
  else if kind = 0x20 then .linkCheck plant unit
  else .kindDiscard plant unit kind

/-- R166: a complete message is checked; one that passes clears the discard-run flag and goes to address
recognition, in the step of its kind. -/
def State.laneMessage (s : State) (m : List Byte) : State :=
  match checkMessage m with
  | some .length => s.laneDiscard .length
  | some .check => s.laneDiscard .check
  | none =>
    ({ s with disp.discardRun := false }).owe
      (messageStep (byteAt m 0) (byteAt m 1) (byteAt m 2) (byteAt m 3) (field m 5 (fieldNat m 4 1)))

/-- R165: a segment that starts a message or is appended to the bytes gathered. OVERLONG is judged here, where
the table of R165 lets the segment in (log 13). -/
def State.laneTake (s : State) (bytes : List Byte) (g : AreaSegment) : State :=
  if 30 < g.length then s.laneSkip .overlong g.last
  else
    let all := bytes ++ g.data.take g.length
    if g.last then ({ s with disp.rx := .idle }).messageDone.laneMessage all
    else { s with disp.rx := .assembling all (g.index + 1) }

/-- R165: a FIRST segment, once no message is in progress. -/
def State.laneFirst (s : State) (g : AreaSegment) : State :=
  if g.index = 0 then s.laneTake [] g else s.laneSkip .gap g.last

/-- R165: the table of reassembly. -/
def State.laneSegment (s : State) (g : AreaSegment) : State :=
  match s.disp.rx with
  | .idle => if g.first then s.laneFirst g else s.laneDiscard .orphan
  | .assembling bytes expected =>
    if g.first then (s.laneDiscard .incomplete).laneFirst g
    else if g.index = expected ∧ g.index < 3 then s.laneTake bytes g
    else s.laneSkip .gap g.last
  | .skipping =>
    if g.first then s.laneFirst g
    else if g.last then { s with disp.rx := .idle }
    else s

/-! ### The target -/

/-- A block is ACTIVE or UNMET. -/
def Block.running (b : Block) : Bool := decide (b.status ≠ .pending)

/-- R175: the target record by its table; of two active blocks the one with the later start. -/
def Dispatch.chosen (d : Dispatch) : Target :=
  match (d.queue.filter Block.running).getLast? with
  | some b => ⟨b.accPower, b.accReserve, some b.ramp, .block, some b.firm⟩
  | none =>
    if d.link = .silent ∧ d.queue = [] then ⟨d.page.pDef, 0, none, .default_, none⟩
    else ⟨d.target.power, d.target.reserve, d.target.ramp, .hold, none⟩

/-- R175: the target is chosen again, and handed to the turbine interface when any field differs. -/
def State.chooseTarget (s : State) : State :=
  let t := s.disp.chosen
  if t = s.disp.target then s else ({ s with disp.target := t }).takeTarget t

/-! ### Capability notices -/

/-- The reason codes of a CAPABILITY message (R168). -/
def NoticeReason.code : NoticeReason → Nat
  | .change => 1
  | .unmet => 2

/-- A CAPABILITY message (R168). -/
def State.sendCapability (s : State) (n : Notice) : State :=
  s.sendUnit 0x32 n.number (bytesOf 2 n.cE ++ bytesOf 1 n.reason.code)

/-- R178: a notice is sent; nothing is formed while the UNIT pair is unconfigured. -/
def State.newNotice (s : State) (reason : NoticeReason) : State :=
  if pairSet s.disp.unitUsed then
    let n : Notice := ⟨s.disp.notice.next, s.disp.lastCe, reason⟩
    let s := { s with disp.notice :=
      { s.disp.notice with
        outstanding := some n
        lastNotified := s.disp.lastCe
        next := (n.number + 1) % 128
        ackAt := some (s.runTime + 1000 * s.disp.page.ackTimeout)
        overdue := false } }
    s.sendCapability n
  else s

/-- R178: BLOCK-UNMET calls for a notice; while one is outstanding it sets the unmet-pending flag. -/
def State.callUnmet (s : State) : State :=
  if pairSet s.disp.unitUsed = false then s
  else if s.disp.notice.outstanding.isSome then { s with disp.notice.unmetPending := true }
  else s.newNotice .unmet

/-- Two values of C_e differ by at least the notice threshold. -/
def moved (a b thr : Nat) : Bool := decide (thr ≤ (a - b) + (b - a))

/-- R178: the change judgement at a hand-over of C_e. -/
def State.judgeChange (s : State) : State :=
  if s.disp.notice.outstanding = none ∧ moved s.disp.lastCe s.disp.notice.lastNotified s.disp.thrUsed then
    s.newNotice .change
  else s

/-- R176: an ACTIVE FIRM block whose accepted P exceeds C_e. -/
def Block.fails (b : Block) (cE : Nat) : Bool := decide (b.status = .active ∧ b.firm = true ∧ cE < b.accPower)

/-- R176: the ACTIVE FIRM blocks are judged; each that fails becomes UNMET, is logged, and calls for a notice, in
the order of the queue (log 71). -/
def State.judgeBlocks (s : State) : State :=
  let failing := s.disp.queue.filter fun (b : Block) => b.fails s.disp.lastCe
  let judged := s.disp.queue.map fun (b : Block) => if b.fails s.disp.lastCe then { b with status := .unmet } else b
  let s := { s with disp.queue := judged }
  failing.foldl (init := s) fun s b =>
    (s.log .dispatch .blockUnmet b.order b.accPower s.disp.lastCe).callUnmet

/-- R142, item 5, with R176 and R178: the dispatch unit is handed C_e, and from this hand-over on the notice threshold
of the DISPATCH page is in force (R164). -/
def State.dispatchHandOver (s : State) (cE : Nat) : State :=
  (({ s with disp.lastCe := cE, disp.thrUsed := s.disp.page.noticeThr }).judgeBlocks).judgeChange

/-- ACK_TIMER_EXPIRY (R178): the outstanding notice is sent again and the timer restarts. While the UNIT pair is
unconfigured only the timer restarts (log 14). A resent notice comes before NOTICE-OVERDUE (log 71). -/
def State.ackExpiry (s : State) : State :=
  match s.disp.notice.ackAt, s.disp.notice.outstanding with
  | some t, some n =>
    let s := s.reach t
    let s := { s with disp.notice.ackAt := some (s.runTime + 1000 * s.disp.page.ackTimeout) }
    if pairSet s.disp.unitUsed = false then s
    else
      let late := s.disp.notice.overdue
      let s := ({ s with disp.notice.overdue := true }).sendCapability n
      if late then s else s.log .dispatch .noticeOverdue n.number n.cE
  | _, _ => s

/-! ### Link supervision -/

/-- R177: a taken message restarts the timer, clears the probe flag and makes the link UP. -/
def State.supervise (s : State) : State :=
  let old := s.disp.link
  let s := { s with disp.supAt := some (s.runTime + 1000 * s.disp.page.supTime), disp.probe := false, disp.link := .up }
  match old with
  | .up => s
  | .down => s.log .dispatch .linkUp
  | .silent => (s.log .dispatch .linkUp).chooseTarget

/-- SUPERVISION_TIMER_EXPIRY (R177). -/
def State.supervisionExpiry (s : State) : State :=
  match s.disp.supAt with
  | none => s
  | some t =>
    let s := s.reach t
    let s := { s with disp.supAt := some (s.runTime + 1000 * s.disp.page.supTime) }
    match s.disp.link with
    | .down => { s with disp.supAt := none }
    | .up =>
      if s.disp.probe then
        ((({ s with disp.link := .silent }).log .dispatch .linkSilent).chooseTarget).sendUnit 0x20 0 []
      else ({ s with disp.probe := true }).sendUnit 0x20 0 []
    | .silent => s.sendUnit 0x20 0 []

/-! ### Addresses -/

/-- R167: the pair a message matches, which its reply goes to; a broadcast LINK-CHECK is taken for the UNIT
pair. -/
def Dispatch.recognise (d : Dispatch) (plant unit kind : Byte) : Option (Byte × Byte) :=
  if pairSet d.unitUsed ∧ (plant, unit) = d.unitUsed then some d.unitUsed
  else if pairSet d.poolUsed ∧ (plant, unit) = d.poolUsed then some d.poolUsed
  else if (plant, unit) = (0xFF, 0xFF) ∧ kind = 0x20 then some d.unitUsed
  else none

/-- R167: a message that is not taken is counted as ignored; a taken one restarts supervision and acts. -/
def State.takeMessage (s : State) (plant unit kind : Byte) (act : State → Byte × Byte → State) : State :=
  match s.disp.recognise plant unit kind with
  | none => { s with disp.ignored := wrap32 s.disp.ignored }
  | some pair => act s.supervise pair

/-! ### Order numbers and replies -/

/-- R169: a numbered message is processed when its number is the one expected, answered again when it is the last
one answered, and otherwise met with SEQUENCE-ERROR. `process` gives the state and the body of the reply. -/
def State.numbered (s : State) (pair : Byte × Byte) (number : Byte)
    (process : State → State × List Byte) : State :=
  let n := number.toNat
  if n = s.disp.vr then
    let (s, body) := process s
    let m := messageBytes pair 0x30 n body
    let s := s.sendBytes m
    { s with disp.retained := some (n, m), disp.vr := (n + 1) % 128 }
  else
    match s.disp.retained with
    | some (k, m) =>
      if n = (s.disp.vr + 127) % 128 ∧ k = n then s.sendBytes m
      else s.sendTo pair 0x33 0 (bytesOf 1 s.disp.vr ++ [number])
    | none => s.sendTo pair 0x33 0 (bytesOf 1 s.disp.vr ++ [number])

/-- The outcomes of an ORDER-REPLY (R168). -/
inductive Outcome where
  | accepted
  | partial_
  | refused
deriving DecidableEq, Repr

/-- The outcome codes (R168). -/
def Outcome.code : Outcome → Nat
  | .accepted => 1
  | .partial_ => 2
  | .refused => 3

/-- The reasons of a refusal (R168, R170). -/
inductive OrderReason where
  | none
  | late
  | full
  | format
  | timeUnset
deriving DecidableEq, Repr

/-- The reason codes (R168). -/
def OrderReason.code : OrderReason → Nat
  | .none => 0
  | .late => 1
  | .full => 2
  | .format => 3
  | .timeUnset => 4

/-- The body of an ORDER-REPLY (R168). -/
def orderReply (o : Outcome) (r : OrderReason) (blocks : List Block) (superseded cE : Nat) : List Byte :=
  bytesOf 1 o.code ++ bytesOf 1 r.code ++ bytesOf 1 blocks.length ++
    blocks.flatMap (fun b => bytesOf 2 b.accPower ++ bytesOf 2 b.accReserve) ++ bytesOf 1 superseded ++ bytesOf 2 cE

/-- R170: a refused order: nothing changes, ORDER is logged, and the reply carries the last C_e. -/
def State.refuseOrder (s : State) (number : Nat) (r : OrderReason) : State × List Byte :=
  (s.log .dispatch .order number Outcome.refused.code r.code, orderReply .refused r [] 0 s.disp.lastCe)

/-! ### SCHEDULE -/

/-- A block as a SCHEDULE body orders it (R167): start in s of plant time, duration in s, P, ramp and R. -/
structure OrderBlock where
  start    : Nat
  duration : Nat
  power    : Nat
  ramp     : Nat
  reserve  : Nat
deriving DecidableEq, Repr

/-- The blocks of a SCHEDULE body, 12 bytes each (R167). -/
def orderBlocks : Nat → List Byte → List OrderBlock
  | 0, _ => []
  | n + 1, b =>
    ⟨fieldNat b 0 4, fieldNat b 4 2, fieldNat b 6 2, fieldNat b 8 2, fieldNat b 10 2⟩ :: orderBlocks n (b.drop 12)

/-- R170, check 1, of one block. -/
def OrderBlock.wellFormed (b : OrderBlock) : Bool :=
  decide (60 ≤ b.duration ∧ b.duration ≤ 14400 ∧ 1 ≤ b.ramp ∧ b.ramp ≤ 500 ∧ b.power ≤ 2000 ∧ b.reserve ≤ 2000)

/-- R170, check 1: each block starts at or after the end of the one before it. -/
def inSequence : List OrderBlock → Bool
  | [] => true
  | [_] => true
  | a :: b :: rest => decide (a.start + a.duration ≤ b.start) && inSequence (b :: rest)

/-- R170, check 1: a SCHEDULE body read whole; none is FORMAT. -/
def parseOrder (body : List Byte) : Option (Bool × List OrderBlock) :=
  let count := fieldNat body 1 1
  let firm := fieldNat body 0 1
  let blocks := orderBlocks count (body.drop 2)
  if body.length = 2 + 12 * count ∧ 1 ≤ count ∧ count ≤ 4 ∧ firm ≤ 1 ∧ blocks.all OrderBlock.wellFormed ∧
      inSequence blocks then
    some (decide (firm = 1), blocks)
  else none

/-- Two blocks overlap when each starts before the other ends (section 10.6). -/
def Block.overlaps (a b : Block) : Bool := decide (a.start < b.stop ∧ b.start < a.stop)

/-- R171, step 3: the accepted P and R. -/
def acceptedValues (firm : Bool) (power reserve cE : Nat) : Nat × Nat :=
  if firm = true ∧ cE < power + reserve then (cE - min reserve cE, min reserve cE) else (power, reserve)

/-- R171, steps 3 and 4: a new block, PENDING. -/
def OrderBlock.block (b : OrderBlock) (order index : Nat) (firm : Bool) (cE : Nat) : Block :=
  let acc := acceptedValues firm b.power b.reserve cE
  { order := order
    index := index
    start := 1000 * b.start
    stop := 1000 * (b.start + b.duration)
    power := b.power
    reserve := b.reserve
    accPower := acc.1
    accReserve := acc.2
    ramp := b.ramp
    firm := firm
    capAt := cE
    status := .pending }

/-- R173: a block truncated to end at `t`; it is gone at once when its end has come. -/
def Block.truncate (b : Block) (now t : Nat) : Option Block := if t ≤ now then none else some { b with stop := t }

/-- R171, step 2: a queued block against the new ones: kept, removed, or truncated to the start of the earliest new
block it overlaps; `true` when it counts as superseded. -/
def supersede (news : List Block) (now : Nat) (b : Block) : Option Block × Bool :=
  match (news.filter b.overlaps).map (·.start) with
  | [] => (some b, false)
  | t :: rest =>
    match b.status with
    | .pending => (none, true)
    | .active => (b.truncate now (rest.foldl min t), true)
    | .unmet => (b.truncate now (rest.foldl min t), true)

/-- A block is inserted in start order (R171, step 4). -/
def insertBlock (q : List Block) (b : Block) : List Block :=
  match q with
  | [] => [b]
  | a :: rest => if b.start < a.start then b :: a :: rest else a :: insertBlock rest b

/-- R171, steps 1 and 2, with the ends of R173 that have come: the queue left and the superseded count. -/
def afterSupersede (queue news : List Block) (order now : Nat) : List Block × Nat :=
  let kept := queue.filter fun (b : Block) => decide (b.order ≠ order)
  let judged := kept.map (supersede news now)
  (judged.filterMap (·.1), (queue.length - kept.length) + (judged.filter (·.2)).length)

/-- R173: the PENDING blocks whose start has come become ACTIVE. -/
def startBlocks (now : Nat) (q : List Block) : List Block :=
  q.map fun b => if b.status = .pending ∧ b.start ≤ now then { b with status := .active } else b

/-- R173, R174, R176: the blocks whose start has come become ACTIVE; when a FIRM one is among them, the ACTIVE FIRM
blocks are judged. -/
def State.startAndJudge (s : State) (now : Nat) : State :=
  let firm := s.disp.queue.any fun (b : Block) => decide (b.status = BlockStatus.pending ∧ b.start ≤ now) && b.firm
  let s := { s with disp.queue := startBlocks now s.disp.queue }
  if firm then s.judgeBlocks else s

/-- R171: an order that passes the checks is taken into the queue, the target chosen again, and the reply formed (log
32). The target is chosen once, when the blocks that end and the block that starts at this moment have been taken (log
87). -/
def State.takeOrder (s : State) (number now : Nat) (news left : List Block) (superseded : Nat) : State × List Byte :=
  let cE := s.disp.lastCe
  let o : Outcome := if news.any fun b => decide ((b.accPower, b.accReserve) ≠ (b.power, b.reserve)) then .partial_ else .accepted
  let s := { s with disp.queue := news.foldl insertBlock left }
  let s := (s.startAndJudge now).chooseTarget
  (s.log .dispatch .order number o.code 0, orderReply o .none news superseded cE)

/-- The new blocks of an order, with their indices (R171). -/
def newBlocks (number : Nat) (firm : Bool) (cE : Nat) (blocks : List OrderBlock) : List Block :=
  blocks.zipIdx.map fun p => p.1.block number p.2 firm cE

/-- R170: the checks of a SCHEDULE in their order. -/
def State.processSchedule (s : State) (number : Nat) (body : List Byte) : State × List Byte :=
  match parseOrder body with
  | none => s.refuseOrder number .format
  | some (firm, blocks) =>
    match s.clock.plant with
    | none => s.refuseOrder number .timeUnset
    | some now =>
      if blocks.any fun b => decide (1000 * b.start < now + 1000 * s.disp.page.lead) then s.refuseOrder number .late
      else
        let news := newBlocks number firm s.disp.lastCe blocks
        let (left, superseded) := afterSupersede s.disp.queue news number now
        if 16 < left.length + news.length then s.refuseOrder number .full
        else s.takeOrder number now news left superseded

/-- SCHEDULE (R167, R169, R170). -/
def State.scheduleMessage (s : State) (plant unit number : Byte) (body : List Byte) : State :=
  s.takeMessage plant unit 0x10 fun s pair =>
    s.numbered pair number fun s => s.processSchedule number.toNat body

/-! ### CANCEL -/

/-- R172: CANCEL removes the PENDING blocks of the order it names; an ACTIVE or UNMET block of it ends at the
present moment, and so leaves the queue at once (R173). The ORDER event has the CANCEL's own number as its subject (log
83). -/
def State.processCancel (s : State) (number : Nat) (body : List Byte) : State × List Byte :=
  match body with
  | [b] =>
    if 127 < b.toNat then s.refuseOrder number .format
    else
      let left := s.disp.queue.filter fun (x : Block) => decide (x.order ≠ b.toNat)
      let n := s.disp.queue.length - left.length
      let s := ({ s with disp.queue := left }).chooseTarget
      (s.log .dispatch .order number Outcome.accepted.code 0, orderReply .accepted .none [] n s.disp.lastCe)
  | _ => s.refuseOrder number .format

/-- CANCEL (R167, R169, R172). -/
def State.cancelMessage (s : State) (plant unit number : Byte) (body : List Byte) : State :=
  s.takeMessage plant unit 0x11 fun s pair =>
    s.numbered pair number fun s => s.processCancel number.toNat body

/-! ### The other kinds -/

/-- LINK_CHECK (R177): answered to the pair it matched, or to the UNIT pair for a broadcast, when that pair is
configured. -/
def State.linkCheckMessage (s : State) (plant unit : Byte) : State :=
  s.takeMessage plant unit 0x20 fun s pair => if pairSet pair then s.sendTo pair 0x20 0 [] else s

/-- NOTICE_ACK (R179). While the UNIT pair is unconfigured the unmet-pending flag stays (log 14). -/
def State.noticeAckMessage (s : State) (plant unit number : Byte) : State :=
  s.takeMessage plant unit 0x12 fun s _ =>
    match s.disp.notice.outstanding with
    | none => s
    | some n =>
      if n.number ≠ number.toNat then s
      else
        let s := { s with disp.notice := { s.disp.notice with outstanding := none, ackAt := none } }
        if s.disp.notice.unmetPending then
          if pairSet s.disp.unitUsed then ({ s with disp.notice.unmetPending := false }).newNotice .unmet else s
        else if moved s.disp.lastCe n.cE s.disp.thrUsed then s.newNotice .change
        else s

/-- The link state codes of STATUS (R168). -/
def LinkState.code : LinkState → Nat
  | .down => 0
  | .up => 1
  | .silent => 2

/-- The target source codes of STATUS (R168). -/
def TargetSource.code : TargetSource → Nat
  | .block => 1
  | .hold => 2
  | .default_ => 3

/-- The body of a STATUS message (R168). -/
def Dispatch.statusBody (d : Dispatch) : List Byte :=
  bytesOf 1 d.link.code ++ bytesOf 1 d.queue.length ++ bytesOf 1 d.target.source.code ++ bytesOf 2 d.target.power ++
    bytesOf 2 d.target.reserve ++ bytesOf 2 d.lastCe ++ bytesOf 1 (if d.notice.outstanding.isSome then 1 else 0) ++
    bytesOf 1 ((d.notice.outstanding.map (·.number)).getD 0)

/-- RESYNC (R169): V_r takes the number and the retained reply is emptied, unless the number is above 127; answered
with STATUS. -/
def State.resyncMessage (s : State) (plant unit number : Byte) : State :=
  s.takeMessage plant unit 0x13 fun s pair =>
    let s := if number.toNat ≤ 127 then { s with disp.vr := number.toNat, disp.retained := none } else s
    s.sendTo pair 0x31 s.disp.vr s.disp.statusBody

/-- KIND_DISCARD (R167): supervision restarts, and the message is discarded with reason KIND. -/
def State.kindDiscardMessage (s : State) (plant unit kind : Byte) : State :=
  s.takeMessage plant unit kind fun s _ => s.laneDiscard .kind

/-! ### Block timing -/

/-- A queued block by its order number and block index. -/
def Dispatch.findBlock (d : Dispatch) (order index : Nat) : Option Block :=
  d.queue.find? fun b => decide (b.order = order ∧ b.index = index)

/-- BLOCK_START (R173): at the start of a PENDING block it becomes ACTIVE, is judged, and the target is chosen. -/
def State.blockStart (s : State) (order index : Nat) : State :=
  match s.disp.findBlock order index with
  | none => s
  | some b =>
    if b.status ≠ .pending then s
    else
      let s := s.reachPlant b.start
      let started := s.disp.queue.map fun (x : Block) =>
        if x.order = order ∧ x.index = index then { x with status := .active } else x
      let s := { s with disp.queue := started }
      (if b.firm then s.judgeBlocks else s).chooseTarget

/-- BLOCK_END (R173): at the end of a block it leaves the queue, and the target is chosen. -/
def State.blockEnd (s : State) (order index : Nat) : State :=
  match s.disp.findBlock order index with
  | none => s
  | some b =>
    let s := s.reachPlant b.stop
    let left := s.disp.queue.filter fun (x : Block) => !(decide (x.order = order ∧ x.index = index))
    ({ s with disp.queue := left }).chooseTarget

/-- The status codes of BLOCK-EXPIRED (R174). -/
def BlockStatus.code : BlockStatus → Nat
  | .pending => 1
  | .active => 2
  | .unmet => 3

/-- R174: SET-TIME brings the queue to the plant time `t`. -/
def State.queueSetTime (s : State) (t : Nat) : State :=
  let gone := s.disp.queue.filter fun (b : Block) => decide (b.stop ≤ t)
  let left := s.disp.queue.filter fun (b : Block) => decide (t < b.stop)
  let s := gone.foldl (init := { s with disp.queue := left }) fun s b =>
    s.log .dispatch .blockExpired b.order b.index b.status.code
  let s := s.startAndJudge t
  let waiting := s.disp.queue.map fun (b : Block) =>
    if b.status ≠ BlockStatus.pending ∧ t < b.start then { b with status := .pending } else b
  ({ s with disp.queue := waiting }).chooseTarget

end Sys2Proof.Machine
end

