-- ==== Sys2Proof/Machine/Envelope.lean ====
section
/-! DEFINITION. The envelope allocator's own steps (chapter 8): the allocation run (R137 to R145), the release of the
BYPASS caps, and SET-CAP (R134). The cap lists themselves stand in Caps.lean. -/

namespace Sys2Proof.Machine

/-! ### What a run reads -/

/-- Everything an allocation run reads (R137), as it stands when the run is taken. -/
structure RunInput where
  page    : HeaderPage
  state1  : LineState
  state2  : LineState
  cap1    : Nat
  cap2    : Nat
  floor1  : Nat
  floor2  : Nat
  flow1   : Nat
  flow2   : Nat
  heat    : Nat
  pressure : Option Int
  turbine : TurbineState
  ramped  : Int
  reserve : Nat
  steamRate : Nat
  rating  : Nat
  /-- T_s of R142. -/
  steam   : Nat
deriving DecidableEq, Repr

/-- R138: H_dh, the presented HEAT_DEMAND clamped, or the last heat demand kept, which was clamped when it was taken
(log 77). -/
def State.heatNow (s : State) : Nat :=
  match s.read Quality.envOk .heatDemand none with
  | none => s.env.lastHeat
  | some v => (clampInt v 0 s.env.page.heatMax).toNat

/-- R139: a line's flow, or the value last kept for it. -/
def State.flowNow (s : State) (l : LineId) : Nat :=
  match s.read Quality.envOk .steamFlow (some l) with
  | none => s.env.keptFlow.get l
  | some v => (clampInt v 0 2000).toNat

/-- R142: T_s, the presented TURBINE_STEAM clamped, or the previous run's G_t. -/
def State.steamTaken (s : State) : Nat :=
  match s.read Quality.envOk .turbineSteam none with
  | none => s.env.result.gT
  | some v => (clampInt v 0 2000).toNat

/-- R137: what the run reads. -/
def State.runInput (s : State) : RunInput where
  page := s.env.page
  state1 := (s.line .one).state
  state2 := (s.line .two).state
  cap1 := s.env.effCap.one
  cap2 := s.env.effCap.two
  floor1 := (s.line .one).page.fFloor
  floor2 := (s.line .two).page.fFloor
  flow1 := s.flowNow .one
  flow2 := s.flowNow .two
  heat := s.heatNow
  pressure := s.read Quality.envOk .headerPressure none
  turbine := s.turb.state
  ramped := s.turb.ramped
  reserve := s.turb.reserve
  steamRate := s.turb.page.steamRate
  rating := s.turb.page.rating
  steam := s.steamTaken

/-! ### Demand -/

/-- A line is FEEDING, and so shares S_a (R139). -/
def LineState.shares (st : LineState) : Bool :=
  match st with
  | .feeding => true
  | .off | .feedHold | .burnout | .tripped => false

/-- A line is in FEED-HOLD or BURNOUT, and so its steam is uncontrolled (R139). -/
def LineState.coasts (st : LineState) : Bool :=
  match st with
  | .feedHold | .burnout => true
  | .off | .feeding | .tripped => false

/-- A quantity that counts only under a condition. -/
def counted (b : Bool) (n : Nat) : Nat := if b then n else 0

/-- R138: S_t; negative while P_ramped + R is (log 12). -/
def RunInput.sT (i : RunInput) : Int :=
  if i.turbine = .loaded then ceilInt ((i.ramped + i.reserve) * i.steamRate) 100 else 0

/-- R138: S_x. -/
def RunInput.sX (i : RunInput) : Nat := ceilDiv (i.heat * i.page.heatRate) 100

/-- R138: S_p. -/
def RunInput.sP (i : RunInput) : Int :=
  match i.pressure with
  | none => 0
  | some p =>
    clampInt ((((i.page.pressureSet : Int) - p) * i.page.pressureGain).tdiv 256)
      (-(i.page.pressureLim : Int)) i.page.pressureLim

/-- R138: S_tot. -/
def RunInput.sTot (i : RunInput) : Nat := (i.sT + i.sX + i.page.bypassMin + i.sP).toNat

/-- R139: U. -/
def RunInput.u (i : RunInput) : Nat := counted i.state1.coasts i.flow1 + counted i.state2.coasts i.flow2

/-- R139: S_a. -/
def RunInput.sA (i : RunInput) : Nat := i.sTot - i.u

/-- R140, R143: Σcap over the FEEDING lines. -/
def RunInput.capSum (i : RunInput) : Nat := counted i.state1.shares i.cap1 + counted i.state2.shares i.cap2

/-! ### Shares -/

/-- R140, R144: a total shared by effective caps, the remainder to line 1, or to line 2 when line 1 is not
FEEDING. -/
def RunInput.byCaps (i : RunInput) (total : Nat) : Nat × Nat :=
  if i.capSum = 0 then (0, 0)
  else
    let a := counted i.state1.shares (total * i.cap1 / i.capSum)
    let b := counted i.state2.shares (total * i.cap2 / i.capSum)
    let rest := total - (a + b)
    if i.state1.shares then (a + rest, b) else (a, b + rest)

/-- R140: the base line takes up to its cap, the other what is left up to its own; `f` and `c` are the base line's. -/
def baseShares (total : Nat) (f : Bool) (c : Nat) (g : Bool) (d : Nat) : Nat × Nat :=
  let a := counted f (min c total)
  (a, counted g (min d (total - a)))

/-- R140: the shares of S_a. -/
def RunInput.shares (i : RunInput) : Nat × Nat :=
  match i.page.share with
  | .proportional => i.byCaps i.sA
  | .baseLine1 => baseShares i.sA i.state1.shares i.cap1 i.state2.shares i.cap2
  | .baseLine2 => (baseShares i.sA i.state2.shares i.cap2 i.state1.shares i.cap1).swap

/-- R140: a share raised to the floor and last limited to the effective cap; 0 for a line that is not FEEDING. -/
def allocation (feeding : Bool) (share floor_ cap : Nat) : Nat := counted feeding (min cap (max floor_ share))

/-! ### Grants -/

/-- R141, R142: the grants out of a supply. -/
structure Grants where
  bMin   : Nat
  gX     : Nat
  gT     : Nat
  pC     : Int
  bypass : Int
deriving DecidableEq, Repr

/-- R141: the turbine grant out of the steam available; a negative demand is granted nothing, since no grant is
negative (log 12). -/
def turbineGrant (want : Int) (avail : Nat) : Nat := (min want avail).toNat

/-- R141: the grants in their order; `turb` is S_t, or T_s under LOCAL (R142). -/
def grants (supply bypassMin sX : Nat) (turb sP : Int) (heatFirst : Bool) : Grants :=
  let bMin := min bypassMin supply
  let avail := supply - bMin + (-sP).toNat
  let gX := if heatFirst then min sX avail else min sX (avail - turbineGrant turb avail)
  let gT := if heatFirst then turbineGrant turb (avail - min sX avail) else turbineGrant turb avail
  let pC := if sP < 0 then sP else min sP ((avail - gX - gT : Nat) : Int)
  ⟨bMin, gX, gT, pC, (supply : Int) - gT - gX - pC⟩

/-- R142: what the turbine is granted up to. -/
def RunInput.turbineWant (i : RunInput) : Int := if i.turbine = .local_ then i.steam else i.sT

/-- R143: the turbine states in which C_e is offered. -/
def offersCapability (st : TurbineState) : Bool :=
  match st with
  | .ready | .synchronising | .loaded => true
  | .unknown | .stopped | .runup | .unloading | .tripped | .local_ => false

/-- R143: C_e. -/
def RunInput.cE (i : RunInput) : Nat :=
  if offersCapability i.turbine then
    let w := i.capSum + i.u - i.page.bypassMin - counted i.page.heatPriority i.sX
    min i.rating (w * 100 / i.steamRate)
  else 0

/-- R137, steps 1 to 5: the results of a run, from what it reads alone. -/
def RunInput.result (i : RunInput) : RunResult :=
  let share := i.shares
  let a1 := allocation i.state1.shares share.1 i.floor1 i.cap1
  let a2 := allocation i.state2.shares share.2 i.floor2 i.cap2
  let supply := a1 + a2 + i.u
  let g := grants supply i.page.bypassMin i.sX i.turbineWant i.sP i.page.heatPriority
  { sT := i.sT, sX := i.sX, sBMin := i.page.bypassMin, sP := i.sP, sTot := i.sTot, u := i.u, sA := i.sA, alloc1 := a1
    alloc2 := a2, supply := supply, bMin := g.bMin, gT := g.gT, gX := g.gX, pC := g.pC, bypass := g.bypass, cE := i.cE }

/-! ### Over-capacity -/

/-- R144: the shares of the excess. -/
def RunInput.cuts (i : RunInput) (r : RunResult) (excess : Nat) : Nat × Nat :=
  match i.page.share with
  | .proportional => i.byCaps excess
  | .baseLine1 => (excess - min excess r.alloc2, min excess r.alloc2)
  | .baseLine2 => (min excess r.alloc1, excess - min excess r.alloc1)

/-- R144: the candidate cap of a line. -/
def candidate (alloc cut : Nat) (standing : Option Nat) : Int :=
  let c := (alloc : Int) - cut
  match standing with
  | none => c
  | some v => min c v

/-- R144: a FEEDING line is given a BYPASS cap of its candidate, or of its floor when the candidate lies below. -/
def State.bypassCap (s : State) (l : LineId) (feeding : Bool) (cand : Int) (floor_ : Nat) : State :=
  if feeding then s.capSet l .bypass (max cand floor_) else s

/-- R144: the FEEDING lines are cut; of those whose candidate lies below their floor the highest-numbered goes to
BURNOUT and is given no cap. -/
def State.cutLines (s : State) (i : RunInput) (r : RunResult) : State :=
  let cuts := i.cuts r (r.bypass - i.page.bypassMax).toNat
  let c1 := candidate r.alloc1 cuts.1 (s.capOf .one .bypass)
  let c2 := candidate r.alloc2 cuts.2 (s.capOf .two .bypass)
  if i.state2.shares ∧ c2 < i.floor2 then
    (s.bypassCap .one i.state1.shares c1 i.floor1).toBurnout .two .belowFloor
  else if i.state1.shares ∧ c1 < i.floor1 then
    (s.bypassCap .two i.state2.shares c2 i.floor2).toBurnout .one .belowFloor
  else (s.bypassCap .one i.state1.shares c1 i.floor1).bypassCap .two i.state2.shares c2 i.floor2

/-- R144: a run whose bypass setpoint is above B_max, logged once for each run of such runs. -/
def State.overCapacity (s : State) (i : RunInput) (r : RunResult) : State :=
  if (i.page.bypassMax : Int) < r.bypass then
    let was := s.env.overFlag
    let s := { s with env.overFlag := true }
    let s := if was then s else s.log .envelope .bypassOver 0 r.bypass i.page.bypassMax
    s.cutLines i r
  else { s with env.overFlag := false }

/-- R145: the release timer is judged at each run with a BYPASS entry standing. -/
def State.judgeRelease (s : State) (i : RunInput) (r : RunResult) : State :=
  if s.capOf .one .bypass = none ∧ s.capOf .two .bypass = none then s
  else if r.bypass ≤ ((i.page.bypassMax * 8 / 10 : Nat) : Int) then
    if s.env.releaseAt = none then { s with env.releaseAt := some (s.runTime + 60000) } else s
  else { s with env.releaseAt := none }

/-- R142: a shortfall is logged once for each run of runs that fall short. -/
def State.judgeShortfall (s : State) (r : RunResult) : State :=
  if (r.gT : Int) + r.gX < r.sT + r.sX then
    let was := s.env.shortfall
    let s := { s with env.shortfall := true }
    if was then s else s.log .envelope .shortfall 0 (r.gT + r.gX : Nat) (r.sT + r.sX)
  else { s with env.shortfall := false }

/-- R142: the results are handed on in their order. -/
def State.handResults (s : State) (r : RunResult) (cause : RunCause) : State :=
  let s := s.setLine .one { s.line .one with alloc := r.alloc1 }
  let s := s.setLine .two { s.line .two with alloc := r.alloc2 }
  let s := s.own .bypassSetpoint none r.bypass
  let s := s.own .capability none r.cE
  (s.turbineHandOver cause).dispatchHandOver r.cE

/-- R137: one allocation run: the effective caps formed anew (R132), the results, the below-floor judgement (R135),
the bypass (R144, R145) and the hand-over (R142). -/
def State.allocationRun (s : State) (cause : RunCause) : State :=
  let s := (s.formCap .one).formCap .two
  let i := s.runInput
  let r := i.result
  let s := { s with env :=
    { s.env with
      lastHeat := i.heat
      keptFlow := ⟨i.flow1, i.flow2⟩
      result := r
      lastCause := some cause
      lastRunAt := s.runTime } }
  let s := (s.judgeFloor .one).judgeFloor .two
  let s := s.judgeShortfall r
  let s := (s.overCapacity i r).judgeRelease i r
  s.handResults r cause

/-- ALLOCATION_RUN (R137): at the expiry of the period timer, which restarts, or after a turbine, line or cap
change. -/
def State.runAllocation (s : State) (cause : RunCause) : State :=
  match cause with
  | .period =>
    let s := s.reach s.env.periodAt
    ({ s with env.periodAt := s.runTime + s.env.page.period }).allocationRun .period
  | .turbine => s.allocationRun .turbine
  | .line => s.allocationRun .line
  | .cap => s.allocationRun .cap

/-- BYPASS_RELEASE_TIMER_EXPIRY (R145). BYPASS-RELEASED is logged last (log 71). -/
def State.bypassRelease (s : State) : State :=
  match s.env.releaseAt with
  | none => s
  | some t =>
    let s := s.reach t
    let s := ({ s with env.releaseAt := none }).capRelease .one .bypass
    (s.capRelease .two .bypass).log .envelope .bypassReleased

/-! ### SET-CAP -/

/-- SET-CAP SET (R134): the value is clamped to 0 to 2,000. -/
def State.cmdSetCap (s : State) (line : Byte) (value : Word16) : State :=
  match lineOf line with
  | none => s.answer .setCap .badIndex
  | some l =>
    let v := clampInt value.toInt 0 2000
    (s.capSet l .operator v).answer .setCap (if v = value.toInt then .done else .doneClamped)

/-- SET-CAP RELEASE (R134). -/
def State.cmdReleaseCap (s : State) (line : Byte) : State :=
  match lineOf line with
  | none => s.answer .setCap .badIndex
  | some l => (s.capRelease l .operator).answer .setCap .done

end Sys2Proof.Machine
end

