-- ==== Sys2Proof/Machine/Points.lean ====
section
/-! DEFINITION. The point qualifier (chapter 3): samples and requests (R45 to R48), the hand-over of updates to
consumers (R46), binary edges (R51, R52), the degraded flag (R50), forcing (R54 to R56) and READ-POINT (R53). -/

namespace Sys2Proof.Machine

/-! ### Codes and roles -/

/-- The kind codes (R183). -/
def PointKind.code : PointKind → Nat
  | .empty => 0
  | .analog => 1
  | .binary => 2
  | .output => 3
  | .request => 4
  | .report => 5

/-- The roles in the order of R43, each row read from left to right. -/
def Role.all : List Role :=
  [.furnaceTemp, .steamFlow, .o2Furnace, .feederStatus, .lineStatus, .dust, .co, .nox, .so2, .hcl, .toc, .o2Flue,
    .h2oFlue, .feederCommand, .grateSpeed, .primaryAir, .secondaryAir, .ureaDose, .limeDose, .carbonDose,
    .operatorCap, .lineState, .lhvUsed, .effectiveCap, .budgetRemaining, .dustValidated, .coValidated,
    .noxValidated, .so2Validated, .hclValidated, .tocValidated] ++
  [.headerPressure, .turbineSteam, .turbineIndication, .bypassStatus, .heatDemand, .turbineRequest,
    .turbineSetpoint, .turbineReserve, .bypassSetpoint, .capability, .setpointSent]

/-- A role's code, from 1 (R183). -/
def Role.code (r : Role) : Nat := Role.all.findIdx (fun x => decide (x = r)) + 1

/-- The kind R43 allows for a role. -/
def Role.kind : Role → PointKind
  | .furnaceTemp | .steamFlow | .o2Furnace => .analog
  | .feederStatus | .lineStatus => .binary
  | .dust | .co | .nox | .so2 | .hcl | .toc | .o2Flue | .h2oFlue => .analog
  | .feederCommand | .grateSpeed | .primaryAir | .secondaryAir | .ureaDose | .limeDose | .carbonDose => .output
  | .operatorCap => .request
  | .lineState | .lhvUsed | .effectiveCap | .budgetRemaining => .report
  | .dustValidated | .coValidated | .noxValidated | .so2Validated | .hclValidated | .tocValidated => .report
  | .headerPressure | .turbineSteam | .turbineIndication => .analog
  | .bypassStatus => .binary
  | .heatDemand => .request
  | .turbineRequest | .turbineSetpoint | .turbineReserve | .bypassSetpoint => .output
  | .capability | .setpointSent => .report

/-- The scope of a role: one for each line, or one in the part (R43). -/
def Role.perLine : Role → Bool
  | .furnaceTemp | .steamFlow | .o2Furnace | .feederStatus | .lineStatus => true
  | .dust | .co | .nox | .so2 | .hcl | .toc | .o2Flue | .h2oFlue => true
  | .feederCommand | .grateSpeed | .primaryAir | .secondaryAir | .ureaDose | .limeDose | .carbonDose => true
  | .operatorCap | .lineState | .lhvUsed | .effectiveCap | .budgetRemaining => true
  | .dustValidated | .coValidated | .noxValidated | .so2Validated | .hclValidated | .tocValidated => true
  | .headerPressure | .turbineSteam | .turbineIndication | .bypassStatus | .heatDemand => false
  | .turbineRequest | .turbineSetpoint | .turbineReserve | .bypassSetpoint | .capability | .setpointSent => false

/-- The line codes of a point (R183): 0 is COMMON. -/
def lineCode : Option LineId → Nat
  | none => 0
  | some l => lineNumber l

/-- The quality codes, by the order of section 0.4 (log 15). -/
def Quality.code : Quality → Nat
  | .good => 0
  | .held => 1
  | .substituted => 2
  | .bad => 3
  | .forced => 4
  | .clamped => 5
  | .degraded => 6

/-- The input state codes, by the order of R42 (R183). -/
def InputState.code : InputState → Nat
  | .unsampled => 0
  | .fresh => 1
  | .holding => 2
  | .substituting => 3
  | .failed => 4

/-! ### Updates -/

/-- What an update shows of a point (R46): the levels before and after, and the value and quality before. -/
structure Update where
  risen  : Signals
  fallen : Signals
  before : Int
  wasOk  : Bool
deriving DecidableEq, Repr

/-- R134: an update of OPERATOR_CAP sets the OPERATOR entry when the point is usable to the allocator and its value
has changed or its quality has just become usable. -/
def State.operatorCapUpdate (s : State) (l : LineId) (u : Update) : State :=
  match s.read Quality.envOk .operatorCap (some l) with
  | none => s
  | some v => if v ≠ u.before ∨ u.wasOk = false then s.capSet l .operator v else s

/-- R46: an update of a line-scope role is handed to its consumers. Roles that no consumer acts on at once are read
at the consumers' own events. -/
def State.lineUpdate (s : State) (r : Role) (l : LineId) (u : Update) : State :=
  match r with
  | .furnaceTemp => s.judgePermissive l
  | .steamFlow => s.setCause l .steamPoint (s.read Quality.lineOk .steamFlow (some l)).isNone
  | .feederStatus => s.feederStatusUpdate l u.risen
  | .lineStatus => s.lineStatusUpdate l u.fallen (s.read Quality.lineOk .lineStatus (some l)).isSome
  | .feederCommand => s.setCause l .feederOutput (s.isDegraded .feederCommand (some l))
  | .operatorCap => s.operatorCapUpdate l u
  | .o2Furnace | .dust | .co | .nox | .so2 | .hcl | .toc | .o2Flue | .h2oFlue => s
  | .grateSpeed | .primaryAir | .secondaryAir | .ureaDose | .limeDose | .carbonDose => s
  | .lineState | .lhvUsed | .effectiveCap | .budgetRemaining => s
  | .dustValidated | .coValidated | .noxValidated | .so2Validated | .hclValidated | .tocValidated => s
  | .headerPressure | .turbineSteam | .turbineIndication | .bypassStatus | .heatDemand => s
  | .turbineRequest | .turbineSetpoint | .turbineReserve | .bypassSetpoint | .capability | .setpointSent => s

/-- R46: an update of a common role. -/
def State.commonUpdate (s : State) (r : Role) (u : Update) : State :=
  match r with
  | .turbineIndication => s.indicationUpdate
  | .bypassStatus => s.bypassUpdate u.risen (s.read Quality.turbOk .bypassStatus none).isSome
  | .furnaceTemp | .steamFlow | .o2Furnace | .feederStatus | .lineStatus => s
  | .dust | .co | .nox | .so2 | .hcl | .toc | .o2Flue | .h2oFlue => s
  | .feederCommand | .grateSpeed | .primaryAir | .secondaryAir | .ureaDose | .limeDose | .carbonDose => s
  | .operatorCap | .lineState | .lhvUsed | .effectiveCap | .budgetRemaining => s
  | .dustValidated | .coValidated | .noxValidated | .so2Validated | .hclValidated | .tocValidated => s
  | .headerPressure | .turbineSteam | .heatDemand => s
  | .turbineRequest | .turbineSetpoint | .turbineReserve | .bypassSetpoint | .capability | .setpointSent => s

/-- R46: an update is handed at once to the consumers of a role and line. -/
def State.roleUpdate (s : State) (r : Role) (l : Option LineId) (u : Update) : State :=
  match l with
  | some l => s.lineUpdate r l u
  | none => s.commonUpdate r u

/-- R52: the rises and falls of a change of level, latched under the masks. -/
def Point.latch (p : Point) (risen fallen : Signals) : Point :=
  { p with riseLatch := p.riseLatch ||| (risen &&& p.riseMask), fallLatch := p.fallLatch ||| (fallen &&& p.fallMask) }

/-- R46, R52: a record takes its new contents. When its presented value, quality or level has changed, the change
is an update; a BINARY change of level is an edge unless it is a starting level (R51). -/
def State.commitPoint (s : State) (i : Nat) (new : Point) (edges : Bool) : State :=
  let old := s.point i
  let before := old.shownLevel
  let after := new.shownLevel
  let binary := decide (new.kind = .binary) && edges
  let risen : Signals := if binary then after &&& ~~~before else 0
  let fallen : Signals := if binary then before &&& ~~~after else 0
  let s := s.setPoint i (new.latch risen fallen)
  if new.kind = .empty ∨ (old.shownValue = new.shownValue ∧ old.shownQuality = new.shownQuality) then s
  else s.roleUpdate new.role new.line ⟨risen, fallen, old.shownValue, old.shownQuality.envOk⟩

/-! ### Samples -/

/-- The reasons of R47. -/
inductive LossReason where
  | range
  | stationCode
  | stale
  | holdExpired
deriving DecidableEq, Repr

/-- The reason codes (R47). -/
def LossReason.code : LossReason → Nat
  | .range => 1
  | .stationCode => 2
  | .stale => 3
  | .holdExpired => 4

/-- R45, "by policy": what stands in for a missing or bad sample. Leaving FRESH stops the stale timer. -/
def Point.byPolicy (p : Point) (now : Nat) : Point :=
  match p.subst with
  | .holdLast =>
    { p with input := .holding, quality := .held, holdAt := some (now + 1000 * p.holdLimit), staleAt := none }
  | .fixed =>
    { p with
      input := .substituting, quality := .substituted, value := p.substValue, started := true
      level := if p.kind = .binary then BitVec.ofInt 16 p.substValue else p.level, staleAt := none }
  | .none => { p with input := .failed, quality := .bad, staleAt := none }

/-- R45: a bad sample of an UNSAMPLED point. -/
def Point.firstBad (p : Point) : Point :=
  match p.subst with
  | .fixed =>
    { p with
      input := .substituting, quality := .substituted, value := p.substValue, started := true
      level := if p.kind = .binary then BitVec.ofInt 16 p.substValue else p.level }
  | .holdLast => { p with input := .failed, quality := .bad }
  | .none => { p with input := .failed, quality := .bad }

/-- R45: a bad sample, by the input state it finds. -/
def Point.takeBad (p : Point) (now : Nat) : Point :=
  let p := { p with goodRun := 0 }
  match p.input with
  | .unsampled => p.firstBad
  | .fresh => p.byPolicy now
  | .holding => p
  | .substituting => p
  | .failed => p

/-- R47: one more good sample; at 10 the log flag is cleared. -/
def Point.countGood (p : Point) : Point :=
  let n := min 10 (p.goodRun + 1)
  { p with goodRun := n, logFlag := if n = 10 then false else p.logFlag }

/-- R45, R48, R51: a good sample: its value, level and quality; the point is FRESH and its stale timer starts. -/
def Point.takeGood (p : Point) (now : Nat) (value : Int) (level : Signals) (q : Quality) : Point :=
  { p.countGood with
    value := value, level := level, quality := q, input := .fresh, started := true
    staleAt := some (now + p.staleLimit), holdAt := none }

/-- What a sample is (R45, R48, R51). -/
inductive Judged where
  | good (value : Int) (level : Signals) (quality : Quality)
  | bad (reason : LossReason)
  /-- A sample for a record that takes none. -/
  | untaken
deriving DecidableEq, Repr

/-- R45, R48, R51: a sample is judged by the kind of its point; an OUTPUT, REPORT or EMPTY record takes none (log 89). The value of a BINARY point is its level read as a
signed word (log 65). -/
def Point.judge (p : Point) (word : Word16) (code : Byte) : Judged :=
  match p.kind with
  | .empty => .untaken
  | .output => .untaken
  | .report => .untaken
  | .binary =>
    if code ≠ 0 then .bad .stationCode else .good (word ^^^ p.polarity).toInt (word ^^^ p.polarity) .good
  | .request =>
    let v := p.scaled word.toInt
    if code ≠ 0 then .bad .stationCode
    else if p.low ≤ v ∧ v ≤ p.high then .good v p.level .good
    else .good (clampInt v p.low p.high) p.level .clamped
  | .analog =>
    let v := p.scaled word.toInt
    if code ≠ 0 then .bad .stationCode
    else if p.low ≤ v ∧ v ≤ p.high then .good v p.level .good
    else .bad .range

/-- R47: entry into quality BAD or SUBSTITUTED from another quality, with the log flag clear, is logged, before the
update is handed to the consumers (log 60). -/
def State.loseInput (s : State) (i : Nat) (new : Point) (reason : LossReason) (edges : Bool) : State :=
  let entered := decide ((new.quality = .bad ∨ new.quality = .substituted) ∧ new.quality ≠ (s.point i).quality)
  if entered && !new.logFlag then
    let name : EventName := if new.quality = .bad then .pointBad else .pointSubstituted
    (s.log .point name i reason.code).commitPoint i { new with logFlag := true } edges
  else s.commitPoint i new edges

/-- R45, R48: a sample handed for a point; its first level is a starting level (R51). A record that takes no samples stays as
it is (log 89). -/
def State.sample (s : State) (i : Nat) (word : Word16) (code : Byte) : State :=
  let p := { s.point i with raw := word.toInt }
  match p.judge word code with
  | .good v lv q => s.commitPoint i (p.takeGood s.runTime v lv q) p.started
  | .bad reason => s.loseInput i (p.takeBad s.runTime) reason p.started
  | .untaken => s

/-- STALE_TIMER_EXPIRY (R45). -/
def State.staleExpiry (s : State) (i : Nat) : State :=
  match (s.point i).staleAt with
  | none => s
  | some t =>
    let s := s.reach t
    s.loseInput i ({ s.point i with goodRun := 0 }.byPolicy s.runTime) .stale true

/-- HOLD_TIMER_EXPIRY (R45): a HOLDING point becomes FAILED. -/
def State.holdExpiry (s : State) (i : Nat) : State :=
  match (s.point i).holdAt with
  | none => s
  | some t =>
    let s := s.reach t
    s.loseInput i { s.point i with input := .failed, quality := .bad, holdAt := none } .holdExpired true

/-! ### The degraded flag -/

/-- R50: the degraded flag is set or cleared at the request of the echo monitor, also where an OUTPUT slot names a record of
another kind (log 89). -/
def State.setDegraded (s : State) (i : Nat) (on : Bool) : State :=
  let p := s.point i
  if p.degraded = on then s else s.commitPoint i { p with degraded := on } true

/-! ### Forcing -/

/-- R49: an OUTPUT or REPORT record's word is formed again at a change of its presented value; a REPORT that its
owner has set takes its quality by the clamp. -/
def Point.represent (p : Point) : Point :=
  match p.kind with
  | .output => p.present
  | .report =>
    { p with quality :=
        if p.quality = Quality.bad then Quality.bad
        else if p.low ≤ p.scaled p.value ∧ p.scaled p.value ≤ p.high then Quality.good else Quality.clamped : Point }.present
  | .empty => p
  | .analog => p
  | .binary => p
  | .request => p

/-- A line is OFF. -/
def State.lineOff (s : State) (l : LineId) : Bool := decide ((s.line l).state = .off)

/-- R54: the turbine is STOPPED or LOCAL. -/
def State.turbineIdle (s : State) : Bool := decide (s.turb.state = .stopped ∨ s.turb.state = .local_)

/-- The roles that need the turbine idle (R54). -/
def turbineRole : Role → Bool
  | .turbineIndication | .bypassStatus | .turbineRequest | .turbineSetpoint | .turbineReserve => true
  | .furnaceTemp | .steamFlow | .o2Furnace | .feederStatus | .lineStatus => false
  | .dust | .co | .nox | .so2 | .hcl | .toc | .o2Flue | .h2oFlue => false
  | .feederCommand | .grateSpeed | .primaryAir | .secondaryAir | .ureaDose | .limeDose | .carbonDose => false
  | .operatorCap | .lineState | .lhvUsed | .effectiveCap | .budgetRemaining => false
  | .dustValidated | .coValidated | .noxValidated | .so2Validated | .hclValidated | .tocValidated => false
  | .headerPressure | .turbineSteam | .heatDemand | .bypassSetpoint | .capability | .setpointSent => false

/-- R54: the data bytes of a refusal because a consumer of the role is not idle; the lines are looked at before the
turbine. The line stands in the byte after reason 1 (log 8). -/
def State.busyConsumer (s : State) (p : Point) : Option (List Byte) :=
  if p.role.kind = .report then none
  else
    match p.line with
    | some l => if s.lineOff l then none else some [1, BitVec.ofNat 8 (lineNumber l)]
    | none =>
      if turbineRole p.role then (if s.turbineIdle then none else some [2])
      else if s.lineOff .one = false then some [1, 1]
      else if s.lineOff .two = false then some [1, 2]
      else if s.turbineIdle = false then some [2]
      else none

/-- R54: the forcing record of a pattern, clamped, with the number of clamped fields; none is BAD-VALUE. -/
def Point.forcingOf (p : Point) (now : Nat) (pattern : ForcePattern) : Option (Forcing × Nat) :=
  let limit (v : Int) : Int :=
    if p.kind = .analog ∨ p.kind = .request then clampInt v p.low p.high else v
  let off (a b : Int) : Nat := if a = b then 0 else 1
  match pattern with
  | .other _ => none
  | .fixed v => some (.fixed (limit v.toInt), off v.toInt (limit v.toInt))
  | .staircase steps duration low high =>
    if p.kind = .binary ∨ high.toInt < low.toInt then none
    else
      let n := clampNat steps.toNat 1 16
      let d := clampNat duration.toNat 100 60000
      let a := limit low.toInt
      let b := limit high.toInt
      some (.staircase n d a b 0 (now + d), off steps.toNat n + off duration.toNat d + off low.toInt a + off high.toInt b)

/-- The pattern code of a forcing record (R54). -/
def Forcing.code : Forcing → Nat
  | .fixed _ => 1
  | .staircase _ _ _ _ _ _ => 2

/-- FORCE-POINT (R54). POINT-FORCED is logged before the update is handed to the consumers (log 60). -/
def State.cmdForcePoint (s : State) (point : Byte) (pattern : ForcePattern) : State :=
  let i := point.toNat
  let p := s.point i
  if 191 < i then s.answer .forcePoint .badIndex
  else if p.kind = .empty then s.badState .forcePoint 3
  else
    match p.forcingOf s.runTime pattern with
    | none => s.answer .forcePoint .badValue
    | some (f, n) =>
      match s.busyConsumer p with
      | some data => s.answer .forcePoint .badState data
      | none =>
        let s := s.log .point .pointForced i f.code
        (s.commitPoint i { p with forcing := some f }.represent true).answerClamped .forcePoint n

/-- R56: a forcing record is removed; the return to the qualified value is an update, handed on after POINT-RELEASED is
logged (log 60). -/
def State.releaseForcing (s : State) (i : Nat) : State :=
  let p := s.point i
  if p.forcing.isNone then s
  else (s.log .point .pointReleased i).commitPoint i { p with forcing := none }.represent true

/-- RELEASE-POINT (R56). -/
def State.cmdReleasePoint (s : State) (point : Byte) : State :=
  let i := point.toNat
  if 191 < i then s.answer .releasePoint .badIndex
  else if (s.point i).kind = .empty then s.badState .releasePoint 3
  else (s.releaseForcing i).answer .releasePoint .done

/-- STAIRCASE_STEP (R55): the step advances, or returns to 0 after the last, and the step timer starts again. -/
def State.staircaseStep (s : State) (i : Nat) : State :=
  match (s.point i).forcing with
  | some (.staircase n d a b k t) =>
    let s := s.reach t
    let f : Forcing := .staircase n d a b (if n ≤ k then 0 else k + 1) (s.runTime + d)
    s.commitPoint i { s.point i with forcing := some f }.represent true
  | some (.fixed _) => s
  | none => s

/-! ### READ-POINT -/

/-- A flag as a field. -/
def boolField (b : Bool) : Int := if b then 1 else 0

/-- The fields of a forcing record in the order of R42: pattern (0 when absent), fixed value, steps, step duration,
span low, span high, current step. -/
def forcingFields : Option Forcing → List Int
  | none => [0, 0, 0, 0, 0, 0, 0]
  | some (.fixed v) => [1, v, 0, 0, 0, 0, 0]
  | some (.staircase n d a b k _) => [2, 0, n, d, a, b, k]

/-- R53: the fields of a READ-POINT answer, in the order the rule names them. An OUTPUT or REPORT record shows input state
UNSAMPLED (log 88). -/
def Point.readFields (p : Point) : List Int :=
  if p.kind = .empty then [p.kind.code]
  else
    [(p.kind.code : Int), p.role.code, lineCode p.line, p.raw, p.shownValue, p.shownQuality.code, p.input.code,
      boolField p.degraded] ++
      (if p.forcing.isSome then forcingFields p.forcing else []) ++
      (if p.kind = .binary then [(p.shownLevel.toNat : Int), p.riseLatch.toNat, p.fallLatch.toNat] else [])

/-- READ-POINT (R53): the read and the clear of the latches it reports are one event. The point number is judged before
the clear flag (log 61). -/
def State.cmdReadPoint (s : State) (point clear : Byte) : State :=
  let i := point.toNat
  if 191 < i then s.answer .readPoint .badIndex
  else if clear ≠ 0 ∧ clear ≠ 1 then s.answer .readPoint .badValue
  else
    let p := s.point i
    let s := if p.kind = .binary ∧ clear = 1 then s.setPoint i { p with riseLatch := 0, fallLatch := 0 } else s
    s.place ⟨CommandCode.readPoint.byte, .done, .point p.readFields⟩

end Sys2Proof.Machine
end

