-- ==== Sys2Proof/Machine/Stations.lean ====
section
/-! DEFINITION. The segment manager's station table (chapter 2): hot join and its wait (R31 to R33), RENUMBER and
LOCK-NUMBER (R34, R35), silence (R36), attention records (R37 to R39) and ring reset requests (R40). -/

namespace Sys2Proof.Machine

/-! ### The table -/

/-- The entry of a station number 1 to 30; other numbers read as free. -/
def State.station (s : State) (n : Nat) : Station := if n = 0 then .free else s.seg.stations.getD (n - 1) .free

/-- Stores an entry. -/
def State.setStation (s : State) (n : Nat) (e : Station) : State :=
  { s with seg.stations := s.seg.stations.set (n - 1) e }

/-- R23: an ABSENT entry with its lock clear is free. -/
def Station.isFree (e : Station) : Bool := decide (e.state = .absent) && !e.lock

/-- An entry holds a serial. -/
def Station.holds (e : Station) (sr : Serial) : Bool := decide (e.serial = some sr)

/-- The number whose entry holds a serial (R23). -/
def State.numberOf (s : State) (sr : Serial) : Option Nat := (s.seg.stations.findIdx? (·.holds sr)).map (· + 1)

/-- The lowest number whose entry is free. -/
def State.lowestFree (s : State) : Option Nat := (s.seg.stations.findIdx? Station.isFree).map (· + 1)

/-- The numbers of the entries in a state. -/
def State.activeCount (s : State) : Nat := (s.seg.stations.filter fun e => decide (e.state = .active)).length

/-- An entry is released (R26, R32, R41): ABSENT; with its lock clear it is freed, with its lock set it keeps serial
and kind code. Attention fields belong to the number and stay. -/
def Station.release (e : Station) : Station :=
  { e with
    state := .absent, missed := 0, due := false
    serial := if e.lock then e.serial else none
    kindCode := if e.lock then e.kindCode else 0 }

/-- An entry is freed (R34, R35). -/
def Station.freed (e : Station) : Station := ({ e with lock := false } : Station).release

/-- An entry becomes JOINING for a serial (R27, R31, R34). -/
def Station.join (e : Station) (sr : Serial) (kind : Nat) (due : Bool) : Station :=
  { e with serial := some sr, kindCode := kind, state := .joining, missed := 0, due := due }

/-! ### Attention records -/

/-- The reasons of R37. -/
inductive DropReason where
  | numberRange
  | unnumbered
  | notActive
  | disabled
  | length
  | code
  | unbound
deriving DecidableEq, Repr

/-- The codes of the reasons (R37). -/
def DropReason.number : DropReason → Nat
  | .numberRange => 1
  | .unnumbered => 2
  | .notActive => 3
  | .disabled => 4
  | .length => 5
  | .code => 6
  | .unbound => 7

/-- The drop flag a station number falls under (R38): index 0 serves unnumbered and out-of-range records. -/
def dropIndex (station : Nat) : Nat := if station ≤ 30 then station else 0

/-- Sets or clears a drop flag. -/
def State.setDrop (s : State) (k : Nat) (on : Bool) : State := { s with seg.dropFlags := s.seg.dropFlags.set k on }

/-- R38: an event logged once for each run of drops under one flag. -/
def State.logDrop (s : State) (k : Nat) (name : EventName) (subject first second : Int) : State :=
  if s.seg.dropFlags.getD k false then s else (s.log .station name subject first second).setDrop k true

/-- R38: a record is dropped. -/
def State.drop (s : State) (r : Attention) (reason : DropReason) : State :=
  s.logDrop (dropIndex r.station.toNat) .attentionDropped r.station.toNat reason.number r.code.toNat

/-- R37: a record is accepted: its ack bit is set and its drop flag cleared (R38). -/
def State.accept (s : State) (n : Nat) : State :=
  ({ s with seg.ackSet := s.seg.ackSet ||| BitVec.twoPow 32 (n - 1) }).setDrop n false

/-- R31: JOIN is refused, under the unnumbered flag. -/
def State.refuseJoin (s : State) (reason : Nat) (sr : Serial) : State :=
  s.logDrop 0 .joinRefused 0 reason (sr.setWidth 16).toNat

/-- R31: an entry becomes JOINING with an assignment due; the unnumbered flag is cleared (R38). -/
def State.joinAt (s : State) (n : Nat) (sr : Serial) (kind : Nat) : State :=
  (s.setStation n ((s.station n).join sr kind true)).setDrop 0 false

/-- R31: a JOIN record with its length right. -/
def State.takeJoin (s : State) (sr : Serial) : State :=
  if s.ring.segment = .broken then s.refuseJoin 2 sr
  else if s.seg.joinEnable = false then s.refuseJoin 1 sr
  else
    match s.numberOf sr with
    | some n => s.joinAt n sr (s.station n).kindCode
    | none =>
      match s.lowestFree with
      | some n => s.joinAt n sr 0
      | none => s.refuseJoin 3 sr

/-- R33: a JOINED record with its length right, by the state of its entry. STATION-RETURNED has the station number as
its subject (log 53). -/
def State.takeJoined (s : State) (r : Attention) (n kind : Nat) : State :=
  let e := s.station n
  match e.state with
  | .absent => s.drop r .notActive
  | .joining =>
    ((s.setStation n { e with state := .active, kindCode := kind, missed := 0, due := false }).accept n).log
      .station .stationJoined n kind
  | .active => (s.setStation n { e with kindCode := kind }).accept n
  | .silent =>
    ((s.setStation n { e with state := .active, kindCode := kind, missed := 0 }).accept n).log .station .stationReturned n

/-- The codes of attention records that need a binding or none (R21, R39). -/
inductive AttentionCode where
  | fault (on : Bool)
  | cal (on : Bool)
  | jam (on : Bool)
  | note
deriving DecidableEq, Repr

/-- The code of a numbered record other than JOIN and JOINED (R21). -/
def attentionCode (b : Byte) : Option AttentionCode :=
  if b = 0x03 then some (.fault true)
  else if b = 0x04 then some (.fault false)
  else if b = 0x05 then some (.cal true)
  else if b = 0x06 then some (.cal false)
  else if b = 0x07 then some (.jam true)
  else if b = 0x08 then some (.jam false)
  else if b = 0x09 then some .note
  else none

/-- R39: the station writes the FEEDER_STATUS point of a line. -/
def State.feederBound (s : State) (n : Nat) (l : LineId) : Bool :=
  match s.findPoint .feederStatus (some l) with
  | none => false
  | some i => s.writtenBy i n

/-- R39: the station writes a point of the flue gas class of a line. -/
def State.flueBound (s : State) (n : Nat) (l : LineId) : Bool :=
  FgcPoint.all.any fun p =>
    match s.findPoint p.role (some l) with
    | none => false
    | some i => s.writtenBy i n

/-- R37, check 7. -/
def State.bound (s : State) (n : Nat) : AttentionCode → Bool
  | .jam _ => s.feederBound n .one || s.feederBound n .two
  | .fault _ => s.flueBound n .one || s.flueBound n .two
  | .cal _ => s.flueBound n .one || s.flueBound n .two
  | .note => true

/-- R39: what an accepted record does at the line controller or flue gas unit of a line it is bound to. -/
def State.attendLine (s : State) (n : Nat) (c : AttentionCode) (l : LineId) : State :=
  match c with
  | .jam on => if s.feederBound n l then (if on then s.jamSet l n else s.jamClear l n) else s
  | .fault on => if s.flueBound n l then s.trainFault l n on else s
  | .cal on => if s.flueBound n l then s.calibrate l n on else s
  | .note => s

/-- R39: an accepted record acts, line 1 first; a NOTE is logged with its payload. -/
def State.attend (s : State) (n : Nat) (c : AttentionCode) (payload : List Byte) : State :=
  match c with
  | .note => s.log .station .note n (fieldNat payload 0 2) (fieldNat payload 2 2)
  | .jam on => (s.attendLine n (.jam on) .one).attendLine n (.jam on) .two
  | .fault on => (s.attendLine n (.fault on) .one).attendLine n (.fault on) .two
  | .cal on => (s.attendLine n (.cal on) .one).attendLine n (.cal on) .two

/-- R37, checks 3 to 7, of a numbered record other than JOIN and JOINED. -/
def State.takeNumbered (s : State) (r : Attention) (n : Nat) : State :=
  let e := s.station n
  if e.state ≠ .active then s.drop r .notActive
  else if e.attention = false then s.drop r .disabled
  else if e.maxLength < r.length.toNat then s.drop r .length
  else
    match attentionCode r.code with
    | none => s.drop r .code
    | some c => if s.bound n c then (s.accept n).attend n c r.payload else s.drop r .unbound

/-- R37: one record of the attention area. -/
def State.takeRecord (s : State) (r : Attention) : State :=
  let n := r.station.toNat
  if r.station = 0xFF then s
  else if 30 < n then s.drop r .numberRange
  else if n = 0 then
    if r.code ≠ 0x01 then s.drop r .unnumbered
    else if r.length ≠ 5 then s.drop r .length
    else s.takeJoin (BitVec.ofNat 48 (natOf r.payload))
  else if r.code = 0x01 then s.drop r .code
  else if r.code = 0x02 then
    if r.length ≠ 2 then s.drop r .length else s.takeJoined r n (fieldNat r.payload 0 2)
  else s.takeNumbered r n

/-- R10, R37: the four records of a taken frame, in area order. -/
def State.takeAttention (s : State) (area : List Byte) : State := (attentionOf area).foldl State.takeRecord s

/-! ### Silence and the join wait -/

/-- R36: the presence of one station at a taken frame, with whether it is expected and present. STATION-RETURNED has the
station number as its subject (log 53). -/
def State.watchStation (s : State) (n : Nat) (expected present : Bool) : State :=
  let e := s.station n
  match e.state with
  | .absent => s
  | .joining => s
  | .active =>
    if expected = false then s
    else if present then s.setStation n { e with missed := 0 }
    else if s.seg.silenceCount ≤ e.missed + 1 then
      (s.setStation n { e with missed := e.missed + 1, state := .silent }).log .station .stationSilent n (e.missed + 1 : Nat)
    else s.setStation n { e with missed := e.missed + 1 }
  | .silent =>
    if present then (s.setStation n { e with missed := 0, state := .active }).log .station .stationReturned n else s

/-- The station numbers, 1 to 30. -/
def stationNumbers : List Nat := (List.range 30).map (· + 1)

/-- R36: every entry at a taken frame, from the stations expected and those whose tag stood, in the order of their
numbers (log 64). -/
def State.watchStations (s : State) (expected present : List Nat) : State :=
  stationNumbers.foldl (fun s n => s.watchStation n (expected.contains n) (present.contains n)) s

/-- R32: the join wait of one entry at a taken frame. -/
def State.countJoin (s : State) (n : Nat) : State :=
  let e := s.station n
  if e.state ≠ .joining ∨ e.due then s
  else if s.seg.silenceCount ≤ e.missed + 1 then (s.log .station .joinTimeout n).setStation n e.release
  else s.setStation n { e with missed := e.missed + 1 }

/-- R32: the join waits at a taken frame, counted when its records have been taken, so that a JOINED in the last frame
of a wait is in time (log 41); they are counted in the order of their numbers (log 64). -/
def State.countJoins (s : State) : State := stationNumbers.foldl State.countJoin s

/-- R32: the assignment an outbound frame carries: the lowest-numbered JOINING entry whose flag is set. -/
def State.assignment (s : State) : Option (Nat × Serial) :=
  (stationNumbers.find? fun n => decide ((s.station n).state = .joining) && (s.station n).due).map
    fun n => (n, (s.station n).serial.getD 0)

/-- R32: the entry whose assignment was sent has its flag cleared. -/
def State.assignmentSent (s : State) : State :=
  match s.assignment with
  | none => s
  | some (n, _) => s.setStation n { s.station n with due := false }

/-! ### RENUMBER and LOCK-NUMBER -/

/-- A station number 1 to 30. -/
def isNumber (b : Byte) : Bool := decide (1 ≤ b.toNat ∧ b.toNat ≤ 30)

/-- RENUMBER (R34): its checks in their order, then both entries change together. A new entry that is locked and not free is
answered LOCKED (log 61). -/
def State.cmdRenumber (s : State) (old new : Byte) : State :=
  let a := s.station old.toNat
  let b := s.station new.toNat
  if s.ring.segment ≠ .config then s.answer .renumber .badState
  else if isNumber old = false ∨ isNumber new = false then s.answer .renumber .badIndex
  else if old = new then s.answer .renumber .badValue
  else if a.lock then s.answer .renumber .locked
  else if a.state ≠ .active then s.answer .renumber .badState
  else if b.lock then s.answer .renumber .locked
  else if b.isFree = false then s.answer .renumber .badState
  else
    let s := s.setStation new.toNat (b.join (a.serial.getD 0) a.kindCode true)
    let s := s.setStation old.toNat a.freed
    (s.log .station .stationRenumbered new.toNat old.toNat).answer .renumber .done

/-- LOCK-NUMBER set (R35): an entry without a serial is refused. -/
def State.cmdLockSet (s : State) (number : Byte) : State :=
  let e := s.station number.toNat
  if isNumber number = false then s.answer .lockNumber .badIndex
  else if e.serial.isNone then s.answer .lockNumber .badState
  else (s.setStation number.toNat { e with lock := true }).answer .lockNumber .done

/-- LOCK-NUMBER clear (R35): an ABSENT entry is freed; any other keeps its binding. -/
def State.cmdLockClear (s : State) (number : Byte) : State :=
  let e := s.station number.toNat
  if isNumber number = false then s.answer .lockNumber .badIndex
  else
    (s.setStation number.toNat (if e.state = .absent then e.freed else { e with lock := false })).answer .lockNumber .done

/-! ### Ring reset requests -/

/-- R40: the reset-request flag of a sound outbound frame against the reset level. A request with the window closed
calls for a SEGMENT RESTART and opens it; with the window open it calls for a WARM reset and closes it. Either
comes after the frame has left the part. -/
def State.resetFlag (s : State) (flag : Bool) : State :=
  let old := s.seg.resetLevel
  let s := { s with seg.resetLevel := if flag then .set else .clear }
  if flag = true ∧ old = .clear then
    if s.seg.window.isNone then
      (({ s with seg.window := some (s.runTime + 2000) }).log .ring .ringReset 0 1).owe .segmentRestart
    else ({ s with seg.window := none }).owe (.warmReset .ringRequest)
  else s

/-- ESCALATION_WINDOW_EXPIRY (R40). -/
def State.windowExpiry (s : State) : State :=
  match s.seg.window with
  | none => s
  | some t => { s.reach t with seg.window := none }

end Sys2Proof.Machine
end

