-- ==== Sys2Proof/Machine/Segment.lean ====
section
/-! DEFINITION. The segment state and enumeration: changes of segment state (R1, R14, R15), lost and taken cycles
(R12, R14), the enumeration run (R24 to R29), the validation of the slot map (R16), and the commands ENUMERATE (R30)
and SEGMENT-MODE (R16, R17). -/

namespace Sys2Proof.Machine

/-! ### Changes of segment state -/

/-- R1: a change of segment state is logged, and then handed to the line controllers as a hold cause (R66, log 71). -/
def State.setSegment (s : State) (new : SegState) : State :=
  let old := s.ring.segment
  if old = new then s
  else
    let s := ({ s with ring.segment := new }).log .ring .segmentState 0 old.code new.code
    s.segmentCause (decide (new = .run))

/-- The segment state a resume target stands for. -/
def Working.segment : Working → SegState
  | .config => .config
  | .run => .run

/-- R12: a counter of lost cycles by cause: 1 RETURN-TIMEOUT, 2 LATE, 3 OUTBOUND-DAMAGED. -/
inductive LossCause where
  | timeout
  | late
  | damaged
deriving DecidableEq, Repr

/-- The codes of the causes, in the order of R12 (log 16). -/
def LossCause.code : LossCause → Nat
  | .timeout => 1
  | .late => 2
  | .damaged => 3

/-- The counters with one more lost cycle. -/
def Counters.lose (c : Counters) : LossCause → Counters
  | .timeout => { c with lostTimeout := wrap32 c.lostTimeout }
  | .late => { c with lostLate := wrap32 c.lostLate }
  | .damaged => { c with lostDamaged := wrap32 c.lostDamaged }

/-- R14: the consecutive counts at a lost cycle, and the entry into BROKEN. -/
def State.countLost (s : State) : State :=
  let n := s.ring.lostInRow + 1
  match s.ring.segment with
  | .down => s
  | .enumerating => s
  | .config =>
    let s := { s with ring := { s.ring with lostInRow := n, takenInRow := 0 } }
    if s.ring.brokenCount ≤ n then ({ s with ring.brokenFrom := .config }).setSegment .broken else s
  | .run =>
    let s := { s with ring := { s.ring with lostInRow := n, takenInRow := 0 } }
    if s.ring.brokenCount ≤ n then ({ s with ring.brokenFrom := .run }).setSegment .broken else s
  | .broken => { s with ring := { s.ring with lostInRow := n, takenInRow := 0 } }

/-- R12, R14: a lost cycle: counted by cause, logged once for each run, and then counted in a row (log 71). -/
def State.loseCycle (s : State) (cause : LossCause) (cycle : Nat) : State :=
  let run := s.ring.lossRun
  let s := { s with ring := { s.ring with counters := s.ring.counters.lose cause, lossRun := true } }
  let s := if run then s else s.log .ring .cycleLost 0 cause.code cycle
  s.countLost

/-- R8: a cycle still outstanding is lost as LATE. -/
def State.endLate (s : State) : State :=
  match s.ring.outstanding with
  | none => s
  | some o => ({ s with ring.outstanding := none }).loseCycle .late o.cycle

/-- R14: the consecutive counts at a taken cycle, and the return from BROKEN. -/
def State.countTaken (s : State) : State :=
  let n := s.ring.takenInRow + 1
  let s := { s with ring :=
    { s.ring with
      counters := { s.ring.counters with taken := wrap32 s.ring.counters.taken }
      lossRun := false, mismatchRun := false, takenInRow := n, lostInRow := 0 } }
  if s.ring.segment = .broken ∧ 10 ≤ n then s.setSegment s.ring.brokenFrom.segment else s

/-- R12: a mismatch is counted, and logged once for each run. -/
def State.mismatch (s : State) (found : Nat) : State :=
  let run := s.ring.mismatchRun
  let wanted := (s.ring.outstanding.map (·.cycle)).getD 0xFFFF
  let s := { s with ring :=
    { s.ring with
      counters := { s.ring.counters with mismatches := wrap32 s.ring.counters.mismatches }, mismatchRun := true } }
  if run then s else s.log .ring .cycleMismatch 0 found wanted

/-! ### Validation -/

/-- R16: the first failure of the validation from a slot on: the slot and the reason code. -/
def State.validateFrom (s : State) (k : Nat) : List SlotEntry → Option (Nat × Nat)
  | [] => none
  | e :: rest =>
    if e.direction = .unused then s.validateFrom (k + 1) rest
    else if e.direction = .input ∧ (s.station e.writer).state ≠ .active then some (k, 1)
    else if kindAgrees e.direction (s.point e.point).kind = false then some (k, 2)
    else s.validateFrom (k + 1) rest

/-- R16: the validation of the slot map against the station and point tables. -/
def State.validate (s : State) : Option (Nat × Nat) := s.validateFrom 0 s.ring.slotMap

/-! ### The enumeration run -/

/-- R24: a run begins; its first frame takes the round that follows the last one offered. A FULL run's first frame
carries the full-run marker. -/
def State.beginRun (s : State) (kind : EnumKind) : State :=
  let round := (s.seg.enum.lastRound + 1) % 256
  let first : EnumCarry := ⟨round, (match kind with | .full => allOnes | .added => 0), 0⟩
  { s with seg.enum :=
    { s.seg.enum with
      running := true, kind := kind, lastRound := round, rounds := 0, lost := 0, winner := none, awaiting := none
      numbered := 0, exhausted := false, offer := some first } }

/-- R15, R18, R24: the segment enters ENUMERATING and a run begins. -/
def State.enterEnumerating (s : State) (kind : EnumKind) : State :=
  let s := { s with ring := { s.ring with outstanding := none, flight := none, lostInRow := 0, takenInRow := 0 } }
  (s.setSegment .enumerating).beginRun kind

/-- R15: the rounds are complete; the frame engine ends ENUMERATING toward the resume target. A target RUN that
fails its validation becomes CONFIG (log 17), and is logged after the change (log 71). -/
def State.endEnumerating (s : State) : State :=
  let s := { s with ring.flight := none }
  match s.ring.resume with
  | .config => s.setSegment .config
  | .run =>
    match s.validate with
    | none => s.setSegment .run
    | some (slot, reason) =>
      (({ s with ring.resume := .config }).setSegment .config).log .ring .runNotResumed slot reason

/-- The entry of an assignment that came to nothing is released (R26, R28, R29). -/
def State.releaseAssigned (s : State) (a : Option (Serial × Nat)) : State :=
  match a with
  | none => s
  | some (_, n) => s.setStation n (s.station n).release

/-- The codes of the outcomes (R28). -/
def EnumOutcome.code : EnumOutcome → Nat
  | .complete => 1
  | .exhausted => 2
  | .incomplete => 3

/-- ENUMERATE is in execution and waits for its run to end (R30). -/
def State.enumerateWaits (s : State) : Bool :=
  decide (s.mgmt.executing = some CommandCode.enumerate.byte) && s.mgmt.response.isNone

/-- R28: the run ends: the record is IDLE, ENUMERATION-DONE is logged, the frame engine ends ENUMERATING, and an
ENUMERATE in execution is answered (R30), with one byte for each of its three data fields (log 59). -/
def State.endRun (s : State) (o : EnumOutcome) : State :=
  let s := if o = .incomplete then (s.releaseAssigned s.seg.enum.awaiting).releaseAssigned s.seg.enum.winner else s
  let s := { s with seg.enum :=
    { s.seg.enum with running := false, winner := none, awaiting := none, offer := none, outcome := some o } }
  let n := s.seg.enum.numbered
  let active := s.activeCount
  let s := s.log .station .enumerationDone o.code n active
  let s := s.endEnumerating
  if s.enumerateWaits then
    s.answer .enumerate .done [BitVec.ofNat 8 o.code, BitVec.ofNat 8 n, BitVec.ofNat 8 active]
  else s

/-- R29: a RUNNING run is abandoned, without any report; an ENUMERATE in execution is answered ABORTED (R30). The entry
of an assignment still awaiting is released, also when an earlier return has confirmed that same assignment (log 55).
-/
def State.abandonRun (s : State) : State :=
  if s.seg.enum.running then
    let s := (s.releaseAssigned s.seg.enum.awaiting).releaseAssigned s.seg.enum.winner
    let s := { s with seg.enum := { s.seg.enum with running := false, winner := none, awaiting := none, offer := none } }
    if s.enumerateWaits then s.answer .enumerate .aborted else s
  else s

/-- R25: a new round is offered, or the run ends INCOMPLETE when it would be the 121st. -/
def State.nextRound (s : State) : State :=
  let e := s.seg.enum
  if 120 < e.rounds + 1 then s.endRun .incomplete
  else
    let round := (e.lastRound + 1) % 256
    let carry : EnumCarry :=
      match e.winner with
      | none => ⟨round, 0, 0⟩
      | some (sr, n) => ⟨round, sr, n⟩
    { s with seg.enum := { e with lastRound := round, rounds := e.rounds + 1, offer := some carry } }

/-- R25: the ENUM frame in flight is reported lost: it is offered again, or the run ends INCOMPLETE at 8 losses. -/
def State.enumLost (s : State) : State :=
  match s.ring.flight with
  | none => s
  | some f =>
    let s := { s with ring.flight := none }
    if s.seg.enum.running then
      let n := s.seg.enum.lost + 1
      let s := { s with seg.enum.lost := n }
      if 8 ≤ n then s.endRun .incomplete else { s with seg.enum.offer := some f.carry }
    else s

/-- R26: the confirmation fields of a returned frame against the assignment awaiting. -/
def State.confirm (s : State) (carry : EnumCarry) (serial : Serial) (number : Nat) : State :=
  match s.seg.enum.awaiting with
  | none => s
  | some (sr, n) =>
    if serial = sr ∧ number = n then
      let s := s.setStation n { s.station n with state := .active, missed := 0 }
      { s with seg.enum.numbered := s.seg.enum.numbered + 1 }
    else if carry.serial = sr ∧ carry.number = n then s
    else (s.log .station .stationUnconfirmed n carry.round).setStation n (s.station n).release

/-- R27: an entry becomes JOINING for a winner, which waits to be carried. -/
def State.chooseWinner (s : State) (sr : Serial) (n kind : Nat) : State :=
  let s := s.setStation n ((s.station n).join sr kind false)
  { s with seg.enum.winner := some (sr, n) }

/-- R27: the arbitration serial of a returned frame. -/
def State.arbitrate (s : State) (arb : Serial) : State :=
  if arb.toNat / 1099511627776 ≠ 0 ∨ s.seg.enum.exhausted then s
  else
    match s.numberOf arb with
    | some n => s.chooseWinner arb n (s.station n).kindCode
    | none =>
      match s.lowestFree with
      | some n => s.chooseWinner arb n 0
      | none => ({ s with seg.enum.exhausted := true }).log .station .numbersExhausted

/-- R28, R25: after a sound return the run ends, or a new round is offered. -/
def State.judgeRun (s : State) (arb : Serial) : State :=
  let e := s.seg.enum
  if e.awaiting = none ∧ e.winner = none ∧ e.exhausted then s.endRun .exhausted
  else if e.awaiting = none ∧ e.winner = none ∧ arb = allOnes then s.endRun .complete
  else s.nextRound

/-- R26 to R28: a sound returned frame at the segment manager. -/
def State.enumReturned (s : State) (carry : EnumCarry) (arb confirmSerial : Serial) (confirmNumber : Nat) : State :=
  if s.seg.enum.running then
    let s := { s with seg.enum.lost := 0 }
    let s := s.confirm carry confirmSerial confirmNumber
    let carried := if carry.number = 0 then none else some (carry.serial, carry.number)
    let s := { s with seg.enum := { s.seg.enum with awaiting := carried, winner := none } }
    (s.arbitrate arb).judgeRun arb
  else s

/-- ENUM_FRAME_RETURN (R18, R26): a sound ENUM frame in ENUMERATING. With none in flight it is discarded, and so is
one of another round, whose flight goes on. -/
def State.enumFrameReturn (s : State) (round : Nat) (arb confirmSerial : Serial) (confirmNumber : Nat) : State :=
  match s.ring.flight with
  | none => s
  | some f =>
    if f.carry.round ≠ round then s
    else ({ s with ring.flight := none }).enumReturned f.carry arb confirmSerial confirmNumber

/-! ### Links and the return timer -/

/-- PORT_S_LINK_DOWN (R1). -/
def State.linkSDown (s : State) : State :=
  let resume := if s.ring.segment = .broken then s.ring.brokenFrom else s.ring.resume
  let s := { s with ring :=
    { s.ring with linkS := false, outstanding := none, flight := none, lostInRow := 0, takenInRow := 0, resume := resume } }
  (s.abandonRun).setSegment .down

/-- PORT_S_LINK_UP (R1): from DOWN the segment enters ENUMERATING. -/
def State.linkSUp (s : State) : State :=
  let s := { s with ring.linkS := true }
  if s.ring.segment = .down then s.enterEnumerating .full else s

/-- PORT_N_LINK_CHANGE (R1). -/
def State.linkNChange (s : State) (up : Bool) : State := { s with ring.linkN := up }

/-- RETURN_TIMEOUT (R7, R18). -/
def State.returnTimeout (s : State) : State :=
  match s.ring.outstanding with
  | some o =>
    (({ s.reachTenths o.expiry with ring.outstanding := none }).loseCycle .timeout o.cycle)
  | none =>
    match s.ring.flight with
    | some f => (s.reachTenths f.expiry).enumLost
    | none => s

/-! ### SEGMENT-MODE and ENUMERATE -/

/-- A BAD-STATE answer of SEGMENT-MODE: slot or line in two bytes, then the reason (R21). -/
def State.segmentRefused (s : State) (slot reason : Nat) : State :=
  s.answer .segmentMode .badState (bytesOf 2 slot ++ bytesOf 1 reason)

/-- SEGMENT-MODE RUN (R16). -/
def State.cmdSegmentRun (s : State) : State :=
  match s.ring.segment with
  | .run => s.answer .segmentMode .done
  | .config =>
    match s.validate with
    | some (slot, reason) => s.segmentRefused slot reason
    | none => (({ s with ring.resume := .run }).setSegment .run).answer .segmentMode .done
  | .down => s.segmentRefused 0xFFFF 7
  | .enumerating => s.segmentRefused 0xFFFF 7
  | .broken => s.segmentRefused 0xFFFF 7

/-- SEGMENT-MODE CONFIG (R17). With both lines not OFF the refusal names line 1 (log 49). -/
def State.cmdSegmentConfig (s : State) : State :=
  match s.ring.segment with
  | .config => s.answer .segmentMode .done
  | .run =>
    if s.lineOff .one = false then s.segmentRefused 1 5
    else if s.lineOff .two = false then s.segmentRefused 2 5
    else if s.turb.state = .loaded then s.segmentRefused 0xFFFF 6
    else (({ s with ring.resume := .config }).setSegment .config).answer .segmentMode .done
  | .down => s.segmentRefused 0xFFFF 7
  | .enumerating => s.segmentRefused 0xFFFF 7
  | .broken => s.segmentRefused 0xFFFF 7

/-- ENUMERATE (R30): from CONFIG an ADDED run begins, and the command stays in execution until the run ends. -/
def State.cmdEnumerate (s : State) : State :=
  if s.ring.segment = .config then ({ s with ring.resume := .config }).enterEnumerating .added
  else s.answer .enumerate .badState

end Sys2Proof.Machine
end

