-- ==== Sys2Proof/Machine/TableCodec.lean ====
section
/-! DEFINITION. The records of the tables (R183): their sizes, their fields in the order in which the owning chapter
lists them, and what a written record stands for once its numeric fields are clamped (R185). -/

namespace Sys2Proof.Machine

/-- A field of a record: its width in bytes and its value. -/
abbrev Field := Nat × Nat

/-- A field of 2 bytes. -/
def f2 (x : Nat) : Field := (2, x)

/-- A field of 4 bytes. -/
def f4 (x : Nat) : Field := (4, x)

/-- A field of 6 bytes: a serial or a plant time. -/
def f6 (x : Nat) : Field := (6, x)

/-- A set-or-clear field. -/
def fb (b : Bool) : Field := (2, if b then 1 else 0)

/-- A signed value as a field of 2 bytes. -/
def fs (x : Int) : Field := (2, (BitVec.ofInt 16 x).toNat)

/-- The bytes of a record. -/
def encodeFields (f : List Field) : List Byte := f.flatMap fun x => bytesOf x.1 x.2

/-- The values that bytes give fields of these widths. -/
def decodeFields : List Nat → List Byte → List Nat
  | [], _ => []
  | w :: rest, b => natOf (b.take w) :: decodeFields rest (b.drop w)

/-- The number of written values that differ from the values stored: the fields clamped (R185). -/
def clampedFields (written : List Nat) (stored : List Field) : Nat :=
  ((written.zip stored).filter fun p => decide (p.1 ≠ p.2.2)).length

/-- The value at a position. -/
def at_ (v : List Nat) (k : Nat) : Nat := v.getD k 0

/-! ### SLOT-MAP -/

/-- The direction codes (R183). -/
def Direction.code : Direction → Nat
  | .unused => 0
  | .input => 1
  | .output => 2
  | .request => 3
  | .report => 4

/-- The direction of a code. -/
def directionOf (n : Nat) : Option Direction :=
  match n with
  | 0 => some .unused
  | 1 => some .input
  | 2 => some .output
  | 3 => some .request
  | 4 => some .report
  | _ => none

/-- A SLOT-MAP record (R3). -/
def SlotEntry.fields (e : SlotEntry) : List Field := [f2 e.direction.code, f2 e.point, f2 e.writer]

/-- R3: a written entry, or none for a value it refuses; fields it does not hold are stored as 0. -/
def slotEntryOf (v : List Nat) : Option SlotEntry :=
  match directionOf (at_ v 0) with
  | none => none
  | some d =>
    if 191 < at_ v 1 then none
    else
      match d with
      | .unused => some .unused
      | .input => if 1 ≤ at_ v 2 ∧ at_ v 2 ≤ 30 then some ⟨.input, at_ v 1, at_ v 2⟩ else none
      | .output => some ⟨.output, at_ v 1, 0⟩
      | .request => some ⟨.request, at_ v 1, 0⟩
      | .report => some ⟨.report, at_ v 1, 0⟩

/-! ### POINTS -/

/-- The substitution codes (R183). -/
def Substitution.code : Substitution → Nat
  | .holdLast => 0
  | .fixed => 1
  | .none => 2

/-- The fields that a write to the POINTS table may set, in the order of R42. -/
def Point.configFields (p : Point) : List Field :=
  [f2 p.kind.code, f2 p.role.code, f2 (lineCode p.line), fs p.gain, fs p.offset, fs p.low, fs p.high,
    f2 p.staleLimit, f2 p.subst.code, fs p.substValue, f2 p.holdLimit, f2 p.polarity.toNat, f2 p.riseMask.toNat,
    f2 p.fallMask.toNat]

/-- A POINTS record in the order of R42: value and quality as qualified, apart from a forcing record and the degraded
flag, and the level as stored (log 70). The value is the only field of more than 16 bits. A field that R42 does not give to
the kind is shown as it stands (log 88). -/
def Point.fields (p : Point) : List Field :=
  if p.kind = .empty then List.replicate 15 (f2 0) ++ [f4 0] ++ List.replicate 13 (f2 0)
  else
    p.configFields ++
      [fs p.raw, f4 (BitVec.ofInt 32 p.value).toNat, f2 p.quality.code, f2 p.level.toNat,
        f2 p.riseLatch.toNat, f2 p.fallLatch.toNat, f2 p.input.code, fb p.degraded] ++
      (forcingFields p.forcing).map fs

/-- The kind of a code (R183). -/
def pointKindOf (n : Nat) : Option PointKind :=
  match n with
  | 0 => some .empty
  | 1 => some .analog
  | 2 => some .binary
  | 3 => some .output
  | 4 => some .request
  | 5 => some .report
  | _ => none

/-- The role of a code (R183). -/
def roleOf (n : Nat) : Option Role := if n = 0 then none else Role.all[n - 1]?

/-- The substitution of a code (R183). -/
def substitutionOf (n : Nat) : Option Substitution :=
  match n with
  | 0 => some .holdLast
  | 1 => some .fixed
  | 2 => some .none
  | _ => none

/-- The line of a code, for a role of this scope; none for a line that does not match it (R44). -/
def lineFor (perLine : Bool) (n : Nat) : Option (Option LineId) :=
  match perLine, n with
  | true, 1 => some (some .one)
  | true, 2 => some (some .two)
  | false, 0 => some none
  | _, _ => none

/-- A 2-byte value read as signed. -/
def signed (n : Nat) : Int := (BitVec.ofNat 16 n).toInt

/-- R44: a written record with its numeric fields clamped, or none for a value that checks 3 and 4 refuse. A record
written EMPTY is EMPTY whatever its other fields (log 18). -/
def pointConfigOf (v : List Nat) : Option Point :=
  match pointKindOf (at_ v 0), roleOf (at_ v 1), substitutionOf (at_ v 8) with
  | some .empty, _, _ => some .empty
  | some k, some r, some sub =>
    match lineFor r.perLine (at_ v 2) with
    | none => none
    | some l =>
      if k ≠ r.kind ∨ signed (at_ v 6) < signed (at_ v 5) then none
      else
        some
          { Point.empty with
            kind := k, role := r, line := l, gain := signed (at_ v 3), offset := signed (at_ v 4)
            low := signed (at_ v 5), high := signed (at_ v 6), staleLimit := clampNat (at_ v 7) 50 60000
            subst := sub, substValue := signed (at_ v 9), holdLimit := clampNat (at_ v 10) 1 3600
            polarity := BitVec.ofNat 16 (at_ v 11), riseMask := BitVec.ofNat 16 (at_ v 12)
            fallMask := BitVec.ofNat 16 (at_ v 13), quality := if k = .output then .good else .bad }
  | _, _, _ => none

/-! ### STATIONS and SEGMENT -/

/-- The state codes of a station entry (R183). -/
def StationState.code : StationState → Nat
  | .absent => 0
  | .joining => 1
  | .active => 2
  | .silent => 3

/-- A STATIONS record (R23, R183): a free station's attention fields are sent as they stand. -/
def Station.fields (e : Station) : List Field :=
  if e.isFree then [f2 0, f6 0, f2 0, f2 0, f2 0, fb e.attention, f2 e.maxLength, f2 0, f2 0]
  else
    [f2 1, f6 ((e.serial.getD 0).toNat), f2 e.kindCode, f2 e.state.code, fb e.lock, fb e.attention, f2 e.maxLength,
      f2 e.missed, fb e.due]

/-- The counters of R12 in their order. -/
def Counters.list (c : Counters) : List Nat :=
  [c.taken, c.lostTimeout, c.lostLate, c.lostDamaged, c.damagedInbound, c.damagedOutbound, c.foreign, c.mismatches,
    c.collisions, c.echoMismatches]

/-- The SEGMENT record (R183): the four fields written, then the counters shown. -/
def State.segmentFields (s : State) : List Field :=
  [f2 s.ring.returnTimeout, f2 s.ring.brokenCount, f2 s.seg.silenceCount, fb s.seg.joinEnable] ++
    s.ring.counters.list.map f4

/-! ### LINE -/

/-- A LINE record: the fields of R61, then those of R83; I_max and I_min take 4 bytes. -/
def LinePage.fields (p : LinePage) : List Field :=
  [f2 p.period, f2 p.threshold, f2 p.permDelay, f2 p.holdLimit, f2 p.burnoutTime, f2 p.strokeTimeout,
    f2 p.strokeMass, f2 p.nominalFlow, f2 p.airPerMWh, f2 p.lambda, f2 p.o2Set, f2 p.o2Gain, f2 p.split, f2 p.fMax,
    f2 p.fFloor, f2 p.enthalpy, f2 p.efficiency, f2 p.heatWindow, f2 p.massLag, f2 p.alpha, f2 p.lhvHi, f2 p.lhvLo,
    f2 p.lhvInit, f2 p.trimGain, f2 p.trimLimit, f4 p.iMax, f4 p.iMin]

/-- R61, R83: a written page, each field clamped, the dependent ranges in the order of the tables' rows. -/
def linePageOf (v : List Nat) : LinePage :=
  let fMax := clampNat (at_ v 13) 100 2000
  let hi := clampNat (at_ v 20) 2000 30000
  let lo := clampNat (at_ v 21) 2000 hi
  let iMax := clampNat (at_ v 25) 5000 900000
  { period := clampNat (at_ v 0) 100 2000
    threshold := clampNat (at_ v 1) 7000 11000
    permDelay := clampNat (at_ v 2) 0 60
    holdLimit := clampNat (at_ v 3) 60 3600
    burnoutTime := clampNat (at_ v 4) 10 240
    strokeTimeout := clampNat (at_ v 5) 5 120
    strokeMass := clampNat (at_ v 6) 100 5000
    nominalFlow := clampNat (at_ v 7) 1000 60000
    airPerMWh := clampNat (at_ v 8) 600 1400
    lambda := clampNat (at_ v 9) 1100 2500
    o2Set := clampNat (at_ v 10) 300 1500
    o2Gain := clampNat (at_ v 11) 0 255
    split := clampNat (at_ v 12) 300 900
    fMax := fMax
    fFloor := clampNat (at_ v 14) 0 fMax
    enthalpy := clampNat (at_ v 15) 1500 3500
    efficiency := clampNat (at_ v 16) 500 980
    heatWindow := clampNat (at_ v 17) 10 60
    massLag := clampNat (at_ v 18) 0 30
    alpha := clampNat (at_ v 19) 1 16
    lhvHi := hi
    lhvLo := lo
    lhvInit := clampNat (at_ v 22) lo hi
    trimGain := clampNat (at_ v 23) 0 255
    trimLimit := clampNat (at_ v 24) 0 200
    iMax := iMax
    iMin := clampNat (at_ v 26) 5000 iMax }

/-! ### EMISSION and DOSING -/

/-- The basis codes (R183). -/
def Basis.code : Basis → Nat
  | .wet => 0
  | .dry => 1

/-- EMISSION index 0: the line's fields of R97, then those of R113. -/
def EmissionPage.lineFields (p : EmissionPage) : List Field :=
  [f2 p.o2Ref, f2 p.minuteThr, f2 p.halfHourThr, f2 p.dayThr, f2 p.restraintStep, f2 p.consecLimit]

/-- EMISSION indices 1 to 6: a component's fields of R97, then those of R113. -/
def ComponentPage.fields (p : ComponentPage) : List Field :=
  [f2 p.basis.code, f2 p.halfLimit, f2 p.dayLimit, f2 p.uncert, f2 p.rOn, f2 p.rOff]

/-- R97, R113: written line fields, clamped. -/
def EmissionPage.withLine (p : EmissionPage) (v : List Nat) : EmissionPage :=
  { p with
    o2Ref := clampNat (at_ v 0) 300 1700
    minuteThr := clampNat (at_ v 1) 50 100
    halfHourThr := clampNat (at_ v 2) 15 30
    dayThr := clampNat (at_ v 3) 24 48
    restraintStep := clampNat (at_ v 4) 5 200
    consecLimit := clampNat (at_ v 5) 1800 14400 }

/-- R97, R113: a written component record, clamped, R_on before R_off; none for another basis. -/
def componentPageOf (v : List Nat) : Option ComponentPage :=
  if 1 < at_ v 0 then none
  else
    let rOn := clampNat (at_ v 4) 500 1000
    some
      { basis := if at_ v 0 = 0 then .wet else .dry
        halfLimit := clampNat (at_ v 1) 1 32767
        dayLimit := clampNat (at_ v 2) 1 32767
        uncert := clampNat (at_ v 3) 0 500
        rOn := rOn
        rOff := clampNat (at_ v 5) 300 rOn }

/-- The component of an EMISSION index 1 to 6. -/
def componentAt (k : Nat) : Component := Component.all.getD (k - 1) .dust

/-- The trigger codes (R183). -/
def Trigger.code : Trigger → Nat
  | .controlPeriod => 0
  | .minute => 1
  | .strokeDone => 2

/-- The trigger of a code. -/
def triggerOf (n : Nat) : Option Trigger :=
  match n with
  | 0 => some .controlPeriod
  | 1 => some .minute
  | 2 => some .strokeDone
  | _ => none

/-- A DOSING record (R104). -/
def LoopPage.fields (p : LoopPage) : List Field :=
  [f2 p.trigger.code, f2 p.ratio, f2 p.target, f2 p.trimGain, f2 p.trimLimit, f2 p.outputMax, f2 p.satTime]

/-- R104: the upper end of a loop's target; CARBON does not use its own (log 10). -/
def targetMax : DosingLoop → Nat
  | .urea => 32767
  | .lime => 2000
  | .carbon => 32767

/-- R104: a written DOSING record, clamped; none for another trigger. -/
def loopPageOf (d : DosingLoop) (v : List Nat) : Option LoopPage :=
  match triggerOf (at_ v 0) with
  | none => none
  | some t =>
    some
      { trigger := t
        ratio := clampNat (at_ v 1) 0 10000
        target := clampNat (at_ v 2) 0 (targetMax d)
        trimGain := clampNat (at_ v 3) 0 255
        trimLimit := clampNat (at_ v 4) 0 32767
        outputMax := clampNat (at_ v 5) 0 32767
        satTime := clampNat (at_ v 6) 10 3600 }

/-- The loop of a DOSING index. -/
def loopAt (k : Nat) : DosingLoop := loopsAll.getD k .urea

/-! ### HALF-HOURS, DAYS and SCHEDULE -/

/-- The status codes of a half-hour component (R183). -/
def HalfStatus.code : HalfStatus → Nat
  | .notOperating => 0
  | .valid => 1
  | .invalid => 2
  | .none => 3

/-- The closing mark codes (R183). -/
def ClosingMark.code : ClosingMark → Nat
  | .boundary => 0
  | .early => 1

/-- A component of a HALF-HOURS record (R115); averages take 4 bytes, and none reads as log 6 says. -/
def HalfRecComp.fields (c : HalfRecComp) : List Field :=
  [f2 c.status.code, f4 ((c.averages.map (·.1)).getD (Config.noneField 8)),
    f4 ((c.averages.map (·.2)).getD (Config.noneField 8)), f2 c.valid, fb c.exceeded]

/-- The fields of six components, in component order. -/
def sixFields {α : Type} (t : Six α) (f : α → List Field) : List Field := Component.all.flatMap fun c => f (t.get c)

/-- A HALF-HOURS record (R115, R183): the components stand in the order of their codes, which take no field (log 86). -/
def halfFields : Option HalfRecord → List Field
  | none => [f2 0, f6 0] ++ (List.replicate 6 [f2 0, f4 0, f4 0, f2 0, f2 0]).flatten ++ List.replicate 5 (f2 0)
  | some r =>
    [f2 1, f6 r.start] ++ sixFields r.comps HalfRecComp.fields ++
      [f2 r.operating, fb r.calib, fb r.adjusted, fb r.exceeded, f2 r.mark.code]

/-- A component of a DAYS record (R117): the day status is VALID or INVALID. -/
def DayComp.fields (c : DayComp) : List Field :=
  [f2 c.count, f4 (c.average.getD (Config.noneField 9)), f2 (if c.valid then 0 else 1), fb c.exceeded]

/-- A DAYS record (R117, R183): the components stand in the order of their codes, which take no field (log 86). -/
def dayFields : Option DayRecord → List Field
  | none => [f2 0] ++ (List.replicate 6 [f2 0, f4 0, f2 0, f2 0]).flatten ++ [f6 0, f2 0, f2 0, f2 0]
  | some r => [f2 1] ++ sixFields r.comps DayComp.fields ++ [f6 r.start, f2 r.records, fb r.adjusted, f2 r.mark.code]

/-- The position of a block's status in the list of section 10.6 (R183). -/
def BlockStatus.position : BlockStatus → Nat
  | .pending => 0
  | .active => 1
  | .unmet => 2

/-- A SCHEDULE record (section 10.6, R183). -/
def scheduleFields : Option Block → List Field
  | none => [f2 0, f2 0, f2 0, f6 0, f6 0] ++ List.replicate 8 (f2 0)
  | some b =>
    [f2 1, f2 b.order, f2 b.index, f6 b.start, f6 b.stop, f2 b.power, f2 b.reserve, f2 b.accPower, f2 b.accReserve,
      f2 b.ramp, fb b.firm, f2 b.capAt, f2 b.status.position]

/-! ### HEADER, TURBINE and DISPATCH -/

/-- The share mode codes (R183). -/
def ShareMode.code : ShareMode → Nat
  | .proportional => 0
  | .baseLine1 => 1
  | .baseLine2 => 2

/-- The share mode of a code. -/
def shareModeOf (n : Nat) : Option ShareMode :=
  match n with
  | 0 => some .proportional
  | 1 => some .baseLine1
  | 2 => some .baseLine2
  | _ => none

/-- The HEADER record (R136). -/
def HeaderPage.fields (p : HeaderPage) : List Field :=
  [f2 p.period, f2 p.share.code, fb p.heatPriority, f2 p.heatRate, f2 p.heatMax, f2 p.bypassMin, f2 p.bypassMax,
    f2 p.pressureSet, f2 p.pressureGain, f2 p.pressureLim]

/-- R136: a written HEADER record, clamped; none for another share mode or heat priority. -/
def headerPageOf (v : List Nat) : Option HeaderPage :=
  match shareModeOf (at_ v 1) with
  | none => none
  | some m =>
    if 1 < at_ v 2 then none
    else
      some
        { period := clampNat (at_ v 0) 200 5000
          share := m
          heatPriority := decide (at_ v 2 = 1)
          heatRate := clampNat (at_ v 3) 50 400
          heatMax := clampNat (at_ v 4) 0 2000
          bypassMin := clampNat (at_ v 5) 0 500
          bypassMax := clampNat (at_ v 6) 0 2000
          pressureSet := clampNat (at_ v 7) 100 15000
          pressureGain := clampNat (at_ v 8) 0 255
          pressureLim := clampNat (at_ v 9) 0 500 }

/-- The TURBINE record (R151). -/
def TurbinePage.fields (p : TurbinePage) : List Field :=
  [f2 p.steamRate, f2 p.rating, f2 p.pMin, f2 p.indTimeout, f2 p.settleTime, f2 p.defaultRamp]

/-- R151: a written TURBINE record, clamped, P_min against the rating that stands after it. -/
def turbinePageOf (v : List Nat) : TurbinePage :=
  let rating := clampNat (at_ v 1) 10 2000
  { steamRate := clampNat (at_ v 0) 300 1000
    rating := rating
    pMin := clampNat (at_ v 2) 0 rating
    indTimeout := clampNat (at_ v 3) 10 600
    settleTime := clampNat (at_ v 4) 5 300
    defaultRamp := clampNat (at_ v 5) 1 500 }

/-- A pair as one field: plant, then unit (log 19). -/
def pairField (p : Byte × Byte) : Field := f2 (p.1.toNat * 256 + p.2.toNat)

/-- The pair of a field. -/
def pairOf (n : Nat) : Byte × Byte := (BitVec.ofNat 8 (n / 256), BitVec.ofNat 8 n)

/-- The DISPATCH record (R164). -/
def DispatchPage.fields (p : DispatchPage) : List Field :=
  [pairField p.unit, pairField p.pool, f2 p.lead, f2 p.supTime, f2 p.noticeThr, f2 p.ackTimeout, f2 p.pDef]

/-- R164: a written DISPATCH record, clamped; none for a pair of (0xFF, 0xFF). -/
def dispatchPageOf (v : List Nat) : Option DispatchPage :=
  if at_ v 0 = 65535 ∨ at_ v 1 = 65535 then none
  else
    some
      { unit := pairOf (at_ v 0)
        pool := pairOf (at_ v 1)
        lead := clampNat (at_ v 2) 0 60
        supTime := clampNat (at_ v 3) 10 600
        noticeThr := clampNat (at_ v 4) 1 500
        ackTimeout := clampNat (at_ v 5) 5 120
        pDef := clampNat (at_ v 6) 0 2000 }

end Sys2Proof.Machine
end

