-- ==== Sys2Proof/Machine/Tables.lean ====
section
/-! DEFINITION. The tables (section 11.2): READ-TABLE (R184) and WRITE-TABLE (R185) with the write rules of the owning
chapters (R3, R23, R44, R61, R83, R97, R104, R113, R118, R136, R151, R164). -/

namespace Sys2Proof.Machine

/-- A table and its page (section 11.2). -/
inductive TableRef where
  | slotMap
  | points
  | stations
  | segment
  | line (l : LineId)
  | emission (l : LineId)
  | dosing (l : LineId)
  | halfHours (l : LineId)
  | days (l : LineId)
  | header
  | turbine
  | dispatch
  | schedule
deriving DecidableEq, Repr

/-- A table of the single page 0. -/
def singlePage (page : Byte) (t : TableRef) : Except RespCode TableRef := if page = 0 then .ok t else .error .badIndex

/-- A table with one page for each line. -/
def linePageRef (page : Byte) (t : LineId → TableRef) : Except RespCode TableRef :=
  match lineOf page with
  | some l => .ok (t l)
  | none => .error .badIndex

/-- R184, R185: the table of a code and page, or the refusal. -/
def tableOf (code page : Byte) : Except RespCode TableRef :=
  match code.toNat with
  | 1 => singlePage page .slotMap
  | 2 => singlePage page .points
  | 3 => singlePage page .stations
  | 4 => singlePage page .segment
  | 5 => linePageRef page .line
  | 6 => linePageRef page .emission
  | 7 => linePageRef page .dosing
  | 8 => linePageRef page .halfHours
  | 9 => linePageRef page .days
  | 10 => singlePage page .header
  | 11 => singlePage page .turbine
  | 12 => singlePage page .dispatch
  | 13 => singlePage page .schedule
  | _ => .error .badTable

/-- The number of records of a table (section 11.2). -/
def TableRef.records : TableRef → Nat
  | .slotMap => 256
  | .points => 192
  | .stations => 30
  | .segment => 1
  | .line _ => 1
  | .emission _ => 7
  | .dosing _ => 3
  | .halfHours _ => 48
  | .days _ => 2
  | .header => 1
  | .turbine => 1
  | .dispatch => 1
  | .schedule => 16

/-- The widths of a table's fields (R183), which are those of any of its records. -/
def TableRef.widths : TableRef → List Nat
  | .slotMap => List.replicate 3 2
  | .points => List.replicate 15 2 ++ [4] ++ List.replicate 13 2
  | .stations => [2, 6] ++ List.replicate 7 2
  | .segment => List.replicate 4 2 ++ List.replicate 10 4
  | .line _ => List.replicate 25 2 ++ [4, 4]
  | .emission _ => List.replicate 6 2
  | .dosing _ => List.replicate 7 2
  | .halfHours _ => [2, 6] ++ (List.replicate 6 [2, 4, 4, 2, 2]).flatten ++ List.replicate 5 2
  | .days _ => [2] ++ (List.replicate 6 [2, 4, 2, 2]).flatten ++ [6, 2, 2, 2]
  | .header => List.replicate 10 2
  | .turbine => List.replicate 6 2
  | .dispatch => List.replicate 7 2
  | .schedule => [2, 2, 2, 6, 6] ++ List.replicate 8 2

/-- The record size of a table (R183). -/
def TableRef.size (t : TableRef) : Nat := t.widths.sum

/-- The fields of a record as they stand (R184). -/
def State.recordFields (s : State) (t : TableRef) (k : Nat) : List Field :=
  match t with
  | .slotMap => (s.ring.slotMap.getD k .unused).fields
  | .points => (s.point k).fields
  | .stations => (s.station (k + 1)).fields
  | .segment => s.segmentFields
  | .line l => (s.line l).page.fields
  | .emission l =>
    if k = 0 then (s.fgc l).page.lineFields else ((s.fgc l).page.comps.get (componentAt k)).fields
  | .dosing l => ((s.fgc l).dosing.get (loopAt k)).fields
  | .halfHours l => halfFields ((s.fgc l).table.getD k none)
  | .days l => dayFields (if k = 0 then (s.fgc l).dayLatest else (s.fgc l).dayPrev)
  | .header => s.env.page.fields
  | .turbine => s.turb.page.fields
  | .dispatch => s.disp.page.fields
  | .schedule => scheduleFields s.disp.queue[k]?

/-- The bytes of a record. -/
def State.recordBytes (s : State) (t : TableRef) (k : Nat) : List Byte := encodeFields (s.recordFields t k)

/-- R184: as many records as the count asks for and as fit whole in 236 bytes beside the five of the heading, of which
the number of records returned takes one (log 62). -/
def returned (t : TableRef) (count : Nat) : Nat := min count (231 / t.size)

/-- READ-TABLE (R184), a count of 0 judged last (log 61), the number of records returned in one byte (log 62). -/
def State.cmdReadTable (s : State) (table page : Byte) (start : Word16) (count : Byte) : State :=
  match tableOf table page with
  | .error e => s.answer .readTable e
  | .ok t =>
    let k := start.toNat
    if t.records < k + count.toNat then s.answer .readTable .badIndex
    else if count = 0 then s.answer .readTable .badValue
    else
      let n := returned t count.toNat
      s.answer .readTable .done
        ([table, page] ++ bytesOf 2 k ++ bytesOf 1 n ++ (List.range n).flatMap fun j => s.recordBytes t (k + j))

/-! ### WRITE-TABLE -/

/-- The records of a write, each taken apart into its fields. -/
def writtenRecords (t : TableRef) : Nat → List Byte → List (List Nat)
  | 0, _ => []
  | n + 1, b => decodeFields t.widths b :: writtenRecords t n (b.drop t.size)

/-- R44, check 1: a written record changes a structure field: kind, role, line, gain, offset or polarity mask. -/
def changesStructure (p : Point) (v : List Nat) : Bool :=
  let now := p.fields.map (·.2)
  !(decide (p.kind = .empty ∧ at_ v 0 = 0)) && [0, 1, 2, 3, 4, 11].any fun k => decide (at_ now k ≠ at_ v k)

/-- R185, check 4: the table is writable, and the state its write rule requires holds. -/
def State.writable (s : State) (t : TableRef) (start : Nat) (recs : List (List Nat)) : Bool :=
  match t with
  | .slotMap => decide (s.ring.segment = .config)
  | .points =>
    decide (s.ring.segment = .config) ||
      !(recs.zipIdx.any fun p => decide (start + p.2 < 192) && changesStructure (s.point (start + p.2)) p.1)
  | .stations => true
  | .segment => decide (s.ring.segment = .config)
  | .line l => s.lineOff l
  | .emission _ => true
  | .dosing _ => true
  | .halfHours _ => false
  | .days _ => false
  | .header => true
  | .turbine => decide (s.turb.state ≠ .loaded)
  | .dispatch => true
  | .schedule => false

/-- A list with the entries from a position on replaced. -/
def replaceFrom {α : Type} (xs : List α) (start : Nat) : List α → List α
  | [] => xs
  | a :: rest => replaceFrom (xs.set start a) (start + 1) rest

/-- R3: no point number stands in two entries that are not UNUSED. -/
def pointsOnce (m : List SlotEntry) : Bool :=
  let used := (m.filter fun e => decide (e.direction ≠ .unused)).map (·.point)
  decide used.Nodup

/-- R3, R13: the slot map is written; an entry that changes direction or point takes echo count 0. -/
def State.writeSlots (s : State) (start : Nat) (es : List SlotEntry) : State :=
  let old := s.ring.slotMap
  let new := replaceFrom old start es
  let counts := (s.ring.echoCounts.zip (old.zip new)).map fun p =>
    if p.2.1.direction = p.2.2.direction ∧ p.2.1.point = p.2.2.point then p.1 else 0
  { s with ring := { s.ring with slotMap := new, echoCounts := counts } }

/-- R44: a write starts a record afresh when its kind, role, line, gain or offset changes. -/
def startsAfresh (old new : Point) : Bool :=
  decide (old.kind ≠ new.kind ∨ (new.kind ≠ .empty ∧
    (old.role ≠ new.role ∨ old.line ≠ new.line ∨ old.gain ≠ new.gain ∨ old.offset ≠ new.offset)))

/-- R44, R52: the record after a write of these fields: afresh, or with its running state kept and a changed polarity
mask acting on the level at once, whatever the input state (log 72), and with it on the value (log 65). -/
def Point.rewritten (old new : Point) : Point :=
  if startsAfresh old new then new
  else if new.kind = .empty then old
  else
    let level := if new.kind = .binary then old.level ^^^ (old.polarity ^^^ new.polarity) else old.level
    { old with
      low := new.low, high := new.high, staleLimit := new.staleLimit, subst := new.subst
      substValue := new.substValue, holdLimit := new.holdLimit, polarity := new.polarity, riseMask := new.riseMask
      fallMask := new.fallMask, level := level
      value := if new.kind = .binary ∧ old.polarity ≠ new.polarity then level.toInt else old.value }

/-- R43: no (role, line) is held by two configured records. -/
def rolesOnce (ps : List Point) : Bool :=
  decide ((ps.filter fun p => decide (p.kind ≠ .empty)).map fun p => (p.role, p.line)).Nodup

/-- R44, R46: a record that a write has changed; the consumers of a role it no longer holds find the role unusable
(R43). A level that a fresh start drops shows no fall (log 72), and the quality BAD that it brings is not logged (log
84). -/
def State.writtenPoint (s : State) (i : Nat) (old : Point) : State :=
  let new := s.point i
  let u : Update := ⟨0, 0, old.shownValue, old.shownQuality.envOk⟩
  let s :=
    if old.kind ≠ .empty ∧ (new.kind = .empty ∨ old.role ≠ new.role ∨ old.line ≠ new.line) then
      s.roleUpdate old.role old.line u
    else s
  if new.kind = .empty ∨ (old.shownValue = new.shownValue ∧ old.shownQuality = new.shownQuality) then s
  else s.roleUpdate new.role new.line u

/-- R44, R56: the forcing records of records that start afresh go, with POINT-RELEASED, in ascending order of the points
(log 66). -/
def State.logReleases (s : State) (start : Nat) : List Point → State
  | [] => s
  | new :: rest =>
    let old := s.point start
    let s := if startsAfresh old new ∧ old.forcing.isSome then s.log .point .pointReleased start else s
    s.logReleases (start + 1) rest

/-- R44: records that start afresh are stored, and their updates handed on once all stand. -/
def State.writeAfresh (s : State) (start : Nat) (ps : List Point) : State :=
  let olds := (ps.zipIdx.map fun p => (start + p.2, s.point (start + p.2), p.1)).filter fun p => startsAfresh p.2.1 p.2.2
  let s := s.logReleases start ps
  let s := olds.foldl (fun s p => s.setPoint p.1 p.2.2) s
  olds.foldl (fun s p => s.writtenPoint p.1 p.2.1) s

/-- R44, R52: records whose limit fields or polarity mask change keep their running state. A polarity change before the
starting level inverts the level and is no edge (log 28); any other is latched under the masks of the same write (log
72). -/
def State.writeLimits (s : State) (start : Nat) : List Point → State
  | [] => s
  | new :: rest => (s.commitPoint start ((s.point start).rewritten new) (s.point start).started).writeLimits (start + 1) rest

/-- R44: a write to the POINTS table: the records started afresh first, then the others (log 72). -/
def State.writePoints (s : State) (start : Nat) (ps : List Point) : State :=
  (s.writeAfresh start ps).writeLimits start ps

/-- R23: a written STATIONS record: the attention fields alone are taken. -/
def State.writeStation (s : State) (n : Nat) (v : List Nat) : State :=
  s.setStation n { s.station n with attention := decide (at_ v 5 = 1), maxLength := min 5 (at_ v 6) }

/-- Every value of a list of options, or none when one is missing. -/
def allOf {α : Type} : List (Option α) → Option (List α)
  | [] => some []
  | none :: _ => none
  | some a :: rest => (allOf rest).map (a :: ·)

/-- The number of clamped fields over several records. -/
def clampedOver (recs : List (List Nat)) (stored : List (List Field)) : Nat :=
  ((recs.zip stored).map fun p => clampedFields p.1 p.2).sum

/-- R185, checks 6 and 7, for a table whose records are written as pages of a structure: the state after the write and
the number of clamped fields; none is BAD-VALUE. A LINE write leaves the demand trim as it stands (log 85). -/
def State.written (s : State) (t : TableRef) (start : Nat) (recs : List (List Nat)) : Option (State × Nat) :=
  match t with
  | .slotMap =>
    match allOf (recs.map slotEntryOf) with
    | none => none
    | some es => if pointsOnce (replaceFrom s.ring.slotMap start es) then some (s.writeSlots start es, 0) else none
  | .points =>
    match allOf (recs.map pointConfigOf) with
    | none => none
    | some ps =>
      if rolesOnce (replaceFrom s.points start ps) then
        some (s.writePoints start ps,
          clampedOver recs (ps.map fun p => if p.kind = .empty then [] else p.configFields))
      else none
  | .stations =>
    if recs.any fun v => decide (1 < at_ v 5) then none
    else
      some ((recs.zipIdx.foldl (fun s p => s.writeStation (start + p.2 + 1) p.1) s),
        (recs.filter fun v => decide (5 < at_ v 6)).length)
  | .segment =>
    let v := recs.getD 0 []
    if 1 < at_ v 3 then none
    else
      let s := { s with ring :=
        { s.ring with returnTimeout := clampNat (at_ v 0) 1 100, brokenCount := clampNat (at_ v 1) 3 50 } }
      let s := { s with seg :=
        { s.seg with silenceCount := clampNat (at_ v 2) 2 255, joinEnable := decide (at_ v 3 = 1) } }
      some (s, clampedFields (v.take 4) s.segmentFields)
  | .line l =>
    let v := recs.getD 0 []
    some (s.setLine l { s.line l with page := linePageOf v }, clampedFields v (linePageOf v).fields)
  | .emission l =>
    let page := recs.zipIdx.foldl (init := some (s.fgc l).page) fun page p =>
      match page with
      | none => none
      | some pg =>
        if start + p.2 = 0 then some (pg.withLine p.1)
        else
          match componentPageOf p.1 with
          | none => none
          | some c => some { pg with comps := pg.comps.set (componentAt (start + p.2)) c }
    match page with
    | none => none
    | some pg =>
      let s := s.setFgc l { s.fgc l with page := pg }
      some (s.judgeExhausted l,
        clampedOver recs ((List.range recs.length).map fun k => s.recordFields (.emission l) (start + k)))
  | .dosing l =>
    let pages := recs.zipIdx.map fun p => loopPageOf (loopAt (start + p.2)) p.1
    match allOf pages with
    | none => none
    | some ps =>
      let dosing := ps.zipIdx.foldl (fun d p => d.set (loopAt (start + p.2)) p.1) (s.fgc l).dosing
      some (s.setFgc l { s.fgc l with dosing := dosing }, clampedOver recs (ps.map LoopPage.fields))
  | .header =>
    (headerPageOf (recs.getD 0 [])).map fun p =>
      ({ s with env.page := p }, clampedFields (recs.getD 0 []) p.fields)
  | .turbine =>
    let p := turbinePageOf (recs.getD 0 [])
    some ({ s with turb.page := p }, clampedFields (recs.getD 0 []) p.fields)
  | .dispatch =>
    (dispatchPageOf (recs.getD 0 [])).map fun p =>
      ({ s with disp.page := p }, clampedFields (recs.getD 0 []) p.fields)
  | .halfHours _ => none
  | .days _ => none
  | .schedule => none

/-- WRITE-TABLE (R185): its checks in their order, then the write in one event. -/
def State.cmdWriteTable (s : State) (table page : Byte) (start : Word16) (records : List Byte) : State :=
  match tableOf table page with
  | .error e => s.answer .writeTable e
  | .ok t =>
    let n := records.length / t.size
    let k := start.toNat
    if records = [] ∨ records.length % t.size ≠ 0 then s.answer .writeTable .badLength
    else
      let recs := writtenRecords t n records
      if s.writable t k recs = false then s.answer .writeTable .badState
      else if t.records < k + n then s.answer .writeTable .badIndex
      else
        match s.written t k recs with
        | none => s.answer .writeTable .badValue
        | some (s, clamped) => s.answerClamped .writeTable clamped

end Sys2Proof.Machine
end

