-- ==== Sys2Proof/Machine/Status.lean ====
section
/-! DEFINITION. READ-STATUS (R190): the fields of each section, in the order the rule names them. The manual names the
fields and gives them no bytes (log 4). -/

namespace Sys2Proof.Machine

/-- A field that may be absent: 0, or 1 and its parts. -/
def optFields {α : Type} (o : Option α) (f : α → List Int) : List Int :=
  match o with
  | none => [0]
  | some a => 1 :: f a

/-- An optional count. -/
def optNat (o : Option Nat) : List Int := optFields o fun n => [(n : Int)]

/-- Counts as fields. -/
def nats (l : List Nat) : List Int := l.map fun n => (n : Int)

/-- RUN or CONFIG as a field, coded as in the inbound flags (R21). -/
def Working.field (w : Working) : Int := w.segment.code

/-- Section 1 RING. -/
def State.statusRing (s : State) : List Int :=
  [boolField s.ring.linkN, boolField s.ring.linkS, s.ring.segment.code, s.ring.resume.field, s.ring.brokenFrom.field,
    s.ring.lostInRow, s.ring.takenInRow] ++ nats s.ring.counters.list

/-- The run kind as a field. -/
def EnumKind.field : EnumKind → Int
  | .full => 0
  | .added => 1

/-- The reset level as a field. -/
def ResetLevel.field : ResetLevel → Int
  | .unknown => 0
  | .clear => 1
  | .set => 2

/-- Section 2 STATIONS. -/
def State.statusStations (s : State) : List Int :=
  let e := s.seg.enum
  let pair (a : Serial × Nat) : List Int := [(a.1.toNat : Int), a.2]
  [boolField e.running, e.kind.field, e.lastRound, e.rounds, e.lost] ++ optFields e.winner pair ++
    optFields e.awaiting pair ++ [(e.numbered : Int)] ++ optFields e.outcome (fun o => [(o.code : Int)]) ++
    [(s.seg.ackSet.toNat : Int), s.seg.resetLevel.field] ++ optNat s.seg.window

/-- A due time as a field. -/
def Due.fields : Due → List Int
  | .none => [0]
  | .atOnce => [1]
  | .at_ t => [2, t]

/-- Sections 3 and 4 LINE. -/
def Line.status (c : Line) : List Int :=
  [(c.state.code : Int), causeBits c.causes] ++
    optFields c.trip (fun t => [(t.cause.code : Int), t.state.code, t.at_]) ++ [boolField c.permissive] ++
    optNat c.permAt ++ [boolField c.jam] ++
    optFields c.stroke (fun k => [(k.number : Int), k.start, k.phase.code]) ++ [(c.lastNumber : Int)] ++
    optNat c.lastDone ++ c.due.fields ++
    [(c.completed : Int), c.aborted, c.o2Trim, c.lowCount, c.highCount, c.qIn, c.dEff, c.qReq, c.mReq, c.unclamped,
      c.interval, c.lhvEst, boolField c.override, c.lhvOvr, c.lhvUsed, boolField c.heldRun, c.trim] ++
    optFields c.entry (fun e => [(e.heat : Int), e.mass, boolField e.gap, e.periods])

/-- The fields of a burn section that returns `k` entries from the start item, oldest first (R190). -/
def Line.burnFields (c : Line) (start k : Nat) : List Int :=
  (c.record.length : Int) ::
    ((c.record.reverse.drop start).take k).flatMap fun e => [(e.heat : Int), e.mass, boolField e.gap]

/-- R190: how many whole entries, at most `k`, fit in the 236 bytes of data that a response holds (R182), in the layout
of the section. -/
def Line.burnFit (c : Line) (sect start : Nat) : Nat → Nat
  | 0 => 0
  | k + 1 => if (Config.statusLayout sect (c.burnFields start (k + 1))).length ≤ 236 then k + 1 else c.burnFit sect start k

/-- Sections 5 and 6 BURN: the count, then as many whole entries from the start item, oldest first, as fit (R190). -/
def Line.statusBurn (c : Line) (sect start : Nat) : List Int :=
  c.burnFields start (c.burnFit sect start (c.record.length - start))

/-- The fields of six components, in component order. -/
def sixStatus {α : Type} (t : Six α) (f : α → List Int) : List Int := Component.all.flatMap fun c => f (t.get c)

/-- The fields of three loops, in loop order. -/
def threeStatus {α : Type} (t : Three α) (f : α → List Int) : List Int := loopsAll.flatMap fun d => f (t.get d)

/-- Sections 7 and 8 FGC. -/
def Fgc.status (f : Fgc) : List Int :=
  sixStatus f.latest (fun x => optFields x.sample (fun p => [(p.1 : Int), p.2]) ++ [(x.reason : Int)]) ++
    sixStatus f.cal (fun b => [boolField b]) ++ [boolField f.calO2, boolField f.calH2O] ++
    threeStatus f.loops (fun x => [(x.base : Int), x.trim, x.output] ++ optNat x.satAt ++ [boolField x.saturated]) ++
    optFields f.minute (fun m =>
      (m.start : Int) :: sixStatus m.comps (fun k =>
        [(k.samples : Int), k.good, k.sum, boolField k.touched, boolField k.forcedInvalid]) ++
      threeStatus m.satAll (fun b => [boolField b]) ++ [boolField m.adjusted]) ++
    optFields f.half (fun h =>
      (h.start : Int) :: sixStatus h.comps (fun k => [(k.valid : Int), k.sum]) ++
      [(h.operating : Int), boolField h.calib, boolField h.adjusted]) ++
    optNat f.capAsked ++ [(f.lowCloses : Int)] ++
    [boolField f.abn.active, boolField f.abn.exceedance, boolField f.abn.equipment, f.abn.consec, f.abn.annual,
      boolField f.abn.valid, f.abn.beganAt, boolField f.trainFault, boolField f.abn.exhausted]

/-- A cap list as fields, in the order of the sources. -/
def CapList.status (c : CapList) : List Int :=
  [c.operator, c.emission, c.feedLimit, c.bypass].flatMap fun e => optFields e fun x => [(x.value : Int), x.at_]

/-- The cause of a run as a field, in the order of R137. -/
def runCauseCode : RunCause → Nat
  | .period => 1
  | .turbine => 2
  | .line => 3
  | .cap => 4

/-- Section 9 ENVELOPE. -/
def Envelope.status (e : Envelope) : List Int :=
  let r := e.result
  e.caps.one.status ++ e.caps.two.status ++ nats [e.effCap.one, e.effCap.two] ++
    optFields e.lastCause (fun c => [(runCauseCode c : Int)]) ++
    [(e.lastRunAt : Int), r.sT, r.sX, r.sBMin, r.sP, r.sTot, r.u, r.sA, r.alloc1, r.alloc2, r.bMin, r.gT, r.gX,
      r.pC, r.bypass, r.cE, boolField e.shortfall, boolField e.overFlag] ++ optNat e.releaseAt

/-- A target record as fields. -/
def Target.status (t : Target) : List Int :=
  [(t.power : Int), t.reserve] ++ optNat t.ramp ++ [(t.source.code : Int)] ++ optFields t.firm (fun b => [boolField b])

/-- Section 10 TURBINE: the turbine record of section 9.1. -/
def Turbine.status (u : Turbine) : List Int :=
  [(u.state.code : Int), u.request.code, u.lastStable.code] ++ optFields u.awaited (fun i => [(i.code : Int)]) ++
    optNat u.indAt ++ [boolField u.stopPending, boolField u.closeHeld, boolField u.released, boolField u.unknownRun] ++
    optNat u.settleAt ++ u.target.status ++ [u.ramped, (u.reserve : Int), u.sent]

/-- A reassembly state as fields. -/
def Reassembly.status : Reassembly → List Int
  | .idle => [0]
  | .assembling b n => [1, b.length, n]
  | .skipping => [2]

/-- The counts of R166 in the order of their reasons. -/
def LaneDiscards.list (d : LaneDiscards) : List Nat :=
  [d.incomplete, d.orphan, d.gap, d.overlong, d.length, d.check, d.kind]

/-- Bytes as fields: their number, then each. -/
def bytesField (b : List Byte) : List Int := (b.length : Int) :: b.map fun x => (x.toNat : Int)

/-- Section 11 DISPATCH. -/
def Dispatch.status (d : Dispatch) : List Int :=
  [(d.link.code : Int), boolField d.probe, d.vr] ++ optFields d.retained (fun r => (r.1 : Int) :: bytesField r.2) ++ d.rx.status ++
    nats [d.out.length, d.queue.length] ++ d.target.status ++ [(d.lastCe : Int)] ++
    optFields d.notice.outstanding (fun n => [(n.number : Int), n.cE, n.reason.code]) ++
    nats [d.notice.lastNotified, d.notice.next] ++ optNat d.notice.ackAt ++
    [boolField d.notice.overdue, boolField d.notice.unmetPending] ++ nats d.discards.list ++ [(d.ignored : Int)]

/-- Section 12 MANAGEMENT. -/
def State.statusMgmt (s : State) : List Int :=
  optNat s.clock.plant ++ nats [s.runTime, s.mgmt.events.length, s.mgmt.lost] ++
    optFields s.mgmt.executing (fun b => [(b.toNat : Int)]) ++
    nats [s.mgmt.incomplete, s.mgmt.orphan, s.mgmt.overlong, s.mgmt.lastWarm]

/-- R190: the fields of a section that is not a burn record; none for a section outside the table. -/
def State.statusOf (s : State) (sect : Nat) : Option (List Int) :=
  match sect with
  | 1 => some s.statusRing
  | 2 => some s.statusStations
  | 3 => some (s.line .one).status
  | 4 => some (s.line .two).status
  | 7 => some (s.fgc .one).status
  | 8 => some (s.fgc .two).status
  | 9 => some s.env.status
  | 10 => some s.turb.status
  | 11 => some s.disp.status
  | 12 => some s.statusMgmt
  | _ => none

/-- R190: a burn record section; a start item at or beyond its entries is BAD-INDEX. -/
def State.answerBurn (s : State) (sect start : Nat) (c : Line) : State :=
  if c.record.length ≤ start then s.answer .readStatus .badIndex
  else s.place ⟨CommandCode.readStatus.byte, .done, .status sect (c.statusBurn sect start)⟩

/-- READ-STATUS (R190), its section judged before its start item (log 61). -/
def State.cmdReadStatus (s : State) (sect : Byte) (start : Word16) : State :=
  if sect = 5 then s.answerBurn 5 start.toNat (s.line .one)
  else if sect = 6 then s.answerBurn 6 start.toNat (s.line .two)
  else
    match s.statusOf sect.toNat with
    | none => s.answer .readStatus .badValue
    | some f =>
      if start ≠ 0 then s.answer .readStatus .badIndex
      else s.place ⟨CommandCode.readStatus.byte, .done, .status sect.toNat f⟩

end Sys2Proof.Machine
end

