-- ==== Sys2Proof/Machine/Mailbox.lean ====
section
/-! DEFINITION. The management mailbox (sections 11.1, 11.3, 11.4): reassembly (R181), the judgement of a complete
command (R182), the segments offered (R182), SET-TIME (R186), the restarts by command (R187) and READ-EVENTS
(R189). -/

namespace Sys2Proof.Machine

/-! ### Reassembly -/

/-- The reasons of R181. -/
inductive MailDiscard where
  | incomplete
  | orphan
  | overlong
deriving DecidableEq, Repr

/-- The codes of the reasons (R181). -/
def MailDiscard.code : MailDiscard → Nat
  | .incomplete => 1
  | .orphan => 2
  | .overlong => 3

/-- R181: the counts with one more discard. -/
def Mgmt.addDiscard (m : Mgmt) : MailDiscard → Mgmt
  | .incomplete => { m with incomplete := wrap32 m.incomplete }
  | .orphan => { m with orphan := wrap32 m.orphan }
  | .overlong => { m with overlong := wrap32 m.overlong }

/-- R181: a discard is counted, and logged when the discard-run flag is clear. -/
def State.mailDiscard (s : State) (d : MailDiscard) : State :=
  let run := s.mgmt.discardRun
  let s := { s with mgmt := { s.mgmt.addDiscard d with discardRun := true } }
  if run then s else s.log .mgmt .mailboxDiscard d.code

/-- A command as its bytes spell it, at steps 3 and 4 of R182. -/
inductive Parsed where
  | badCommand
  | badLength
  /-- An action, switch, mode or line byte that the owning rule refuses before anything else. -/
  | refuse (code : RespCode)
  | run (i : Instr)
deriving DecidableEq, Repr

/-- A command of a fixed argument length. -/
def fixedForm (n : Nat) (args : List Byte) (p : Parsed) : Parsed := if args.length = n then p else .badLength

/-- A 2-byte argument. -/
def word2 (b : List Byte) (o : Nat) : Word16 := BitVec.ofNat 16 (fieldNat b o 2)

/-- A line byte that is judged before the action byte beside it (log 20). -/
def forLine (b : Byte) (p : Parsed) : Parsed := if (lineOf b).isNone then .refuse .badIndex else p

/-- The forms of FORCE-POINT (section 11.1). -/
def parseForce (a : List Byte) : Parsed :=
  let pattern := byteAt a 1
  if pattern = 1 then fixedForm 4 a (.run (.forcePoint (byteAt a 0) (.fixed (word2 a 2))))
  else if pattern = 2 then
    fixedForm 9 a (.run (.forcePoint (byteAt a 0) (.staircase (byteAt a 2) (word2 a 3) (word2 a 5) (word2 a 7))))
  else if a.length = 4 ∨ a.length = 9 then .run (.forcePoint (byteAt a 0) (.other pattern))
  else .badLength

/-- LINE-CONTROL's action. -/
def parseLineControl (a : List Byte) : Parsed :=
  let l := byteAt a 0
  match (byteAt a 1).toNat with
  | 1 => .run (.start l)
  | 2 => .run (.stop l)
  | 3 => .run (.resume l)
  | 4 => .run (.resetTrip l)
  | _ => forLine l (.refuse .badValue)

/-- SET-CAP's action. -/
def parseSetCap (a : List Byte) : Parsed :=
  let l := byteAt a 0
  match (byteAt a 1).toNat with
  | 1 => .run (.setCapSet l (word2 a 2))
  | 2 => .run (.setCapRelease l)
  | _ => forLine l (.refuse .badValue)

/-- SET-OVERRIDE's switch. -/
def parseOverride (a : List Byte) : Parsed :=
  let l := byteAt a 0
  match (byteAt a 1).toNat with
  | 0 => .run (.setOverrideOff l)
  | 1 => .run (.setOverrideOn l (word2 a 2))
  | _ => forLine l (.refuse .badValue)

/-- LOCK-NUMBER's action, judged after the number (log 61). -/
def parseLock (a : List Byte) : Parsed :=
  match (byteAt a 1).toNat with
  | 0 => .run (.lockNumberClear (byteAt a 0))
  | 1 => .run (.lockNumberSet (byteAt a 0))
  | _ => if isNumber (byteAt a 0) then .refuse .badValue else .refuse .badIndex

/-- A mode or action byte alone, with two codes. -/
def twoWay (b lo hi : Byte) (x y : Instr) : Parsed := if b = lo then .run x else if b = hi then .run y else .refuse .badValue

/-- R182, steps 3 and 4: the command of a code and its argument bytes, by the forms of section 11.1. -/
def parseCommand (code : Byte) (a : List Byte) : Parsed :=
  match code.toNat with
  | 0x01 => fixedForm 5 a (.run (.readTable (byteAt a 0) (byteAt a 1) (word2 a 2) (byteAt a 4)))
  | 0x02 =>
    if a.length < 4 then .badLength else .run (.writeTable (byteAt a 0) (byteAt a 1) (word2 a 2) (a.drop 4))
  | 0x03 => fixedForm 2 a (.run (.readPoint (byteAt a 0) (byteAt a 1)))
  | 0x04 => parseForce a
  | 0x05 => fixedForm 1 a (.run (.releasePoint (byteAt a 0)))
  | 0x06 => fixedForm 1 a (.run (.readEvents (byteAt a 0)))
  | 0x07 =>
    let v := BitVec.ofNat 48 (fieldNat a 1 6)
    fixedForm 7 a (twoWay (byteAt a 0) 0 1 (.setTimeAbsolute v) (.setTimeStep v))
  | 0x08 =>
    fixedForm 8 a (.run (.loadBudget (byteAt a 0) (BitVec.ofNat 32 (fieldNat a 1 4)) (word2 a 5) (byteAt a 7)))
  | 0x09 => fixedForm 2 a (parseLineControl a)
  | 0x0A => fixedForm 1 a (twoWay (byteAt a 0) 1 2 .turbineRunup .turbineStop)
  | 0x0B => fixedForm 4 a (parseSetCap a)
  | 0x0C => fixedForm 4 a (parseOverride a)
  | 0x0D => fixedForm 1 a (twoWay (byteAt a 0) 0 1 .segmentModeConfig .segmentModeRun)
  | 0x0E => fixedForm 0 a (.run .enumerate)
  | 0x0F => fixedForm 2 a (.run (.renumber (byteAt a 0) (byteAt a 1)))
  | 0x10 => fixedForm 2 a (parseLock a)
  | 0x11 => fixedForm 0 a (.run .restartSegment)
  | 0x12 => fixedForm 0 a (.run .warmRestart)
  | 0x13 => fixedForm 3 a (.run (.readStatus (byteAt a 0) (word2 a 1)))
  | _ => .badCommand

/-- The pattern bytes of a FORCE-POINT (section 11.1); a pattern byte outside the two is sent in the short form. -/
def patternBytes : ForcePattern → List Byte
  | .fixed v => 1 :: bytesOf 2 v.toNat
  | .staircase steps duration low high =>
    [2, steps] ++ bytesOf 2 duration.toNat ++ bytesOf 2 low.toNat ++ bytesOf 2 high.toNat
  | .other b => [b, 0, 0]

/-- The code and the argument bytes of a management command (section 11.1); none for a row that is no command of the
mailbox. -/
def commandOf : Instr → Option (CommandCode × List Byte)
  | .readTable table page start count => some (.readTable, [table, page] ++ bytesOf 2 start.toNat ++ [count])
  | .writeTable table page start records => some (.writeTable, [table, page] ++ bytesOf 2 start.toNat ++ records)
  | .readPoint point clear => some (.readPoint, [point, clear])
  | .forcePoint point pattern => some (.forcePoint, point :: patternBytes pattern)
  | .releasePoint point => some (.releasePoint, [point])
  | .readEvents count => some (.readEvents, [count])
  | .setTimeAbsolute value => some (.setTime, 0 :: bytesOf 6 value.toNat)
  | .setTimeStep value => some (.setTime, 1 :: bytesOf 6 value.toNat)
  | .loadBudget line annual consecutive validity =>
    some (.loadBudget, line :: bytesOf 4 annual.toNat ++ bytesOf 2 consecutive.toNat ++ [validity])
  | .start line => some (.lineControl, [line, 1])
  | .stop line => some (.lineControl, [line, 2])
  | .resume line => some (.lineControl, [line, 3])
  | .resetTrip line => some (.lineControl, [line, 4])
  | .turbineRunup => some (.turbineControl, [1])
  | .turbineStop => some (.turbineControl, [2])
  | .setCapSet line value => some (.setCap, [line, 1] ++ bytesOf 2 value.toNat)
  | .setCapRelease line => some (.setCap, [line, 2, 0, 0])
  | .setOverrideOn line value => some (.setOverride, [line, 1] ++ bytesOf 2 value.toNat)
  | .setOverrideOff line => some (.setOverride, [line, 0, 0, 0])
  | .segmentModeRun => some (.segmentMode, [1])
  | .segmentModeConfig => some (.segmentMode, [0])
  | .enumerate => some (.enumerate, [])
  | .renumber old new => some (.renumber, [old, new])
  | .lockNumberSet number => some (.lockNumber, [number, 1])
  | .lockNumberClear number => some (.lockNumber, [number, 0])
  | .restartSegment => some (.restartSegment, [])
  | .warmRestart => some (.warmRestart, [])
  | .readStatus sect start => some (.readStatus, sect :: bytesOf 2 start.toNat)
  | .coldReset | .portSLinkDown | .portSLinkUp | .returnTimeout | .segmentRestart => none
  | .portNLinkChange _ => none
  | .outboundPass _ => none
  | .inboundPass _ => none
  | .enumFrameReturn _ _ _ _ => none
  | .warmReset _ => none
  | .escalationWindowExpiry | .bypassReleaseTimerExpiry | .indicationTimeout | .settleTimerExpiry => none
  | .staleTimerExpiry _ => none
  | .holdTimerExpiry _ => none
  | .staircaseStep _ => none
  | .controlPeriod _ => none
  | .permissiveDelayExpiry _ => none
  | .lineHoldExpiry _ => none
  | .burnoutEnd _ => none
  | .strokeTimeout _ => none
  | .dueTimeReached _ => none
  | .burnMinuteClose _ => none
  | .sampleInstant _ => none
  | .fgcMinuteClose _ => none
  | .saturationTimerExpiry _ _ => none
  | .abnormalSecond _ => none
  | .allocationRun _ => none
  | .schedule _ _ _ _ => none
  | .cancel _ _ _ _ => none
  | .linkCheck _ _ => none
  | .noticeAck _ _ _ => none
  | .resync _ _ _ => none
  | .kindDiscard _ _ _ => none
  | .blockStart _ _ => none
  | .blockEnd _ _ => none
  | .supervisionTimerExpiry | .ackTimerExpiry | .resetNLow => none

/-- The bytes of a management command: its header, then its arguments (R21). -/
def commandBytes (code : CommandCode) (args : List Byte) : List Byte := code.byte :: bytesOf 2 args.length ++ args

/-- R182: a complete command: busy, header, code and arguments; the command itself is the step that follows. -/
def State.commandComplete (s : State) (c : List Byte) : State :=
  let code := match c with | [] => Config.missingCommandCode | b :: _ => b
  if s.mgmt.executing.isSome then { s with mgmt.busyAnswer := some code }
  else
    let s := { s with mgmt.executing := some code }
    if c.length < 3 ∨ c.length ≠ 3 + fieldNat c 1 2 then s.place ⟨code, .badLength, .bytes []⟩
    else
      match parseCommand code (c.drop 3) with
      | .badCommand => s.place ⟨code, .badCommand, .bytes []⟩
      | .badLength => s.place ⟨code, .badLength, .bytes []⟩
      | .refuse r => s.place ⟨code, r, .bytes []⟩
      | .run i => s.owe i

/-- R181: a segment that starts a command or is appended to `bytes`, of which `taken` segments are held. -/
def State.mailTake (s : State) (bytes : List Byte) (taken : Nat) (g : AreaSegment) : State :=
  let all := bytes ++ g.data.take g.length
  if 48 < g.length ∨ 240 < all.length ∨ 5 < taken + 1 then
    ({ s with mgmt.rx := if g.last then .idle else .skipping }).mailDiscard .overlong
  else if g.last then ({ s with mgmt := { s.mgmt with rx := .idle, discardRun := false } }).commandComplete all
  else { s with mgmt.rx := .assembling all (taken + 1) }

/-- R181: the table of reassembly. -/
def State.mailSegment (s : State) (g : AreaSegment) : State :=
  match s.mgmt.rx with
  | .idle => if g.first then s.mailTake [] 0 g else s.mailDiscard .orphan
  | .assembling bytes n => if g.first then (s.mailDiscard .incomplete).mailTake [] 0 g else s.mailTake bytes n g
  | .skipping =>
    if g.first then s.mailTake [] 0 g
    else if g.last then { s with mgmt.rx := .idle }
    else s

/-! ### Segments offered -/

/-- The data bytes of a response, 236 at most (R21, R190). -/
def RespData.toBytes : RespData → List Byte
  | .bytes b => b.take 236
  | .status k f => (Config.statusLayout k f).take 236
  | .point f => (Config.pointLayout f).take 236

/-- The bytes of a response (R21). -/
def Response.toBytes (r : Response) : List Byte :=
  let d := r.data.toBytes
  [r.command, r.code.byte] ++ bytesOf 2 d.length ++ d

/-- What the management unit offers next (R182, R191): the next segment of a response begun, the ABORTED response of
a WARM reset, a busy answer, or the first segment of the response. -/
inductive Offer where
  | response (r : Response)
  | aborted (command : Byte)
  | busy (command : Byte)
deriving DecidableEq, Repr

/-- R182: the order of the offers. -/
def Mgmt.offer (m : Mgmt) : Option Offer :=
  match m.response, m.nextSegment with
  | some r, _ + 1 => some (.response r)
  | r, _ =>
    match m.abortedCommand, m.busyAnswer with
    | some c, _ => some (.aborted c)
    | none, some c => some (.busy c)
    | none, none => r.map .response

/-- R182: the mailbox area an inbound pass or turned-back frame is written with. -/
def State.mailArea (s : State) : List Byte :=
  match s.mgmt.offer with
  | none => emptyArea 50
  | some (.response r) =>
    let (data, last) := cutSegment 48 s.mgmt.nextSegment r.toBytes
    segmentArea 50 (decide (s.mgmt.nextSegment = 0)) last 0 data
  | some (.aborted c) => segmentArea 50 true true 0 (Response.toBytes ⟨c, .aborted, .bytes []⟩)
  | some (.busy c) => segmentArea 50 true true 0 (Response.toBytes ⟨c, .busy, .bytes []⟩)

/-- R187: the restart that follows the response of RESTART-SEGMENT or WARM-RESTART. -/
def State.oweRestart (s : State) (r : Response) : State :=
  if r.code = .done ∧ r.command = CommandCode.restartSegment.byte then s.owe .segmentRestart
  else if r.code = .done ∧ r.command = CommandCode.warmRestart.byte then s.owe (.warmReset .command)
  else s

/-- R182: what the writing of the offered segment leaves; the LAST of a command's response ends its execution. -/
def State.mailWritten (s : State) : State :=
  match s.mgmt.offer with
  | none => s
  | some (.response r) =>
    if (cutSegment 48 s.mgmt.nextSegment r.toBytes).2 then
      ({ s with mgmt := { s.mgmt with response := none, nextSegment := 0, executing := none } }).oweRestart r
    else { s with mgmt.nextSegment := s.mgmt.nextSegment + 1 }
  | some (.aborted _) => { s with mgmt.abortedCommand := none }
  | some (.busy _) => { s with mgmt.busyAnswer := none }

/-! ### SET-TIME -/

/-- R186: the jump in whole minutes, limited to 16 bits. -/
def jumpMinutes (old : Option Nat) (t : Nat) : Int :=
  match old with
  | none => 0
  | some p => clampInt (((t : Int) - p).tdiv 60000) (-32768) 32767

/-- R186: a taken SET-TIME: plant time becomes `t`, and the event is handed to the line controllers, the flue gas units
and the dispatch unit. -/
def State.setTime (s : State) (mode t : Nat) : State :=
  let old := s.clock.plant
  let s := { s with clock := { s.clock with plant := some t } }
  let s := (s.burnSetTime .one t).burnSetTime .two t
  let s := (s.fgcSetTime .one t).fgcSetTime .two t
  let s := s.queueSetTime t
  (s.log .mgmt .timeSet mode (jumpMinutes old t) (if old = none then 1 else 0)).answer .setTime .done

/-- SET-TIME ABSOLUTE (R186). -/
def State.cmdTimeAbsolute (s : State) (value : BitVec 48) : State := s.setTime 0 value.toNat

/-- SET-TIME STEP (R186). Plant time is a count of 48 bits (section 11.3). -/
def State.cmdTimeStep (s : State) (value : BitVec 48) : State :=
  match s.clock.plant with
  | none => s.answer .setTime .timeUnset
  | some p =>
    if (p : Int) + value.toInt < 0 then s.answer .setTime .badValue
    else s.setTime 1 (((p : Int) + value.toInt).toNat % 281474976710656)

/-! ### Restarts by command -/

/-- RESTART-SEGMENT (R187): the restart follows the response. -/
def State.cmdRestartSegment (s : State) : State := s.answer .restartSegment .done

/-- WARM-RESTART (R187): the reset follows the response. -/
def State.cmdWarmRestart (s : State) : State := s.answer .warmRestart .done

/-! ### READ-EVENTS -/

/-- The place of a source in the list of section 11.4. -/
def Source.index : Source → Nat
  | .ring => 0
  | .station => 1
  | .point => 2
  | .line1 => 3
  | .line2 => 4
  | .fgc1 => 5
  | .fgc2 => 6
  | .envelope => 7
  | .turbine => 8
  | .dispatch => 9
  | .mgmt => 10

/-- The code of an event within its source (section 11.4). -/
def EventName.code : EventName → Nat
  | .segmentState => 1
  | .cycleLost => 2
  | .cycleMismatch => 3
  | .slotCollision => 4
  | .echoMismatch => 5
  | .runNotResumed => 6
  | .ringReset => 7
  | .stationUnconfirmed => 1
  | .numbersExhausted => 2
  | .enumerationDone => 3
  | .joinRefused => 4
  | .joinTimeout => 5
  | .stationJoined => 6
  | .stationReturned => 7
  | .stationRenumbered => 8
  | .stationSilent => 9
  | .attentionDropped => 10
  | .note => 11
  | .pointBad => 1
  | .pointSubstituted => 2
  | .pointForced => 3
  | .pointReleased => 4
  | .lineState => 1
  | .holdCause => 2
  | .holdExpired => 3
  | .lineTrip => 4
  | .permissiveLost => 5
  | .permissiveRegained => 6
  | .strokeTimeout => 7
  | .strokeAborted => 8
  | .feederJam => 9
  | .feederJamClear => 10
  | .lhvHeld => 11
  | .lhvOverride => 12
  | .calibration => 1
  | .dosingSaturated => 2
  | .halfHourExceeded => 3
  | .dayExceeded => 4
  | .restraintRaised => 5
  | .restraintReleased => 6
  | .trainFault => 7
  | .abnormalBegin => 8
  | .abnormalEnd => 9
  | .budgetExhausted => 10
  | .exhaustedCleared => 11
  | .budgetLoaded => 12
  | .capRaised => 1
  | .capReleased => 2
  | .shortfall => 3
  | .bypassOver => 4
  | .bypassReleased => 5
  | .turbineState => 1
  | .codeUnknown => 2
  | .codeUnexpected => 3
  | .closeHeld => 4
  | .turbineNoResponse => 5
  | .laneDiscard => 1
  | .laneOutOverflow => 2
  | .order => 3
  | .blockExpired => 4
  | .blockUnmet => 5
  | .linkUp => 6
  | .linkSilent => 7
  | .noticeOverdue => 8
  | .coldStart => 1
  | .warmStart => 2
  | .timeSet => 3
  | .mailboxDiscard => 4

/-- The 20 bytes of an entry (R189): run time, plant time, source, code, subject and the two values. Source and code take
one byte each and the subject two (log 62). -/
def Event.bytes (e : Event) : List Byte :=
  bytesOf 6 e.runTime ++ bytesOf 6 (e.plant.getD Config.unsetPlantTime.toNat) ++
    [Config.eventSourceCode e.source.index] ++ bytesOf 1 e.name.code ++ bytesOf 2 e.subject.toNat ++
    bytesOf 2 e.first.toNat ++ bytesOf 2 e.second.toNat

/-- READ-EVENTS (R189): the read, the removal and the clearing of the lost count are one event. The lost count takes two
bytes and the number of entries one (log 62). -/
def State.cmdReadEvents (s : State) (count : Byte) : State :=
  let out := s.mgmt.events.take (min count.toNat 11)
  let data := bytesOf 2 s.mgmt.lost ++ bytesOf 1 out.length ++ out.flatMap Event.bytes
  let s := { s with mgmt := { s.mgmt with events := s.mgmt.events.drop (min count.toNat 11), lost := 0 } }
  s.answer .readEvents .done data

end Sys2Proof.Machine
end

