-- ==== Sys2Proof/Machine/Ring.lean ====
section
/-! DEFINITION. The frame engine's passes (chapter 1): frame checks (R2), the outbound pass (R4 to R6, R8), the inbound
pass (R9 to R11), the echo monitor (R13) and the ENUM frames it sends and receives (R18). -/

namespace Sys2Proof.Machine

/-! ### Sending -/

/-- A frame leaves Port S. -/
def State.sendSouth (s : State) (f : LinkFrame) : State := { s with ring.sentS := some f }

/-- A frame is forwarded north; while Port N is DOWN it is dropped there (R1). -/
def State.sendNorth (s : State) (f : LinkFrame) : State := if s.ring.linkN then { s with ring.sentN := some f } else s

/-! ### Counters -/

/-- R2: a foreign frame is discarded and counted. -/
def State.countForeign (s : State) : State :=
  { s with ring.counters := { s.ring.counters with foreign := wrap32 s.ring.counters.foreign } }

/-- R6, R2: a damaged outbound frame is counted. -/
def State.countDamagedOut (s : State) : State :=
  { s with ring.counters := { s.ring.counters with damagedOutbound := wrap32 s.ring.counters.damagedOutbound } }

/-- R9: a damaged inbound frame is counted. -/
def State.countDamagedIn (s : State) : State :=
  { s with ring.counters := { s.ring.counters with damagedInbound := wrap32 s.ring.counters.damagedInbound } }

/-! ### What a frame is (R2) -/

/-- The kinds of arrival that the checks of R2 tell apart. A frame whose link check fails is damaged and no part of it
is taken, so that it is handled as a damaged cycle frame (log 22). -/
inductive Arrival where
  | foreign
  | damaged
  | cycle (f : CycleFrame)
  | enum (r : EnumReturn)
  | damagedEnum
deriving DecidableEq, Repr

/-- R2: the checks of a frame. The protocol type is judged first, so that a frame of another protocol is foreign
whatever its link check (log 52). -/
def examine (f : LinkFrame) : Arrival :=
  if f.protocol ≠ ringProtocol then .foreign
  else if f.checkOk = false then .damaged
  else if f.payload.head? = some 0x01 then
    match parseCycle f.payload with
    | some c => .cycle c
    | none => .damaged
  else if f.payload.head? = some 0x02 then
    match parseEnum f.payload with
    | some r => .enum r
    | none => .damagedEnum
  else .damaged

/-! ### Slots -/

/-- R4: whether OUTPUT slots carry point values, or the safe value 0. -/
def Ring.live (r : Ring) : Bool :=
  match r.segment with
  | .run => true
  | .broken => decide (r.brokenFrom = .run)
  | .config => false
  | .down => false
  | .enumerating => false

/-- R4, R49: the value written into an OUTPUT slot: the point's word, or 0; the forced word wherever a forcing record
stands (log 23). -/
def Point.outputWord (p : Point) (live : Bool) : Word16 :=
  if live || p.forcing.isSome then BitVec.ofInt 16 p.raw else 0

/-- R4: the OUTPUT slots of a frame as they are written. -/
def State.writeOutputs (s : State) (slots : List Slot) : List Slot :=
  slots.zipIdx.map fun p =>
    let e := s.entry p.2
    if e.direction = .output then ⟨(s.point e.point).outputWord s.ring.live, 0, 0xFE⟩ else p.1

/-- R4: the echo records: the value written into each OUTPUT slot. -/
def State.echoRecords (s : State) (slots : List Slot) : List (Nat × Word16) :=
  (s.writeOutputs slots).zipIdx.filterMap fun p =>
    if (s.entry p.2).direction = .output then some (p.2, p.1.value) else none

/-- R4, R48: the REQUEST slots that carry writer tag 0xFD are handed to the point qualifier, in the order of the slot
numbers (log 82). -/
def State.readRequests (s : State) (slots : List Slot) : State :=
  slots.zipIdx.foldl (init := s) fun s p =>
    let e := s.entry p.2
    if e.direction = .request ∧ p.1.tag = 0xFD then s.sample e.point p.1.value p.1.quality else s

/-- R10: the REPORT slots as they are written: quality byte 0 for a GOOD report and 1 otherwise. -/
def State.writeReports (s : State) (slots : List Slot) : List Slot :=
  slots.zipIdx.map fun p =>
    let e := s.entry p.2
    if e.direction = .report then
      ⟨BitVec.ofInt 16 (s.point e.point).raw, if (s.point e.point).shownQuality = .good then 0 else 1, 0xFE⟩
    else p.1

/-! ### The outbound pass -/

/-- R4, R5: what a sound outbound frame hands to the blocks: its requests, its mailbox segment and its reset-request
flag. -/
def State.takeOutbound (s : State) (f : CycleFrame) : State :=
  let s := s.readRequests f.slots
  let s :=
    match segmentOf f.mbox with
    | some g => s.mailSegment g
    | none => s
  s.resetFlag (f.flags.getLsbD 0)

/-- R4: a sound frame is processed and forwarded south, and opens the outstanding cycle. Its return timer keeps the
expiry it starts with, whatever a SEGMENT write makes of the timeout (log 63). -/
def State.passSouth (s : State) (f : CycleFrame) : State :=
  let slots := s.writeOutputs f.slots
  let echo := s.echoRecords f.slots
  let s := s.takeOutbound f
  let assign := s.assignment
  let out : CycleFrame :=
    { f with
      ack := s.seg.ackSet, serial := (assign.map (·.2)).getD 0, number := BitVec.ofNat 8 ((assign.map (·.1)).getD 0)
      slots := slots, attn := emptyAttention, lane := s.laneArea }
  let s := { (s.laneWritten).assignmentSent with seg.ackSet := 0 }
  let o : Outstanding := ⟨f.cycle, f.slots.length, s.runTime, s.clock.tenths + s.ring.returnTimeout, echo⟩
  ({ s with ring.outstanding := some o }).sendSouth out.link

/-- R18: the offered ENUM frame is sent south when none is in flight; its return timer keeps its expiry (log 63). -/
def State.sendEnum (s : State) : State :=
  match s.ring.flight, s.seg.enum.offer with
  | none, some c =>
    let s := { s with seg.enum.offer := none, ring.flight := some ⟨c, s.clock.tenths + s.ring.returnTimeout⟩ }
    s.sendSouth c.link
  | _, _ => s

/-- R5: a sound frame is turned back north; in ENUMERATING it lets an ENUM frame go south (R18). -/
def State.turnBack (s : State) (f : CycleFrame) : State :=
  let s := s.takeOutbound f
  let back : CycleFrame :=
    { f with flags := s.inboundFlags f.flags, slots := s.writeReports f.slots, mbox := s.mailArea }
  let s := (s.mailWritten).sendNorth back.link
  if s.ring.segment = .enumerating then s.sendEnum else s

/-- R12: the cycle number of a damaged outbound frame: header bytes 2 and 3 (R21) of a cycle frame whose link check and
header check pass, so that its slot count or its length alone is unsound; a frame of which R2 lets no part be taken, or
that has no sound header, has a free value for it (log 21). -/
def damagedCycleOf (f : LinkFrame) : Nat :=
  let p := f.payload
  if f.checkOk = true ∧ p.head? = some 0x01 ∧ 18 ≤ p.length ∧ crc8 (p.take 17) = byteAt p 17 then fieldNat p 2 2
  else (Config.damagedCycle p).toNat

/-- R6: a damaged frame from Port N is forwarded unchanged out of the port the segment state would send it to; where
the segment forwards frames its cycle is counted as lost. -/
def State.damagedSouth (s : State) (f : LinkFrame) : State :=
  let s := (s.countDamagedOut).endLate
  match s.ring.segment with
  | .down => s.sendNorth f
  | .enumerating => s.sendNorth f
  | .config => (s.loseCycle .damaged (damagedCycleOf f)).sendSouth f
  | .run => (s.loseCycle .damaged (damagedCycleOf f)).sendSouth f
  | .broken => (s.loseCycle .damaged (damagedCycleOf f)).sendSouth f

/-- R4, R5: a sound frame from Port N, after R8. -/
def State.soundSouth (s : State) (f : CycleFrame) : State :=
  let s := s.endLate
  match s.ring.segment with
  | .down => s.turnBack f
  | .enumerating => s.turnBack f
  | .config => s.passSouth f
  | .run => s.passSouth f
  | .broken => s.passSouth f

/-- OUTBOUND_PASS: a frame arrives on Port N, whose link is UP (R1, R2). An ENUM frame there is discarded and counted
as damaged outbound. -/
def State.outbound (s : State) (f : LinkFrame) : State :=
  if s.ring.linkN = false then s
  else
    match examine f with
    | .foreign => s.countForeign
    | .damaged => s.damagedSouth f
    | .cycle c => s.soundSouth c
    | .enum _ => s.countDamagedOut
    | .damagedEnum => s.countDamagedOut

/-! ### The inbound pass -/

/-- Sets or clears a collision flag. -/
def State.setCollision (s : State) (k : Nat) (on : Bool) : State :=
  { s with ring.collisions := s.ring.collisions.set k on }

/-- R11: one INPUT slot of a taken frame, by its writer tag. -/
def State.takeInput (s : State) (k : Nat) (e : SlotEntry) (x : Slot) : State :=
  if x.tag.toNat = e.writer then (s.setCollision k false).sample e.point x.value x.quality
  else if x.tag = 0 then s.setCollision k false
  else
    let stood := s.ring.collisions.getD k false
    let s := { s with ring.counters := { s.ring.counters with collisions := wrap32 s.ring.counters.collisions } }
    let s := if stood then s else s.log .ring .slotCollision k x.tag.toNat
    s.setCollision k true

/-- R11: the INPUT slots of a taken frame, in the order of the slot numbers (log 82). -/
def State.takeInputs (s : State) (slots : List Slot) : State :=
  slots.zipIdx.foldl (init := s) fun s p =>
    let e := s.entry p.2
    if e.direction = .input then s.takeInput p.2 e p.1 else s

/-- R36: the stations expected in a frame. -/
def State.expectedIn (s : State) (slots : List Slot) : List Nat :=
  slots.zipIdx.filterMap fun p => if (s.entry p.2).direction = .input then some (s.entry p.2).writer else none

/-- R11: the stations whose tag stood in an INPUT slot they are expected in. -/
def State.presentIn (s : State) (slots : List Slot) : List Nat :=
  slots.zipIdx.filterMap fun p =>
    let e := s.entry p.2
    if e.direction = .input ∧ p.1.tag.toNat = e.writer then some e.writer else none

/-- R13: a slot's echo count is set. -/
def State.setEcho (s : State) (k n : Nat) : State := { s with ring.echoCounts := s.ring.echoCounts.set k n }

/-- R13: an OUTPUT slot of a taken frame against its echo record. ECHO-MISMATCH follows what the DEGRADED point brings
(log 71). -/
def State.checkEcho (s : State) (k point : Nat) (x : Slot) (value : Word16) : State :=
  if x.value = value ∧ x.tag = 0xFE then (s.setEcho k 0).setDegraded point false
  else
    let n := s.ring.echoCounts.getD k 0
    let s := { s with ring.counters :=
      { s.ring.counters with echoMismatches := wrap32 s.ring.counters.echoMismatches } }
    let s := s.setEcho k (min 3 (n + 1))
    if n = 2 then (s.setDegraded point true).log .ring .echoMismatch k x.value.toNat x.tag.toNat else s

/-- R13: the OUTPUT slots of a taken frame against the echo records, judged on the slot map as it stands when the frame
is taken (log 54), in the order of the slot numbers (log 82). -/
def State.checkEchoes (s : State) (slots : List Slot) (echo : List (Nat × Word16)) : State :=
  echo.foldl (init := s) fun s p =>
    let e := s.entry p.1
    match slots[p.1]? with
    | some x => if e.direction = .output then s.checkEcho p.1 e.point x p.2 else s
    | none => s

/-- R10: a taken frame closes the outstanding cycle, hands what it carries to the blocks, is written and goes north.
Reports, mailbox and flags carry what their owners hold when the frame leaves. -/
def State.takeCycle (s : State) (o : Outstanding) (f : CycleFrame) : State :=
  let expected := s.expectedIn f.slots
  let present := s.presentIn f.slots
  let s := { s with ring.outstanding := none }
  let s := (s.takeInputs f.slots).watchStations expected present
  let s := s.checkEchoes f.slots o.echo
  let s := (s.takeAttention f.attn).countJoins
  let s :=
    match segmentOf f.lane with
    | some g => s.laneSegment g
    | none => s
  let s := s.countTaken
  let back : CycleFrame :=
    { f with flags := s.inboundFlags f.flags, slots := s.writeReports f.slots, mbox := s.mailArea }
  (s.mailWritten).sendNorth back.link

/-- R9: a sound cycle frame from Port S. -/
def State.soundNorth (s : State) (link : LinkFrame) (f : CycleFrame) : State :=
  match s.ring.outstanding with
  | none => (s.mismatch f.cycle).sendNorth link
  | some o =>
    if f.cycle = o.cycle ∧ f.slots.length = o.slots then s.takeCycle o f else (s.mismatch f.cycle).sendNorth link

/-- R9, R18: a sound ENUM frame from Port S. -/
def State.enumNorth (s : State) (round : Nat) (arb confirmSerial : Serial) (confirmNumber : Nat) : State :=
  if s.ring.linkS = false then s
  else if s.ring.segment = .enumerating then s.enumFrameReturn round arb confirmSerial confirmNumber
  else s.countDamagedIn

/-- INBOUND_PASS: a frame arrives on Port S, whose link is UP (R9). -/
def State.inbound (s : State) (f : LinkFrame) : State :=
  if s.ring.linkS = false then s
  else
    match examine f with
    | .foreign => s.countForeign
    | .damaged => (s.countDamagedIn).sendNorth f
    | .cycle c => s.soundNorth f c
    | .enum r => s.enumNorth r.round r.arbitration r.confirmSerial r.confirmNumber.toNat
    | .damagedEnum => if s.ring.segment = .enumerating then (s.countDamagedIn).enumLost else s.countDamagedIn

end Sys2Proof.Machine
end

