-- ==== Sys2Proof/Machine/Restart.lean ====
section
/-! DEFINITION. The three kinds of reset, block by block: COLD (R19, R22, R191), WARM (R20, R41, R58, R82, R96, R112,
R131, R147, R162, R180, R191) and SEGMENT RESTART (R15, R20, R41, R59, R112, R180). -/

namespace Sys2Proof.Machine

/-! ### What both restarts do -/

/-- R41: the station table reduced: every entry ABSENT, kept only where its lock is set; ack set and drop flags empty.
-/
def Segment.reduced (g : Segment) : Segment :=
  { g with stations := g.stations.map Station.release, ackSet := 0, dropFlags := List.replicate 31 false }

/-- R20: echo counts, collision flags and consecutive counts at 0, and no cycle or ENUM frame under way. -/
def Ring.quiet (r : Ring) : Ring :=
  { r with
    outstanding := none, flight := none, lostInRow := 0, takenInRow := 0
    echoCounts := List.replicate 256 0, collisions := List.replicate 256 false }

/-! ### SEGMENT RESTART -/

/-- R15: the resume target of a SEGMENT RESTART. -/
def Ring.restartTarget (r : Ring) : Working :=
  match r.segment with
  | .run => .run
  | .config => .config
  | .broken => r.brokenFrom
  | .down => r.resume
  | .enumerating => r.resume

/-- R59: every forcing record is removed as if by RELEASE-POINT, in ascending order of the points (log 66). -/
def State.releaseAll (s : State) : State := (List.range s.points.length).foldl State.releaseForcing s

/-- R112: every calibration flag of a unit that stands is cleared and logged, with subject 0 where its role has no point
(log 69); the flags are taken in the order of R97 (log 73). -/
def State.endCalibrations (s : State) (l : LineId) : State :=
  FgcPoint.all.foldl (init := s) fun s p =>
    s.setCalibration l p ((s.findPoint p.role (some l)).getD 0) false

/-- R47: a point's episode of loss is over: its log flag and its good-run count are cleared. -/
def Point.endEpisode (p : Point) : Point := { p with logFlag := false, goodRun := 0 }

/-- SEGMENT_RESTART (R15, R20, R41, R47, R59, R112, R180): an ENUMERATE in execution is answered ABORTED (R30); a
segment in DOWN stays there. The log flags and good-run counts are cleared once the forcing records are gone (log 57).
The turbine record stays whole, a pending stop with it (R163, log 78). -/
def State.segmentRestart (s : State) : State :=
  let target := s.ring.restartTarget
  let s := s.abandonRun
  let s := { s with seg := s.seg.reduced, ring := { s.ring.quiet with resume := target } }
  let s := s.releaseAll
  let s := { s with points := s.points.map Point.endEpisode }
  let s := (s.endCalibrations .one).endCalibrations .two
  let s := { s with disp := { s.disp with rx := .idle, out := [] } }
  if s.ring.segment = .down then s else s.enterEnumerating .full

/-! ### WARM reset -/

/-- R58: a configured record at a WARM reset; structure and limit fields stay. -/
def Point.warm (p : Point) : Point :=
  if p.kind = .empty then p
  else
    { p with
      raw := 0, value := 0, level := 0, riseLatch := 0, fallLatch := 0, input := .unsampled, degraded := false
      forcing := none, staleAt := none, holdAt := none, logFlag := false, goodRun := 0, started := false
      quality := if p.kind = .output then .good else .bad }

/-- R82, R96: a line controller at a WARM reset; `cap` is the effective cap that the kept OPERATOR entry leaves. -/
def Line.warm (c : Line) (cap : Nat) : Line :=
  { Line.reset with
    page := c.page, lastNumber := c.lastNumber, completed := c.completed, aborted := c.aborted
    lhvEst := c.lhvEst, override := c.override, lhvOvr := c.lhvOvr, cap := cap }

/-- R112: the minute in progress at a WARM reset. -/
def Minute.warm (m : Minute) : Minute :=
  { m with comps := Six.of (fun c => { m.comps.get c with forcedInvalid := true }), satAll := Three.all false }

/-- R112, R131: a flue gas unit at a WARM reset. The bases in force stay (log 81). -/
def Fgc.warm (f : Fgc) : Fgc :=
  { f with
    latest := Six.all .empty, cal := Six.all false, calO2 := false, calH2O := false
    minute := f.minute.map Minute.warm, loops := Three.all .reset
    capAsked := none, lowCloses := 0, trainFault := false, secondAt := none }

/-- R147: a cap list at a WARM reset: the OPERATOR entry alone is kept. -/
def CapList.warm (c : CapList) : CapList := { CapList.empty with operator := c.operator }

/-- R147: the envelope allocator at a WARM reset. -/
def Envelope.warm (e : Envelope) (now fMax1 fMax2 : Nat) : Envelope :=
  let caps : Two CapList := ⟨e.caps.one.warm, e.caps.two.warm⟩
  { e with
    caps := caps, effCap := ⟨effectiveCap fMax1 caps.one, effectiveCap fMax2 caps.two⟩, lastHeat := 0
    keptFlow := ⟨0, 0⟩, result := .zero, shortfall := false, overFlag := false, releaseAt := none
    periodAt := now + e.page.period }

/-- The cause of a WARM reset as WARM-START and READ-STATUS give it (R191). -/
def warmCode : WarmCause → Nat
  | .command => 1
  | .ringRequest => 2

/-- R191: the management unit at a WARM reset: a command in execution is ended, and its ABORTED response waits. -/
def Mgmt.warm (m : Mgmt) (cause : WarmCause) : Mgmt :=
  { Mgmt.reset with abortedCommand := m.executing, events := [], lastWarm := warmCode cause }

/-- R131: the validated average of the latest VALID record of a component in the half-hour table. -/
def Fgc.lastValid (f : Fgc) (c : Component) : Option Nat := (validatedOf f.table c).getLast?

/-- R82, R96, R112, R131, R147: the points a line's blocks set again at a WARM reset. -/
def State.warmLinePoints (s : State) (l : LineId) : State :=
  let s := ((s.own .lineState (some l) 0).own .feederCommand (some l) 0).own .grateSpeed (some l) 0
  let s := ((s.own .primaryAir (some l) 0).own .secondaryAir (some l) 0).own .lhvUsed (some l) (s.line l).lhvUsed
  let s := loopsAll.foldl (init := s) fun s d => s.own (loopRole d) (some l) 0
  let s := s.showBudget l
  let s := Component.all.foldl (init := s) fun s c =>
    match (s.fgc l).lastValid c with
    | none => s
    | some v => s.own c.report (some l) v
  s.own .effectiveCap (some l) (s.env.effCap.get l)

/-- R147, R162: the points the common blocks set again at a WARM reset. -/
def State.warmCommonPoints (s : State) : State :=
  let s := (s.own .bypassSetpoint none 0).own .capability none 0
  let s := (s.own .turbineRequest none 0).own .turbineSetpoint none 0
  (s.own .turbineReserve none 0).own .setpointSent none 0

/-- R20, R41: the frame engine and the segment manager at a WARM reset, before the segment's course. The escalation
window is closed, whatever the cause of the reset (log 56); the state BROKEN was entered from stays as shown (log 2).
-/
def State.warmSegment (s : State) : State :=
  let r := { s.ring.quiet with counters := .zero, lossRun := false, mismatchRun := false, resume := .config }
  let e := { s.seg.enum with running := false, winner := none, awaiting := none, offer := none }
  { s with ring := r, seg := { s.seg.reduced with window := none, enum := e } }

/-- WARM_RESET (R20, R191): every block takes its values, the segment enters ENUMERATING when Port S is UP and DOWN when
it is not, and the event queue is emptied last, with WARM-START its first entry. Steps still owed fall away (log 24). -/
def State.warmReset (s : State) (cause : WarmCause) : State :=
  let s := s.warmSegment
  let s := { s with
    points := s.points.map Point.warm
    env := s.env.warm s.runTime s.lines.one.page.fMax s.lines.two.page.fMax
    turb := Turbine.resetWith s.turb.page
    disp := Dispatch.resetWith s.disp.page
    fgcs := ⟨s.fgcs.one.warm, s.fgcs.two.warm⟩
    owed := [] }
  let s := { s with lines := ⟨s.lines.one.warm s.env.effCap.one, s.lines.two.warm s.env.effCap.two⟩ }
  let s := ((s.warmLinePoints .one).warmLinePoints .two).warmCommonPoints
  let s := if s.ring.linkS then s.enterEnumerating .full else s.setSegment .down
  ({ s with mgmt := s.mgmt.warm cause }).log .mgmt .warmStart (warmCode cause)

/-! ### COLD reset -/

/-- COLD_RESET (R19, R22, R191): the values of a COLD reset, with run time 0; the links stand as the ports report them.
Port S is examined, and the queue holds COLD-START alone. -/
def State.coldReset (s : State) : State :=
  let t := { State.reset with ring := Ring.reset s.ring.linkN s.ring.linkS, pending := s.pending }
  if s.ring.linkS then { t.enterEnumerating .full with mgmt := .reset } else t

/-- RESET_N_LOW (R22): the ports are held closed until the rise. -/
def State.resetNLow (s : State) : State := { s with resetLow := true }

end Sys2Proof.Machine
end

