-- ==== Sys2Proof/Machine/Exec.lean ====
section
/-! DEFINITION. The meaning of each command, one definition each, over four forms: an event of the part, a step the
part may owe itself, a telecontrol message, and a management command (R182). A command from outside first lets the part take what it owes
(log 1), and has no effect while RESET_N is low (R22). -/

namespace Sys2Proof.Machine

/-! ### What the part owes -/

/-- The effect of a step the part may owe: an allocation run, a restart, a telecontrol message or a management command.
The other steps are never owed. -/
def State.perform (s : State) : Instr → State
  | .segmentRestart => s.segmentRestart
  | .warmReset cause => s.warmReset cause
  | .allocationRun cause => s.runAllocation cause
  | .schedule plant unit number body => s.scheduleMessage plant unit number body
  | .cancel plant unit number body => s.cancelMessage plant unit number body
  | .linkCheck plant unit => s.linkCheckMessage plant unit
  | .noticeAck plant unit number => s.noticeAckMessage plant unit number
  | .resync plant unit number => s.resyncMessage plant unit number
  | .kindDiscard plant unit kind => s.kindDiscardMessage plant unit kind
  | .readTable table page start count => s.cmdReadTable table page start count
  | .writeTable table page start records => s.cmdWriteTable table page start records
  | .readPoint point clear => s.cmdReadPoint point clear
  | .forcePoint point pattern => s.cmdForcePoint point pattern
  | .releasePoint point => s.cmdReleasePoint point
  | .readEvents count => s.cmdReadEvents count
  | .setTimeAbsolute value => s.cmdTimeAbsolute value
  | .setTimeStep value => s.cmdTimeStep value
  | .loadBudget line annual consecutive validity => s.cmdLoadBudget line annual consecutive validity
  | .start line => s.cmdStart line
  | .stop line => s.cmdStop line
  | .resume line => s.cmdResume line
  | .resetTrip line => s.cmdResetTrip line
  | .turbineRunup => s.cmdRunup
  | .turbineStop => s.cmdTurbineStop
  | .setCapSet line value => s.cmdSetCap line value
  | .setCapRelease line => s.cmdReleaseCap line
  | .setOverrideOn line value => s.cmdOverrideOn line value
  | .setOverrideOff line => s.cmdOverrideOff line
  | .segmentModeRun => s.cmdSegmentRun
  | .segmentModeConfig => s.cmdSegmentConfig
  | .enumerate => s.cmdEnumerate
  | .renumber old new => s.cmdRenumber old new
  | .lockNumberSet number => s.cmdLockSet number
  | .lockNumberClear number => s.cmdLockClear number
  | .restartSegment => s.cmdRestartSegment
  | .warmRestart => s.cmdWarmRestart
  | .readStatus sect start => s.cmdReadStatus sect start
  | .coldReset => s
  | .portSLinkDown => s
  | .portSLinkUp => s
  | .portNLinkChange _ => s
  | .outboundPass _ => s
  | .inboundPass _ => s
  | .enumFrameReturn _ _ _ _ => s
  | .returnTimeout => s
  | .escalationWindowExpiry => s
  | .staleTimerExpiry _ => s
  | .holdTimerExpiry _ => s
  | .staircaseStep _ => s
  | .controlPeriod _ => s
  | .permissiveDelayExpiry _ => s
  | .lineHoldExpiry _ => s
  | .burnoutEnd _ => s
  | .strokeTimeout _ => s
  | .dueTimeReached _ => s
  | .burnMinuteClose _ => s
  | .sampleInstant _ => s
  | .fgcMinuteClose _ => s
  | .saturationTimerExpiry _ _ => s
  | .abnormalSecond _ => s
  | .bypassReleaseTimerExpiry => s
  | .indicationTimeout => s
  | .settleTimerExpiry => s
  | .blockStart _ _ => s
  | .blockEnd _ _ => s
  | .supervisionTimerExpiry => s
  | .ackTimerExpiry => s
  | .resetNLow => s

/-- The owed steps are taken in their order, a step taken may owe more; `n` bounds how many (log 1). -/
def settleN : Nat → State → State
  | 0, s => s
  | n + 1, s =>
    match s.owed with
    | [] => s
    | i :: rest => settleN n (State.perform { s with owed := rest } i)

/-- What the part owes is taken before anything else. -/
def State.settle (s : State) : State := settleN 4096 s

/-! ### The forms -/

/-- The outcomes of a command. -/
abbrev Result := Host.Outcome State Fault Refusal

/-- An event from outside, or of a timer. -/
def eventForm (act : State → State) (s : State) : Result := .next (if s.resetLow then s else act s.settle)

/-- An event of a point's timer; the point table ends at 191 (R42). -/
def pointForm (i : Nat) (act : State → State) (s : State) : Result :=
  if i < 192 then eventForm act s else .fault .noSuchPoint

/-- A step that the part may owe itself: when it is the one owed next, that one is taken. -/
def owedForm (i : Instr) (act : State → State) (s : State) : Result :=
  if s.resetLow then .next s
  else
    match s.owed with
    | [] => .next (act s)
    | j :: rest => .next (act (if j = i then { s with owed := rest } else s.settle))

/-- A telecontrol message: one that the lane has completed is taken as the step owed next; one that is given directly is
itself the next message completed (R164, log 58), and leaves the discard-run flag of R166 as it stands (log 36). -/
def messageForm (i : Instr) (act : State → State) (s : State) : Result :=
  if s.resetLow then .next s
  else
    match s.owed with
    | [] => .next (act s.messageDone)
    | j :: rest => .next (act (if j = i then { s with owed := rest } else s.settle.messageDone))

/-- R182: a command judged by step 1; from step 2 on it is in execution. One given directly leaves the mailbox's discard-run
flag as it stands (log 36). -/
def State.enterCommand (s : State) (code : CommandCode) (act : State → State) : State :=
  if s.mgmt.executing.isSome then { s with mgmt.busyAnswer := some code.byte }
  else act { s with mgmt.executing := some code.byte }

/-- A management command: one that the mailbox has completed is taken as the step owed next; one that is given directly
is judged by R182 first. -/
def commandForm (i : Instr) (code : CommandCode) (act : State → State) (s : State) : Result :=
  if s.resetLow then .next s
  else
    match s.owed with
    | [] => .next (s.enterCommand code act)
    | j :: rest =>
      if j = i then .next (act { s with owed := rest }) else .next (s.settle.enterCommand code act)

/-- A change of a port's link: while RESET_N is low the port reports it and nothing follows. -/
def linkForm (report act : State → State) (s : State) : Result := .next (if s.resetLow then report s else act s.settle)

/-! ### The meanings -/

/-- COLD_RESET. -/
def execColdReset (s : State) : Result := .next s.coldReset

/-- PORT_S_LINK_DOWN. -/
def execPortSLinkDown (s : State) : Result :=
  linkForm (fun s => { s with ring.linkS := false }) State.linkSDown s

/-- PORT_S_LINK_UP. -/
def execPortSLinkUp (s : State) : Result := linkForm (fun s => { s with ring.linkS := true }) State.linkSUp s

/-- PORT_N_LINK_CHANGE. -/
def execPortNLinkChange (up : Bool) (s : State) : Result :=
  linkForm (fun s => { s with ring.linkN := up }) (fun s => s.linkNChange up) s

/-- OUTBOUND_PASS. -/
def execOutboundPass (f : LinkFrame) (s : State) : Result := eventForm (fun s => s.outbound f) s

/-- INBOUND_PASS. -/
def execInboundPass (f : LinkFrame) (s : State) : Result := eventForm (fun s => s.inbound f) s

/-- ENUM_FRAME_RETURN. -/
def execEnumFrameReturn (round : Byte) (arb cs : Serial) (cn : Byte) (s : State) : Result :=
  eventForm (fun s => s.enumNorth round.toNat arb cs cn.toNat) s

/-- RETURN_TIMEOUT. -/
def execReturnTimeout (s : State) : Result := eventForm State.returnTimeout s

/-- SEGMENT_RESTART. -/
def execSegmentRestart (s : State) : Result := owedForm .segmentRestart State.segmentRestart s

/-- WARM_RESET. -/
def execWarmReset (cause : WarmCause) (s : State) : Result := owedForm (.warmReset cause) (fun s => s.warmReset cause) s

/-- ESCALATION_WINDOW_EXPIRY. -/
def execEscalationWindowExpiry (s : State) : Result := eventForm State.windowExpiry s

/-- STALE_TIMER_EXPIRY. -/
def execStaleTimerExpiry (i : Nat) (s : State) : Result := pointForm i (fun s => s.staleExpiry i) s

/-- HOLD_TIMER_EXPIRY. -/
def execHoldTimerExpiry (i : Nat) (s : State) : Result := pointForm i (fun s => s.holdExpiry i) s

/-- STAIRCASE_STEP. -/
def execStaircaseStep (i : Nat) (s : State) : Result := pointForm i (fun s => s.staircaseStep i) s

/-- CONTROL_PERIOD. -/
def execControlPeriod (l : LineId) (s : State) : Result := eventForm (fun s => s.controlPeriod l) s

/-- PERMISSIVE_DELAY_EXPIRY. -/
def execPermissiveDelayExpiry (l : LineId) (s : State) : Result := eventForm (fun s => s.permissiveDelay l) s

/-- LINE_HOLD_EXPIRY. -/
def execLineHoldExpiry (l : LineId) (s : State) : Result := eventForm (fun s => s.lineHoldExpiry l) s

/-- BURNOUT_END. -/
def execBurnoutEnd (l : LineId) (s : State) : Result := eventForm (fun s => s.burnoutEnd l) s

/-- STROKE_TIMEOUT. -/
def execStrokeTimeout (l : LineId) (s : State) : Result := eventForm (fun s => s.strokeTimeout l) s

/-- DUE_TIME_REACHED. -/
def execDueTimeReached (l : LineId) (s : State) : Result := eventForm (fun s => s.dueTimeReached l) s

/-- BURN_MINUTE_CLOSE. -/
def execBurnMinuteClose (l : LineId) (s : State) : Result := eventForm (fun s => s.burnMinuteClose l) s

/-- SAMPLE_INSTANT. -/
def execSampleInstant (l : LineId) (s : State) : Result := eventForm (fun s => s.sampleInstant l) s

/-- FGC_MINUTE_CLOSE. -/
def execFgcMinuteClose (l : LineId) (s : State) : Result := eventForm (fun s => s.fgcMinuteClose l) s

/-- SATURATION_TIMER_EXPIRY. -/
def execSaturationTimerExpiry (l : LineId) (d : DosingLoop) (s : State) : Result :=
  eventForm (fun s => s.saturationExpiry l d) s

/-- ABNORMAL_SECOND. -/
def execAbnormalSecond (l : LineId) (s : State) : Result := eventForm (fun s => s.abnormalSecond l) s

/-- ALLOCATION_RUN. -/
def execAllocationRun (cause : RunCause) (s : State) : Result :=
  owedForm (.allocationRun cause) (fun s => s.runAllocation cause) s

/-- BYPASS_RELEASE_TIMER_EXPIRY. -/
def execBypassReleaseTimerExpiry (s : State) : Result := eventForm State.bypassRelease s

/-- INDICATION_TIMEOUT. -/
def execIndicationTimeout (s : State) : Result := eventForm State.indicationTimeout s

/-- SETTLE_TIMER_EXPIRY. -/
def execSettleTimerExpiry (s : State) : Result := eventForm State.settleExpiry s

/-- SCHEDULE. -/
def execSchedule (plant unit number : Byte) (body : List Byte) (s : State) : Result :=
  messageForm (.schedule plant unit number body) (fun s => s.scheduleMessage plant unit number body) s

/-- CANCEL. -/
def execCancel (plant unit number : Byte) (body : List Byte) (s : State) : Result :=
  messageForm (.cancel plant unit number body) (fun s => s.cancelMessage plant unit number body) s

/-- LINK_CHECK. -/
def execLinkCheck (plant unit : Byte) (s : State) : Result :=
  messageForm (.linkCheck plant unit) (fun s => s.linkCheckMessage plant unit) s

/-- NOTICE_ACK. -/
def execNoticeAck (plant unit number : Byte) (s : State) : Result :=
  messageForm (.noticeAck plant unit number) (fun s => s.noticeAckMessage plant unit number) s

/-- RESYNC. -/
def execResync (plant unit number : Byte) (s : State) : Result :=
  messageForm (.resync plant unit number) (fun s => s.resyncMessage plant unit number) s

/-- KIND_DISCARD. -/
def execKindDiscard (plant unit kind : Byte) (s : State) : Result :=
  messageForm (.kindDiscard plant unit kind) (fun s => s.kindDiscardMessage plant unit kind) s

/-- BLOCK_START. -/
def execBlockStart (order index : Nat) (s : State) : Result := eventForm (fun s => s.blockStart order index) s

/-- BLOCK_END. -/
def execBlockEnd (order index : Nat) (s : State) : Result := eventForm (fun s => s.blockEnd order index) s

/-- SUPERVISION_TIMER_EXPIRY. -/
def execSupervisionTimerExpiry (s : State) : Result := eventForm State.supervisionExpiry s

/-- ACK_TIMER_EXPIRY. -/
def execAckTimerExpiry (s : State) : Result := eventForm State.ackExpiry s

/-- READ_TABLE. -/
def execReadTable (table page : Byte) (start : Word16) (count : Byte) (s : State) : Result :=
  commandForm (.readTable table page start count) .readTable (fun s => s.cmdReadTable table page start count) s

/-- WRITE_TABLE. -/
def execWriteTable (table page : Byte) (start : Word16) (records : List Byte) (s : State) : Result :=
  commandForm (.writeTable table page start records) .writeTable
    (fun s => s.cmdWriteTable table page start records) s

/-- READ_POINT. -/
def execReadPoint (point clear : Byte) (s : State) : Result :=
  commandForm (.readPoint point clear) .readPoint (fun s => s.cmdReadPoint point clear) s

/-- FORCE_POINT. -/
def execForcePoint (point : Byte) (pattern : ForcePattern) (s : State) : Result :=
  commandForm (.forcePoint point pattern) .forcePoint (fun s => s.cmdForcePoint point pattern) s

/-- RELEASE_POINT. -/
def execReleasePoint (point : Byte) (s : State) : Result :=
  commandForm (.releasePoint point) .releasePoint (fun s => s.cmdReleasePoint point) s

/-- READ_EVENTS. -/
def execReadEvents (count : Byte) (s : State) : Result :=
  commandForm (.readEvents count) .readEvents (fun s => s.cmdReadEvents count) s

/-- SET_TIME_ABSOLUTE. -/
def execSetTimeAbsolute (value : BitVec 48) (s : State) : Result :=
  commandForm (.setTimeAbsolute value) .setTime (fun s => s.cmdTimeAbsolute value) s

/-- SET_TIME_STEP. -/
def execSetTimeStep (value : BitVec 48) (s : State) : Result :=
  commandForm (.setTimeStep value) .setTime (fun s => s.cmdTimeStep value) s

/-- LOAD_BUDGET. -/
def execLoadBudget (line : Byte) (annual : BitVec 32) (consecutive : Word16) (validity : Byte) (s : State) : Result :=
  commandForm (.loadBudget line annual consecutive validity) .loadBudget
    (fun s => s.cmdLoadBudget line annual consecutive validity) s

/-- START. -/
def execStart (line : Byte) (s : State) : Result := commandForm (.start line) .lineControl (fun s => s.cmdStart line) s

/-- STOP. -/
def execStop (line : Byte) (s : State) : Result := commandForm (.stop line) .lineControl (fun s => s.cmdStop line) s

/-- RESUME. -/
def execResume (line : Byte) (s : State) : Result :=
  commandForm (.resume line) .lineControl (fun s => s.cmdResume line) s

/-- RESET_TRIP. -/
def execResetTrip (line : Byte) (s : State) : Result :=
  commandForm (.resetTrip line) .lineControl (fun s => s.cmdResetTrip line) s

/-- TURBINE_RUNUP. -/
def execTurbineRunup (s : State) : Result := commandForm .turbineRunup .turbineControl State.cmdRunup s

/-- TURBINE_STOP. -/
def execTurbineStop (s : State) : Result := commandForm .turbineStop .turbineControl State.cmdTurbineStop s

/-- SET_CAP_SET. -/
def execSetCapSet (line : Byte) (value : Word16) (s : State) : Result :=
  commandForm (.setCapSet line value) .setCap (fun s => s.cmdSetCap line value) s

/-- SET_CAP_RELEASE. -/
def execSetCapRelease (line : Byte) (s : State) : Result :=
  commandForm (.setCapRelease line) .setCap (fun s => s.cmdReleaseCap line) s

/-- SET_OVERRIDE_ON. -/
def execSetOverrideOn (line : Byte) (value : Word16) (s : State) : Result :=
  commandForm (.setOverrideOn line value) .setOverride (fun s => s.cmdOverrideOn line value) s

/-- SET_OVERRIDE_OFF. -/
def execSetOverrideOff (line : Byte) (s : State) : Result :=
  commandForm (.setOverrideOff line) .setOverride (fun s => s.cmdOverrideOff line) s

/-- SEGMENT_MODE_RUN. -/
def execSegmentModeRun (s : State) : Result := commandForm .segmentModeRun .segmentMode State.cmdSegmentRun s

/-- SEGMENT_MODE_CONFIG. -/
def execSegmentModeConfig (s : State) : Result := commandForm .segmentModeConfig .segmentMode State.cmdSegmentConfig s

/-- ENUMERATE. -/
def execEnumerate (s : State) : Result := commandForm .enumerate .enumerate State.cmdEnumerate s

/-- RENUMBER. -/
def execRenumber (old new : Byte) (s : State) : Result :=
  commandForm (.renumber old new) .renumber (fun s => s.cmdRenumber old new) s

/-- LOCK_NUMBER_SET. -/
def execLockNumberSet (number : Byte) (s : State) : Result :=
  commandForm (.lockNumberSet number) .lockNumber (fun s => s.cmdLockSet number) s

/-- LOCK_NUMBER_CLEAR. -/
def execLockNumberClear (number : Byte) (s : State) : Result :=
  commandForm (.lockNumberClear number) .lockNumber (fun s => s.cmdLockClear number) s

/-- RESTART_SEGMENT. -/
def execRestartSegment (s : State) : Result := commandForm .restartSegment .restartSegment State.cmdRestartSegment s

/-- WARM_RESTART. -/
def execWarmRestart (s : State) : Result := commandForm .warmRestart .warmRestart State.cmdWarmRestart s

/-- READ_STATUS. -/
def execReadStatus (sect : Byte) (start : Word16) (s : State) : Result :=
  commandForm (.readStatus sect start) .readStatus (fun s => s.cmdReadStatus sect start) s

/-- RESET_N_LOW. -/
def execResetNLow (s : State) : Result := .next s.resetNLow

end Sys2Proof.Machine
end

