-- ==== Sys2Proof/Machine/Dispatch.lean ====
section
/-! DEFINITION. One arm per command: a direct call of its meaning. -/

namespace Sys2Proof.Machine

open Sys2Proof

def exec (i : Instr) (s : State) : Host.Outcome State Fault Refusal :=
  match i with
  | .coldReset => Sys2Proof.Machine.execColdReset s
  | .portSLinkDown => Sys2Proof.Machine.execPortSLinkDown s
  | .portSLinkUp => Sys2Proof.Machine.execPortSLinkUp s
  | .portNLinkChange up => Sys2Proof.Machine.execPortNLinkChange up s
  | .outboundPass frame => Sys2Proof.Machine.execOutboundPass frame s
  | .inboundPass frame => Sys2Proof.Machine.execInboundPass frame s
  | .enumFrameReturn round arbitration confirmSerial confirmNumber => Sys2Proof.Machine.execEnumFrameReturn round arbitration confirmSerial confirmNumber s
  | .returnTimeout => Sys2Proof.Machine.execReturnTimeout s
  | .segmentRestart => Sys2Proof.Machine.execSegmentRestart s
  | .warmReset cause => Sys2Proof.Machine.execWarmReset cause s
  | .escalationWindowExpiry => Sys2Proof.Machine.execEscalationWindowExpiry s
  | .staleTimerExpiry point => Sys2Proof.Machine.execStaleTimerExpiry point s
  | .holdTimerExpiry point => Sys2Proof.Machine.execHoldTimerExpiry point s
  | .staircaseStep point => Sys2Proof.Machine.execStaircaseStep point s
  | .controlPeriod line => Sys2Proof.Machine.execControlPeriod line s
  | .permissiveDelayExpiry line => Sys2Proof.Machine.execPermissiveDelayExpiry line s
  | .lineHoldExpiry line => Sys2Proof.Machine.execLineHoldExpiry line s
  | .burnoutEnd line => Sys2Proof.Machine.execBurnoutEnd line s
  | .strokeTimeout line => Sys2Proof.Machine.execStrokeTimeout line s
  | .dueTimeReached line => Sys2Proof.Machine.execDueTimeReached line s
  | .burnMinuteClose line => Sys2Proof.Machine.execBurnMinuteClose line s
  | .sampleInstant line => Sys2Proof.Machine.execSampleInstant line s
  | .fgcMinuteClose line => Sys2Proof.Machine.execFgcMinuteClose line s
  | .saturationTimerExpiry line loop => Sys2Proof.Machine.execSaturationTimerExpiry line loop s
  | .abnormalSecond line => Sys2Proof.Machine.execAbnormalSecond line s
  | .allocationRun cause => Sys2Proof.Machine.execAllocationRun cause s
  | .bypassReleaseTimerExpiry => Sys2Proof.Machine.execBypassReleaseTimerExpiry s
  | .indicationTimeout => Sys2Proof.Machine.execIndicationTimeout s
  | .settleTimerExpiry => Sys2Proof.Machine.execSettleTimerExpiry s
  | .schedule plant unit number body => Sys2Proof.Machine.execSchedule plant unit number body s
  | .cancel plant unit number body => Sys2Proof.Machine.execCancel plant unit number body s
  | .linkCheck plant unit => Sys2Proof.Machine.execLinkCheck plant unit s
  | .noticeAck plant unit number => Sys2Proof.Machine.execNoticeAck plant unit number s
  | .resync plant unit number => Sys2Proof.Machine.execResync plant unit number s
  | .kindDiscard plant unit kind => Sys2Proof.Machine.execKindDiscard plant unit kind s
  | .blockStart order index => Sys2Proof.Machine.execBlockStart order index s
  | .blockEnd order index => Sys2Proof.Machine.execBlockEnd order index s
  | .supervisionTimerExpiry => Sys2Proof.Machine.execSupervisionTimerExpiry s
  | .ackTimerExpiry => Sys2Proof.Machine.execAckTimerExpiry s
  | .readTable table page start count => Sys2Proof.Machine.execReadTable table page start count s
  | .writeTable table page start records => Sys2Proof.Machine.execWriteTable table page start records s
  | .readPoint point clear => Sys2Proof.Machine.execReadPoint point clear s
  | .forcePoint point pattern => Sys2Proof.Machine.execForcePoint point pattern s
  | .releasePoint point => Sys2Proof.Machine.execReleasePoint point s
  | .readEvents count => Sys2Proof.Machine.execReadEvents count s
  | .setTimeAbsolute value => Sys2Proof.Machine.execSetTimeAbsolute value s
  | .setTimeStep value => Sys2Proof.Machine.execSetTimeStep value s
  | .loadBudget line annual consecutive validity => Sys2Proof.Machine.execLoadBudget line annual consecutive validity s
  | .start line => Sys2Proof.Machine.execStart line s
  | .stop line => Sys2Proof.Machine.execStop line s
  | .resume line => Sys2Proof.Machine.execResume line s
  | .resetTrip line => Sys2Proof.Machine.execResetTrip line s
  | .turbineRunup => Sys2Proof.Machine.execTurbineRunup s
  | .turbineStop => Sys2Proof.Machine.execTurbineStop s
  | .setCapSet line value => Sys2Proof.Machine.execSetCapSet line value s
  | .setCapRelease line => Sys2Proof.Machine.execSetCapRelease line s
  | .setOverrideOn line value => Sys2Proof.Machine.execSetOverrideOn line value s
  | .setOverrideOff line => Sys2Proof.Machine.execSetOverrideOff line s
  | .segmentModeRun => Sys2Proof.Machine.execSegmentModeRun s
  | .segmentModeConfig => Sys2Proof.Machine.execSegmentModeConfig s
  | .enumerate => Sys2Proof.Machine.execEnumerate s
  | .renumber old new => Sys2Proof.Machine.execRenumber old new s
  | .lockNumberSet number => Sys2Proof.Machine.execLockNumberSet number s
  | .lockNumberClear number => Sys2Proof.Machine.execLockNumberClear number s
  | .restartSegment => Sys2Proof.Machine.execRestartSegment s
  | .warmRestart => Sys2Proof.Machine.execWarmRestart s
  | .readStatus sect start => Sys2Proof.Machine.execReadStatus sect start s
  | .resetNLow => Sys2Proof.Machine.execResetNLow s

end Sys2Proof.Machine
end

