-- ==== Sys2Proof/Machine/Clockwork.lean ====
section
/-! DEFINITION. What the part does of its own accord while no command waits (log 1): the step it owes, else the event of
a timer that is due, else one tick of 0.1 ms of run time. -/

namespace Sys2Proof.Machine

/-- A run-time timer has come to its expiry. -/
def State.cameRun (s : State) (t : Option Nat) : Bool :=
  match t with
  | none => false
  | some t => decide (10 * t ≤ s.clock.tenths)

/-- A plant-time timer has come to its expiry. -/
def State.camePlant (s : State) (t : Option Nat) : Bool :=
  match t, s.clock.plant with
  | some t, some p => decide (t ≤ p)
  | _, _ => false

/-- An event when its timer has come. -/
def due (came : Bool) (i : Instr) : List Instr := if came then [i] else []

/-- The return timer (R7, R18). -/
def State.dueReturn (s : State) : List Instr :=
  due (match s.ring.outstanding, s.ring.flight with
    | some o, _ => decide (o.expiry ≤ s.clock.tenths)
    | none, some f => decide (f.expiry ≤ s.clock.tenths)
    | none, none => false) .returnTimeout

/-- The expiry of a staircase's step timer (R55). -/
def stepTimer : Option Forcing → Option Nat
  | some (.staircase _ _ _ _ _ t) => some t
  | some (.fixed _) => none
  | none => none

/-- The timers of a point (R45, R55). -/
def State.duePoint (s : State) (p : Point) (i : Nat) : List Instr :=
  due (s.cameRun p.staleAt) (.staleTimerExpiry i) ++ due (s.cameRun p.holdAt) (.holdTimerExpiry i) ++
    due (s.cameRun (stepTimer p.forcing)) (.staircaseStep i)

/-- The timers of a line controller (R67, R68, R70, R74, R77, R87). -/
def State.dueLine (s : State) (l : LineId) : List Instr :=
  let c := s.line l
  due (s.cameRun c.periodAt) (.controlPeriod l) ++ due (s.cameRun c.permAt) (.permissiveDelayExpiry l) ++
    due (s.cameRun c.holdAt) (.lineHoldExpiry l) ++ due (s.cameRun c.burnoutAt) (.burnoutEnd l) ++
    due (s.cameRun c.strokeAt) (.strokeTimeout l) ++
    due (c.entry.isSome && (s.camePlant c.burnAt || s.cameRun c.burnTimer)) (.burnMinuteClose l)

/-- The timers of a flue gas unit (R98, R102, R109, R126). -/
def State.dueFgc (s : State) (l : LineId) : List Instr :=
  let f := s.fgc l
  due (s.cameRun (some f.sampleAt)) (.sampleInstant l) ++
    due (s.camePlant (f.minute.map fun m => nextMinute m.start)) (.fgcMinuteClose l) ++
    (loopsAll.flatMap fun d => due (s.cameRun (f.loops.get d).satAt) (.saturationTimerExpiry l d)) ++
    due (s.cameRun f.secondAt) (.abnormalSecond l)

/-- The timers of a queued block (R173). -/
def State.dueBlock (s : State) (b : Block) : List Instr :=
  due (s.camePlant (some b.stop)) (.blockEnd b.order b.index) ++
    due (decide (b.status = .pending) && s.camePlant (some b.start)) (.blockStart b.order b.index)

/-- The timers of the common blocks (R40, R137, R145, R156, R158, R173, R177, R178). -/
def State.dueCommon (s : State) : List Instr :=
  due (s.cameRun s.seg.window) .escalationWindowExpiry ++
    due (s.cameRun (some s.env.periodAt)) (.allocationRun .period) ++
    due (s.cameRun s.env.releaseAt) .bypassReleaseTimerExpiry ++ due (s.cameRun s.turb.indAt) .indicationTimeout ++
    due (s.cameRun s.turb.settleAt) .settleTimerExpiry ++ s.disp.queue.flatMap s.dueBlock ++
    due (s.cameRun s.disp.supAt) .supervisionTimerExpiry ++ due (s.cameRun s.disp.notice.ackAt) .ackTimerExpiry

/-- Every timer that has come, in the order in which the part takes those that come together (log 1). -/
def State.dueEvents (s : State) : List Instr :=
  s.dueReturn ++ (s.points.zipIdx.flatMap fun p => s.duePoint p.1 p.2) ++ bothLines.flatMap s.dueLine ++
    bothLines.flatMap s.dueFgc ++ s.dueCommon

/-- R71: the due time of a line's next stroke arrives at the tick that brings it. -/
def State.arriveDue (s : State) (l : LineId) : State :=
  match (s.line l).due with
  | .at_ t => if 10 * t = s.clock.tenths then s.dueTimeReached l else s
  | .atOnce => s
  | .none => s

/-- One tick of 0.1 ms. -/
def State.tick (s : State) : State :=
  ((s.reachTenths (s.clock.tenths + 1)).arriveDue .one).arriveDue .two

/-- What the part does while no command waits; while RESET_N is low it does nothing (R22). -/
def State.idle (s : State) : Host.Outcome State Fault Refusal :=
  if s.resetLow then .next s
  else
    match s.owed with
    | i :: rest => .next (State.perform { s with owed := rest } i)
    | [] =>
      match s.dueEvents with
      | i :: _ => exec i s
      | [] => .next s.tick

end Sys2Proof.Machine
end

