-- ==== Sys2Proof/Safety.lean ====
section
/-! DEFINITION. What a safe run is and what an event leaves alone, in the terms the statements use: outcomes, the states
in which the part takes a command, the invariants, and the frame of an event of one line. -/

namespace Sys2Proof.Machine

/-- A step answers a next state: neither a fault nor a refusal. -/
def Goes (o : Host.Outcome State Fault Refusal) : Prop := ∃ t, o = .next t

/-! ### When the part takes a command -/

/-- RESET_N is high and the part owes nothing, so that a command from outside acts at once (R22, log 1). -/
def State.Quiet (s : State) : Prop := s.resetLow = false ∧ s.owed = []

/-- No management command is in execution either (R182, step 1). -/
def State.Free (s : State) : Prop := s.Quiet ∧ s.mgmt.executing = none

/-- The state in which a management command acts: from step 2 of R182 on it is in execution. -/
def State.during (s : State) (c : CommandCode) : State := { s with mgmt.executing := some c.byte }

/-- A command has been answered (R182): its response stands in the buffer, no segment of it sent. -/
def State.Answered (t : State) (c : CommandCode) (code : RespCode) (data : List Byte) : Prop :=
  t.mgmt.response = some ⟨c.byte, code, .bytes data⟩ ∧ t.mgmt.nextSegment = 0

/-! ### Invariants -/

/-- R188: the event queue holds at most 64 entries, in order of their run-time stamps, none later than run time. -/
def State.QueueOrdered (s : State) : Prop :=
  s.mgmt.events.length ≤ 64 ∧ s.mgmt.events.Pairwise (fun a b => a.runTime ≤ b.runTime) ∧
    ∀ e ∈ s.mgmt.events, e.runTime ≤ s.runTime

/-- The tables keep their sizes (R3, R23, R38, R42, section 7.4) and the queues and counts their bounds (R126, R168,
R169, R170, R178, R188); a slot names a point 0 to 191 and no point stands in two slots (R3), the echo records of a
cycle are of different slots (R4), an enumeration run assigns station numbers (R27), and every FIRM block lies within
the capability stored with it (R171). -/
structure State.Shaped (s : State) : Prop where
  points     : s.points.length = 192
  slots      : s.ring.slotMap.length = 256
  echoes     : s.ring.echoCounts.length = 256
  collisions : s.ring.collisions.length = 256
  stations   : s.seg.stations.length = 30
  drops      : s.seg.dropFlags.length = 31
  halfHours  : ∀ l, (s.fgc l).table.length = 48
  consec     : ∀ l, (s.fgc l).abn.consec ≤ 14400
  out        : s.disp.out.length ≤ 4
  queue      : s.disp.queue.length ≤ 16
  firm       : ∀ b ∈ s.disp.queue, b.firm = true → b.accPower + b.accReserve ≤ b.capAt
  number     : s.disp.vr < 128
  notice     : s.disp.notice.next < 128
  lost       : s.mgmt.lost ≤ 65535
  once       : pointsOnce s.ring.slotMap = true
  mapped     : ∀ e ∈ s.ring.slotMap, e.point < 192
  echo       : ∀ o, s.ring.outstanding = some o → (o.echo.map (·.1)).Nodup
  assigned   : ∀ a, s.seg.enum.awaiting = some a ∨ s.seg.enum.winner = some a → 1 ≤ a.2

/-- R127: the exhausted condition stands as its definition says, and no line feeds while it holds. -/
def State.Guarded (s : State) : Prop :=
  ∀ l, (s.fgc l).abn.exhausted = (s.fgc l).isExhausted ∧
    ((s.line l).state.feeds = true → (s.fgc l).abn.exhausted = false)

/-! ### Frames -/

/-- The other line. -/
def otherLine : LineId → LineId
  | .one => .two
  | .two => .one

/-- What no event of one line touches: the clocks, the ring, the segment manager, the turbine, the dispatch unit and the
queue of commands; the other line's controller, flue gas unit and caps; the pages; every point that is neither an
OUTPUT nor a REPORT; and of the management unit all but the events and the response. -/
structure LineEvent (l : LineId) (s t : State) : Prop where
  clock      : t.clock = s.clock
  resetLow   : t.resetLow = s.resetLow
  ring       : t.ring = s.ring
  seg        : t.seg = s.seg
  turb       : t.turb = s.turb
  disp       : t.disp = s.disp
  pending    : t.pending = s.pending
  other      : t.line (otherLine l) = s.line (otherLine l)
  otherFgc   : t.fgc (otherLine l) = s.fgc (otherLine l)
  otherCaps  : t.env.caps.get (otherLine l) = s.env.caps.get (otherLine l)
  header     : t.env.page = s.env.page
  result     : t.env.result = s.env.result
  page       : (t.line l).page = (s.line l).page
  fgcPage    : (t.fgc l).page = (s.fgc l).page
  dosing     : (t.fgc l).dosing = (s.fgc l).dosing
  points     : ∀ i, (s.point i).kind ≠ .output → (s.point i).kind ≠ .report → t.point i = s.point i
  mail       : ({ t.mgmt with
    events := s.mgmt.events, lost := s.mgmt.lost, response := s.mgmt.response
    nextSegment := s.mgmt.nextSegment } : Mgmt) = s.mgmt

/-- The value that the part has set on a role's OUTPUT or REPORT point, where one is configured. -/
def State.Shows (t : State) (r : Role) (l : Option LineId) (v : Int) : Prop :=
  ∀ i, t.findPoint r l = some i → (t.point i).kind = r.kind → (t.point i).value = v

/-- Two records have the same structure and limit fields (R42). -/
structure Point.SameSettings (p q : Point) : Prop where
  kind       : p.kind = q.kind
  role       : p.role = q.role
  line       : p.line = q.line
  gain       : p.gain = q.gain
  offset     : p.offset = q.offset
  low        : p.low = q.low
  high       : p.high = q.high
  staleLimit : p.staleLimit = q.staleLimit
  subst      : p.subst = q.subst
  substValue : p.substValue = q.substValue
  holdLimit  : p.holdLimit = q.holdLimit
  polarity   : p.polarity = q.polarity
  riseMask   : p.riseMask = q.riseMask
  fallMask   : p.fallMask = q.fallMask

/-- A station entry released (R26, R41): ABSENT, with serial and kind code only while its lock is set. -/
def Station.released (e : Station) : Station :=
  { e with
    state := .absent, missed := 0, due := false, serial := if e.lock then e.serial else none
    kindCode := if e.lock then e.kindCode else 0 }

/-- An event stands in the queue. -/
def State.Logged (t : State) (src : Source) (name : EventName) (subject first second : Int) : Prop :=
  ∃ e ∈ t.mgmt.events, e.source = src ∧ e.name = name ∧ e.subject = eventWord subject ∧ e.first = eventWord first ∧
    e.second = eventWord second

/-- R25, R28: the enumeration run of `s` has ended INCOMPLETE with one more ENUM frame lost: its assignments are released, the
segment goes on by the resume target, and a waiting ENUMERATE is answered. -/
structure EndedIncomplete (s t : State) : Prop where
  turb     : t.turb = s.turb
  disp     : t.disp = s.disp
  flight   : t.ring.flight = none
  counters : t.ring.counters = s.ring.counters
  enum     : t.seg.enum = { s.seg.enum with
    lost := s.seg.enum.lost + 1, running := false, winner := none, awaiting := none, offer := none
    outcome := some .incomplete }
  segment  : t.ring.segment = if s.ring.resume = .run ∧ t.validate = none then .run else .config
  released : ∀ a, s.seg.enum.awaiting = some a ∨ s.seg.enum.winner = some a → t.station a.2 = (s.station a.2).released
  others   : ∀ m, (∀ a, s.seg.enum.awaiting = some a ∨ s.seg.enum.winner = some a → a.2 ≠ m) → t.station m = s.station m
  answered : s.enumerateWaits = true →
    t.Answered .enumerate .done [3, BitVec.ofNat 8 s.seg.enum.numbered, BitVec.ofNat 8 t.activeCount]

/-- R140, R144: a total shared by the effective caps of the FEEDING lines, a cap of 0 standing for a line that is not FEEDING;
what rounding leaves goes to line 1, or to line 2 when line 1 is not FEEDING. -/
def sharesByCaps (total c1 c2 : Nat) (first : Bool) : Nat × Nat :=
  if c1 + c2 = 0 then (0, 0)
  else if first then (total - total * c2 / (c1 + c2), total * c2 / (c1 + c2))
  else (0, total)

/-! ### What a frame hands over -/

/-- R12, R14: the ring after one more lost cycle in RUN, CONFIG or BROKEN, its counters apart. -/
def Ring.lostOne (r : Ring) : Ring :=
  { r with
    lostInRow := r.lostInRow + 1, takenInRow := 0, lossRun := true
    segment := if r.brokenCount ≤ r.lostInRow + 1 then .broken else r.segment
    brokenFrom :=
      if r.brokenCount ≤ r.lostInRow + 1 ∧ r.segment = .run then .run
      else if r.brokenCount ≤ r.lostInRow + 1 ∧ r.segment = .config then .config
      else r.brokenFrom }

/-- R4, R48: the REQUEST slots with writer tag 0xFD have been sampled, and no other REQUEST point has. -/
structure RequestsTaken (c : CycleFrame) (s t : State) : Prop where
  sampled : ∀ k x, (s.entry k).direction = .request → (s.point (s.entry k).point).kind = .request →
    c.slots[k]? = some x → x.tag = 0xFD →
    let p := s.point (s.entry k).point
    let q := t.point (s.entry k).point
    let v := p.scaled x.value.toInt
    q.raw = x.value.toInt ∧
      (x.quality = 0 → q.value = clampInt v p.low p.high ∧ q.input = .fresh ∧
        q.quality = (if p.low ≤ v ∧ v ≤ p.high then .good else .clamped) ∧ q.staleAt = some (s.runTime + p.staleLimit)) ∧
      (x.quality ≠ 0 → q.input ≠ .fresh ∧ q.goodRun = 0)
  others  : ∀ i, (s.point i).kind = .request →
    (∀ k x, (s.entry k).direction = .request → c.slots[k]? = some x → x.tag = 0xFD → (s.entry k).point ≠ i) →
    t.point i = s.point i

/-- R181: a mailbox segment, where the area holds one, handed to the management unit. -/
def State.mailIn (s : State) (area : List Byte) : State :=
  match segmentOf area with
  | some g => s.mailSegment g
  | none => s

/-- R165: a lane segment, where the area holds one, handed to the dispatch unit. -/
def State.laneIn (s : State) (area : List Byte) : State :=
  match segmentOf area with
  | some g => s.laneSegment g
  | none => s

/-- The management unit stands as in `u`, the event queue apart, and what `u` owes is owed. -/
structure MailAs (u t : State) : Prop where
  unit : ({ t.mgmt with events := u.mgmt.events, lost := u.mgmt.lost } : Mgmt) = u.mgmt
  owed : ∀ i ∈ u.owed, i ∈ t.owed

/-- R40: the reset-request flag has been compared with the reset level. -/
structure ResetFlagTaken (flag : Bool) (s t : State) : Prop where
  level   : t.seg.resetLevel = if flag then .set else .clear
  window  : t.seg.window =
    if flag = true ∧ s.seg.resetLevel = .clear then (if s.seg.window = none then some (s.runTime + 2000) else none)
    else s.seg.window
  restart : flag = true → s.seg.resetLevel = .clear → s.seg.window = none → Instr.segmentRestart ∈ t.owed
  reset   : flag = true → s.seg.resetLevel = .clear → s.seg.window ≠ none → Instr.warmReset .ringRequest ∈ t.owed

/-- R10: a frame that goes north has its REPORT slots written from the points of `t`, its other slots, its assignment
and acknowledgement fields, its attention area, its lane area and the bytes beyond the areas as they came, and the
flags of `t`, bit 0 kept (log 40). -/
structure WrittenNorth (c back : CycleFrame) (s t : State) : Prop where
  cycle   : back.cycle = c.cycle
  length  : back.slots.length = c.slots.length
  ack     : back.ack = c.ack
  serial  : back.serial = c.serial
  number  : back.number = c.number
  attn    : back.attn = c.attn
  lane    : back.lane = c.lane
  rest    : back.rest = c.rest
  others  : ∀ k, (s.entry k).direction ≠ .report → back.slots[k]? = c.slots[k]?
  reports : ∀ k, k < c.slots.length → (s.entry k).direction = .report →
    let p := t.point (s.entry k).point
    back.slots[k]? = some ⟨BitVec.ofInt 16 p.raw, if p.shownQuality = .good then 0 else 1, 0xFE⟩
  flags   : back.flags = t.inboundFlags c.flags

/-- R11: whether an INPUT slot of a taken frame bears the tag of a station that is not expected in it. -/
def State.collides (s : State) (k : Nat) (x : Slot) : Bool :=
  decide ((s.entry k).direction = .input ∧ x.tag.toNat ≠ (s.entry k).writer ∧ x.tag ≠ 0)

/-- R11: the INPUT slots of a taken frame have been sampled by their tags, and the collision flags follow. -/
structure InputsTaken (c : CycleFrame) (s t : State) : Prop where
  sampled  : ∀ k x, (s.entry k).direction = .input → c.slots[k]? = some x → x.tag.toNat = (s.entry k).writer →
    (s.point (s.entry k).point).kind = .analog ∨ (s.point (s.entry k).point).kind = .binary →
    let p := s.point (s.entry k).point
    let q := t.point (s.entry k).point
    let v := p.scaled x.value.toInt
    q.raw = x.value.toInt ∧
      (p.kind = .binary → x.quality = 0 →
        q.level = x.value ^^^ p.polarity ∧ q.quality = .good ∧ q.input = .fresh) ∧
      (p.kind = .analog → x.quality = 0 → p.low ≤ v → v ≤ p.high →
        q.value = v ∧ q.quality = .good ∧ q.input = .fresh) ∧
      (x.quality ≠ 0 ∨ (p.kind = .analog ∧ ¬(p.low ≤ v ∧ v ≤ p.high)) → q.input ≠ .fresh ∧ q.goodRun = 0)
  others   : ∀ i, (s.point i).kind = .analog ∨ (s.point i).kind = .binary →
    (∀ k x, (s.entry k).direction = .input → c.slots[k]? = some x → x.tag.toNat = (s.entry k).writer →
      (s.entry k).point ≠ i) →
    (∀ k, (s.entry k).direction = .output → (s.entry k).point ≠ i) → t.point i = s.point i
  flags    : ∀ k x, (s.entry k).direction = .input → c.slots[k]? = some x →
    t.ring.collisions.getD k false = s.collides k x
  rest     : ∀ k, (s.entry k).direction ≠ .input ∨ c.slots.length ≤ k →
    t.ring.collisions.getD k false = s.ring.collisions.getD k false

/-- R13: an OUTPUT slot of a taken frame matches its echo record. -/
def echoMatches (x : Slot) (w : Word16) : Bool := decide (x.value = w ∧ x.tag = 0xFE)

/-- R13: whether an echo record of an OUTPUT slot of a taken frame is missed. -/
def State.echoMissed (s : State) (c : CycleFrame) (p : Nat × Word16) : Bool :=
  match c.slots[p.1]? with
  | none => false
  | some x => decide ((s.entry p.1).direction = .output) && !(echoMatches x p.2)

/-- R13: the OUTPUT slots of a taken frame have been compared with the echo records of its cycle. -/
structure EchoesJudged (o : Outstanding) (c : CycleFrame) (s t : State) : Prop where
  judged : ∀ k w x, (k, w) ∈ o.echo → (s.entry k).direction = .output → c.slots[k]? = some x →
    let n := s.ring.echoCounts.getD k 0
    let i := (s.entry k).point
    (echoMatches x w = true → t.ring.echoCounts.getD k 0 = 0 ∧ (t.point i).degraded = false) ∧
      (echoMatches x w = false → t.ring.echoCounts.getD k 0 = min 3 (n + 1) ∧
        (t.point i).degraded = (decide (n = 2) || (s.point i).degraded))
  others : ∀ k, (∀ w, (k, w) ∉ o.echo) ∨ (s.entry k).direction ≠ .output →
    t.ring.echoCounts.getD k 0 = s.ring.echoCounts.getD k 0

/-- R32, R36: what a taken frame without attention records makes of a station entry, by whether its station is expected
and present in it. -/
def Station.watched (e : Station) (silence : Nat) (expected present : Bool) : Station :=
  match e.state with
  | .absent => e
  | .joining =>
    if e.due then e else if silence ≤ e.missed + 1 then e.released else { e with missed := e.missed + 1 }
  | .active =>
    if expected = false then e
    else if present then { e with missed := 0 }
    else if silence ≤ e.missed + 1 then { e with missed := e.missed + 1, state := .silent }
    else { e with missed := e.missed + 1 }
  | .silent => if present then { e with missed := 0, state := .active } else e

/-- R31, R33, R37 to R39: the attention area of a taken frame, by its first record when the others are empty. -/
structure AttentionTaken (c : CycleFrame) (s t : State) : Prop where
  /-- A JOIN of a new serial while a number is free. -/
  join     : ∀ r rest n, attentionOf c.attn = r :: rest → (∀ e ∈ rest, e.station = 0xFF) → r.station = 0 → r.code = 1 →
    r.length = 5 → s.ring.segment ≠ .broken → s.seg.joinEnable = true →
    let sr : Serial := BitVec.ofNat 48 (natOf r.payload)
    s.numberOf sr = none → s.lowestFree = some n →
    t.station n = { s.station n with serial := some sr, kindCode := 0, state := .joining, missed := 0, due := true } ∧
      t.seg.ackSet = s.seg.ackSet ∧ t.seg.dropFlags.getD 0 false = false
  /-- A JOINED of a station whose entry is not ABSENT, also in the last frame of its join wait. -/
  joined   : ∀ r rest n, attentionOf c.attn = r :: rest → (∀ e ∈ rest, e.station = 0xFF) → r.station.toNat = n →
    1 ≤ n → n ≤ 30 → r.code = 2 → r.length = 2 → (s.station n).state ≠ .absent →
    (t.station n).state = .active ∧ (t.station n).kindCode = fieldNat r.payload 0 2 ∧
      (t.station n).serial = (s.station n).serial ∧ t.seg.ackSet = s.seg.ackSet ||| BitVec.twoPow 32 (n - 1) ∧
      ((s.station n).state = .joining → (t.station n).missed = 0 ∧ (t.station n).due = false)
  /-- An accepted record of a station that is present. -/
  accepted : ∀ r rest n k, attentionOf c.attn = r :: rest → (∀ e ∈ rest, e.station = 0xFF) → r.station.toNat = n →
    1 ≤ n → n ≤ 30 → n ∈ s.presentIn c.slots → (s.station n).state = .active → (s.station n).attention = true →
    r.length.toNat ≤ (s.station n).maxLength → r.code ≠ 1 → r.code ≠ 2 → attentionCode r.code = some k →
    s.bound n k = true →
    t.seg.ackSet = s.seg.ackSet ||| BitVec.twoPow 32 (n - 1) ∧ t.seg.dropFlags.getD n false = false ∧
      (∀ on l, k = .jam on → s.feederBound n l = true → (t.line l).jam = on) ∧
      (∀ on l, k = .fault on → s.flueBound n l = true → (t.fgc l).trainFault = on) ∧
      (∀ on l p i, k = .cal on → s.findPoint (FgcPoint.role p) (some l) = some i → s.writtenBy i n = true →
        (t.fgc l).calFlag p = on)
  /-- A record of an ABSENT entry. -/
  dropped  : ∀ r rest n, attentionOf c.attn = r :: rest → (∀ e ∈ rest, e.station = 0xFF) → r.station.toNat = n →
    1 ≤ n → n ≤ 30 → r.code ≠ 1 → r.code ≠ 2 → (s.station n).state = .absent →
    t.station n = s.station n ∧ t.seg.ackSet = s.seg.ackSet ∧ t.seg.dropFlags.getD n false = true
  /-- No record: presence, silence and the join wait alone. -/
  watched  : (∀ e ∈ attentionOf c.attn, e.station = 0xFF) →
    t.seg.ackSet = s.seg.ackSet ∧ t.seg.dropFlags = s.seg.dropFlags ∧ ∀ n, 1 ≤ n → n ≤ 30 →
      t.station n = (s.station n).watched s.seg.silenceCount (decide (n ∈ s.expectedIn c.slots))
        (decide (n ∈ s.presentIn c.slots))

/-! ### Writes of the tables -/

/-- R3, R13: a SLOT-MAP write has replaced the entries from `start` on and nothing else, and an entry that changes
direction or point has echo count 0. -/
structure SlotsWritten (start : Nat) (es : List SlotEntry) (s t : State) : Prop where
  entries : ∀ k, k < 256 → t.ring.slotMap.getD k .unused =
    if start ≤ k ∧ k < start + es.length then es.getD (k - start) .unused else s.ring.slotMap.getD k .unused
  counts  : ∀ k, k < 256 →
    let a := s.ring.slotMap.getD k .unused
    let b := t.ring.slotMap.getD k .unused
    t.ring.echoCounts.getD k 0 = if a.direction = b.direction ∧ a.point = b.point then s.ring.echoCounts.getD k 0 else 0
  ring    : { t.ring with slotMap := s.ring.slotMap, echoCounts := s.ring.echoCounts } = s.ring
  frame   : { t with ring := s.ring, mgmt := s.mgmt } = s

/-- R43, R44: a POINTS write has given the records from `start` on their settings; an input record whose structure
changed is fresh, and one that stays what it was keeps its running state but for the level a polarity change moves; no
other input record is touched. -/
structure PointsWritten (start : Nat) (ps : List Point) (s t : State) : Prop where
  settings : ∀ j p, ps[j]? = some p →
    (t.point (start + j)).kind = p.kind ∧ (p.kind ≠ .empty → (t.point (start + j)).SameSettings p)
  fresh    : ∀ j p, ps[j]? = some p → p.kind ≠ .output → p.kind ≠ .report → startsAfresh (s.point (start + j)) p = true →
    t.point (start + j) = p
  kept     : ∀ j p, ps[j]? = some p → p.kind = .analog ∨ p.kind = .request →
    startsAfresh (s.point (start + j)) p = false →
    (t.point (start + j)).value = (s.point (start + j)).value ∧
      (t.point (start + j)).input = (s.point (start + j)).input ∧
      (t.point (start + j)).forcing = (s.point (start + j)).forcing
  others   : ∀ i, i < start ∨ start + ps.length ≤ i → (s.point i).kind ≠ .output → (s.point i).kind ≠ .report →
    t.point i = s.point i
  frame    : t.ring = s.ring ∧ t.seg = s.seg ∧ t.disp = s.disp ∧ t.clock = s.clock ∧ t.pending = s.pending

/-- R23: a STATIONS write has taken the attention fields of its records and nothing else. -/
structure StationsWritten (start : Nat) (recs : List (List Nat)) (s t : State) : Prop where
  written : ∀ j v, recs[j]? = some v →
    t.station (start + j + 1) =
      { s.station (start + j + 1) with attention := decide (at_ v 5 = 1), maxLength := min 5 (at_ v 6) }
  others  : ∀ n, n ≤ start ∨ start + recs.length < n → t.station n = s.station n
  frame   : { t with seg.stations := s.seg.stations, mgmt := s.mgmt } = s

/-- R97, R113: an EMISSION page after a write of the records from `start` on: record 0 holds the line's fields, records
1 to 6 the components'. -/
structure EmissionWritten (start : Nat) (recs : List (List Nat)) (old new : EmissionPage) : Prop where
  line   : ∀ j v, recs[j]? = some v → start + j = 0 → { new with comps := old.comps } = old.withLine v
  comp   : ∀ j v, recs[j]? = some v → start + j ≠ 0 → componentPageOf v = some (new.comps.get (componentAt (start + j)))
  others : (start ≠ 0 → { new with comps := old.comps } = old) ∧
    ∀ c, (∀ j, j < recs.length → start + j ≠ 0 → componentAt (start + j) ≠ c) → new.comps.get c = old.comps.get c

/-- R104: a DOSING page after a write of the records from `start` on. -/
structure DosingWritten (start : Nat) (recs : List (List Nat)) (old new : Three LoopPage) : Prop where
  loop   : ∀ j v, recs[j]? = some v → loopPageOf (loopAt (start + j)) v = some (new.get (loopAt (start + j)))
  others : ∀ d, (∀ j, j < recs.length → loopAt (start + j) ≠ d) → new.get d = old.get d

end Sys2Proof.Machine
end

