-- ==== Sys2Proof/WellFormed.lean ====
section
/-! DEFINITION. Which commands a sender can spell: a point number of the point table (R42), a block
identity of the schedule queue (R169), bodies and records that fit their message (R21), a KIND_DISCARD of a
kind no rule of R167 handles, a pattern byte that is neither FIXED nor STAIRCASE. -/

namespace Sys2Proof

/-- The kinds of telecontrol message the operator may send (R21, R167). -/
def operatorKinds : List Byte := [0x10, 0x11, 0x12, 0x13, 0x20]

/-- A FORCE-POINT pattern is spelt `other` only when its byte is neither 1 nor 2. -/
def ForcePattern.wellFormed : ForcePattern → Bool
  | .other b => b ≠ 1 && b ≠ 2
  | .fixed _ => true
  | .staircase _ _ _ _ => true

/-- The command can be sent. -/
def Instr.wellFormed : Instr → Bool
  | .staleTimerExpiry p => p < 192
  | .holdTimerExpiry p => p < 192
  | .staircaseStep p => p < 192
  | .schedule _ _ _ body => body.length ≤ 83
  | .cancel _ _ _ body => body.length ≤ 83
  | .kindDiscard _ _ kind => !operatorKinds.contains kind
  | .blockStart order index => order < 128 && index < 4
  | .blockEnd order index => order < 128 && index < 4
  | .writeTable _ _ _ records => records.length ≤ 233
  | .forcePoint _ pattern => pattern.wellFormed
  | .outboundPass f => f.payload.length ≤ 1500
  | .inboundPass f => f.payload.length ≤ 1500
  | .coldReset => true
  | .portSLinkDown => true
  | .portSLinkUp => true
  | .portNLinkChange _ => true
  | .enumFrameReturn _ _ _ _ => true
  | .returnTimeout => true
  | .segmentRestart => true
  | .warmReset _ => true
  | .escalationWindowExpiry => true
  | .controlPeriod _ => true
  | .permissiveDelayExpiry _ => true
  | .lineHoldExpiry _ => true
  | .burnoutEnd _ => true
  | .strokeTimeout _ => true
  | .dueTimeReached _ => true
  | .burnMinuteClose _ => true
  | .sampleInstant _ => true
  | .fgcMinuteClose _ => true
  | .saturationTimerExpiry _ _ => true
  | .abnormalSecond _ => true
  | .allocationRun _ => true
  | .bypassReleaseTimerExpiry => true
  | .indicationTimeout => true
  | .settleTimerExpiry => true
  | .linkCheck _ _ => true
  | .noticeAck _ _ _ => true
  | .resync _ _ _ => true
  | .supervisionTimerExpiry => true
  | .ackTimerExpiry => true
  | .readTable _ _ _ _ => true
  | .readPoint _ _ => true
  | .releasePoint _ => true
  | .readEvents _ => true
  | .setTimeAbsolute _ => true
  | .setTimeStep _ => true
  | .loadBudget _ _ _ _ => true
  | .start _ => true
  | .stop _ => true
  | .resume _ => true
  | .resetTrip _ => true
  | .turbineRunup => true
  | .turbineStop => true
  | .setCapSet _ _ => true
  | .setCapRelease _ => true
  | .setOverrideOn _ _ => true
  | .setOverrideOff _ => true
  | .segmentModeRun => true
  | .segmentModeConfig => true
  | .enumerate => true
  | .renumber _ _ => true
  | .lockNumberSet _ => true
  | .lockNumberClear _ => true
  | .restartSegment => true
  | .warmRestart => true
  | .readStatus _ _ => true
  | .resetNLow => true

end Sys2Proof
end

