-- ==== Sys2Proof/Certificates/Slice0/Obligations.lean ====
section
/-! DEFINITION. The statements for the provers: the rules of the manual as claims about the model, family by family.
A statement of what a command does says in which states it completes, what it leaves and what it leaves alone. -/

open Sys2Proof Sys2Proof.Machine

/-! ### The machine as a whole -/

/-- The command at the front of the queue is run with the queue's rest. -/
def Obligations.StepRunsFront : Prop :=
  ∀ (c : Instr) (rest : List Instr) (s : State),
    s.pending = c :: rest → step s = exec c { s with pending := rest }

/-- On an empty queue the part takes the step it owes, else the first timer event that has come, else one tick of 0.1
ms; the order is the model's choice (log 1). While RESET_N is low it does nothing (log 37). -/
def Obligations.IdleOrder : Prop :=
  ∀ s : State, s.pending = [] →
    (s.resetLow = true → step s = .next s) ∧
    (∀ i rest, s.resetLow = false → s.owed = i :: rest → step s = .next (State.perform { s with owed := rest } i)) ∧
    (∀ i rest, s.resetLow = false → s.owed = [] → s.dueEvents = i :: rest → step s = exec i s) ∧
    (s.resetLow = false → s.owed = [] → s.dueEvents = [] → step s = .next s.tick)

/-- A part whose point table has its 192 records, and whose waiting commands can be spelt, never stops. -/
def Obligations.ShapedStepGoes : Prop :=
  ∀ s : State, s.points.length = 192 → (∀ c ∈ s.pending, c.wellFormed = true) → Goes (step s)

/-- R188: every step keeps the event queue at 64 entries at most, in order of their run-time stamps. -/
def Obligations.QueueOrderKept : Prop :=
  ∀ s t : State, s.QueueOrdered → step s = .next t → t.QueueOrdered

/-- Every step keeps the sizes of the tables and the bounds of the queues and counts, every slot's point within 0 to
191 and no point in two slots, the echo records of a cycle of different slots, and every FIRM block within the
capability stored with it (R3, R4, R23, R27, R42, R126, R168, R169, R170, R171, R188). -/
def Obligations.ShapeKept : Prop := ∀ s t : State, s.Shaped → step s = .next t → t.Shaped

/-- R127: no line is in FEEDING or FEED-HOLD while its abnormal-operation record is ABNORMAL with the consecutive count
at its limit or the annual remaining at zero; every step keeps this. -/
def Obligations.ExhaustedLinesDoNotFeed : Prop := ∀ s t : State, s.Guarded → step s = .next t → t.Guarded

/-- The part right after reset meets the three invariants. -/
def Obligations.ResetMeetsInvariants : Prop :=
  State.reset.QueueOrdered ∧ State.reset.Shaped ∧ State.reset.Guarded

/-! ### Bytes and what they stand for -/

/-- R21, R182, section 11.1: the bytes of every management command, judged while none is in execution, are taken as
that command, which is the step the part then owes (logs 1 and 36); its code is in execution. -/
def Obligations.CommandBytesDecode : Prop :=
  ∀ (i : Instr) (code : CommandCode) (args : List Byte) (s : State), i.wellFormed = true →
    commandOf i = some (code, args) → s.mgmt.executing = none →
    s.commandComplete (commandBytes code args) = (s.during code).owe i

/-- R21, R166: a telecontrol message formed by the layout passes both checks and goes to the step of its kind, which
the part then owes (log 1), with its address pair, number and body. -/
def Obligations.MessageBytesDecode : Prop :=
  ∀ (plant unit kind number : Byte) (body : List Byte) (s : State), body.length ≤ 83 →
    s.laneMessage (messageBytes (plant, unit) kind number.toNat body) =
      ({ s with disp.discardRun := false }).owe (messageStep plant unit kind number body)

/-- R165, R168: a message of 1 to 90 bytes, cut into lane segments of 30 bytes and handed over one after another to an
IDLE buffer, is put together again as it was. Its completion puts the pairs of the page in force (R164, log 58). -/
def Obligations.LaneReassembly : Prop :=
  ∀ (m : List Byte) (s : State), 1 ≤ m.length → m.length ≤ 90 → s.disp.rx = .idle →
    ((List.range ((m.length + 29) / 30)).map fun k =>
        segmentArea 32 (decide (k = 0)) (cutSegment 30 k m).2 k (cutSegment 30 k m).1).foldl
      (fun u area => match segmentOf area with | some g => u.laneSegment g | none => u) s =
    s.messageDone.laneMessage m

/-- R21, R181, R182, R191: a command of 1 to 240 bytes, cut into mailbox segments of 48 bytes and handed over one after
another to an IDLE buffer, is judged as it was; a segment that fits no command is discarded, counted and, once for each
run of discards, logged. A response of 4 to 240 bytes is offered segment by segment, first to last, and its last
segment ends the command; the ABORTED response of a WARM reset stands before a busy answer and both before a response
not yet begun (log 9), each in one segment; with nothing to offer the area is empty. A complete command is BUSY while
another is in execution, and is judged by header and code before its arguments. The restart that a last segment brings
is owed (log 1). -/
def Obligations.MailboxSegments : Prop :=
  ∀ s : State,
    let discarded (t : State) (d : MailDiscard) : Prop :=
      t.mgmt.discardRun = true ∧ (s.mgmt.discardRun = true → t.mgmt.events = s.mgmt.events) ∧
        (s.mgmt.discardRun = false → s.mgmt.events.length < 64 → t.Logged .mgmt .mailboxDiscard d.code 0 0)
    let short (code : Byte) (answer : RespCode) : List Byte := segmentArea 50 true true 0 [code, answer.byte, 0, 0]
    let waits : Prop := s.mgmt.response = none ∨ s.mgmt.nextSegment = 0
    (∀ c : List Byte, 1 ≤ c.length → c.length ≤ 240 → s.mgmt.rx = .idle →
      ((List.range ((c.length + 47) / 48)).map fun k =>
          segmentArea 50 (decide (k = 0)) (decide (k + 1 = (c.length + 47) / 48)) 0
            ((c.drop (48 * k)).take 48)).foldl State.mailIn s =
        ({ s with mgmt.discardRun := false } : State).commandComplete c) ∧
    (∀ g : AreaSegment,
      let t := s.mailSegment g
      (s.mgmt.rx = .idle → g.first = false →
        t.mgmt.rx = .idle ∧ t.mgmt.orphan = wrap32 s.mgmt.orphan ∧ discarded t .orphan) ∧
      (∀ bytes n, s.mgmt.rx = .assembling bytes n → g.first = true → g.last = false → g.length ≤ 48 →
        t.mgmt.rx = .assembling (g.data.take g.length) 1 ∧ t.mgmt.incomplete = wrap32 s.mgmt.incomplete ∧
          discarded t .incomplete) ∧
      (∀ bytes n, s.mgmt.rx = .assembling bytes n → g.first = false →
        48 < g.length ∨ 240 < bytes.length + (g.data.take g.length).length ∨ 5 < n + 1 →
        t.mgmt.rx = (if g.last then .idle else .skipping) ∧ t.mgmt.overlong = wrap32 s.mgmt.overlong ∧
          discarded t .overlong) ∧
      (s.mgmt.rx = .skipping → g.first = false →
        t = if g.last then { s with mgmt.rx := .idle } else s)) ∧
    (∀ r, s.mgmt.response = some r → s.mgmt.nextSegment = 0 → s.mgmt.abortedCommand = none → s.mgmt.busyAnswer = none →
      let b := r.toBytes
      let n := (b.length + 47) / 48
      let t := Nat.repeat State.mailWritten n s
      4 ≤ b.length ∧ b.length ≤ 240 ∧ b.take 2 = [r.command, r.code.byte] ∧
      (∀ k, k < n → (Nat.repeat State.mailWritten k s).mailArea =
        segmentArea 50 (decide (k = 0)) (decide (k + 1 = n)) 0 ((b.drop (48 * k)).take 48)) ∧
      t.mgmt = { s.mgmt with response := none, nextSegment := 0, executing := none } ∧
      { t with mgmt := s.mgmt, owed := s.owed } = s) ∧
    (∀ r k, s.mgmt.response = some r → s.mgmt.nextSegment = k + 1 →
      s.mailArea = segmentArea 50 false (decide (r.toBytes.length ≤ 48 * (k + 2))) 0
        ((r.toBytes.drop (48 * (k + 1))).take 48)) ∧
    (waits →
      (∀ c, s.mgmt.abortedCommand = some c →
        s.mailArea = short c .aborted ∧ s.mailWritten = { s with mgmt.abortedCommand := none }) ∧
      (∀ c, s.mgmt.abortedCommand = none → s.mgmt.busyAnswer = some c →
        s.mailArea = short c .busy ∧ s.mailWritten = { s with mgmt.busyAnswer := none }) ∧
      (s.mgmt.abortedCommand = none → s.mgmt.busyAnswer = none → s.mgmt.response = none →
        s.mailArea = emptyArea 50 ∧ s.mailWritten = s)) ∧
    (∀ (code : Byte) (rest : List Byte),
      let c := code :: rest
      let d : State := { s with mgmt.executing := some code }
      let sound : Prop := 3 ≤ c.length ∧ c.length = 3 + fieldNat c 1 2
      (s.mgmt.executing ≠ none → s.commandComplete c = { s with mgmt.busyAnswer := some code }) ∧
      (s.mgmt.executing = none → ¬sound → s.commandComplete c = d.place ⟨code, .badLength, .bytes []⟩) ∧
      (s.mgmt.executing = none → sound → code = 0 ∨ 0x13 < code.toNat →
        s.commandComplete c = d.place ⟨code, .badCommand, .bytes []⟩))

/-- R21, R2: the bytes of a cycle frame whose areas have their lengths are read back as that frame. -/
def Obligations.CycleFrameLayout : Prop :=
  ∀ f : CycleFrame, f.cycle < 65536 → f.slots.length ≤ 256 → f.attn.length = 32 → f.mbox.length = 50 →
    f.lane.length = 32 → examine f.link = .cycle f

/-! ### Resets, links and the frame engine -/

/-- COLD_RESET (R19, R22, R41, R81, R111, R130, R146, R162, R180, R191): every block takes its COLD values and run time
starts from 0. With Port S UP the segment is ENUMERATING at once, with its first frame offered. That the links stand as
the ports report them, and the idle record's kind, outcome and counts, are log 2; that steps still owed fall away is
log 24. The shown fields that no rule gives a reset value are log 2 too. The fields of the CARBON loop that have no
default are 0 (log 10), and the bases in force are the default of the page (log 81). -/
def Obligations.ColdResetValues : Prop :=
  ∀ s : State,
    exec .coldReset s = .next
      (if s.ring.linkS then
        { State.reset with
          ring := { Ring.reset s.ring.linkN true with segment := .enumerating }
          seg := { Segment.reset with
            enum := { EnumRecord.reset with running := true, lastRound := 0, offer := some ⟨0, allOnes, 0⟩ } }
          pending := s.pending }
      else { State.reset with ring := Ring.reset s.ring.linkN false, pending := s.pending })

/-- WARM_RESET (R20, R41, R58, R82, R96, R112, R131, R147, R162, R180, R191): run time, plant time, the slot map, the
SEGMENT parameters, the settings of every point, the attention fields and locks of the stations with the bindings of
the locked ones, and the LINE, EMISSION, DOSING, HEADER, TURBINE and DISPATCH pages stay; the counters are 0, every
point restarts without forcing, every line is OFF, the caps but OPERATOR are gone, the minute in progress goes on
invalid, and WARM-START with its cause is the queue's first entry. The escalation window is closed for either cause
(log 56); the code of a command in execution is kept for its ABORTED response (log 9). The base that a loop shows, and
the reason of an empty latest-sample record, are 0 (log 2). The values of the kept DISPATCH page are in force (log 58),
and the bases in force stay (log 81). -/
def Obligations.WarmResetValues : Prop :=
  ∀ (cause : WarmCause) (s : State), s.Quiet →
    ∃ t, exec (.warmReset cause) s = .next t ∧ t.clock = s.clock ∧ t.pending = s.pending ∧
      t.ring.slotMap = s.ring.slotMap ∧ t.ring.counters = .zero ∧ t.ring.resume = .config ∧
      t.ring.outstanding = none ∧ t.ring.segment = (if s.ring.linkS then .enumerating else .down) ∧
      t.ring.lossRun = false ∧ t.ring.mismatchRun = false ∧ t.ring.lostInRow = 0 ∧ t.ring.takenInRow = 0 ∧
      t.ring.echoCounts = List.replicate 256 0 ∧ t.ring.collisions = List.replicate 256 false ∧
      t.ring.returnTimeout = s.ring.returnTimeout ∧ t.ring.brokenCount = s.ring.brokenCount ∧
      t.seg.stations = s.seg.stations.map Station.released ∧ t.seg.ackSet = 0 ∧
      t.seg.dropFlags = List.replicate 31 false ∧ t.seg.resetLevel = s.seg.resetLevel ∧ t.seg.window = none ∧
      t.seg.silenceCount = s.seg.silenceCount ∧ t.seg.joinEnable = s.seg.joinEnable ∧
      t.seg.enum.running = s.ring.linkS ∧
      (∀ i, let p := s.point i
        let q := t.point i
        q.SameSettings p ∧
        (p.kind ≠ .empty → q.forcing = none ∧ q.riseLatch = 0 ∧ q.fallLatch = 0 ∧ q.level = 0 ∧ q.degraded = false ∧
          q.input = .unsampled ∧ q.staleAt = none ∧ q.holdAt = none ∧ q.logFlag = false ∧ q.goodRun = 0 ∧
          q.started = false) ∧
        (p.kind = .analog ∨ p.kind = .binary ∨ p.kind = .request → q.raw = 0 ∧ q.value = 0 ∧ q.quality = .bad) ∧
        (p.kind = .output → q.quality = .good)) ∧
      (∀ l, (t.line l).state = .off ∧ (t.line l).causes = [] ∧ (t.line l).page = (s.line l).page ∧
        (t.line l).lhvEst = (s.line l).lhvEst ∧ (t.line l).lastNumber = (s.line l).lastNumber ∧
        (t.line l).record = [] ∧ (t.line l).stroke = none) ∧
      (∀ l, (t.fgc l).abn = (s.fgc l).abn ∧ (t.fgc l).table = (s.fgc l).table ∧ (t.fgc l).half = (s.fgc l).half ∧
        (t.fgc l).dayLatest = (s.fgc l).dayLatest ∧ (t.fgc l).dayPrev = (s.fgc l).dayPrev ∧
        (t.fgc l).page = (s.fgc l).page ∧ (t.fgc l).dosing = (s.fgc l).dosing ∧
        (t.fgc l).sampleAt = (s.fgc l).sampleAt ∧ (t.fgc l).basis = (s.fgc l).basis ∧
        (t.fgc l).latest = Six.all ⟨none, 0⟩ ∧
        (∀ p, (t.fgc l).calFlag p = false) ∧ (t.fgc l).loops = Three.all ⟨0, 0, 0, none, false⟩ ∧
        (t.fgc l).capAsked = none ∧ (t.fgc l).lowCloses = 0 ∧ (t.fgc l).secondAt = none ∧
        (t.fgc l).trainFault = false ∧
        (∀ m, (s.fgc l).minute = some m → ∃ n, (t.fgc l).minute = some n ∧
          (n.start, n.adjusted) = (m.start, m.adjusted) ∧ n.satAll = ⟨false, false, false⟩ ∧
          ∀ k, n.comps.get k = { m.comps.get k with forcedInvalid := true }) ∧
        ((s.fgc l).minute = none → (t.fgc l).minute = none)) ∧
      t.env.page = s.env.page ∧ t.env.result = .zero ∧ t.env.shortfall = false ∧ t.env.overFlag = false ∧
      t.env.releaseAt = none ∧
      (∀ l, (t.env.caps.get l).operator = (s.env.caps.get l).operator ∧ (t.env.caps.get l).emission = none ∧
        (t.env.caps.get l).feedLimit = none ∧ (t.env.caps.get l).bypass = none) ∧
      t.turb = Turbine.resetWith s.turb.page ∧ t.disp = Dispatch.resetWith s.disp.page ∧
      t.mgmt.events.map (fun e => (e.runTime, e.name, e.subject)) =
        [(s.runTime, .warmStart, eventWord (warmCode cause))] ∧
      t.mgmt.executing = none ∧ t.mgmt.abortedCommand = s.mgmt.executing

/-- SEGMENT_RESTART (R15, R20, R41, R47, R59, R180): the slot map, the counters and the clocks stay, the outstanding
cycle is emptied, the resume target follows the state held, unlocked station entries are freed, forcing records are
removed, log flags and good-run counts are cleared (log 57) and the lane is emptied. A segment in DOWN stays there; any
other is ENUMERATING. -/
def Obligations.SegmentRestartCourse : Prop :=
  ∀ s : State, s.Quiet →
    ∃ t, exec .segmentRestart s = .next t ∧ t.clock = s.clock ∧ t.pending = s.pending ∧
      t.ring.slotMap = s.ring.slotMap ∧ t.ring.counters = s.ring.counters ∧ t.ring.outstanding = none ∧
      t.ring.lostInRow = 0 ∧ t.ring.takenInRow = 0 ∧ t.ring.resume = s.ring.restartTarget ∧
      t.ring.segment = (if s.ring.segment = .down then .down else .enumerating) ∧
      (∀ e ∈ t.seg.stations, e.state = .absent ∧ (e.lock = false → e.serial = none)) ∧
      t.seg.ackSet = 0 ∧ (∀ i, i < s.points.length → (t.point i).forcing = none ∧ (t.point i).logFlag = false ∧
        (t.point i).goodRun = 0 ∧ (t.point i).SameSettings (s.point i)) ∧
      t.disp = { s.disp with rx := .idle, out := [] } ∧ t.turb.target = s.turb.target

/-- PORT_N_LINK_CHANGE (R1) changes no segment state; RESET_N_LOW (R22) holds the ports; ESCALATION_WINDOW_EXPIRY (R40)
closes an open window; with none open nothing happens (log 1). While RESET_N is low a command other than the rise of
RESET_N and a change of a link has no effect: R22 stops the frames at the ports; that every other command is without
effect is the model's reading of it (log 37). -/
def Obligations.PlainEvents : Prop :=
  (∀ s : State, s.Quiet →
    (∀ up, exec (.portNLinkChange up) s = .next { s with ring.linkN := up }) ∧
    exec .resetNLow s = .next { s with resetLow := true } ∧
    (∀ w, s.seg.window = some w →
      exec .escalationWindowExpiry s = .next { s.reach w with seg.window := none }) ∧
    (s.seg.window = none → exec .escalationWindowExpiry s = .next s)) ∧
  (∀ (i : Instr) (s : State), s.resetLow = true → i.wellFormed = true → i ≠ .coldReset → i ≠ .portSLinkUp →
    i ≠ .portSLinkDown → (∀ up, i ≠ .portNLinkChange up) → exec i s = .next s)

/-- R1, R15, R24: when Port S goes DOWN the segment becomes DOWN in any state, the outstanding cycle ends without being
counted as lost, an ENUM frame in flight is abandoned, both consecutive counts are 0, and the resume target is kept, or
taken from the state BROKEN was entered from. When it comes UP, from DOWN the segment is ENUMERATING, the resume target
unchanged, and a FULL run begins whose first frame carries the full-run marker; in any other state only the link is
noted. That a BROKEN segment resumes to the state BROKEN was entered from is log 17; that the outcome of the last run
stays while the new run goes on, and that its first frame is not counted in the rounds, is log 31. -/
def Obligations.PortSLinkChanges : Prop :=
  ∀ s : State, s.Quiet →
    (∃ t, exec .portSLinkDown s = .next t ∧
      t.ring = { s.ring with
        linkS := false, segment := .down, outstanding := none, flight := none, lostInRow := 0, takenInRow := 0
        resume := if s.ring.segment = .broken then s.ring.brokenFrom else s.ring.resume } ∧
      t.clock = s.clock ∧ t.turb = s.turb ∧ t.disp = s.disp ∧ t.pending = s.pending ∧ t.env.page = s.env.page) ∧
    (s.ring.segment ≠ .down → exec .portSLinkUp s = .next { s with ring.linkS := true }) ∧
    (s.ring.segment = .down →
      ∃ t, exec .portSLinkUp s = .next t ∧
        t.ring = { s.ring with
          linkS := true, segment := .enumerating, outstanding := none, flight := none, lostInRow := 0
          takenInRow := 0 } ∧
        t.seg = { s.seg with enum :=
          { s.seg.enum with
            running := true, kind := .full, lastRound := (s.seg.enum.lastRound + 1) % 256, rounds := 0, lost := 0
            winner := none, awaiting := none, numbered := 0, exhausted := false
            offer := some ⟨(s.seg.enum.lastRound + 1) % 256, allOnes, 0⟩ } } ∧
        t.clock = s.clock ∧ t.turb = s.turb ∧ t.disp = s.disp ∧ t.pending = s.pending)

/-- OUTBOUND_PASS of a sound cycle frame in RUN, CONFIG and BROKEN (R4, R7, R8, R40, R48, R181): a cycle still
outstanding is lost as LATE; the frame then leaves Port S with the part's writes in it, its cycle is outstanding with
the return timer started, and the ack set is cleared; its requests are sampled, its mailbox segment handed on and its
reset-request flag compared. With nothing outstanding no counter, consecutive count or segment state moves. The model's
choices: the flags byte and the bytes beyond the areas go as they came (log 40), outputs are written before requests
are read (log 41), a forced output shows its word outside RUN too (log 23), CYCLE-LOST gives LATE as 2 (log 16) and has
subject 0 (log 53), the return timer keeps its expiry (log 63), the frame last sent out of each port is kept (log 48),
and a restart it calls for is owed (log 1). -/
def Obligations.ForwardsSoundFrame : Prop :=
  ∀ (f : LinkFrame) (c : CycleFrame) (s : State), s.Quiet → s.ring.linkN = true → examine f = .cycle c →
    s.ring.segment ≠ .down → s.ring.segment ≠ .enumerating →
    let v := s.endLate
    (s.ring.outstanding = none → v = s) ∧
    (∀ o, s.ring.outstanding = some o →
      v.ring = { ({ s.ring with outstanding := none } : Ring).lostOne with
        counters := { s.ring.counters with lostLate := wrap32 s.ring.counters.lostLate } } ∧
      v.seg = s.seg ∧ v.disp = s.disp ∧ v.turb = s.turb ∧ v.clock = s.clock ∧
      (s.ring.lossRun = false → s.mgmt.events.length < 64 → v.Logged .ring .cycleLost 0 2 o.cycle)) ∧
    ∃ t, exec (.outboundPass f) s = .next t ∧
      t.ring = { v.ring with
        outstanding := some ⟨c.cycle, c.slots.length, s.runTime, s.clock.tenths + s.ring.returnTimeout,
          v.echoRecords c.slots⟩
        sentS := some (CycleFrame.link { c with
          ack := s.seg.ackSet
          serial := (s.assignment.map (·.2)).getD 0
          number := BitVec.ofNat 8 ((s.assignment.map (·.1)).getD 0)
          slots := v.writeOutputs c.slots
          attn := emptyAttention
          lane := s.laneArea }) } ∧
      t.seg = { s.seg with
        ackSet := 0, stations := s.assignmentSent.seg.stations, resetLevel := t.seg.resetLevel
        window := t.seg.window } ∧
      t.disp = s.laneWritten.disp ∧ t.clock = s.clock ∧ t.pending = s.pending ∧
      (s.Shaped → RequestsTaken c s t) ∧ MailAs (s.mailIn c.mbox) t ∧ ResetFlagTaken (c.flags.getLsbD 0) s t

/-- OUTBOUND_PASS of a sound cycle frame in DOWN and ENUMERATING (R1, R5, R18, R40, R48, R181): no part of it goes
south, no cycle becomes outstanding and no count moves; it goes back north with its REPORT slots, flags and mailbox
area written and the rest as the DCS sent it, bit 0 of the flags among it (log 40); its requests are sampled, its
mailbox segment handed on and its reset-request flag compared. In ENUMERATING it lets the offered ENUM frame go south,
whose return timer starts, when none is in flight. While Port N is DOWN nothing is received there. The frames sent are
kept (log 48), the return timer keeps its expiry (log 63), and a restart the frame calls for is owed (log 1). -/
def Obligations.TurnsBackSoundFrame : Prop :=
  ∀ (f : LinkFrame) (s : State), s.Quiet →
    (s.ring.linkN = false → exec (.outboundPass f) s = .next s) ∧
    (∀ c, s.ring.linkN = true → examine f = .cycle c → s.ring.segment = .down ∨ s.ring.segment = .enumerating →
      s.ring.outstanding = none →
      let mail := s.mailIn c.mbox
      ∃ t back, exec (.outboundPass f) s = .next t ∧ WrittenNorth c back s t ∧ back.mbox = mail.mailArea ∧
        (s.ring.segment = .down → t.ring = { s.ring with sentN := some (CycleFrame.link back) }) ∧
        (∀ x, s.ring.segment = .enumerating → s.ring.flight = none → s.seg.enum.offer = some x →
          t.ring = { s.ring with
            sentN := some (CycleFrame.link back), sentS := some x.link
            flight := some ⟨x, s.clock.tenths + s.ring.returnTimeout⟩ } ∧
          t.seg.enum = { s.seg.enum with offer := none }) ∧
        (s.ring.segment = .enumerating → s.ring.flight ≠ none ∨ s.seg.enum.offer = none →
          t.ring = { s.ring with sentN := some (CycleFrame.link back) } ∧ t.seg.enum = s.seg.enum) ∧
        (s.Shaped → RequestsTaken c s t) ∧ MailAs mail.mailWritten t ∧ ResetFlagTaken (c.flags.getLsbD 0) s t ∧
        t.seg.stations = s.seg.stations ∧ t.seg.ackSet = s.seg.ackSet ∧ t.clock = s.clock ∧ t.disp = s.disp ∧
        t.pending = s.pending)

/-- R2, R6, R9, R18, R25: a foreign frame is counted and discarded. A damaged cycle frame from Port N is counted and
forwarded unchanged, in DOWN and ENUMERATING northward with nothing lost; one from Port S is counted and forwarded
north unchanged, and the outstanding cycle goes on. An ENUM frame on Port N, sound or damaged, is discarded and counted
as damaged outbound. On Port S a sound ENUM frame is handed over in ENUMERATING, as ENUM_FRAME_RETURN with its fields,
and elsewhere discarded and counted as damaged inbound; a damaged one is discarded and counted, and in ENUMERATING the
frame in flight is reported lost: it is offered again, or the run ends INCOMPLETE at the eighth loss in a row. While a
port's link is DOWN nothing is received there. That a frame whose link check fails, or whose first byte is neither 0x01
nor 0x02, is handled as a damaged cycle frame is the model's reading (log 22), as is that every ENUM frame on Port N is
discarded (log 40) and that a frame of another protocol type is foreign whatever its link check (log 52); the frames
sent are kept (log 48), the answer's three bytes are log 59, and the missed count and due flag of a released entry log
30. -/
def Obligations.UnsoundFrames : Prop :=
  ∀ (f : LinkFrame) (s : State), s.Quiet →
    (s.ring.linkN = false → exec (.outboundPass f) s = .next s) ∧
    (s.ring.linkS = false → exec (.inboundPass f) s = .next s) ∧
    (s.ring.linkN = true → examine f = .foreign → exec (.outboundPass f) s = .next s.countForeign) ∧
    (s.ring.linkS = true → examine f = .foreign → exec (.inboundPass f) s = .next s.countForeign) ∧
    (s.ring.linkN = true → examine f = .damaged → s.ring.outstanding = none →
      s.ring.segment = .down ∨ s.ring.segment = .enumerating →
      exec (.outboundPass f) s = .next { s.countDamagedOut with ring.sentN := some f }) ∧
    (s.ring.linkS = true → examine f = .damaged →
      exec (.inboundPass f) s = .next (s.countDamagedIn.sendNorth f)) ∧
    (s.ring.linkN = true → (∃ r, examine f = .enum r) ∨ examine f = .damagedEnum →
      exec (.outboundPass f) s = .next s.countDamagedOut) ∧
    (∀ r, s.ring.linkS = true → examine f = .enum r →
      exec (.inboundPass f) s =
        if s.ring.segment = .enumerating then
          exec (.enumFrameReturn (BitVec.ofNat 8 r.round) r.arbitration r.confirmSerial r.confirmNumber) s
        else .next s.countDamagedIn) ∧
    (s.ring.linkS = true → examine f = .damagedEnum →
      let u := s.countDamagedIn
      let e := s.seg.enum
      (s.ring.segment ≠ .enumerating ∨ s.ring.flight = none → exec (.inboundPass f) s = .next u) ∧
      (∀ x, s.ring.segment = .enumerating → s.ring.flight = some x →
        (e.running = false → exec (.inboundPass f) s = .next { u with ring.flight := none }) ∧
        (e.running = true → e.lost + 1 < 8 →
          exec (.inboundPass f) s = .next
            { u with ring.flight := none, seg.enum := { e with lost := e.lost + 1, offer := some x.carry } }) ∧
        (e.running = true → 8 ≤ e.lost + 1 → s.Shaped →
          ∃ t, exec (.inboundPass f) s = .next t ∧ t.clock = s.clock ∧ EndedIncomplete u t)))

/-- INBOUND_PASS of a frame whose cycle number and slot count are those of the outstanding cycle (R9, R10, R14): the
record is emptied, one cycle counts as taken, and the 10th in a row brings the segment back from BROKEN; its INPUT
slots are sampled or flagged as collisions (R11), its OUTPUT slots are compared with their echo records (R13),
presence, join waits and attention records are taken (R31 to R33, R36 to R39), and its lane segment is handed on
(R165). What the samples bring to the lines, the flue gas units, the allocator and the turbine is what they bring one
after another in the order of the slots (log 82), where no echo, attention record or return from BROKEN brings more. A
telecontrol message that the lane segment completes, a restart that the last response segment calls for and an
allocation run that a sample calls for are owed and not taken in the event (logs 1 and 36). The frame goes north with
its REPORT slots, flags and mailbox area written and the rest as it came, or, while Port N is DOWN, is dropped there
(R1). The order of these within the frame is log 41, the judgement on the slot map as it stands log 54; bit 0 of the
flags is kept (log 40), and the missed count and due flag of a released entry, and the drop flag after a JOIN, are log
30. The frame sent is kept (log 48), and an echo moves the degraded flag of whatever record its slot names (log 89). -/
def Obligations.TakesMatchingCycle : Prop :=
  ∀ (f : LinkFrame) (c : CycleFrame) (o : Outstanding) (s : State), s.Quiet → s.ring.linkS = true →
    examine f = .cycle c → s.ring.outstanding = some o → c.cycle = o.cycle → c.slots.length = o.slots →
    ∃ t back, exec (.inboundPass f) s = .next t ∧
      t.ring = { s.ring with
        outstanding := none, lostInRow := 0, takenInRow := s.ring.takenInRow + 1, lossRun := false
        mismatchRun := false, echoCounts := t.ring.echoCounts, collisions := t.ring.collisions
        segment := if s.ring.segment = .broken ∧ 10 ≤ s.ring.takenInRow + 1 then s.ring.brokenFrom.segment
          else s.ring.segment
        counters := { s.ring.counters with
          taken := wrap32 s.ring.counters.taken
          collisions := Nat.repeat wrap32 (c.slots.zipIdx.filter fun p => s.collides p.2 p.1).length
            s.ring.counters.collisions
          echoMismatches := Nat.repeat wrap32 (o.echo.filter fun p => s.echoMissed c p).length
            s.ring.counters.echoMismatches }
        sentN := if s.ring.linkN then some (CycleFrame.link back) else s.ring.sentN } ∧
      WrittenNorth c back s t ∧ back.mbox = s.mailArea ∧ MailAs s.mailWritten t ∧
      (s.Shaped → InputsTaken c s t ∧ EchoesJudged o c s t ∧ AttentionTaken c s t) ∧
      ((∀ e ∈ attentionOf c.attn, e.station = 0xFF) → o.echo = [] → s.ring.segment ≠ .broken →
        let v := ({ s with ring.outstanding := none } : State).takeInputs c.slots
        t.lines = v.lines ∧ t.fgcs = v.fgcs ∧ t.env = v.env ∧ t.turb = v.turb) ∧
      t.disp = (s.laneIn c.lane).disp ∧ (∀ i ∈ (s.laneIn c.lane).owed, i ∈ t.owed) ∧
      t.clock = s.clock ∧ t.pending = s.pending

/-- INBOUND_PASS of a sound cycle frame that does not match (R9, R12): it goes north unchanged, it counts as a
mismatch, the outstanding cycle goes on, and no block is handed anything. The first mismatch of a run is logged as
CYCLE-MISMATCH with the cycle number found and the one outstanding, 0xFFFF when there is none; the others of the run
are not. Its subject 0 is log 53, and the frame sent is kept (log 48). -/
def Obligations.MismatchHandsNothing : Prop :=
  ∀ (f : LinkFrame) (c : CycleFrame) (s : State), s.Quiet → s.ring.linkS = true → examine f = .cycle c →
    (∀ o, s.ring.outstanding = some o → c.cycle ≠ o.cycle ∨ c.slots.length ≠ o.slots) →
    let wanted : Nat := match s.ring.outstanding with
      | some o => o.cycle
      | none => 0xFFFF
    ∃ t, exec (.inboundPass f) s = .next t ∧
      t.ring = { s.ring with
        mismatchRun := true
        counters := { s.ring.counters with mismatches := wrap32 s.ring.counters.mismatches }
        sentN := if s.ring.linkN then some f else s.ring.sentN } ∧
      { t with ring := s.ring, mgmt := s.mgmt } = s ∧
      ({ t.mgmt with events := s.mgmt.events, lost := s.mgmt.lost } : Mgmt) = s.mgmt ∧
      (s.ring.mismatchRun = true → t.mgmt = s.mgmt) ∧
      (s.ring.mismatchRun = false → s.mgmt.events.length < 64 → t.Logged .ring .cycleMismatch 0 c.cycle wanted)

/-- R6, R7, R8, R12, R14, R18, R25: a damaged frame from Port N in RUN, CONFIG or BROKEN goes south unchanged and its
cycle counts at once as lost with cause OUTBOUND-DAMAGED, after a cycle still outstanding has been lost as LATE; at the
return timeout the outstanding cycle is lost with cause RETURN-TIMEOUT; no echo count moves, the first loss of a run is
logged, and the segment breaks when the lost cycles in a row reach the broken count. At the return timeout of an ENUM
frame in flight the frame is offered again, or the run ends INCOMPLETE at the eighth loss in a row, its assignments
released. A RETURN_TIMEOUT with nothing outstanding and no ENUM frame in flight does nothing (log 1). The causes are
coded by log 16; which frames are damaged cycle frames is log 22, their cycle number log 21, the answer's three bytes
log 59, the subject 0 of CYCLE-LOST log 53, the missed count and due flag of a released entry log 30, the frame sent
log 48. -/
def Obligations.CyclesAreLost : Prop :=
  ∀ s : State, s.Quiet →
    let forwards := s.ring.segment = .run ∨ s.ring.segment = .config ∨ s.ring.segment = .broken
    let framed (t : State) : Prop := t.seg = s.seg ∧ t.turb = s.turb ∧ t.disp = s.disp ∧ t.pending = s.pending
    let logs (t : State) (cause cycle : Nat) : Prop :=
      s.ring.lossRun = false → s.mgmt.events.length < 64 → t.Logged .ring .cycleLost 0 cause cycle
    let closed : Ring := { s.ring with outstanding := none }
    (∀ f, s.ring.linkN = true → examine f = .damaged → forwards →
      (s.ring.outstanding = none →
        ∃ t, exec (.outboundPass f) s = .next t ∧ framed t ∧ t.clock = s.clock ∧
          t.ring = { s.ring.lostOne with
            sentS := some f
            counters := { s.ring.counters with
              damagedOutbound := wrap32 s.ring.counters.damagedOutbound
              lostDamaged := wrap32 s.ring.counters.lostDamaged } } ∧
          logs t 3 (damagedCycleOf f)) ∧
      (∀ o, s.ring.outstanding = some o →
        ∃ t, exec (.outboundPass f) s = .next t ∧ framed t ∧ t.clock = s.clock ∧
          t.ring = { closed.lostOne.lostOne with
            sentS := some f
            counters := { s.ring.counters with
              damagedOutbound := wrap32 s.ring.counters.damagedOutbound
              lostLate := wrap32 s.ring.counters.lostLate
              lostDamaged := wrap32 s.ring.counters.lostDamaged } } ∧
          logs t 2 o.cycle)) ∧
    (∀ o, s.ring.outstanding = some o → forwards →
      ∃ t, exec .returnTimeout s = .next t ∧ framed t ∧ t.clock = (s.reachTenths o.expiry).clock ∧
        t.ring = { closed.lostOne with
          counters := { s.ring.counters with lostTimeout := wrap32 s.ring.counters.lostTimeout } } ∧
        logs t 1 o.cycle) ∧
    (∀ x, s.ring.outstanding = none → s.ring.flight = some x →
      let u := s.reachTenths x.expiry
      let e := s.seg.enum
      (e.running = false → exec .returnTimeout s = .next { u with ring.flight := none }) ∧
      (e.running = true → e.lost + 1 < 8 →
        exec .returnTimeout s = .next
          { u with ring.flight := none, seg.enum := { e with lost := e.lost + 1, offer := some x.carry } }) ∧
      (e.running = true → 8 ≤ e.lost + 1 → s.Shaped →
        ∃ t, exec .returnTimeout s = .next t ∧ t.clock = u.clock ∧ EndedIncomplete s t)) ∧
    (s.ring.outstanding = none → s.ring.flight = none → exec .returnTimeout s = .next s)

/-- ENUM_FRAME_RETURN (R18, R25 to R28) in ENUMERATING with Port S UP: with no frame in flight, or one of another
round, it is discarded; a return whose arbitration is idle with nothing carried ends the run COMPLETE; a return with a
new serial makes the lowest free entry JOINING for it, and the next frame offered carries the serial and that number.
An assignment awaiting is confirmed and its entry ACTIVE, superseded by the same assignment carried again, or missed
and its entry released. With no number left the run ends EXHAUSTED, and with the winner of the 120th round it ends
INCOMPLETE, the winner's entry released. A waiting ENUMERATE is answered at the end of its run, with three bytes of
data (log 59). That EXHAUSTED is preferred to COMPLETE and which rounds count is log 31, the subjects and values no
rule names are log 53, the missed count and due flag of a released entry log 30. -/
def Obligations.EnumReturnCourse : Prop :=
  ∀ (round cn : Byte) (arb cs : Serial) (s : State), s.Quiet → s.ring.linkS = true →
    s.ring.segment = .enumerating →
    (s.ring.flight = none → exec (.enumFrameReturn round arb cs cn) s = .next s) ∧
    (∀ f, s.ring.flight = some f → f.carry.round ≠ round.toNat →
      exec (.enumFrameReturn round arb cs cn) s = .next s) ∧
    (∀ f, s.ring.flight = some f → f.carry.round = round.toNat → f.carry.number = 0 → s.seg.enum.running = true →
      s.seg.enum.awaiting = none → s.seg.enum.exhausted = false → arb = allOnes →
      ∃ t, exec (.enumFrameReturn round arb cs cn) s = .next t ∧ t.ring.flight = none ∧
        t.seg.enum.running = false ∧ t.seg.enum.outcome = some .complete ∧ t.ring.segment ≠ .enumerating ∧
        t.seg.stations = s.seg.stations ∧ t.clock = s.clock ∧
        (s.enumerateWaits = true →
          t.Answered .enumerate .done [1, BitVec.ofNat 8 s.seg.enum.numbered, BitVec.ofNat 8 t.activeCount])) ∧
    (∀ f sr n, s.ring.flight = some f → f.carry.round = round.toNat → s.seg.enum.running = true →
      s.seg.enum.awaiting = some (sr, n) → arb = allOnes → s.seg.enum.rounds < 120 → s.Shaped →
      ∃ t, exec (.enumFrameReturn round arb cs cn) s = .next t ∧ t.ring.flight = none ∧ t.clock = s.clock ∧
        (∀ m, m ≠ n → t.station m = s.station m) ∧
        (cs = sr ∧ cn.toNat = n → t.seg.enum.numbered = s.seg.enum.numbered + 1 ∧
          (n ≤ 30 → t.station n = { s.station n with state := .active, missed := 0 })) ∧
        (¬(cs = sr ∧ cn.toNat = n) → t.seg.enum.numbered = s.seg.enum.numbered ∧
          (f.carry.serial = sr ∧ f.carry.number = n →
            t.station n = s.station n ∧ t.seg.enum.awaiting = some (sr, n) ∧ t.seg.enum.running = true ∧
              t.seg.enum.offer = some ⟨(s.seg.enum.lastRound + 1) % 256, 0, 0⟩) ∧
          (¬(f.carry.serial = sr ∧ f.carry.number = n) →
            t.station n = (s.station n).released ∧
              (s.mgmt.events.length < 64 → t.Logged .station .stationUnconfirmed n f.carry.round 0))) ∧
        (f.carry.number ≠ 0 →
          t.seg.enum.awaiting = some (f.carry.serial, f.carry.number) ∧ t.seg.enum.running = true) ∧
        (f.carry.number = 0 → t.seg.enum.running = false ∧
          t.seg.enum.outcome = some (if s.seg.enum.exhausted then .exhausted else .complete))) ∧
    (∀ f, s.ring.flight = some f → f.carry.round = round.toNat → f.carry.number = 0 → s.seg.enum.running = true →
      s.seg.enum.awaiting = none → s.seg.enum.exhausted = false → arb.toNat < 2 ^ 40 → s.numberOf arb = none →
      s.lowestFree = none →
      ∃ t, exec (.enumFrameReturn round arb cs cn) s = .next t ∧ t.seg.enum.running = false ∧
        t.seg.enum.outcome = some .exhausted ∧ t.ring.segment ≠ .enumerating ∧ t.seg.stations = s.seg.stations ∧
        t.clock = s.clock ∧
        (s.mgmt.events.length < 64 → t.Logged .station .numbersExhausted 0 0 0) ∧
        (s.enumerateWaits = true →
          t.Answered .enumerate .done [2, BitVec.ofNat 8 s.seg.enum.numbered, BitVec.ofNat 8 t.activeCount])) ∧
    (∀ f n, s.ring.flight = some f → f.carry.round = round.toNat → f.carry.number = 0 → s.seg.enum.running = true →
      s.seg.enum.awaiting = none → s.seg.enum.exhausted = false → arb.toNat < 2 ^ 40 → s.numberOf arb = none →
      s.lowestFree = some n → 120 ≤ s.seg.enum.rounds →
      ∃ t, exec (.enumFrameReturn round arb cs cn) s = .next t ∧ t.seg.enum.running = false ∧
        t.seg.enum.outcome = some .incomplete ∧ t.ring.segment ≠ .enumerating ∧
        t.station n = (s.station n).released ∧ (∀ m, m ≠ n → t.station m = s.station m) ∧ t.clock = s.clock ∧
        (s.enumerateWaits = true →
          t.Answered .enumerate .done [3, BitVec.ofNat 8 s.seg.enum.numbered, BitVec.ofNat 8 t.activeCount])) ∧
    (∀ f n, s.ring.flight = some f → f.carry.round = round.toNat → f.carry.number = 0 → s.seg.enum.running = true →
      s.seg.enum.awaiting = none → s.seg.enum.exhausted = false → arb.toNat < 2 ^ 40 → s.numberOf arb = none →
      s.lowestFree = some n → s.seg.enum.rounds < 120 →
      ∃ t, exec (.enumFrameReturn round arb cs cn) s = .next t ∧ t.ring = { s.ring with flight := none } ∧
        t.station n = (s.station n).join arb 0 false ∧ (∀ m, m ≠ n → t.station m = s.station m) ∧
        t.seg.enum.offer = some ⟨(s.seg.enum.lastRound + 1) % 256, arb, n⟩ ∧ t.clock = s.clock ∧
        t.lines = s.lines ∧ t.mgmt = s.mgmt)

/-! ### Station numbers and segment modes -/

/-- RENUMBER (R34): its checks in their order, each with its refusal; when all pass, the new entry is JOINING with the
old one's serial and kind code and its assignment due, the old entry is freed, STATION-RENUMBERED is logged, and no
other entry changes. LOCK-NUMBER (R35), in every segment state: a number outside 1 to 30 and an action byte outside the
two are refused; setting needs a serial; clearing an ABSENT entry frees it, and otherwise leaves the binding; nothing
else changes. BAD-STATE carries no data byte here (log 8), the second value of STATION-RENUMBERED is 0 (log 53), a
freed entry has missed count 0 and no assignment due (log 30), the number is judged before the action byte, and a new
entry's lock before its state (log 61). -/
def Obligations.StationNumberCommands : Prop :=
  (∀ (old new : Byte) (s : State), s.Free →
    let d := s.during .renumber
    let a := s.station old.toNat
    let b := s.station new.toNat
    let inRange (x : Byte) : Prop := 1 ≤ x.toNat ∧ x.toNat ≤ 30
    (s.ring.segment ≠ .config → exec (.renumber old new) s = .next (d.answer .renumber .badState)) ∧
    (s.ring.segment = .config → ¬(inRange old ∧ inRange new) →
      exec (.renumber old new) s = .next (d.answer .renumber .badIndex)) ∧
    (s.ring.segment = .config → inRange old → inRange new →
      (old = new → exec (.renumber old new) s = .next (d.answer .renumber .badValue)) ∧
      (old ≠ new → a.lock = true → exec (.renumber old new) s = .next (d.answer .renumber .locked)) ∧
      (old ≠ new → a.lock = false → a.state ≠ .active →
        exec (.renumber old new) s = .next (d.answer .renumber .badState)) ∧
      (old ≠ new → a.lock = false → a.state = .active → b.lock = true →
        exec (.renumber old new) s = .next (d.answer .renumber .locked)) ∧
      (old ≠ new → a.lock = false → a.state = .active → b.lock = false → b.state ≠ .absent →
        exec (.renumber old new) s = .next (d.answer .renumber .badState)) ∧
      (∀ sr, old ≠ new → a.lock = false → a.state = .active → a.serial = some sr → b.lock = false →
        b.state = .absent → s.seg.stations.length = 30 →
        ∃ t, exec (.renumber old new) s = .next t ∧
          t.station new.toNat =
            { b with serial := some sr, kindCode := a.kindCode, state := .joining, missed := 0, due := true } ∧
          (t.station old.toNat).state = .absent ∧ (t.station old.toNat).serial = none ∧
          (t.station old.toNat).lock = false ∧
          (∀ n, n ≠ old.toNat → n ≠ new.toNat → t.station n = s.station n) ∧
          t.Answered .renumber .done [] ∧
          t.mgmt.events = (s.log .station .stationRenumbered new.toNat old.toNat).mgmt.events ∧
          { t with seg.stations := s.seg.stations, mgmt := s.mgmt } = s))) ∧
  (∀ (n : Byte) (s : State), s.Free →
    let d := s.during .lockNumber
    let e := s.station n.toNat
    (¬(1 ≤ n.toNat ∧ n.toNat ≤ 30) →
      exec (.lockNumberSet n) s = .next (d.answer .lockNumber .badIndex) ∧
        exec (.lockNumberClear n) s = .next (d.answer .lockNumber .badIndex)) ∧
    (1 ≤ n.toNat → n.toNat ≤ 30 →
      (e.serial = none → exec (.lockNumberSet n) s = .next (d.answer .lockNumber .badState)) ∧
      (e.serial ≠ none →
        exec (.lockNumberSet n) s = .next ((d.setStation n.toNat { e with lock := true }).answer .lockNumber .done)) ∧
      (e.state = .absent →
        exec (.lockNumberClear n) s = .next
          ((d.setStation n.toNat { e with lock := false, serial := none, kindCode := 0, missed := 0, due := false }).answer
            .lockNumber .done)) ∧
      (e.state ≠ .absent →
        exec (.lockNumberClear n) s = .next
          ((d.setStation n.toNat { e with lock := false }).answer .lockNumber .done)))) ∧
  (∀ n b : Byte, 1 ≤ n.toNat → n.toNat ≤ 30 → b ≠ 0 → b ≠ 1 → parseCommand 0x10 [n, b] = .refuse .badValue)

/-- SEGMENT-MODE (R16, R17): RUN from CONFIG validates the slot map and enters RUN, or names the first failure; CONFIG
from RUN needs both lines OFF and the turbine not LOADED; either command in its own state is answered DONE and changes
nothing; in DOWN, ENUMERATING and BROKEN both are refused with reason 7. With both lines not OFF the refusal names line
1 (log 49). -/
def Obligations.SegmentModeActs : Prop :=
  ∀ s : State, s.Free →
    let d := s.during .segmentMode
    (s.ring.segment = .config → s.validate = none →
      ∃ t, exec .segmentModeRun s = .next t ∧ t.ring = { s.ring with segment := .run, resume := .run } ∧
        t.Answered .segmentMode .done [] ∧ t.seg = s.seg ∧ t.clock = s.clock ∧ t.turb = s.turb ∧ t.disp = s.disp) ∧
    (∀ slot reason, s.ring.segment = .config → s.validate = some (slot, reason) →
      exec .segmentModeRun s = .next (d.answer .segmentMode .badState (bytesOf 2 slot ++ bytesOf 1 reason))) ∧
    (s.ring.segment = .run → exec .segmentModeRun s = .next (d.answer .segmentMode .done)) ∧
    (s.ring.segment = .run → (s.line .one).state = .off → (s.line .two).state = .off → s.turb.state ≠ .loaded →
      ∃ t, exec .segmentModeConfig s = .next t ∧ t.ring = { s.ring with segment := .config, resume := .config } ∧
        t.Answered .segmentMode .done [] ∧ t.lines = s.lines ∧ t.seg = s.seg ∧ t.clock = s.clock ∧
        t.turb = s.turb ∧ t.disp = s.disp) ∧
    (s.ring.segment = .run → (s.line .one).state ≠ .off →
      exec .segmentModeConfig s = .next (d.answer .segmentMode .badState [0, 1, 5])) ∧
    (s.ring.segment = .run → (s.line .one).state = .off → (s.line .two).state ≠ .off →
      exec .segmentModeConfig s = .next (d.answer .segmentMode .badState [0, 2, 5])) ∧
    (s.ring.segment = .run → (s.line .one).state = .off → (s.line .two).state = .off → s.turb.state = .loaded →
      exec .segmentModeConfig s = .next (d.answer .segmentMode .badState [0xFF, 0xFF, 6])) ∧
    (s.ring.segment = .config → exec .segmentModeConfig s = .next (d.answer .segmentMode .done)) ∧
    (s.ring.segment = .down ∨ s.ring.segment = .enumerating ∨ s.ring.segment = .broken →
      exec .segmentModeRun s = .next (d.answer .segmentMode .badState [0xFF, 0xFF, 7]) ∧
        exec .segmentModeConfig s = .next (d.answer .segmentMode .badState [0xFF, 0xFF, 7]))

/-- ENUMERATE (R15, R24, R30): taken in CONFIG, it begins an ADDED run whose first frame carries no marker, the
outstanding cycle is emptied without being lost, and the command stays in execution without an answer; elsewhere it is
refused with BAD-STATE, without a data byte (log 8). The resume target of a run from CONFIG is CONFIG (log 17).
RESTART-SEGMENT and WARM-RESTART (R187): answered DONE in every state, and nothing else changes; the restart is owed
once the response's single segment has been written, when the command's execution ends. What is owed is the step the
part then takes (log 1). -/
def Obligations.EnumerateAndRestartCommands : Prop :=
  (∀ s : State, s.Free →
    (s.ring.segment = .config →
      ∃ t, exec .enumerate s = .next t ∧
        t.ring = { s.ring with
          segment := .enumerating, resume := .config, outstanding := none, flight := none, lostInRow := 0
          takenInRow := 0 } ∧
        t.seg.enum.running = true ∧ t.seg.enum.kind = .added ∧
        t.seg.enum.offer = some ⟨(s.seg.enum.lastRound + 1) % 256, 0, 0⟩ ∧ t.seg.stations = s.seg.stations ∧
        t.mgmt.executing = some CommandCode.enumerate.byte ∧ t.mgmt.response = s.mgmt.response ∧
        t.clock = s.clock ∧ t.turb = s.turb ∧ t.disp = s.disp) ∧
    (s.ring.segment ≠ .config → exec .enumerate s = .next ((s.during .enumerate).answer .enumerate .badState))) ∧
  (∀ s : State, s.Free →
    let r := (s.during .restartSegment).answer .restartSegment .done
    let w := (s.during .warmRestart).answer .warmRestart .done
    exec .restartSegment s = .next r ∧ exec .warmRestart s = .next w ∧
      (s.mgmt.abortedCommand = none → s.mgmt.busyAnswer = none →
        r.mailWritten.owed = [.segmentRestart] ∧ r.mailWritten.mgmt.executing = none ∧
          w.mailWritten.owed = [.warmReset .command] ∧ w.mailWritten.mgmt.executing = none))

/-! ### Points -/

/-- R45, R47, R55: at its stale timer a FRESH input or request point goes by its policy: with HOLD-LAST it is HOLDING
and HELD with its hold timer started, with FIXED it presents the substitute value SUBSTITUTED, and with NONE it is
FAILED and BAD; the last two are logged as POINT-SUBSTITUTED and POINT-BAD with reason STALE while the log flag is
clear. At its hold timer it is FAILED and BAD. At its step timer a staircase goes one level on, or back to 0 after the
last, and the timer starts again; a FIXED forcing has no steps. Without the timer nothing happens (log 1). The event
stands before what the consumers log (log 60). A number above 191 names no point (R42), and the model stops there,
which is its own choice (log 25). -/
def Obligations.PointTimers : Prop :=
  ∀ (i : Nat) (s : State), s.Quiet → i < 192 → s.points.length = 192 →
    let p := s.point i
    let sampled : Prop := p.kind = .analog ∨ p.kind = .binary ∨ p.kind = .request
    let framed (w : Nat) (t : State) : Prop :=
      t.clock = (s.reach w).clock ∧ t.ring = s.ring ∧ t.disp = s.disp ∧ t.seg = s.seg
    (∀ w, p.staleAt = some w → sampled →
      ∃ t, exec (.staleTimerExpiry i) s = .next t ∧ framed w t ∧
        (p.subst = .holdLast → s.runTime ≤ w →
          t.point i = { p with
            input := .holding, quality := .held, holdAt := some (w + 1000 * p.holdLimit), staleAt := none
            goodRun := 0 }) ∧
        (p.subst = .fixed →
          (t.point i).input = .substituting ∧ (t.point i).quality = .substituted ∧ (t.point i).value = p.substValue ∧
            (t.point i).staleAt = none ∧ (t.point i).goodRun = 0 ∧
            (p.kind = .binary → (t.point i).level = BitVec.ofInt 16 p.substValue) ∧
            (p.quality ≠ .substituted → (t.point i).logFlag = true ∧
              (p.logFlag = false → s.mgmt.events.length < 64 → t.Logged .point .pointSubstituted i 3 0))) ∧
        (p.subst = .none →
          (t.point i).input = .failed ∧ (t.point i).quality = .bad ∧ (t.point i).value = p.value ∧
            (t.point i).level = p.level ∧ (t.point i).staleAt = none ∧ (t.point i).goodRun = 0 ∧
            (p.quality ≠ .bad → (t.point i).logFlag = true ∧
              (p.logFlag = false → s.mgmt.events.length < 64 → t.Logged .point .pointBad i 3 0)))) ∧
    (∀ w, p.holdAt = some w → sampled →
      ∃ t, exec (.holdTimerExpiry i) s = .next t ∧ framed w t ∧ (t.point i).input = .failed ∧
        (t.point i).quality = .bad ∧ (t.point i).holdAt = none ∧ (t.point i).value = p.value ∧
        (t.point i).level = p.level ∧
        (p.quality ≠ .bad → (t.point i).logFlag = true ∧
          (p.logFlag = false → s.mgmt.events.length < 64 → t.Logged .point .pointBad i 4 0))) ∧
    (∀ n d lo hi k w, p.forcing = some (.staircase n d lo hi k w) → s.runTime ≤ w →
      ∃ t, exec (.staircaseStep i) s = .next t ∧ framed w t ∧
        (t.point i).forcing = some (.staircase n d lo hi (if n ≤ k then 0 else k + 1) (w + d)) ∧
        (t.point i).shownValue = lo + ((if n ≤ k then 0 else k + 1 : Nat) : Int) * (hi - lo).tdiv n) ∧
    (p.staleAt = none → exec (.staleTimerExpiry i) s = .next s) ∧
    (p.holdAt = none → exec (.holdTimerExpiry i) s = .next s) ∧
    (p.forcing = none ∨ (∃ v, p.forcing = some (.fixed v)) → exec (.staircaseStep i) s = .next s) ∧
    (∀ k, 191 < k → exec (.staleTimerExpiry k) s = .fault .noSuchPoint ∧
      exec (.holdTimerExpiry k) s = .fault .noSuchPoint ∧ exec (.staircaseStep k) s = .fault .noSuchPoint)

/-- FORCE-POINT (R54) and RELEASE-POINT (R56): a configured record whose consumers are idle takes the forcing record
and presents its value, FORCED unless a DEGRADED output; a release removes it; an EMPTY record is refused with reason 3
and a number above 191 with BAD-INDEX. The number of clamped fields is one data byte (log 8). In the data of a refusal
for a consumer that is not idle the reason stands before the line (log 8), and the lines are looked at before the
turbine (log 49). -/
def Obligations.ForceAndRelease : Prop :=
  ∀ (point : Byte) (pattern : ForcePattern) (s : State), s.Free → s.points.length = 192 →
    let p := s.point point.toNat
    (∀ f n, point.toNat < 192 → p.kind ≠ .empty → p.forcingOf s.runTime pattern = some (f, n) →
      s.busyConsumer p = none →
      ∃ t, exec (.forcePoint point pattern) s = .next t ∧ (t.point point.toNat).forcing = some f ∧
        (t.point point.toNat).shownValue = forcedValue f ∧
        ((p.kind = .output ∧ p.degraded = true) ∨ (t.point point.toNat).shownQuality = .forced) ∧
        t.Answered .forcePoint (if n = 0 then .done else .doneClamped) (if n = 0 then [] else [countByte n]) ∧
        t.clock = s.clock ∧ t.ring = s.ring ∧ t.disp = s.disp ∧ t.seg = s.seg) ∧
    (point.toNat < 192 → p.kind ≠ .empty → p.forcingOf s.runTime pattern = none →
      exec (.forcePoint point pattern) s = .next ((s.during .forcePoint).answer .forcePoint .badValue)) ∧
    (∀ data, point.toNat < 192 → p.kind ≠ .empty → (∃ r, p.forcingOf s.runTime pattern = some r) →
      s.busyConsumer p = some data →
      exec (.forcePoint point pattern) s = .next ((s.during .forcePoint).answer .forcePoint .badState data)) ∧
    (point.toNat < 192 → p.kind ≠ .empty →
      ∃ t, exec (.releasePoint point) s = .next t ∧ (t.point point.toNat).forcing = none ∧
        t.Answered .releasePoint .done [] ∧ t.clock = s.clock ∧ t.ring = s.ring ∧ t.disp = s.disp ∧
        t.seg = s.seg) ∧
    (point.toNat < 192 → p.kind = .empty →
      exec (.forcePoint point pattern) s = .next ((s.during .forcePoint).answer .forcePoint .badState [3]) ∧
        exec (.releasePoint point) s = .next ((s.during .releasePoint).answer .releasePoint .badState [3])) ∧
    (191 < point.toNat →
      exec (.forcePoint point pattern) s = .next ((s.during .forcePoint).answer .forcePoint .badIndex) ∧
        exec (.releasePoint point) s = .next ((s.during .releasePoint).answer .releasePoint .badIndex))

/-! ### Line commands -/

/-- START (R62): when every check passes the line is FEEDING with no hold cause, an empty burn record, the estimate at
LHV_init, trims and FEED-LIMIT counts at 0 and the control period started, and with HOME high the first stroke starts
in the same event; the command is answered DONE and an allocation run follows. A failing check refuses it with
BAD-STATE and changes nothing. The allocation run is owed (log 1). -/
def Obligations.StartEntersFeeding : Prop :=
  ∀ (b : Byte) (l : LineId) (s : State), s.Free → lineOf b = some l →
    let c := s.line l
    (s.startCheck l = none →
      ∃ t, exec (.start b) s = .next t ∧ LineEvent l (s.during .lineControl) t ∧
        t.Answered .lineControl .done [] ∧ (t.line l).state = .feeding ∧ (t.line l).causes = [] ∧
        (t.line l).record = [] ∧ (t.line l).entry = some ⟨0, 0, false, 0⟩ ∧ (t.line l).lhvEst = c.page.lhvInit ∧
        (t.line l).trim = 0 ∧ (t.line l).o2Trim = 0 ∧ (t.line l).lowCount = 0 ∧ (t.line l).highCount = 0 ∧
        (t.line l).lastDone = none ∧ (t.line l).burnoutAt = none ∧
        (t.line l).periodAt = some (s.runTime + c.page.period) ∧
        (s.homeHigh l = true → c.stroke = none →
          (t.line l).stroke = some ⟨nextStroke c.lastNumber, s.runTime, .out⟩) ∧
        t.Shows .lineState (some l) 1 ∧ Instr.allocationRun .line ∈ t.owed) ∧
    (∀ data, s.startCheck l = some data →
      exec (.start b) s = .next ((s.during .lineControl).answer .lineControl .badState data))

/-- STOP (R63): from FEEDING and FEED-HOLD the line goes to BURNOUT with cause STOP, a stroke in flight is withdrawn
and the burnout timer starts; in BURNOUT and OFF it is answered DONE and changes nothing; in TRIPPED it is refused with
reason 1. -/
def Obligations.StopSendsToBurnout : Prop :=
  ∀ (b : Byte) (l : LineId) (s : State), s.Free → lineOf b = some l →
    let c := s.line l
    (c.state = .feeding ∨ c.state = .feedHold →
      ∃ t, exec (.stop b) s = .next t ∧ LineEvent l (s.during .lineControl) t ∧
        t.Answered .lineControl .done [] ∧ (t.line l).state = .burnout ∧ (t.line l).stroke = none ∧
        (t.line l).causes = [] ∧ (t.line l).burnoutAt = some (s.runTime + 60000 * c.page.burnoutTime) ∧
        (∀ k, c.stroke = some k → (t.line l).aborted = wrap32 c.aborted ∧ t.Shows .feederCommand (some l) 0) ∧
        t.Shows .grateSpeed (some l) 300 ∧ t.Shows .lineState (some l) 3 ∧
        (s.mgmt.events.length < 60 → t.Logged (lineSource l) .lineState 2 c.state.code 3)) ∧
    (c.state = .burnout ∨ c.state = .off →
      exec (.stop b) s = .next ((s.during .lineControl).answer .lineControl .done)) ∧
    (c.state = .tripped →
      exec (.stop b) s = .next ((s.during .lineControl).answer .lineControl .badState [1]))

/-- RESUME (R64): in FEED-HOLD it removes the cause STROKE-TIMEOUT; when no other cause stands the line returns to
FEEDING, and a stroke starts at once if one is due; without that cause it is refused with reason 8; in FEEDING it
changes nothing; elsewhere it is refused with reason 1. -/
def Obligations.ResumeRemovesStrokeTimeout : Prop :=
  ∀ (b : Byte) (l : LineId) (s : State), s.Free → lineOf b = some l →
    let c := s.line l
    let d := s.during .lineControl
    (c.state = .feedHold → HoldCause.strokeTimeout ∈ c.causes → (s.fgc l).abn.exhausted = false →
      ∃ t, exec (.resume b) s = .next t ∧ LineEvent l d t ∧ t.Answered .lineControl .done [] ∧
        (t.line l).causes = c.causes.filter (fun x => decide (x ≠ .strokeTimeout)) ∧
        ((t.line l).causes = [] → (t.line l).state = .feeding) ∧
        ((t.line l).causes ≠ [] → (t.line l).state = .feedHold) ∧
        ((t.line l).causes = [] → c.isDue s.runTime = true → c.permissive = true → s.homeHigh l = true →
          c.stroke = none → (t.line l).stroke = some ⟨nextStroke c.lastNumber, s.runTime, .out⟩)) ∧
    (c.state = .feedHold → HoldCause.strokeTimeout ∉ c.causes →
      exec (.resume b) s = .next (d.answer .lineControl .badState [8])) ∧
    (c.state = .feeding → exec (.resume b) s = .next (d.answer .lineControl .done)) ∧
    (c.state = .off ∨ c.state = .burnout ∨ c.state = .tripped →
      exec (.resume b) s = .next (d.answer .lineControl .badState [1]))

/-- RESET-TRIP (R65): a TRIPPED line with both signals high in a usable LINE_STATUS is OFF, its trip record empty; with
a signal low it is refused with reason 7; in any other state with reason 1. A line byte outside 1 and 2 is refused with
BAD-INDEX by all four LINE-CONTROL actions. -/
def Obligations.ResetTripReturnsToOff : Prop :=
  ∀ (b : Byte) (s : State), s.Free →
    let d := s.during .lineControl
    (∀ l, lineOf b = some l →
      ((s.line l).state = .tripped → s.tripSignalsHigh l = true →
        ∃ t, exec (.resetTrip b) s = .next t ∧ LineEvent l d t ∧ t.Answered .lineControl .done [] ∧
          (t.line l).state = .off ∧ (t.line l).trip = none ∧ t.Shows .lineState (some l) 0) ∧
      ((s.line l).state = .tripped → s.tripSignalsHigh l = false →
        exec (.resetTrip b) s = .next (d.answer .lineControl .badState [7])) ∧
      ((s.line l).state ≠ .tripped →
        exec (.resetTrip b) s = .next (d.answer .lineControl .badState [1]))) ∧
    (lineOf b = none →
      exec (.start b) s = .next (d.answer .lineControl .badIndex) ∧
        exec (.stop b) s = .next (d.answer .lineControl .badIndex) ∧
        exec (.resume b) s = .next (d.answer .lineControl .badIndex) ∧
        exec (.resetTrip b) s = .next (d.answer .lineControl .badIndex))

/-- SET-OVERRIDE (R91), in every line state: ON lays the value, clamped to 2,000 to 30,000, over the estimate; OFF
lifts it; the line controller changes in nothing else, and no flue gas unit, cap or other line does. A line byte
outside 1 and 2 is refused with BAD-INDEX. DONE-CLAMPED carries no data byte here (log 39). -/
def Obligations.OverrideLaysHeatingValue : Prop :=
  ∀ (b : Byte) (value : Word16) (s : State), s.Free →
    let d := s.during .setOverride
    let v := clampNat value.toNat 2000 30000
    (∀ l, lineOf b = some l →
      (∃ t, exec (.setOverrideOn b value) s = .next t ∧
        t.lines = s.lines.set l { s.line l with override := true, lhvOvr := v } ∧
        t.Answered .setOverride (if v = value.toNat then .done else .doneClamped) [] ∧
        LineEvent l d t ∧ t.fgcs = s.fgcs ∧ t.env = s.env ∧ t.owed = s.owed) ∧
      (∃ t, exec (.setOverrideOff b) s = .next t ∧
        t.lines = s.lines.set l { s.line l with override := false } ∧ t.Answered .setOverride .done [] ∧
        LineEvent l d t ∧ t.fgcs = s.fgcs ∧ t.env = s.env ∧ t.owed = s.owed)) ∧
    (lineOf b = none →
      exec (.setOverrideOn b value) s = .next (d.answer .setOverride .badIndex) ∧
        exec (.setOverrideOff b) s = .next (d.answer .setOverride .badIndex))

/-! ### Line events -/

/-- R93: stages G and H. Q_req is the arithmetic of stage A on D_eff, m_req the mass whose heat it is; both are 0 when
D_eff is 0; within the parameters' ranges Q_req is at most 388,888 kW and m_req at most 699,998 kg/h, and m_req is 0
only when Q_req × 3,600 is below the heating value. -/
def Obligations.RequiredMassFlow : Prop :=
  ∀ c : Line,
    let t := c.stageGHI
    t.qReq = c.dEff * c.page.enthalpy / 36 * 1000 / c.page.efficiency ∧
    t.mReq = t.qReq * 3600 / c.lhvUsed ∧
    (c.dEff = 0 → t.qReq = 0 ∧ t.mReq = 0) ∧
    (c.dEff ≤ 2000 → c.page.enthalpy ≤ 3500 → 500 ≤ c.page.efficiency →
      t.qReq ≤ 388888 ∧ (2000 ≤ c.lhvUsed → t.mReq ≤ 699998)) ∧
    (0 < c.lhvUsed → (t.mReq = 0 ↔ t.qReq * 3600 < c.lhvUsed))

/-- CONTROL_PERIOD (R77 to R80, R85, R86, R92 to R94): the stages run on the points as presented; Q_in, the burn entry,
the trims, Q_req, m_req and the interval stand in the line controller, PRIMARY_AIR and SECONDARY_AIR show the two parts
of the total air, and the next period is set. While the period does not send the line to BURNOUT, GRATE_SPEED shows its
value, D_eff is at most the cap, the counts of feed saturation and the FEED-LIMIT cap follow R80, the due time is set
anew unless a stroke is in flight (R71, R94), a stroke starts where R72 lets it, and the loops with trigger
CONTROL-PERIOD run (R105). A line with no period running is left as it is (log 1). What a period without a mass flow
shows is log 11, the periods counted in an entry log 45, and the heat of an entry has no bound (log 76). -/
def Obligations.ControlPeriodRuns : Prop :=
  ∀ (l : LineId) (s : State), s.Quiet →
    (∀ w, (s.line l).periodAt = some w →
      let old := s.line l
      let pg := old.page
      let now := (s.reach w).runTime
      let steam := s.read Quality.lineOk .steamFlow (some l)
      let c := ((old.stageAB steam).stageF steam).stageGHI
      ∃ t, exec (.controlPeriod l) s = .next t ∧ LineEvent l (s.reach w) t ∧
        (t.line l).qIn = c.qIn ∧ (t.line l).trim = c.trim ∧ (t.line l).qReq = c.qReq ∧ (t.line l).mReq = c.mReq ∧
        (t.line l).unclamped = c.unclamped ∧ (t.line l).interval = c.interval ∧ (t.line l).ranPeriod = true ∧
        (∀ f, steam = some f →
          c.qIn = (clampInt f 0 2000).toNat * pg.enthalpy / 36 * 1000 / pg.efficiency) ∧
        (steam = none → c.qIn = old.qIn ∧ c.trim = old.trim) ∧
        (t.line l).o2Trim = o2TrimNext pg old.o2Trim (s.read Quality.lineOk .o2Furnace (some l)) ∧
        (let total : Int := ((c.qReq * pg.airPerMWh / 1000 : Nat) * ((pg.lambda : Int) + (t.line l).o2Trim)).tdiv 1000
         let primary : Int := (total * pg.split).tdiv 1000
         t.Shows .primaryAir (some l) primary ∧ t.Shows .secondaryAir (some l) (total - primary)) ∧
        ((t.line l).state = old.state →
          (t.line l).periodAt = some (now + pg.period) ∧
          t.Shows .grateSpeed (some l) (grateSpeed pg c.mReq) ∧
          (t.line l).dEff = min c.dEff (t.line l).cap ∧
          (∀ f, steam = some f → (t.line l).entry = old.entry.map fun e =>
            { e with heat := e.heat + c.qIn * pg.period / 1000, periods := e.periods + 1 }) ∧
          (steam = none → (t.line l).entry = old.entry.map fun e => { e with gap := true }) ∧
          (let sparse : Prop := c.mReq = 0 ∨ pg.iMin * 11 / 10 ≤ c.unclamped
           let low : Nat := if sparse then 0 else if c.unclamped < pg.iMin then min 3 (old.lowCount + 1) else 0
           let high : Nat := if sparse then min 3 (old.highCount + 1) else 0
           let stands : Option Nat := (s.env.caps.get l).feedLimit.map (·.value)
           let limit : Option Nat := (t.env.caps.get l).feedLimit.map (·.value)
           (old.state = .feeding → low = 3 → (t.line l).lowCount = 0 ∧ (t.line l).highCount = 0 ∧
             (steam = none → limit = stands) ∧
             (∀ f, steam = some f → limit =
               if stands.all (fun v => decide (f < (v : Int))) = true then some (clampInt f 0 2000).toNat else stands)) ∧
           (old.state = .feeding → low ≠ 3 → high = 3 → stands ≠ none →
             (t.line l).lowCount = 0 ∧ (t.line l).highCount = 0 ∧ limit = none) ∧
           (old.state = .feeding → low ≠ 3 → high ≠ 3 ∨ stands = none →
             (t.line l).lowCount = low ∧ (t.line l).highCount = high ∧ limit = stands) ∧
           (old.state ≠ .feeding →
             (t.line l).lowCount = old.lowCount ∧ (t.line l).highCount = old.highCount ∧ limit = stands)) ∧
          (∀ k, old.stroke = some k → (t.line l).stroke = some k ∧ (t.line l).due = old.due) ∧
          (old.stroke = none →
            let next : Due := if c.mReq = 0 then .none else match old.lastDone with
              | none => .atOnce
              | some x => .at_ (x + c.interval)
            let due := old.due.replace next now
            let starts : Prop := (due = .atOnce ∨ ∃ x, due = .at_ x ∧ x ≤ now) ∧ old.state = .feeding ∧
              old.permissive = true ∧ s.homeHigh l = true
            (starts → (t.line l).stroke = some ⟨nextStroke old.lastNumber, now, .out⟩ ∧ (t.line l).due = .none ∧
              (t.line l).strokeAt = some (now + 1000 * pg.strokeTimeout) ∧
              t.Shows .feederCommand (some l) (nextStroke old.lastNumber)) ∧
            (¬starts → (t.line l).stroke = none ∧ (t.line l).due = due)) ∧
          (∀ d, (t.fgc l).loops.get d =
            if ((s.fgc l).dosing.get d).trigger = .controlPeriod ∧ old.state.feeds = true then
              ((((s.reach w).setLine l (t.line l)).runLoop l d).fgc l).loops.get d
            else (s.fgc l).loops.get d))) ∧
    ((s.line l).periodAt = none → exec (.controlPeriod l) s = .next s)

/-- R67, R68, R70: at the end of the permissive delay the permissive is LOST and a FEEDING line holds with cause
PERMISSIVE; at the end of the hold limit a held line goes to BURNOUT; at the end of the burnout time a line in BURNOUT
is OFF with its results, its outputs and its dosing loops at 0 and its EMISSION and BYPASS caps gone (R110, R122,
R133). R71, R72, R74: at the stroke timeout the stroke is aborted, no mass is counted and the line holds with cause
STROKE-TIMEOUT; at the due time a FEEDING line with the permissive held, HOME high and no stroke in flight starts a
stroke, whose number follows the last one issued; a line that does not meet R72 starts none. The subject and second
value of HOLD-EXPIRED are 0 (log 53). -/
def Obligations.LineAndStrokeTimers : Prop :=
  ∀ (l : LineId) (s : State), s.Quiet →
    let c := s.line l
    (∀ w, c.permAt = some w → c.permissive = true →
      ∃ t, exec (.permissiveDelayExpiry l) s = .next t ∧ LineEvent l (s.reach w) t ∧
        (t.line l).permissive = false ∧ (t.line l).permAt = none ∧
        (c.state = .feeding → c.causes = [] → (s.fgc l).abn.exhausted = false →
          (t.line l).state = .feedHold ∧ (t.line l).causes = [.permissive] ∧
          (t.line l).holdAt = some ((s.reach w).runTime + 1000 * c.page.holdLimit))) ∧
    (∀ w, c.holdAt = some w → c.state = .feedHold →
      ∃ t, exec (.lineHoldExpiry l) s = .next t ∧ LineEvent l (s.reach w) t ∧ (t.line l).state = .burnout ∧
        (t.line l).causes = [] ∧ (t.line l).holdAt = none ∧ (t.line l).stroke = none ∧
        (t.line l).burnoutAt = some ((s.reach w).runTime + 60000 * c.page.burnoutTime) ∧
        (s.mgmt.events.length < 60 → t.Logged (lineSource l) .holdExpired 0 (causeBits c.causes) 0)) ∧
    (∀ w, c.burnoutAt = some w → c.state = .burnout →
      ∃ t, exec (.burnoutEnd l) s = .next t ∧ LineEvent l (s.reach w) t ∧ (t.line l).state = .off ∧
        (t.line l).burnoutAt = none ∧ (t.line l).qIn = 0 ∧ (t.line l).mReq = 0 ∧ t.Shows .lineState (some l) 0 ∧
        t.Shows .grateSpeed (some l) 0 ∧ t.Shows .primaryAir (some l) 0 ∧ t.Shows .secondaryAir (some l) 0 ∧
        (t.fgc l).capAsked = none ∧ ((s.fgc l).capAsked ≠ none → (t.env.caps.get l).emission = none) ∧
        (t.env.caps.get l).bypass = none ∧
        ∀ d, (t.fgc l).loops.get d =
            { (s.fgc l).loops.get d with output := 0, trim := 0, satAt := none, saturated := false } ∧
          t.Shows (loopRole d) (some l) 0) ∧
    (∀ w k, c.strokeAt = some w → c.stroke = some k →
      ∃ t, exec (.strokeTimeout l) s = .next t ∧ LineEvent l (s.reach w) t ∧ (t.line l).stroke = none ∧
        (t.line l).strokeAt = none ∧ (t.line l).aborted = wrap32 c.aborted ∧
        (t.line l).completed = c.completed ∧ t.Shows .feederCommand (some l) 0 ∧
        (c.state = .feeding → c.causes = [] → (s.fgc l).abn.exhausted = false →
          (t.line l).state = .feedHold ∧ (t.line l).causes = [.strokeTimeout] ∧ (t.line l).entry = c.entry)) ∧
    (∀ w, c.due = .at_ w →
      (c.state = .feeding → c.permissive = true → s.homeHigh l = true → c.stroke = none →
        ∃ t, exec (.dueTimeReached l) s = .next t ∧ LineEvent l (s.reach w) t ∧
          t.line l = { c with
            lastNumber := nextStroke c.lastNumber
            stroke := some ⟨nextStroke c.lastNumber, (s.reach w).runTime, .out⟩
            strokeAt := some ((s.reach w).runTime + 1000 * c.page.strokeTimeout)
            due := .none } ∧
          t.Shows .feederCommand (some l) (nextStroke c.lastNumber) ∧ t.fgcs = s.fgcs ∧ t.env = s.env ∧
          t.mgmt = s.mgmt) ∧
      (c.state ≠ .feeding ∨ c.permissive = false ∨ s.homeHigh l = false ∨ c.stroke ≠ none →
        exec (.dueTimeReached l) s = .next (s.reach w)))

/-- What a sample brings at the line controller (R46). A sample of a forced point changes nothing but the point.
LINE_STATUS (R69): a fallen FLAME_PROVEN or ID_FAN_RUNNING trips the line from every state, OFF included, with the
cause, the state and the time in its record, the stroke, the hold causes and the timers gone and the outputs at 0; a
loss of the point trips a line that operates, with STATUS-LOST; a starting level trips nothing (R51). FEEDER_STATUS
(R72, R73): FORWARD_END takes a stroke to phase BACK, HOME completes one in BACK, both together are taken in this
order; with the mass counted the next due time is set (R71, R94), and a stroke starts where R72 lets it. STEAM_FLOW and
FEEDER_COMMAND (R50, R66): the hold causes STEAM-POINT and FEEDER-OUTPUT follow their points. FURNACE_TEMP (R70): below
the threshold the permissive delay runs, or with none the permissive is LOST; at the threshold the delay stops; at 100
above it the permissive is HELD again; a loss of the point takes it at once. The hypothesis on the value of a BINARY
point is log 65; the point's own event stands before the others (log 60). -/
def Obligations.SamplesActOnLines : Prop :=
  ∀ (l : LineId) (i : Nat) (word : Word16) (code : Byte) (s : State),
    let p := s.point i
    let c := s.line l
    let t := s.sample i word code
    let v := p.scaled word.toInt
    let level : Signals := word ^^^ p.polarity
    let free (r : Role) : Prop := s.findPoint r (some l) = some i ∧ p.forcing = none
    let lost : Prop := code ≠ 0 ∧ p.input = .fresh ∧ p.quality = .good ∧ p.subst = .none
    let binary : Prop := p.kind = .binary ∧ p.started = true ∧ p.value = p.level.toInt ∧ code = 0
    let analog : Prop := p.kind = .analog ∧ code = 0 ∧ p.low ≤ v ∧ v ≤ p.high ∧ (p.value ≠ v ∨ p.quality ≠ .good)
    let held (k : HoldCause) (u : State) : Prop :=
      (u.line l).state = .feedHold ∧ (u.line l).causes = c.causes ++ [k] ∧
        (c.state = .feeding → (u.line l).holdAt = some (s.runTime + 1000 * c.page.holdLimit)) ∧
        (c.state = .feedHold → (u.line l).holdAt = c.holdAt)
    let freed (k : HoldCause) (u : State) : Prop :=
      let rest := c.causes.filter fun x => decide (x ≠ k)
      (u.line l).causes = rest ∧ (u.line l).state = if rest = [] then .feeding else .feedHold
    let tripped (k : TripCause) : Prop :=
      (t.line l).state = .tripped ∧ (t.line l).trip = some ⟨k, c.state, s.runTime⟩ ∧ (t.line l).stroke = none ∧
        (t.line l).causes = [] ∧ (t.line l).holdAt = none ∧ (t.line l).burnoutAt = none ∧
        (t.line l).periodAt = none ∧ (t.line l).entry = none ∧ (t.line l).qIn = 0 ∧ (t.line l).mReq = 0 ∧
        t.Shows .lineState (some l) 4 ∧ t.Shows .grateSpeed (some l) 0 ∧ t.Shows .primaryAir (some l) 0 ∧
        t.Shows .secondaryAir (some l) 0 ∧ (∀ d, t.Shows (loopRole d) (some l) 0) ∧
        Instr.allocationRun .line ∈ t.owed ∧
        (s.mgmt.events.length < 60 → t.Logged (lineSource l) .lineTrip 0 k.code c.state.code)
    let ready (m : Line) : Prop := (m.due = .atOnce ∨ ∃ x, m.due = .at_ x ∧ x ≤ s.runTime) ∧ m.state = .feeding ∧
      m.permissive = true ∧ level.getLsbD 0 = true
    let stroked (m : Line) (shown : Option Nat) : Prop :=
      (ready m → t.line l = { m with
          lastNumber := nextStroke m.lastNumber
          stroke := some ⟨nextStroke m.lastNumber, s.runTime, .out⟩
          strokeAt := some (s.runTime + 1000 * m.page.strokeTimeout)
          due := .none } ∧
        t.Shows .feederCommand (some l) (nextStroke m.lastNumber)) ∧
      (¬ready m → t.line l = m ∧ ∀ n, shown = some n → t.Shows .feederCommand (some l) n)
    (p.forcing ≠ none → { t with points := s.points, mgmt := s.mgmt } = s) ∧
    (∀ r, r = .lineStatus ∨ r = .feederStatus ∨ r = .steamFlow ∨ r = .furnaceTemp → free r →
      p.kind = .analog ∨ p.kind = .binary → LineEvent l (s.setPoint i (t.point i)) t) ∧
    (free .lineStatus →
      let fallen := p.level &&& ~~~level
      (binary → c.state ≠ .tripped →
        (fallen.getLsbD 0 = true → fallen.getLsbD 1 = true → tripped .both) ∧
        (fallen.getLsbD 0 = true → fallen.getLsbD 1 = false → tripped .flame) ∧
        (fallen.getLsbD 0 = false → fallen.getLsbD 1 = true → tripped .fan) ∧
        (fallen.getLsbD 0 = false → fallen.getLsbD 1 = false → t.line l = c)) ∧
      (p.kind = .binary → lost → c.state.operates = true → tripped .statusLost) ∧
      (p.kind = .binary → lost → c.state.operates = false → t.line l = c) ∧
      (p.kind = .binary → c.state = .tripped → t.line l = c) ∧
      (p.kind = .binary → p.started = false → code = 0 → t.line l = c)) ∧
    (free .feederStatus →
      let risen := level &&& ~~~p.level
      (∀ k, binary → c.stroke = some k →
        (risen.getLsbD 0 = false → risen.getLsbD 1 = true → k.phase = .out →
          t.line l = { c with stroke := some { k with phase := .back } }) ∧
        (risen.getLsbD 0 = true → risen.getLsbD 1 = true ∨ k.phase = .back →
          let next : Due := if c.ranPeriod = true ∧ c.mReq = 0 then .none
            else if c.ranPeriod = true then .at_ (k.start + c.interval) else .atOnce
          stroked { c with
            strokeAt := none, stroke := none, lastDone := some k.start, completed := wrap32 c.completed
            entry := c.entry.map fun e => { e with mass := e.mass + c.page.strokeMass }
            due := c.due.replace next s.runTime } (some 0)) ∧
        (risen.getLsbD 0 = false → risen.getLsbD 1 = false ∨ k.phase = .back → t.line l = c) ∧
        (risen.getLsbD 0 = true → risen.getLsbD 1 = false → k.phase = .out → t.line l = c)) ∧
      (binary → c.stroke = none → level ≠ p.level → stroked c none) ∧
      (p.kind = .binary → lost → t.line l = c)) ∧
    (free .steamFlow → p.kind = .analog → (s.fgc l).abn.exhausted = false →
      (lost → c.state.feeds = true → HoldCause.steamPoint ∉ c.causes → held .steamPoint t) ∧
      (analog → c.state = .feedHold → HoldCause.steamPoint ∈ c.causes → freed .steamPoint t) ∧
      (analog → HoldCause.steamPoint ∉ c.causes → t.line l = c)) ∧
    (free .furnaceTemp → p.kind = .analog → (s.fgc l).abn.exhausted = false →
      let fails : Prop := (t.line l).permissive = false ∧ (t.line l).permAt = none ∧
        (c.state.feeds = true → HoldCause.permissive ∉ c.causes → held .permissive t)
      (analog → c.permissive = true → v < c.page.threshold →
        (c.permAt ≠ none → t.line l = c) ∧
        (c.permAt = none → c.page.permDelay = 0 → fails) ∧
        (c.permAt = none → c.page.permDelay ≠ 0 →
          t.line l = { c with permAt := some (s.runTime + 1000 * c.page.permDelay) })) ∧
      (analog → c.permissive = true → c.page.threshold ≤ v → t.line l = { c with permAt := none }) ∧
      (analog → c.permissive = false → v < c.page.threshold + 100 → t.line l = c) ∧
      (analog → c.permissive = false → c.page.threshold + 100 ≤ v →
        (t.line l).permissive = true ∧ (t.line l).permAt = none ∧
          (c.state = .feedHold → HoldCause.permissive ∈ c.causes → freed .permissive t)) ∧
      (lost → c.permissive = true → fails)) ∧
    (s.findPoint .feederCommand (some l) = some i → p.kind = .output → p.quality = .good →
      (s.fgc l).abn.exhausted = false →
      (p.degraded = false → LineEvent l s (s.setDegraded i true) ∧
        (c.state.feeds = true → HoldCause.feederOutput ∉ c.causes → held .feederOutput (s.setDegraded i true))) ∧
      (p.degraded = true → LineEvent l s (s.setDegraded i false) ∧
        (c.state = .feedHold → HoldCause.feederOutput ∈ c.causes → freed .feederOutput (s.setDegraded i false))))

/-- BURN_MINUTE_CLOSE (R87 to R90): the entry in progress becomes the newest of the record, which keeps N + L entries;
a fresh entry opens; the estimate moves by the filter or is held, with the held-run flag saying so. The flue gas unit,
the caps and everything else of the line controller stay. The next boundary does not wrap with plant time (log 35). -/
def Obligations.BurnMinuteCloses : Prop :=
  ∀ (l : LineId) (e : BurnEntry) (s : State), s.Quiet → (s.line l).entry = some e →
    let c := s.line l
    let record := (e :: c.record).take (c.page.heatWindow + c.page.massLag)
    let lhv : Nat := match rawEstimate c.page record with
      | .ok raw => filtered c.page c.lhvEst raw
      | .error _ => c.lhvEst
    let held : Bool := match rawEstimate c.page record with
      | .ok _ => false
      | .error _ => true
    (∀ p, c.burnAt = some p →
      ∃ t, exec (.burnMinuteClose l) s = .next t ∧ LineEvent l (s.reachPlant p) t ∧
        t.line l = { c with
          record := record, entry := some ⟨0, 0, false, 0⟩, lhvEst := lhv, heldRun := held
          burnAt := some (p + 60000) } ∧
        t.Shows .lhvUsed (some l) (t.line l).lhvUsed ∧ t.fgcs = s.fgcs ∧ t.env = s.env ∧ t.owed = s.owed) ∧
    (∀ w, c.burnAt = none → c.burnTimer = some w →
      ∃ t, exec (.burnMinuteClose l) s = .next t ∧ LineEvent l (s.reach w) t ∧
        t.line l = { c with
          record := record, entry := some ⟨0, 0, false, 0⟩, lhvEst := lhv, heldRun := held
          burnTimer := some ((s.reach w).runTime + 60000) } ∧
        t.Shows .lhvUsed (some l) (t.line l).lhvUsed ∧ t.fgcs = s.fgcs ∧ t.env = s.env ∧ t.owed = s.owed)

/-! ### Flue gas units -/

/-- R99: normalisation is the four steps on the clamped moisture: none when the dry oxygen is 2,000 or more, and
otherwise a value that is never below the dry one, at most 54,611 dry and 973,265 at the reference, for readings and
parameters within their ranges. The basis is the one in force, the page's at the last sample instant (R97). A sample
whose readings are usable and uncalibrated is good with that value, and not good with reason 5, OXYGEN-HIGH, where
there is none. -/
def Obligations.NormalisationSteps : Prop :=
  ∀ (b : Basis) (o2Ref : Nat) (o2 h2o c : Int), o2Ref ≤ 1700 → 300 ≤ o2Ref →
    let h := (clampInt h2o 0 4000).toNat
    let dry (x : Int) : Nat := match b with
      | .dry => x.toNat
      | .wet => x.toNat * 10000 / (10000 - h)
    (2000 ≤ dry o2 → normalise b o2Ref o2 h2o c = none) ∧
    (dry o2 < 2000 → dry o2 ≤ o2Ref → normalise b o2Ref o2 h2o c = some (dry c)) ∧
    (dry o2 < 2000 → o2Ref < dry o2 →
      normalise b o2Ref o2 h2o c = some (dry c * (2100 - o2Ref) / (2100 - dry o2))) ∧
    (c ≤ 32767 → dry c ≤ 54611) ∧ h ≤ 4000 ∧ 6000 ≤ 10000 - h ∧ (dry o2 < 2000 → 101 ≤ 2100 - dry o2) ∧
    (∀ r, c ≤ 32767 → normalise b o2Ref o2 h2o c = some r → dry c ≤ r ∧ r ≤ 973265) ∧
    (∀ (s : State) (l : LineId) (k : Component), (s.fgc l).basis.get k = b → (s.fgc l).page.o2Ref = o2Ref →
      s.read Quality.sumOk k.role (some l) = some c → s.read Quality.sumOk .o2Flue (some l) = some o2 →
      (b = .wet → s.read Quality.sumOk .h2oFlue (some l) = some h2o) → (s.fgc l).calibrating k = false →
      s.judgeSample l k = match normalise b o2Ref o2 h2o c with
        | some r => .ok r
        | none => .error 5)

/-- SAMPLE_INSTANT (R98, R101, R97): the timer restarts; the bases of the page come into force; each configured
component is judged on the points as presented; a good sample becomes its newest good one and is added to the minute in
progress, one that is not good leaves its reason and is counted; a component without a point takes no sample; nothing
else changes. -/
def Obligations.SampleInstantJudges : Prop :=
  ∀ (l : LineId) (s : State), s.Quiet →
    let u := s.reach (s.fgc l).sampleAt
    let f := s.fgc l
    let bases : Six Basis := Six.of fun c => (f.page.comps.get c).basis
    let v := s.setFgc l { f with basis := bases }
    ∃ g, exec (.sampleInstant l) s = .next (u.setFgc l g) ∧ g.sampleAt = u.runTime + 1000 ∧ g.basis = bases ∧
      { g with sampleAt := f.sampleAt, basis := f.basis, latest := f.latest, minute := f.minute } = f ∧
      g.minute.map (fun m => (m.start, m.satAll, m.adjusted)) =
        f.minute.map (fun m => (m.start, m.satAll, m.adjusted)) ∧
      ∀ c, (s.configured l c = false →
          g.latest.get c = f.latest.get c ∧ g.minute.map (·.comps.get c) = f.minute.map (·.comps.get c)) ∧
        (∀ x, s.configured l c = true → v.judgeSample l c = .ok x →
          g.latest.get c = { f.latest.get c with sample := some (x, u.runTime) } ∧
          g.minute.map (·.comps.get c) = f.minute.map fun m =>
            let k := m.comps.get c
            { k with samples := k.samples + 1, good := k.good + 1, sum := k.sum + x }) ∧
        (∀ e, s.configured l c = true → v.judgeSample l c = .error e →
          g.latest.get c = { f.latest.get c with reason := e } ∧
          g.minute.map (·.comps.get c) = f.minute.map fun m =>
            { m.comps.get c with samples := (m.comps.get c).samples + 1 })

/-- FGC_MINUTE_CLOSE (R102, R114, R115, R117, R119, R120): the minute in progress closes at its boundary and a fresh
one opens; the minute is added to the half-hour in progress; at a half-hour boundary the half-hour becomes a record of
the table and a fresh one opens, and at a day boundary the day's summary is formed and the table emptied; with a
component found above its limit the line's EMISSION cap is lowered: its entry holds the cap asked for, limited to 2,000
(R133), and stays when that cap is asked for already; the cap asked for is kept unclamped (log 46). With none above and
none between, and one low, the release count rises; at 3 it is 0 again and a standing cap is raised by the step, or
released at F_max (R121). At a half-hour boundary an exceeded component brings abnormal operation, and a half-hour with
none exceeded and none INVALID ends it while no train fault stands (R124, R125); the exhausted condition is judged with
it. The boundary does not wrap with plant time (log 35). Without a minute in progress nothing happens (log 1). The
counts and sums of a half-hour have no bound (log 76). -/
def Obligations.MinuteCloses : Prop :=
  ∀ (l : LineId) (s : State), s.Quiet → (s.fgc l).table.length = 48 →
    let f := s.fgc l
    (f.minute = none → exec (.fgcMinuteClose l) s = .next s) ∧
    (∀ m, f.minute = some m →
      let b := nextMinute m.start
      let values := Six.of fun c => minuteValue (s.configured l c) f.page.minuteThr (m.comps.get c)
      let add (h : HalfHour) : HalfHour := h.add values (s.line l).state.operates
        (Component.all.any fun c => (m.comps.get c).touched) m.adjusted
      ∃ t, exec (.fgcMinuteClose l) s = .next t ∧ LineEvent l (s.reachPlant b) t ∧
        (t.fgc l).minute = some ((t.fgc l).freshMinute b false) ∧ (t.fgc l).latest = f.latest ∧
        (b % 1800000 ≠ 0 → (t.fgc l).half = f.half.map add ∧ (t.fgc l).table = f.table ∧
          (t.fgc l).dayLatest = f.dayLatest) ∧
        (f.half = none → (t.fgc l).half = none ∧ (t.fgc l).table = f.table) ∧
        (∀ h, f.half = some h → b % 1800000 = 0 →
          let r := s.halfRecord l (add h) .boundary
          (t.fgc l).half = some ⟨b, Six.all ⟨0, 0⟩, 0, false, false⟩ ∧
          (b % 86400000 ≠ 0 → (t.fgc l).table = f.table.set (halfIndex h.start) (some r) ∧
            (t.fgc l).dayLatest = f.dayLatest) ∧
          (b % 86400000 = 0 → (t.fgc l).table = List.replicate 48 none ∧ (t.fgc l).dayPrev = f.dayLatest ∧
            (t.fgc l).dayLatest = some (daySummary { f with table := f.table.set (halfIndex h.start) (some r) }
              (h.start / 86400000 * 86400000) .boundary))) ∧
        ((s.line l).state.feeds = false ∨ f.half = none →
          t.env.caps = s.env.caps ∧ (t.fgc l).capAsked = f.capAsked ∧ (t.fgc l).lowCloses = f.lowCloses) ∧
        (∀ h c, f.half = some h → (s.line l).state.feeds = true →
          (Component.all.find? fun c =>
            decide (finding (s.configured l c) f (add h) m.satAll c = Finding.above)) = some c →
          let asked := (max (restraintBase f.capAsked (s.read Quality.lineOk .steamFlow (some l))
            (s.line l).page.fMax - f.page.restraintStep) (s.line l).page.fFloor).toNat
          let old := s.env.caps.get l
          let new := t.env.caps.get l
          (t.fgc l).lowCloses = 0 ∧ (t.fgc l).capAsked = some asked ∧
            (f.capAsked ≠ some asked → new.emission.map (·.value) = some (min asked 2000)) ∧
            (f.capAsked = some asked → new.emission = old.emission) ∧
            new.operator = old.operator ∧ new.bypass = old.bypass) ∧
        (∀ h, f.half = some h → (s.line l).state.feeds = true →
          let found (c : Component) : Finding := finding (s.configured l c) f (add h) m.satAll c
          let old := s.env.caps.get l
          let new := t.env.caps.get l
          (∀ c, found c ≠ .above) →
          new.operator = old.operator ∧ new.bypass = old.bypass ∧
            ((∃ c, found c = .between) →
              (t.fgc l).lowCloses = 0 ∧ (t.fgc l).capAsked = f.capAsked ∧ new.emission = old.emission) ∧
            ((∀ c, found c = .unjudged) →
              (t.fgc l).lowCloses = f.lowCloses ∧ (t.fgc l).capAsked = f.capAsked ∧ new.emission = old.emission) ∧
            ((∀ c, found c ≠ .between) → (∃ c, found c = .low) →
              (f.lowCloses + 1 < 3 → (t.fgc l).lowCloses = f.lowCloses + 1 ∧ (t.fgc l).capAsked = f.capAsked ∧
                new.emission = old.emission) ∧
              (3 ≤ f.lowCloses + 1 → (t.fgc l).lowCloses = 0 ∧
                (f.capAsked = none → (t.fgc l).capAsked = none ∧ new.emission = old.emission) ∧
                (∀ v, f.capAsked = some v →
                  ((s.line l).page.fMax ≤ v + f.page.restraintStep →
                    (t.fgc l).capAsked = none ∧ new.emission = none) ∧
                  (v + f.page.restraintStep < (s.line l).page.fMax →
                    (t.fgc l).capAsked = some (v + f.page.restraintStep) ∧
                    new.emission.map (·.value) = some (min (v + f.page.restraintStep) 2000)))))) ∧
        (f.half = none ∨ b % 1800000 ≠ 0 → (t.fgc l).abn = f.abn) ∧
        (∀ h, f.half = some h → b % 1800000 = 0 →
          let r := s.halfRecord l (add h) .boundary
          let ends : Prop := f.abn.active = true ∧ f.trainFault = false ∧ ∀ c, (r.comps.get c).status ≠ .invalid
          (r.exceeded = true → (t.fgc l).abn = { f.abn with
            active := true, exceedance := true, equipment := f.abn.active && f.abn.equipment
            beganAt := if f.abn.active then f.abn.beganAt else (s.reachPlant b).runTime
            exhausted := (t.fgc l).isExhausted }) ∧
          (r.exceeded = false → ends →
            (t.fgc l).abn = { f.abn with
              active := false, exceedance := false, equipment := false, consec := 0, exhausted := false } ∧
            (t.fgc l).secondAt = none) ∧
          (r.exceeded = false → ¬ends → (t.fgc l).abn = f.abn)))

/-- R109, R126, R127: at its expiry a saturation timer sets the loop's flag and nothing else of the loop; an abnormal
second adds one to the consecutive count, which stays at 14,400, and takes one from a valid annual remaining; the
exhausted condition then stands as its definition says, and a feeding line on which it comes to hold goes to BURNOUT.
Without the timer nothing happens (log 1). The subject of DOSING-SATURATED at the expiry is log 53. -/
def Obligations.FlueGasTimers : Prop :=
  ∀ (l : LineId) (s : State), s.Quiet →
    let f := s.fgc l
    (∀ d w, (f.loops.get d).satAt = some w →
      ∃ t, exec (.saturationTimerExpiry l d) s = .next t ∧ LineEvent l (s.reach w) t ∧
        t.fgc l = { f with loops := f.loops.set d { f.loops.get d with saturated := true, satAt := none } } ∧
        t.lines = s.lines ∧ t.points = s.points ∧ t.env = s.env ∧ t.owed = s.owed ∧
        (s.mgmt.events.length < 64 →
          t.Logged (fgcSource l) .dosingSaturated (loopCode d) 1 (f.loops.get d).output)) ∧
    (∀ w, f.secondAt = some w →
      ∃ t, exec (.abnormalSecond l) s = .next t ∧ LineEvent l (s.reach w) t ∧
        (t.fgc l).abn = { f.abn with
          consec := min 14400 (f.abn.consec + 1)
          annual := if f.abn.valid then f.abn.annual - 1 else f.abn.annual
          exhausted := (t.fgc l).isExhausted } ∧
        (f.abn.exhausted = false → (t.fgc l).isExhausted = true → (s.line l).state.feeds = true →
          (t.line l).state = .burnout ∧ t.Shows .lineState (some l) 3) ∧
        ((t.fgc l).isExhausted = false → t.lines = s.lines ∧ t.env = s.env ∧
          (t.fgc l).secondAt = some ((s.reach w).runTime + 1000))) ∧
    (∀ d, (f.loops.get d).satAt = none → exec (.saturationTimerExpiry l d) s = .next s) ∧
    (f.secondAt = none → exec (.abnormalSecond l) s = .next s)

/-- R105 to R110, R122: one run of a dosing loop. The base follows the line, the trim the latest samples no more than
60,000 ms old and stays without one, the output is their sum within 0 and the output maximum, CARBON's the base alone;
the saturation timer starts at the maximum and is stopped, with its flag and the minute's mark, below it. At an event
of a trigger the loops with that trigger run, each as it would alone, in the line states in which the event comes. At a
change of line state into OFF or TRIPPED every loop's output and trim are 0 and its timer and flag cleared, and the
restraint ends; at any other change the loops stay. A trim that is not updated stays also beyond a lowered limit (log
75); several loops run in the order UREA, LIME, CARBON (log 73). -/
def Obligations.DosingLoopsRun : Prop :=
  ∀ (l : LineId) (s : State),
    let f := s.fgc l
    let c := s.line l
    (∀ d : DosingLoop,
      let t := s.runLoop l d
      let p := f.dosing.get d
      let old := f.loops.get d
      let recent (k : Component) : Option Nat := match (f.latest.get k).sample with
        | some (x, at_) => if s.runTime ≤ at_ + 60000 then some x else none
        | none => none
      let load (k : Component) : Option Nat := (recent k).map fun x => x * 1000 / (f.page.comps.get k).halfLimit
      let base : Nat := match d with
        | .urea => c.qIn * p.ratio / 10000
        | .lime => c.qIn * p.ratio / 10000
        | .carbon => c.mReq * p.ratio / 1000
      let input : Option Nat := match d with
        | .urea => recent .nox
        | .lime => match load .so2, load .hcl with
          | some x, some y => some (max x y)
          | some x, none => some x
          | none, some y => some y
          | none, none => none
        | .carbon => none
      let trim : Int := match input with
        | none => old.trim
        | some x => clampInt (old.trim + (((x : Int) - p.target) * p.trimGain).tdiv 256) (-(p.trimLimit : Int)) p.trimLimit
      let output : Nat := (clampInt (base + (if d = .carbon then 0 else trim)) 0 p.outputMax).toNat
      let full : Loop := { old with
        base := base, trim := trim, output := output
        satAt := if old.satAt = none ∧ old.saturated = false then some (s.runTime + 1000 * p.satTime) else old.satAt }
      LineEvent l s t ∧ { t with points := s.points, fgcs := s.fgcs, mgmt := s.mgmt } = s ∧ output ≤ p.outputMax ∧
      t.Shows (loopRole d) (some l) output ∧
      (output = p.outputMax → t.fgc l = { f with loops := f.loops.set d full }) ∧
      (output < p.outputMax →
        t.fgc l = { f with
          loops := f.loops.set d { full with satAt := none, saturated := false }
          minute := f.minute.map fun m => { m with satAll := m.satAll.set d false } } ∧
        (old.saturated = true → s.mgmt.events.length < 64 →
          t.Logged (fgcSource l) .dosingSaturated (loopCode d) 0 0))) ∧
    (∀ (tr : Trigger) (d : DosingLoop),
      ((s.runLoops l tr).fgc l).loops.get d =
        if (f.dosing.get d).trigger = tr ∧ (c.state.feeds = true ∨ (tr = .minute ∧ c.state = .burnout)) then
          ((s.runLoop l d).fgc l).loops.get d
        else f.loops.get d) ∧
    (let t := s.fgcLineState l
     (c.state = .off ∨ c.state = .tripped →
       (t.fgc l).capAsked = none ∧ (t.fgc l).lowCloses = 0 ∧
       ∀ d, (t.fgc l).loops.get d = { f.loops.get d with trim := 0, output := 0, satAt := none, saturated := false } ∧
         t.Shows (loopRole d) (some l) 0) ∧
     (c.state = .feeding ∨ c.state = .feedHold ∨ c.state = .burnout →
       (t.fgc l).loops = f.loops ∧ (t.fgc l).capAsked = f.capAsked ∧ (t.fgc l).lowCloses = f.lowCloses))

/-- LOAD-BUDGET (R128, R129): the line byte and the validity byte are judged in this order; a taken budget sets the
annual remaining and the consecutive count, clamped, with its validity; BUDGET_REMAINING shows the minutes left, and
the exhausted condition is judged, sending a feeding line on which it comes to hold to BURNOUT. The line is judged
before the validity (log 20), and the number of clamped values is one data byte (log 8). -/
def Obligations.BudgetIsLoaded : Prop :=
  ∀ (b : Byte) (annual : BitVec 32) (consec : Word16) (validity : Byte) (s : State), s.Free →
    let d := s.during .loadBudget
    let a := min annual.toNat 1000000
    let k := min consec.toNat 14400
    let n := (if a = annual.toNat then 0 else 1) + (if k = consec.toNat then 0 else 1)
    (lineOf b = none → exec (.loadBudget b annual consec validity) s = .next (d.answer .loadBudget .badIndex)) ∧
    (∀ l, lineOf b = some l → validity ≠ 0 → validity ≠ 1 →
      exec (.loadBudget b annual consec validity) s = .next (d.answer .loadBudget .badValue)) ∧
    (∀ l, lineOf b = some l → validity = 0 ∨ validity = 1 →
      ∃ t, exec (.loadBudget b annual consec validity) s = .next t ∧ LineEvent l d t ∧
        t.Answered .loadBudget (if n = 0 then .done else .doneClamped) (if n = 0 then [] else [BitVec.ofNat 8 n]) ∧
        (t.fgc l).abn = { (s.fgc l).abn with
          annual := a, consec := k, valid := decide (validity = 1), exhausted := (t.fgc l).isExhausted } ∧
        t.Shows .budgetRemaining (some l) ((if validity = 1 then a / 60 else 0 : Nat) : Int) ∧
        ((s.fgc l).abn.exhausted = false → (t.fgc l).isExhausted = true → (s.line l).state.feeds = true →
          (t.line l).state = .burnout) ∧
        ((t.fgc l).isExhausted = false → t.lines = s.lines))

/-! ### Caps and the allocation run -/

/-- R138 to R141, R143: the demand terms of a run; the demand left for the FEEDING lines and its shares by the share
mode, which together are that demand where the caps allow it; the allocations, each raised to the floor and last
limited to the cap; the grants in their order, out of the allocations and the uncontrolled steam: what is granted and
the bypass together are the supply, none of them is negative, and the bypass is at least the bypass minimum granted;
and C_e. A negative S_t, which a negative P_ramped gives, is granted 0 (log 12). The demand term S_b_min is the
page's. -/
def Obligations.DemandSharesAndGrants : Prop :=
  ∀ i : RunInput,
    let r := i.result
    let feeds1 : Prop := i.state1 = .feeding
    let feeds2 : Prop := i.state2 = .feeding
    let cap1 : Nat := if feeds1 then i.cap1 else 0
    let cap2 : Nat := if feeds2 then i.cap2 else 0
    let flow (st : LineState) (n : Nat) : Nat := if st = .feedHold ∨ st = .burnout then n else 0
    let shares : Nat × Nat := match i.page.share with
      | .proportional => sharesByCaps r.sA cap1 cap2 (decide feeds1)
      | .baseLine1 => (min cap1 r.sA, min cap2 (r.sA - min cap1 r.sA))
      | .baseLine2 => (min cap1 (r.sA - min cap2 r.sA), min cap2 r.sA)
    let bMin := min i.page.bypassMin r.supply
    let avail : Int := (r.supply : Int) - bMin - (if r.sP < 0 then r.sP else 0)
    let want : Int := if i.turbine = .local_ then (i.steam : Int) else r.sT
    r.sT = (if i.turbine = .loaded then -((-((i.ramped + i.reserve) * i.steamRate)) / 100) else 0) ∧
    r.sX = (i.heat * i.page.heatRate + 99) / 100 ∧ r.sBMin = i.page.bypassMin ∧
    (i.pressure = none → r.sP = 0) ∧
    (∀ p, i.pressure = some p → r.sP =
      clampInt ((((i.page.pressureSet : Int) - p) * i.page.pressureGain).tdiv 256) (-(i.page.pressureLim : Int))
        i.page.pressureLim) ∧
    (r.sTot : Int) = max 0 (r.sT + r.sX + i.page.bypassMin + r.sP) ∧
    r.u = flow i.state1 i.flow1 + flow i.state2 i.flow2 ∧ (r.sA : Int) = max 0 ((r.sTot : Int) - r.u) ∧
    r.alloc1 = (if feeds1 then min i.cap1 (max i.floor1 shares.1) else 0) ∧
    r.alloc2 = (if feeds2 then min i.cap2 (max i.floor2 shares.2) else 0) ∧
    (i.page.share = .proportional → 0 < cap1 + cap2 → shares.1 + shares.2 = r.sA) ∧
    (i.page.share ≠ .proportional → shares.1 + shares.2 = min r.sA (cap1 + cap2)) ∧
    r.supply = r.alloc1 + r.alloc2 + r.u ∧ r.bMin = bMin ∧
    (i.page.heatPriority = true →
      (r.gX : Int) = min (r.sX : Int) avail ∧ (r.gT : Int) = max 0 (min want (avail - r.gX))) ∧
    (i.page.heatPriority = false →
      (r.gT : Int) = max 0 (min want avail) ∧ (r.gX : Int) = min (r.sX : Int) (avail - r.gT)) ∧
    r.pC = (if r.sP < 0 then r.sP else min r.sP (avail - r.gX - r.gT)) ∧
    r.bypass = (r.supply : Int) - r.gT - r.gX - r.pC ∧
    ((r.alloc1 + r.alloc2 + r.u : Nat) : Int) = r.gT + r.gX + r.pC + r.bypass ∧
    0 ≤ r.bypass ∧ (bMin : Int) ≤ r.bypass ∧
    (let w : Int := (cap1 : Int) + cap2 + r.u - i.page.bypassMin - (if i.page.heatPriority then r.sX else 0 : Nat)
     r.cE = if i.turbine = .ready ∨ i.turbine = .synchronising ∨ i.turbine = .loaded then
       min i.rating (w.toNat * 100 / i.steamRate) else 0)

/-- ALLOCATION_RUN (R132, R135, R137, R142, R160, R161): for every cause the effective caps are formed anew, the
results are those of the arithmetic on what the run reads, no allocation is above its cap, a FEEDING or FEED-HOLD line
whose effective cap is below its floor goes to BURNOUT, a shortfall is kept, and the results are handed on: to the line
controllers, BYPASS_SETPOINT, CAPABILITY, the turbine interface, whose target ramps at PERIOD runs alone, and the
dispatch unit. A negative demand of the turbine is granted 0, and P_sent may be negative (log 12); a run works on what
it read at its start (log 33); the last heat demand is kept clamped (log 77); the notice threshold of the page is in
force from this hand-over on (log 58). -/
def Obligations.AllocationRunCourse : Prop :=
  ∀ (cause : RunCause) (s : State), s.Quiet →
    let due := s.reach s.env.periodAt
    let start := match cause with
      | .period => { due with env.periodAt := due.runTime + s.env.page.period }
      | .turbine => s
      | .line => s
      | .cap => s
    let formed := (start.formCap .one).formCap .two
    let r := formed.runInput.result
    ∃ t, exec (.allocationRun cause) s = .next t ∧ t.clock = start.clock ∧ t.ring = s.ring ∧ t.seg = s.seg ∧
      t.pending = s.pending ∧ t.env.page = s.env.page ∧ t.env.periodAt = start.env.periodAt ∧
      t.env.result = r ∧ t.env.lastCause = some cause ∧ t.env.lastRunAt = start.runTime ∧
      (∀ l, formed.env.effCap.get l = effectiveCap (s.line l).page.fMax (s.env.caps.get l)) ∧
      r.alloc1 ≤ formed.env.effCap.one ∧ r.alloc2 ≤ formed.env.effCap.two ∧
      (t.line .one).alloc = r.alloc1 ∧ (t.line .two).alloc = r.alloc2 ∧
      (∀ l, formed.env.effCap.get l < (s.line l).page.fFloor → (s.line l).state.feeds = true →
        (t.line l).state = .burnout) ∧
      t.env.shortfall = decide ((r.gT : Int) + r.gX < r.sT + r.sX) ∧
      t.Shows .bypassSetpoint none r.bypass ∧ t.Shows .capability none r.cE ∧
      t.turb.state = s.turb.state ∧ t.turb.target = s.turb.target ∧ t.turb.reserve = s.turb.reserve ∧
      t.turb.ramped =
        (if cause = .period ∧ s.turb.state = .loaded ∧ s.isDegraded .turbineSetpoint none = false ∧
            s.turb.ramped ≠ s.turb.target.power then
          rampToward s.turb.ramped s.turb.target.power (rampStep s.turb.rampInForce s.env.page.period)
        else s.turb.ramped) ∧
      t.turb.sent = min t.turb.ramped
        ((min (r.gT * 100 / s.turb.page.steamRate - s.turb.reserve) (min r.cE s.turb.page.rating) : Nat) : Int) ∧
      t.Shows .turbineSetpoint none t.turb.sent ∧ t.Shows .setpointSent none t.turb.sent ∧
      t.disp.lastCe = r.cE ∧ t.disp.thrUsed = s.disp.page.noticeThr ∧ t.disp.vr = s.disp.vr ∧
      t.disp.queue.length = s.disp.queue.length

/-- SET-CAP (R132 to R135): SET puts the value, clamped to 0 to 2,000, under source OPERATOR, RELEASE removes the
entry; either leaves the effective cap the lowest of F_max and the list, makes an allocation run due, and sends a
feeding line whose effective cap changed to a value below its floor to BURNOUT. An entry that already holds the value,
or is absent, is left as it is; a line byte outside 1 and 2 is refused. DONE-CLAMPED carries no data byte here (log
39), and the run is owed (log 1). -/
def Obligations.OperatorCapCommands : Prop :=
  ∀ (b : Byte) (value : Word16) (s : State), s.Free →
    let d := s.during .setCap
    let v := clampInt value.toInt 0 2000
    let code : RespCode := if v = value.toInt then .done else .doneClamped
    (lineOf b = none → exec (.setCapSet b value) s = .next (d.answer .setCap .badIndex) ∧
      exec (.setCapRelease b) s = .next (d.answer .setCap .badIndex)) ∧
    (∀ l, lineOf b = some l →
      let changed (e : Option CapEntry) (t : State) : Prop :=
        let cap := effectiveCap (s.line l).page.fMax ((s.env.caps.get l).set .operator e)
        LineEvent l d t ∧ (t.env.caps.get l).operator = e ∧
          (t.env.caps.get l).emission = (s.env.caps.get l).emission ∧
          (t.env.caps.get l).bypass = (s.env.caps.get l).bypass ∧
          t.env.effCap.get l = effectiveCap (s.line l).page.fMax (t.env.caps.get l) ∧
          Instr.allocationRun .cap ∈ t.owed ∧
          (t.line l).state =
            if cap ≠ s.env.effCap.get l ∧ cap < (s.line l).page.fFloor ∧ (s.line l).state.feeds = true then .burnout
            else (s.line l).state
      (s.capOf l .operator = some v.toNat → exec (.setCapSet b value) s = .next (d.answer .setCap code)) ∧
      (s.capOf l .operator ≠ some v.toNat →
        ∃ t, exec (.setCapSet b value) s = .next t ∧ t.Answered .setCap code [] ∧
          changed (some ⟨v.toNat, s.runTime⟩) t) ∧
      (s.capOf l .operator = none → exec (.setCapRelease b) s = .next (d.answer .setCap .done)) ∧
      (s.capOf l .operator ≠ none →
        ∃ t, exec (.setCapRelease b) s = .next t ∧ t.Answered .setCap .done [] ∧ changed none t))

/-- ALLOCATION_RUN (R144, R145) and BYPASS_RELEASE_TIMER_EXPIRY (R145). A run whose bypass setpoint is above B_max
shares the excess among the FEEDING lines; each takes a BYPASS cap of its allocation less its share, at most the entry
it has and at least its floor, but the highest-numbered of those whose candidate lies below the floor goes to BURNOUT
without a cap; any other run leaves the entries as they are. With an entry standing after the run, a bypass of at most
8/10 of B_max keeps the release timer running or starts it, and a higher one stops it. At its expiry both lines lose
their BYPASS entry, the timer is stopped and BYPASS-RELEASED is logged; the OPERATOR and EMISSION entries stay. Without
the timer nothing happens (log 1). A run works on the line states, caps and floors it read at its start (log 33). The
subject and values of BYPASS-RELEASED are 0 (log 53), and it stands after both CAP-RELEASED (log 71). -/
def Obligations.BypassCapsComeAndGo : Prop :=
  (∀ (cause : RunCause) (s : State), s.Quiet →
    let due := s.reach s.env.periodAt
    let start := match cause with
      | .period => { due with env.periodAt := due.runTime + s.env.page.period }
      | .turbine => s
      | .line => s
      | .cap => s
    let i := ((start.formCap .one).formCap .two).runInput
    let r := i.result
    let above : Prop := (i.page.bypassMax : Int) < r.bypass
    let excess := (r.bypass - i.page.bypassMax).toNat
    let feeds (l : LineId) : Prop := (s.line l).state = .feeding
    let cap1 : Nat := if feeds .one then i.cap1 else 0
    let cap2 : Nat := if feeds .two then i.cap2 else 0
    let cuts : Nat × Nat := match i.page.share with
      | .proportional => sharesByCaps excess cap1 cap2 (decide (feeds .one))
      | .baseLine1 => (excess - min excess r.alloc2, min excess r.alloc2)
      | .baseLine2 => (min excess r.alloc1, excess - min excess r.alloc1)
    let alloc (l : LineId) : Nat := match l with
      | .one => r.alloc1
      | .two => r.alloc2
    let cut (l : LineId) : Nat := match l with
      | .one => cuts.1
      | .two => cuts.2
    let floor_ (l : LineId) : Int := (s.line l).page.fFloor
    let candidate (l : LineId) : Int := match (s.env.caps.get l).bypass with
      | none => (alloc l : Int) - cut l
      | some e => min ((alloc l : Int) - cut l) e.value
    let low (l : LineId) : Prop := feeds l ∧ candidate l < floor_ l
    let goes (l : LineId) : Prop := low l ∧ (l = .two ∨ ¬low .two)
    ∃ t, exec (.allocationRun cause) s = .next t ∧ t.env.overFlag = decide above ∧
      (¬above → ∀ l, (t.env.caps.get l).bypass = (s.env.caps.get l).bypass) ∧
      (above → ∀ l,
        (feeds l → ¬goes l →
          (t.env.caps.get l).bypass.map (·.value) = some (clampInt (max (candidate l) (floor_ l)) 0 2000).toNat) ∧
        (feeds l → goes l → (t.line l).state = .burnout) ∧
        (¬feeds l ∨ goes l → (t.env.caps.get l).bypass = (s.env.caps.get l).bypass)) ∧
      ((∃ l, (t.env.caps.get l).bypass ≠ none) →
        t.env.releaseAt =
          if r.bypass ≤ ((i.page.bypassMax * 8 / 10 : Nat) : Int) then
            some (s.env.releaseAt.getD (start.runTime + 60000))
          else none)) ∧
  (∀ s : State, s.Quiet →
    (∀ w, s.env.releaseAt = some w →
      ∃ t, exec .bypassReleaseTimerExpiry s = .next t ∧ t.clock = (s.reach w).clock ∧ t.ring = s.ring ∧
        t.seg = s.seg ∧ t.turb = s.turb ∧ t.disp = s.disp ∧ t.pending = s.pending ∧ t.env.page = s.env.page ∧
        t.env.result = s.env.result ∧ t.env.releaseAt = none ∧
        (∀ l, (t.env.caps.get l).bypass = none ∧
          (t.env.caps.get l).operator = (s.env.caps.get l).operator ∧
          (t.env.caps.get l).emission = (s.env.caps.get l).emission) ∧
        (s.mgmt.events.length < 48 → t.Logged .envelope .bypassReleased 0 0 0)) ∧
    (s.env.releaseAt = none → exec .bypassReleaseTimerExpiry s = .next s))

/-! ### The turbine interface -/

/-- TURBINE-CONTROL (R149, R152, R153): RUNUP from STOPPED, with its checks, enters RUNUP awaiting AT-SPEED, and is
answered DONE or refused by the state elsewhere; STOP asks for a stop, from SYNCHRONISING by READY and from LOADED by
UNLOADING, and is answered DONE or refused by the state. No other block is touched, and a change of state makes a run
due. The run is owed (log 1). -/
def Obligations.TurbineControlActs : Prop :=
  ∀ s : State, s.Free →
    let d := s.during .turbineControl
    let u := s.turb
    let limit := some (s.runTime + 1000 * u.page.indTimeout)
    let framed (t : State) : Prop :=
      { t with turb := s.turb, mgmt := s.mgmt, points := s.points, owed := s.owed } = s ∧
        t.Answered .turbineControl .done []
    let refused (i : Instr) (n : Byte) : Prop := exec i s = .next (d.answer .turbineControl .badState [n])
    let unchanged (i : Instr) : Prop := exec i s = .next (d.answer .turbineControl .done)
    (u.state = .stopped → s.ring.segment = .run → s.turbineReady = true →
      ∃ t, exec .turbineRunup s = .next t ∧ framed t ∧
        t.turb = { u with
          state := .runup, request := .runup, awaited := some .atSpeed, indAt := limit, settleAt := none
          closeHeld := false, released := false, ramped := 0 } ∧
        t.Shows .turbineRequest none 1 ∧ Instr.allocationRun .turbine ∈ t.owed ∧
        (s.mgmt.events.length < 64 → t.Logged .turbine .turbineState 1 1 2)) ∧
    (u.state = .stopped → s.ring.segment ≠ .run → refused .turbineRunup 2) ∧
    (u.state = .stopped → s.ring.segment = .run → s.turbineReady = false → refused .turbineRunup 3) ∧
    (u.state = .runup ∨ u.state = .ready ∨ u.state = .synchronising ∨ u.state = .loaded ∨ u.state = .unloading →
      unchanged .turbineRunup) ∧
    (u.state = .unknown ∨ u.state = .tripped ∨ u.state = .local_ → refused .turbineRunup 1) ∧
    (u.state = .unknown ∨ u.state = .local_ → refused .turbineStop 1) ∧
    (u.state = .stopped ∨ u.state = .tripped → unchanged .turbineStop) ∧
    (u.stopPending = true → u.state = .runup ∨ u.state = .ready ∨ u.state = .synchronising ∨ u.state = .loaded →
      unchanged .turbineStop) ∧
    (u.stopPending = false → u.state = .runup ∨ u.state = .ready →
      ∃ t, exec .turbineStop s = .next t ∧ framed t ∧
        t.turb = { u with stopPending := true, request := .stop, awaited := some .stopped, indAt := limit } ∧
        t.Shows .turbineRequest none 6) ∧
    (u.stopPending = false → u.state = .synchronising →
      ∃ t, exec .turbineStop s = .next t ∧ framed t ∧
        t.turb = { u with
          state := .ready, lastStable := .ready, stopPending := true, request := .stop, awaited := some .stopped
          indAt := limit, settleAt := none, closeHeld := false, released := false, ramped := 0 } ∧
        t.Shows .turbineRequest none 6 ∧ Instr.allocationRun .turbine ∈ t.owed) ∧
    (u.stopPending = false → u.state = .loaded →
      ∃ t, exec .turbineStop s = .next t ∧ framed t ∧
        t.turb = { u with
          state := .unloading, stopPending := true, request := .load, awaited := none, indAt := none
          settleAt := some (s.runTime + 1000 * u.page.settleTime), closeHeld := false, released := false
          ramped := 0 } ∧
        t.Shows .turbineRequest none 4 ∧ Instr.allocationRun .turbine ∈ t.owed) ∧
    (u.state = .unloading →
      ∃ t, exec .turbineStop s = .next t ∧ framed t ∧ t.turb = { u with stopPending := true } ∧
        t.points = s.points)

/-- R156, R158: at the indication timeout the handshake has failed: the turbine is in its last stable state with
request NONE, nothing awaited and no stop pending, and the indication presented is judged there; at the settle time a
turbine in UNLOADING is sent RELEASE, once, and awaits UNLOADED. Without the timer nothing happens (log 1).
TURBINE-NO-RESPONSE with nothing awaited has subject 0 (log 53). -/
def Obligations.TurbineTimers : Prop :=
  ∀ s : State, s.Quiet →
    (∀ w, s.turb.indAt = some w →
      ∃ v : State, exec .indicationTimeout s = .next v.indicationUpdate ∧
        (s.read Quality.turbOk .turbineIndication none = none → v.indicationUpdate = v) ∧
        v.turb.state = s.turb.lastStable ∧ v.turb.request = .none ∧ v.turb.awaited = none ∧ v.turb.indAt = none ∧
        v.turb.stopPending = false ∧ v.turb.lastStable = s.turb.lastStable ∧ v.turb.target = s.turb.target ∧
        v.Shows .turbineRequest none 0 ∧
        (s.mgmt.events.length < 64 →
          v.Logged .turbine .turbineNoResponse ((s.turb.awaited.map (·.code)).getD 0 : Nat) s.turb.request.code
            s.turb.state.code) ∧
        { v with turb := s.turb, mgmt := s.mgmt, points := s.points, owed := s.owed } = s.reach w) ∧
    (∀ w, s.turb.settleAt = some w →
      (s.turb.state = .unloading → s.turb.released = false →
        ∃ t, exec .settleTimerExpiry s = .next t ∧
          t.turb = { s.turb with
            settleAt := none, released := true, request := .release, awaited := some .unloaded
            indAt := some ((s.reach w).runTime + 1000 * s.turb.page.indTimeout) } ∧
          t.Shows .turbineRequest none 5 ∧ { t with turb := s.turb, points := s.points } = s.reach w) ∧
      (s.turb.state ≠ .unloading ∨ s.turb.released = true → exec .settleTimerExpiry s = .next (s.reach w))) ∧
    (s.turb.indAt = none → exec .indicationTimeout s = .next s) ∧
    (s.turb.settleAt = none → exec .settleTimerExpiry s = .next s)

/-- What an update of TURBINE_INDICATION and of BYPASS_STATUS brings at the turbine interface (R46, R149, R150, R152 to
R159). A good sample that changes the point is judged by the code it presents; one that leaves it as it was is not. The
clauses go by the code: the handshakes of run-up, synchronising, closing and unloading go on, a stop ends, TRIP and
LOCAL override, and an indication that matches no handshake takes the turbine to the state it shows, clears stop
pending and is logged as CODE-UNEXPECTED, or is only logged. A change of state makes an allocation run due. The run is
owed (log 1); CODE-UNEXPECTED stands after TURBINE-STATE (log 71); the tracked value may be negative (log 12). -/
def Obligations.IndicationsMoveTurbine : Prop :=
  (∀ (i : Nat) (word : Word16) (s : State), s.findPoint .turbineIndication none = some i →
    let p := s.point i
    let v := p.scaled word.toInt
    p.kind = .analog → p.forcing = none → p.low ≤ v → v ≤ p.high →
    ∃ q : Point, q.value = v ∧ q.quality = .good ∧ q.input = .fresh ∧ q.forcing = none ∧ q.SameSettings p ∧
      (p.value ≠ v ∨ p.quality ≠ .good → s.sample i word 0 = (s.setPoint i q).indicationUpdate) ∧
      (p.value = v → p.quality = .good → s.sample i word 0 = s.setPoint i q)) ∧
  (∀ s : State,
    let u := { s.turb with unknownRun := false }
    let t := s.indicationUpdate
    let st := s.turb.state
    let shows (n : Int) : Prop := s.read Quality.turbOk .turbineIndication none = some n
    let limit := some (s.runTime + 1000 * u.page.indTimeout)
    let entered (new : TurbineState) (request : Request) (ramped : Int) (stable : TurbineState) : Turbine :=
      { u with
        state := new, request := request, awaited := none, indAt := none, settleAt := none, closeHeld := false
        released := false, ramped := ramped, lastStable := stable }
    let moved (new : Turbine) : Prop :=
      t.turb = new ∧ t.Shows .turbineRequest none new.request.code ∧ Instr.allocationRun .turbine ∈ t.owed
    let asks (new : Turbine) (request : Request) (i : Indication) : Turbine :=
      { new with request := request, awaited := some i, indAt := limit }
    let logged (n : Nat) : Prop := s.mgmt.events.length < 63 → t.Logged .turbine .codeUnexpected n st.code 0
    let matched (n : Nat) (new : Turbine) : Prop := moved { new with stopPending := false } ∧ logged n
    let only (n : Nat) : Prop := t.turb = u ∧ logged n
    let stays : Prop := t.turb = u ∧ t.mgmt = s.mgmt
    let wants : Prop := s.turb.stopPending = false ∧ s.turb.target.source = .block ∧ s.turb.target.firm = some true ∧
      0 < s.turb.target.power
    let passes : Prop := st = .tripped ∨ st = .local_
    { t with turb := s.turb, mgmt := s.mgmt, points := s.points, owed := s.owed } = s ∧
    (∀ k, (s.point k).kind ≠ .output → (s.point k).kind ≠ .report ∨ (s.point k).role ≠ .turbineRequest →
      t.point k = s.point k) ∧
    (s.read Quality.turbOk .turbineIndication none = none → t = s) ∧
    (∀ n, shows n → n < 1 ∨ 9 < n → t.turb = { s.turb with unknownRun := true } ∧
      (s.turb.unknownRun = true → t.mgmt = s.mgmt) ∧
      (s.turb.unknownRun = false → s.mgmt.events.length < 64 → t.Logged .turbine .codeUnknown 0 n 0)) ∧
    -- STOPPED
    (shows 1 →
      (st = .unknown ∨ st = .tripped ∨ st = .local_ → moved (entered .stopped .none 0 .stopped)) ∧
      (st = .stopped → stays) ∧
      (st = .runup ∨ st = .ready ∨ st = .synchronising ∨ st = .loaded ∨ st = .unloading →
        let expected : Prop := s.turb.stopPending = true ∧
          (st = .runup ∨ st = .ready ∨ (st = .unloading ∧ s.turb.released = true))
        moved { entered .stopped .none 0 .stopped with stopPending := false } ∧ (¬expected → logged 1))) ∧
    -- RUNNING-UP
    (shows 2 → (st = .runup ∨ passes → stays) ∧ (st ≠ .runup → ¬passes → only 2)) ∧
    -- AT-SPEED
    (shows 3 →
      (st = .runup → s.turb.stopPending = true → moved (asks (entered .ready .none 0 .ready) .stop .stopped)) ∧
      (st = .runup → wants → moved (asks (entered .synchronising .sync 0 .ready) .sync .closeReady)) ∧
      (st = .runup → s.turb.stopPending = false → ¬wants → moved (entered .ready .none 0 .ready)) ∧
      (st = .unknown ∨ st = .local_ → moved (entered .ready .none 0 .ready)) ∧
      (st = .ready ∨ st = .synchronising → stays) ∧
      (st = .unloading → s.turb.released = true →
        (s.turb.stopPending = true → moved (asks (entered .ready .none 0 .ready) .stop .stopped)) ∧
        (s.turb.stopPending = false → moved (entered .ready .none 0 .ready))) ∧
      (st = .stopped ∨ st = .loaded ∨ st = .tripped ∨ (st = .unloading ∧ s.turb.released = false) →
        matched 3 (entered .ready .none 0 .ready))) ∧
    -- CLOSE-READY
    (shows 4 →
      (st = .synchronising → s.turb.request = .sync → s.turb.page.pMin ≤ s.env.result.cE →
        t.turb = asks { u with closeHeld := false } .confirmClose .onGrid ∧ t.Shows .turbineRequest none 3) ∧
      (st = .synchronising → s.turb.request = .sync → s.env.result.cE < s.turb.page.pMin →
        t.turb = { u with closeHeld := true } ∧
        (s.turb.closeHeld = false → s.mgmt.events.length < 64 →
          t.Logged .turbine .closeHeld 0 s.env.result.cE s.turb.page.pMin)) ∧
      ((st = .synchronising ∧ s.turb.request ≠ .sync) ∨ passes → stays) ∧
      (st ≠ .synchronising → ¬passes → only 4)) ∧
    -- ON-GRID
    (shows 5 →
      (st = .synchronising → s.turb.request = .confirmClose → moved (entered .loaded .load 0 .loaded)) ∧
      (st = .unknown ∨ st = .local_ → moved (entered .loaded .load s.tracked .loaded)) ∧
      (st = .loaded → s.turb.request = .none →
        t.turb = { u with request := .load } ∧ t.Shows .turbineRequest none 4) ∧
      ((st = .loaded ∧ s.turb.request ≠ .none) ∨ st = .unloading → stays) ∧
      (st = .synchronising → s.turb.request ≠ .confirmClose → matched 5 (entered .loaded .load 0 .loaded)) ∧
      (st = .stopped ∨ st = .runup ∨ st = .ready ∨ st = .tripped →
        matched 5 (entered .loaded .load s.tracked .loaded))) ∧
    -- UNLOAD-PENDING
    (shows 6 →
      (st = .loaded → moved { entered .unloading .load 0 u.lastStable with
        settleAt := some (s.runTime + 1000 * u.page.settleTime) }) ∧
      (st = .unloading ∨ passes → stays) ∧ (st ≠ .loaded → st ≠ .unloading → ¬passes → only 6)) ∧
    -- UNLOADED
    (shows 7 →
      (st = .unloading → s.turb.released = true →
        (s.turb.stopPending = true → moved (asks (entered .ready .none 0 .ready) .stop .stopped)) ∧
        (s.turb.stopPending = false → moved (entered .ready .none 0 .ready))) ∧
      (passes → stays) ∧ (st ≠ .unloading ∨ s.turb.released = false → ¬passes → only 7)) ∧
    -- TRIP and LOCAL
    (shows 8 →
      (st = .tripped → stays) ∧
      (st ≠ .tripped → moved { entered .tripped .none 0 u.lastStable with stopPending := false })) ∧
    (shows 9 →
      (st = .local_ → stays) ∧
      (st ≠ .local_ → moved { entered .local_ .none u.ramped u.lastStable with stopPending := false }))) ∧
  -- BYPASS_STATUS
  (∀ (i : Nat) (word : Word16) (s : State), s.findPoint .bypassStatus none = some i →
    let p := s.point i
    let risen := (word ^^^ p.polarity) &&& ~~~p.level
    let t := s.sample i word 0
    p.kind = .binary → p.forcing = none → p.started = true → p.value = p.level.toInt →
    { t with turb := s.turb, points := s.points } = s ∧
    (risen.getLsbD 0 = true → s.turb.state = .unloading → s.turb.released = false →
      t.turb = { s.turb with
        settleAt := none, released := true, request := .release, awaited := some .unloaded
        indAt := some (s.runTime + 1000 * s.turb.page.indTimeout) } ∧
      t.Shows .turbineRequest none 5) ∧
    (risen.getLsbD 0 = false ∨ s.turb.state ≠ .unloading ∨ s.turb.released = true → t.turb = s.turb))

/-! ### The dispatch unit -/

/-- SCHEDULE and CANCEL (R167, R169 to R172): a message that matches no pair is only counted. One taken makes the link
UP. The number expected is processed: the expected number advances, the reply is retained and sent; a SCHEDULE that
passes its checks puts each of its blocks into the queue with its accepted values, a FIRM one within the capability; a
CANCEL takes the blocks of its order out; a refusal leaves the queue. FULL is judged after a block truncated to the
present moment has left the queue, and a notice that a block starting at its insertion calls for goes out before the
reply (log 32); the target is chosen once, after every block that ends or starts with the order (log 87). The message
is the next one completed, so that the pairs of the page are in force for it (R164, log 58). The number last answered
is answered again with the reply retained, and any other is met with SEQUENCE-ERROR; neither changes the queue. -/
def Obligations.OrdersAreProcessed : Prop :=
  ∀ (plant unit number : Byte) (body : List Byte) (s : State), s.Quiet →
    let n := number.toNat
    let d := s.messageDone
    let v := d.supervise
    let replied (pair : Byte × Byte) (reply : List Byte) (t : State) : Prop :=
      let m := messageBytes pair 0x30 n reply
      t.disp.link = .up ∧ t.disp.retained = some (n, m) ∧ t.disp.vr = (n + 1) % 128 ∧
        (s.disp.out.length < 3 → ∃ notices, notices.length ≤ 1 ∧ t.disp.out = s.disp.out ++ notices ++ [⟨m, 0⟩]) ∧
        t.clock = s.clock ∧ t.ring = s.ring ∧ t.lines = s.lines ∧ t.fgcs = s.fgcs ∧ t.env = s.env
    (d.disp.recognise plant unit 0x10 = none →
      exec (.schedule plant unit number body) s = .next { d with disp.ignored := wrap32 s.disp.ignored }) ∧
    (d.disp.recognise plant unit 0x11 = none →
      exec (.cancel plant unit number body) s = .next { d with disp.ignored := wrap32 s.disp.ignored }) ∧
    (∀ pair, d.disp.recognise plant unit 0x10 = some pair → n = s.disp.vr →
      (∀ firm blocks now, parseOrder body = some (firm, blocks) → s.clock.plant = some now →
        (∀ b ∈ blocks, now + 1000 * s.disp.page.lead ≤ 1000 * b.start) →
        let news := newBlocks n firm s.disp.lastCe blocks
        let after := afterSupersede s.disp.queue news n now
        after.1.length + news.length ≤ 16 →
        ∃ t, exec (.schedule plant unit number body) s = .next t ∧
          replied pair (orderReply
            (if news.any fun b => decide ((b.accPower, b.accReserve) ≠ (b.power, b.reserve)) then .partial_
              else .accepted) .none news after.2 s.disp.lastCe) t ∧
          t.disp.queue.length = after.1.length + news.length ∧
          (∀ b ∈ news, (∃ x ∈ t.disp.queue, { x with status := .pending } = b) ∧
            (b.firm = true → b.accPower + b.accReserve ≤ s.disp.lastCe)) ∧
          t.disp.target = t.disp.chosen) ∧
      (∀ reason : OrderReason,
        (parseOrder body = none ∧ reason = .format) ∨
          ((parseOrder body).isSome = true ∧ s.clock.plant = none ∧ reason = .timeUnset) ∨
          (∃ firm blocks now, parseOrder body = some (firm, blocks) ∧ s.clock.plant = some now ∧ reason = .late ∧
            ∃ b ∈ blocks, 1000 * b.start < now + 1000 * s.disp.page.lead) ∨
          (∃ firm blocks now, parseOrder body = some (firm, blocks) ∧ s.clock.plant = some now ∧ reason = .full ∧
            (∀ b ∈ blocks, now + 1000 * s.disp.page.lead ≤ 1000 * b.start) ∧
            16 < (afterSupersede s.disp.queue (newBlocks n firm s.disp.lastCe blocks) n now).1.length +
              blocks.length) →
        ∃ t, exec (.schedule plant unit number body) s = .next t ∧
          replied pair (orderReply .refused reason [] 0 s.disp.lastCe) t ∧ t.disp.queue = s.disp.queue)) ∧
    (∀ pair, d.disp.recognise plant unit 0x11 = some pair → n = s.disp.vr →
      (∀ b, body = [b] → b.toNat ≤ 127 →
        let left := s.disp.queue.filter fun x => decide (x.order ≠ b.toNat)
        ∃ t, exec (.cancel plant unit number body) s = .next t ∧ t.disp.queue = left ∧
          t.disp.target = t.disp.chosen ∧
          replied pair (orderReply .accepted .none [] (s.disp.queue.length - left.length) s.disp.lastCe) t) ∧
      (body.length ≠ 1 ∨ (∃ b, body = [b] ∧ 127 < b.toNat) →
        ∃ t, exec (.cancel plant unit number body) s = .next t ∧ t.disp.queue = s.disp.queue ∧
          replied pair (orderReply .refused .format [] 0 s.disp.lastCe) t)) ∧
    (∀ i pair, i = .schedule plant unit number body ∧ d.disp.recognise plant unit 0x10 = some pair ∨
        i = .cancel plant unit number body ∧ d.disp.recognise plant unit 0x11 = some pair → n ≠ s.disp.vr →
      v.disp.queue = s.disp.queue ∧ v.disp.vr = s.disp.vr ∧ v.disp.link = .up ∧
      (∀ m, n = (s.disp.vr + 127) % 128 → s.disp.retained = some (n, m) → exec i s = .next (v.sendBytes m)) ∧
      (n ≠ (s.disp.vr + 127) % 128 ∨ (∀ m, s.disp.retained ≠ some (n, m)) →
        exec i s = .next (v.sendTo pair 0x33 0 (bytesOf 1 s.disp.vr ++ [number]))))

/-- LINK_CHECK, NOTICE_ACK, RESYNC and KIND_DISCARD (R166, R167, R169, R177, R179): one that matches no pair is only
counted; one taken makes the link UP, restarts supervision and clears the probe flag, and then answers the check, ends
the notice it acknowledges (calling for the next one where it must), takes the new expected number and reports STATUS,
or is discarded with reason KIND. The schedule queue stays. The pairs of the page are in force for it, and the
threshold of the last hand-over of C_e (R164, log 58). While the UNIT pair is unconfigured an acknowledgement ends the
notice and sends no other (log 14). -/
def Obligations.SupervisedMessages : Prop :=
  ∀ (plant unit number kind : Byte) (s : State), s.Quiet →
    let d := s.messageDone
    let taken (t : State) : Prop :=
      t.disp.link = .up ∧ t.disp.supAt = some (s.runTime + 1000 * s.disp.page.supTime) ∧ t.disp.probe = false ∧
        t.disp.queue = s.disp.queue ∧ t.disp.page = s.disp.page ∧ t.clock = s.clock ∧ t.ring = s.ring ∧
        t.lines = s.lines ∧ t.fgcs = s.fgcs ∧ t.env = s.env ∧
        (s.disp.link ≠ .silent → t.turb = s.turb ∧ t.disp.target = s.disp.target)
    let sent (m : List Byte) (t : State) : Prop :=
      t.disp.out = (if s.disp.out.length < 4 then s.disp.out ++ [⟨m, 0⟩] else s.disp.out)
    (∀ i k, (i = .linkCheck plant unit ∧ k = 0x20) ∨ (i = .noticeAck plant unit number ∧ k = 0x12) ∨
        (i = .resync plant unit number ∧ k = 0x13) ∨ (i = .kindDiscard plant unit kind ∧ k = kind) →
      d.disp.recognise plant unit k = none →
      exec i s = .next { d with disp.ignored := wrap32 s.disp.ignored }) ∧
    (∀ pair, d.disp.recognise plant unit 0x20 = some pair →
      ∃ t, exec (.linkCheck plant unit) s = .next t ∧ taken t ∧ t.disp.vr = s.disp.vr ∧
        t.disp.notice = s.disp.notice ∧ (pairSet pair = true → sent (messageBytes pair 0x20 0 []) t) ∧
        (pairSet pair = false → t.disp.out = s.disp.out)) ∧
    (∀ pair, d.disp.recognise plant unit 0x12 = some pair →
      ∃ t, exec (.noticeAck plant unit number) s = .next t ∧ taken t ∧ t.disp.vr = s.disp.vr ∧
        ((∀ x, s.disp.notice.outstanding = some x → x.number ≠ number.toNat) → t.disp.notice = s.disp.notice) ∧
        (∀ x, s.disp.notice.outstanding = some x → x.number = number.toNat →
          let again (reason : NoticeReason) : Option Notice := some ⟨s.disp.notice.next, s.disp.lastCe, reason⟩
          let open_ := pairSet s.disp.page.unit
          t.disp.notice.outstanding =
              (if s.disp.notice.unmetPending then (if open_ then again .unmet else none)
                else if moved s.disp.lastCe x.cE s.disp.thrUsed ∧ open_ = true then again .change else none) ∧
            (t.disp.notice.outstanding = none → t.disp.notice.ackAt = none) ∧
            (s.disp.notice.unmetPending = true → open_ = true → t.disp.notice.unmetPending = false))) ∧
    (∀ pair, d.disp.recognise plant unit 0x13 = some pair →
      ∃ t, exec (.resync plant unit number) s = .next t ∧ taken t ∧ t.disp.notice = s.disp.notice ∧
        (number.toNat ≤ 127 → t.disp.vr = number.toNat ∧ t.disp.retained = none) ∧
        (127 < number.toNat → t.disp.vr = s.disp.vr ∧ t.disp.retained = s.disp.retained) ∧
        (s.disp.out.length < 4 →
          ∃ b, t.disp.out = s.disp.out ++ [⟨messageBytes pair 0x31 t.disp.vr b, 0⟩] ∧ b = t.disp.statusBody)) ∧
    (∀ pair, d.disp.recognise plant unit kind = some pair →
      ∃ t, exec (.kindDiscard plant unit kind) s = .next t ∧ taken t ∧ t.disp.vr = s.disp.vr ∧
        t.disp.discards = { s.disp.discards with kind := wrap32 s.disp.discards.kind } ∧ t.disp.discardRun = true ∧
        t.disp.out = s.disp.out)

/-- R173, R176: at its start a PENDING block becomes ACTIVE, or UNMET when it is FIRM and its power is above the
capability; at its end it leaves the queue; either way the target is chosen again. A block that is not queued, or a
start of one that is not PENDING, changes nothing (log 1). -/
def Obligations.BlocksStartAndEnd : Prop :=
  ∀ (order index : Nat) (s : State), s.Quiet →
    let framed (t : State) : Prop :=
      t.ring = s.ring ∧ t.seg = s.seg ∧ t.lines = s.lines ∧ t.fgcs = s.fgcs ∧ t.env = s.env ∧
        t.disp.vr = s.disp.vr ∧ t.disp.target = t.disp.chosen
    (∀ b, s.disp.findBlock order index = some b → b.status = .pending →
      ∃ t, exec (.blockStart order index) s = .next t ∧ framed t ∧ t.clock = (s.reachPlant b.start).clock ∧
        t.disp.findBlock order index =
          some { b with status := if b.firm = true ∧ s.disp.lastCe < b.accPower then .unmet else .active } ∧
        t.disp.queue.length = s.disp.queue.length) ∧
    (∀ b, s.disp.findBlock order index = some b →
      ∃ t, exec (.blockEnd order index) s = .next t ∧ framed t ∧ t.clock = (s.reachPlant b.stop).clock ∧
        t.disp.queue = s.disp.queue.filter (fun x => !(decide (x.order = order ∧ x.index = index))) ∧
        t.disp.findBlock order index = none) ∧
    (∀ b, s.disp.findBlock order index = some b → b.status ≠ .pending →
      exec (.blockStart order index) s = .next s) ∧
    (s.disp.findBlock order index = none →
      exec (.blockStart order index) s = .next s ∧ exec (.blockEnd order index) s = .next s)

/-- R177, R178: at the supervision timer an UP link is probed, and SILENT at the next expiry without a message taken; a
SILENT link is probed again; the timer restarts. At the acknowledgement timer the outstanding notice is sent again and
the timer restarts. A message goes out while a UNIT pair is in force (R164, log 58); an acknowledgement timer that
finds none restarts, and sends and marks nothing (log 14). Without the timer nothing happens (log 1). -/
def Obligations.DispatchTimers : Prop :=
  ∀ s : State, s.Quiet →
    let unit := s.disp.unitUsed
    let sent (m : List Byte) (t : State) : Prop :=
      t.disp.out = (if pairSet unit = true ∧ s.disp.out.length < 4 then s.disp.out ++ [⟨m, 0⟩] else s.disp.out)
    let framed (t : State) : Prop :=
      t.ring = s.ring ∧ t.seg = s.seg ∧ t.lines = s.lines ∧ t.fgcs = s.fgcs ∧ t.env = s.env ∧
        t.disp.queue = s.disp.queue ∧ t.disp.vr = s.disp.vr
    (∀ w, s.disp.supAt = some w →
      ∃ t, exec .supervisionTimerExpiry s = .next t ∧ framed t ∧ t.clock = (s.reach w).clock ∧
        (s.disp.link = .down → t.disp = { s.disp with supAt := none }) ∧
        (s.disp.link ≠ .down → t.disp.supAt = some ((s.reach w).runTime + 1000 * s.disp.page.supTime) ∧
          sent (messageBytes unit 0x20 0 []) t) ∧
        (s.disp.link = .up → s.disp.probe = false →
          t.disp.link = .up ∧ t.disp.probe = true ∧ t.disp.target = s.disp.target) ∧
        (s.disp.link = .up → s.disp.probe = true → t.disp.link = .silent ∧ t.disp.target = t.disp.chosen ∧
          (s.disp.queue = [] → t.disp.target = ⟨s.disp.page.pDef, 0, none, .default_, none⟩)) ∧
        (s.disp.link = .silent → t.disp.link = .silent ∧ t.disp.target = s.disp.target)) ∧
    (∀ w x, s.disp.notice.ackAt = some w → s.disp.notice.outstanding = some x →
      ∃ t, exec .ackTimerExpiry s = .next t ∧ framed t ∧ t.clock = (s.reach w).clock ∧ t.turb = s.turb ∧
        t.disp.notice = { s.disp.notice with
          ackAt := some ((s.reach w).runTime + 1000 * s.disp.page.ackTimeout)
          overdue := s.disp.notice.overdue || pairSet unit } ∧
        sent (messageBytes unit 0x32 x.number (bytesOf 2 x.cE ++ bytesOf 1 x.reason.code)) t) ∧
    (s.disp.supAt = none → exec .supervisionTimerExpiry s = .next s) ∧
    (s.disp.notice.ackAt = none → exec .ackTimerExpiry s = .next s)

/-! ### The management unit -/

/-- READ-TABLE, READ-POINT and READ-STATUS (R53, R184, R190), each with its refusals: a read answers what stands and
changes no state, but for the latches a READ-POINT clears; a burn section returns as many whole entries as fit in 236
bytes. The answers of READ-POINT and READ-STATUS are fields with a free layout (log 4), the number of records returned
by READ-TABLE takes one byte (log 62), the records of HALF-HOURS and DAYS have no component codes (log 86), the fields
that a record's kind does not have are log 88, the order of two refusals is log 61, and an empty burn record is refused
(log 42). R182: while a command is in execution any other, given directly (log 36), is answered BUSY and has no
effect. -/
def Obligations.ReadsAnswer : Prop :=
  ∀ s : State, s.Quiet →
    (s.mgmt.executing = none →
      (∀ (table page count : Byte) (start : Word16),
        let d := s.during .readTable
        let i := Instr.readTable table page start count
        (∀ e, tableOf table page = .error e → exec i s = .next (d.answer .readTable e)) ∧
        (∀ t, tableOf table page = .ok t →
          (t.records < start.toNat + count.toNat → exec i s = .next (d.answer .readTable .badIndex)) ∧
          (start.toNat + count.toNat ≤ t.records → count = 0 → exec i s = .next (d.answer .readTable .badValue)) ∧
          (start.toNat + count.toNat ≤ t.records → count ≠ 0 →
            ∃ data, exec i s = .next (d.answer .readTable .done data) ∧ data.length ≤ 236 ∧
              1 ≤ returned t count.toNat ∧ returned t count.toNat ≤ count.toNat ∧
              data = [table, page] ++ bytesOf 2 start.toNat ++ bytesOf 1 (returned t count.toNat) ++
                (List.range (returned t count.toNat)).flatMap fun j => s.recordBytes t (start.toNat + j)))) ∧
      (∀ point clear : Byte,
        let d := s.during .readPoint
        let p := s.point point.toNat
        (191 < point.toNat → exec (.readPoint point clear) s = .next (d.answer .readPoint .badIndex)) ∧
        (point.toNat < 192 → clear ≠ 0 → clear ≠ 1 →
          exec (.readPoint point clear) s = .next (d.answer .readPoint .badValue)) ∧
        (point.toNat < 192 → clear = 0 ∨ clear = 1 →
          exec (.readPoint point clear) s = .next
            ((if p.kind = .binary ∧ clear = 1 then d.setPoint point.toNat { p with riseLatch := 0, fallLatch := 0 }
              else d).place ⟨CommandCode.readPoint.byte, .done, .point p.readFields⟩))) ∧
      (∀ (sect : Byte) (start : Word16),
        let d := s.during .readStatus
        let i := Instr.readStatus sect start
        (sect = 0 ∨ 12 < sect.toNat → exec i s = .next (d.answer .readStatus .badValue)) ∧
        (∀ l, (sect = 5 ∧ l = .one) ∨ (sect = 6 ∧ l = .two) →
          ((s.line l).record.length ≤ start.toNat → exec i s = .next (d.answer .readStatus .badIndex)) ∧
          (start.toNat < (s.line l).record.length →
            exec i s = .next (d.place ⟨CommandCode.readStatus.byte, .done,
              .status sect.toNat ((s.line l).statusBurn sect.toNat start.toNat)⟩) ∧
            ∃ k, (s.line l).statusBurn sect.toNat start.toNat = (s.line l).burnFields start.toNat k ∧
              k ≤ (s.line l).record.length - start.toNat ∧
              (k ≠ 0 → (Config.statusLayout sect.toNat ((s.line l).burnFields start.toNat k)).length ≤ 236) ∧
              ∀ j, k < j → j ≤ (s.line l).record.length - start.toNat →
                236 < (Config.statusLayout sect.toNat ((s.line l).burnFields start.toNat j)).length)) ∧
        (1 ≤ sect.toNat → sect.toNat ≤ 12 → sect ≠ 5 → sect ≠ 6 →
          (start ≠ 0 → exec i s = .next (d.answer .readStatus .badIndex)) ∧
          (start = 0 → ∃ fields, d.statusOf sect.toNat = some fields ∧
            exec i s = .next (d.place ⟨CommandCode.readStatus.byte, .done, .status sect.toNat fields⟩))))) ∧
    (∀ i code args, commandOf i = some (code, args) → s.mgmt.executing.isSome = true →
      exec i s = .next { s with mgmt.busyAnswer := some code.byte })

/-- WRITE-TABLE (R185, R3, R23, R44, R61, R83, R97, R104, R113, R136, R151, R164): its checks in their order, each with
its refusal; a write whose values its chapter takes stores every record with its fields clamped, and the answer counts
the clamped fields; a value a chapter refuses is BAD-VALUE. SEGMENT, LINE, DOSING, HEADER, TURBINE and DISPATCH writes
change nothing else; a SLOT-MAP write clears the echo counts of the entries it changes, a POINTS write starts afresh
the records whose structure it changes, and an EMISSION write is followed by the exhausted condition. A table that is
written by no one, a LINE page of a line that is not OFF, the TURBINE page while LOADED, and outside CONFIG the slot
map, the SEGMENT parameters and a POINTS record whose structure fields or polarity would change are refused with
BAD-STATE. That BAD-STATE carries no data here and the count is one byte is log 8; the DISPATCH record of 14 bytes is
log 19. A DISPATCH write leaves the pairs and the threshold in force (log 58), a SEGMENT write the expiry of a running
return timer (log 63), and an EMISSION write the bases in force until the next sample instant (R97, log 81). EMPTY
records are taken whatever their other fields hold, with no clamp counted (log 18); the readings of slot entries and of
CARBON's fields are logs 29 and 10, what a POINTS write does to levels, and the order of its updates, is log 72. A
fresh start that brings quality BAD logs no POINT-BAD (log 84), and a LINE write leaves the demand trim (log 85). -/
def Obligations.PagesAreWritten : Prop :=
  ∀ (table page : Byte) (start : Word16) (records : List Byte) (s : State), s.Free →
    let d := s.during .writeTable
    let i := Instr.writeTable table page start records
    (∀ e, tableOf table page = .error e → exec i s = .next (d.answer .writeTable e)) ∧
    (∀ t, tableOf table page = .ok t →
      let n := records.length / t.size
      let recs := writtenRecords t n records
      (records = [] ∨ records.length % t.size ≠ 0 → exec i s = .next (d.answer .writeTable .badLength)) ∧
      (records ≠ [] → records.length % t.size = 0 →
        (s.writable t start.toNat recs = false → exec i s = .next (d.answer .writeTable .badState)) ∧
        (s.writable t start.toNat recs = true → t.records < start.toNat + n →
          exec i s = .next (d.answer .writeTable .badIndex)))) ∧
    (∀ (v : List Nat), start = 0 →
      (table = 10 → page = 0 → records.length = 20 → v = decodeFields (TableRef.header).widths records →
        (headerPageOf v = none → exec i s = .next (d.answer .writeTable .badValue)) ∧
        (∀ p, headerPageOf v = some p →
          exec i s = .next (({ d with env.page := p }).answerClamped .writeTable (clampedFields v p.fields)))) ∧
      (table = 11 → page = 0 → records.length = 12 → v = decodeFields (TableRef.turbine).widths records →
        s.turb.state ≠ .loaded →
        exec i s = .next (({ d with turb.page := turbinePageOf v }).answerClamped .writeTable
          (clampedFields v (turbinePageOf v).fields))) ∧
      (table = 12 → page = 0 → records.length = 14 → v = decodeFields (TableRef.dispatch).widths records →
        (dispatchPageOf v = none → exec i s = .next (d.answer .writeTable .badValue)) ∧
        (∀ p, dispatchPageOf v = some p →
          exec i s = .next (({ d with disp.page := p }).answerClamped .writeTable (clampedFields v p.fields))))) ∧
    (∀ t k n, tableOf table page = .ok t → start.toNat = k → records.length = n * t.size → 1 ≤ n → k + n ≤ t.records →
      let recs := writtenRecords t n records
      let refused : Prop := exec i s = .next (d.answer .writeTable .badValue)
      let stored (u : State) (count : Nat) : Prop := exec i s = .next (u.answerClamped .writeTable count)
      let counted (u : State) (count : Nat) : Prop :=
        u.Answered .writeTable (if count = 0 then .done else .doneClamped) (if count = 0 then [] else [countByte count])
      (t = .slotMap → s.ring.segment = .config → s.Shaped →
        (allOf (recs.map slotEntryOf) = none → refused) ∧
        (∀ es, allOf (recs.map slotEntryOf) = some es →
          (pointsOnce (replaceFrom s.ring.slotMap k es) = false → refused) ∧
          (pointsOnce (replaceFrom s.ring.slotMap k es) = true →
            ∃ u, exec i s = .next u ∧ SlotsWritten k es s u ∧ counted u 0))) ∧
      (t = .points → s.writable .points k recs = true → s.Shaped →
        (allOf (recs.map pointConfigOf) = none → refused) ∧
        (∀ ps, allOf (recs.map pointConfigOf) = some ps →
          (rolesOnce (replaceFrom s.points k ps) = false → refused) ∧
          (rolesOnce (replaceFrom s.points k ps) = true →
            ∃ u, exec i s = .next u ∧ PointsWritten k ps s u ∧
              counted u (clampedOver recs (ps.map fun p => if p.kind = .empty then [] else p.configFields))))) ∧
      (t = .stations → s.Shaped →
        ((∃ v ∈ recs, 1 < at_ v 5) → refused) ∧
        ((∀ v ∈ recs, at_ v 5 ≤ 1) →
          ∃ u, exec i s = .next u ∧ StationsWritten k recs s u ∧
            counted u (recs.filter fun v => decide (5 < at_ v 6)).length)) ∧
      (∀ v, t = .segment → s.ring.segment = .config → v = decodeFields t.widths records →
        (1 < at_ v 3 → refused) ∧
        (at_ v 3 ≤ 1 →
          let u : State := { d with
            ring := { s.ring with returnTimeout := clampNat (at_ v 0) 1 100, brokenCount := clampNat (at_ v 1) 3 50 }
            seg := { s.seg with silenceCount := clampNat (at_ v 2) 2 255, joinEnable := decide (at_ v 3 = 1) } }
          stored u (clampedFields (v.take 4) u.segmentFields))) ∧
      (∀ l v, t = .line l → (s.line l).state = .off → v = decodeFields t.widths records →
        stored (d.setLine l { s.line l with page := linePageOf v }) (clampedFields v (linePageOf v).fields)) ∧
      (∀ l, t = .emission l →
        ((∃ j v, recs[j]? = some v ∧ k + j ≠ 0 ∧ componentPageOf v = none) → refused) ∧
        ((∀ j v, recs[j]? = some v → k + j ≠ 0 → componentPageOf v ≠ none) →
          ∃ u pg, exec i s = .next u ∧ EmissionWritten k recs (s.fgc l).page pg ∧
            LineEvent l (d.setFgc l { s.fgc l with page := pg }) u ∧
            counted u (clampedOver recs ((List.range n).map fun j => u.recordFields (.emission l) (k + j))) ∧
            (u.fgc l).basis = (s.fgc l).basis ∧ (u.fgc l).abn.exhausted = (u.fgc l).isExhausted ∧
            ((u.fgc l).isExhausted = true → (u.line l).state.feeds = true → (s.fgc l).abn.exhausted = true) ∧
            ((u.fgc l).isExhausted = false → u.lines = s.lines))) ∧
      (∀ l, t = .dosing l →
        ((∃ j v, recs[j]? = some v ∧ loopPageOf (loopAt (k + j)) v = none) → refused) ∧
        ((∀ j v, recs[j]? = some v → loopPageOf (loopAt (k + j)) v ≠ none) →
          ∃ dosing, DosingWritten k recs (s.fgc l).dosing dosing ∧
            stored (d.setFgc l { s.fgc l with dosing := dosing })
              (clampedOver recs ((List.range n).map fun j => (dosing.get (loopAt (k + j))).fields))))) ∧
    (s.ring.segment ≠ .config → ∀ recs,
      s.writable .slotMap start.toNat recs = false ∧ s.writable .segment start.toNat recs = false ∧
      (s.writable .points start.toNat recs = false ↔
        ∃ j v k, recs[j]? = some v ∧ start.toNat + j < 192 ∧ k ∈ [0, 1, 2, 3, 4, 11] ∧
          at_ ((s.point (start.toNat + j)).fields.map (·.2)) k ≠ at_ v k ∧
          ¬((s.point (start.toNat + j)).kind = .empty ∧ at_ v 0 = 0))) ∧
    (∀ t, (t = .schedule ∨ ∃ l, t = .halfHours l ∨ t = .days l ∨ (t = .line l ∧ (s.line l).state ≠ .off) ∨
        (t = .turbine ∧ s.turb.state = .loaded)) → ∀ recs, s.writable t start.toNat recs = false)

/-- R189: READ-EVENTS takes the oldest entries, as many as asked for, as stand and at most 11; it answers DONE with the
lost count, the number of entries and their 20 bytes each, oldest first, and sets the lost count to 0. The bytes of a
source and of an UNSET plant time are free (log 5); the widths of the lost count, of the number and, in an entry, of
the source, the code and the subject are the model's (log 62). -/
def Obligations.EventsAreReadOldestFirst : Prop :=
  ∀ (count : Byte) (s : State), s.Free →
    ∃ out rest data, s.mgmt.events = out ++ rest ∧ out.length = min (min count.toNat 11) s.mgmt.events.length ∧
      data = bytesOf 2 s.mgmt.lost ++ bytesOf 1 out.length ++ out.flatMap Event.bytes ∧
      (∀ e : Event, e.bytes.length = 20) ∧ data.length = 3 + 20 * out.length ∧ data.length ≤ 236 ∧
      exec (.readEvents count) s = .next
        { s with
          mgmt.events := rest, mgmt.lost := 0, mgmt.executing := some CommandCode.readEvents.byte
          mgmt.response := some ⟨CommandCode.readEvents.byte, .done, .bytes data⟩, mgmt.nextSegment := 0 }

/-- SET-TIME (R186, R87, R103, R173, R174): ABSOLUTE sets plant time; STEP moves it, refused while it is UNSET or when
the result would be negative. Run time stays; every flue gas unit opens a fresh minute marked adjusted at the new time,
a burn entry in progress closes at the new time's next minute boundary, which for a SET-TIME within the minute under
way is the one it had, blocks that have ended leave the queue, and those left are PENDING exactly when their start lies
ahead. Plant time wraps at 2^48 (log 35), and a new time that is itself a boundary closes the entry (log 44). -/
def Obligations.PlantTimeIsSet : Prop :=
  ∀ (value : BitVec 48) (s : State), s.Free →
    let d := s.during .setTime
    let set (i : Instr) (p : Nat) : Prop :=
      ∃ t, exec i s = .next t ∧ t.clock = { s.clock with plant := some p } ∧ t.Answered .setTime .done [] ∧
        t.ring = s.ring ∧ t.seg = s.seg ∧ t.pending = s.pending ∧
        (∀ l, (t.fgc l).minute = some ((t.fgc l).freshMinute p true) ∧ (t.fgc l).half.isSome = true ∧
          ((t.line l).state = (s.line l).state → (s.line l).entry.isSome = true →
            (∀ b, (s.line l).burnAt = some b → b ≤ p + 60000 → p < b →
              (t.line l).burnTimer = (s.line l).burnTimer ∧ (t.line l).burnAt = some b) ∧
            ((∀ b, (s.line l).burnAt = some b → p + 60000 < b ∨ b ≤ p) →
              (t.line l).burnTimer = none ∧ (t.line l).burnAt = some (minuteFrom p)))) ∧
        (∀ b ∈ t.disp.queue, p < b.stop ∧ (b.status = .pending ↔ p < b.start)) ∧
        (∀ b ∈ s.disp.queue, p < b.stop → ∃ x ∈ t.disp.queue, { x with status := b.status } = b) ∧
        t.disp.target = t.disp.chosen
    set (.setTimeAbsolute value) value.toNat ∧
    (s.clock.plant = none → exec (.setTimeStep value) s = .next (d.answer .setTime .timeUnset)) ∧
    (∀ q, s.clock.plant = some q →
      ((q : Int) + value.toInt < 0 → exec (.setTimeStep value) s = .next (d.answer .setTime .badValue)) ∧
      (0 ≤ (q : Int) + value.toInt →
        set (.setTimeStep value) (((q : Int) + value.toInt).toNat % 281474976710656)))
end

