-- ==== Sys2Proof/Laws/Bytes.lean ====
section
/-! SUPPORT. Numbers in bytes (R21): how many bytes a number takes, and that reading them back gives it. -/

namespace Sys2Proof.Machine

@[simp] theorem bytesOf_length (n x : Nat) : (bytesOf n x).length = n := by
  induction n with
  | zero => rfl
  | succ n ih => simp [bytesOf, ih]

/-- Reading bytes on from a number already read. -/
theorem natOf_acc (n x a : Nat) :
    (bytesOf n x).foldl (fun a (y : Byte) => a * 256 + y.toNat) a = a * 256 ^ n + x % 256 ^ n := by
  induction n generalizing a with
  | zero => simp [bytesOf, Nat.mod_one]
  | succ n ih =>
    have split : x % 256 ^ (n + 1) = x / 256 ^ n % 256 * 256 ^ n + x % 256 ^ n := by
      rw [pow_succ, Nat.mod_mul, Nat.mul_comm (256 ^ n), Nat.add_comm]
    rw [split]
    simp only [bytesOf, List.foldl_cons, ih, BitVec.toNat_ofNat, Nat.reducePow]
    rw [pow_succ]
    ring

/-- R21: the bytes of a number spell it, as far as they reach. -/
@[simp] theorem natOf_bytesOf (n x : Nat) : natOf (bytesOf n x) = x % 256 ^ n := by
  unfold natOf
  rw [natOf_acc]
  simp

/-- A number that fits its bytes is read back whole. -/
theorem natOf_bytesOf_of_lt {n x : Nat} (h : x < 256 ^ n) : natOf (bytesOf n x) = x := by
  rw [natOf_bytesOf, Nat.mod_eq_of_lt h]

end Sys2Proof.Machine
end

