-- ==== Sys2Proof/Laws/State.lean ====
section
/-! SUPPORT. One lemma per field of State for each named update: what the update leaves as it was, and what it sets. -/

namespace Sys2Proof.Machine

/-! ### The bases in force are taken from the page (R97) -/

@[simp] theorem Fgc.takeBasis_basis (f : Fgc) (c : Component) :
    f.takeBasis.basis.get c = (f.page.comps.get c).basis := by cases c <;> rfl

@[simp] theorem Fgc.takeBasis_page (f : Fgc) : f.takeBasis.page = f.page := rfl

@[simp] theorem Fgc.takeBasis_latest (f : Fgc) : f.takeBasis.latest = f.latest := rfl

@[simp] theorem Fgc.takeBasis_minute (f : Fgc) : f.takeBasis.minute = f.minute := rfl

@[simp] theorem Fgc.takeBasis_calFlag (f : Fgc) (p : FgcPoint) : f.takeBasis.calFlag p = f.calFlag p := by
  cases p <;> rfl

/-! ### A line controller is replaced -/

@[simp] theorem State.setLine_clock (s : State) (l : LineId) (c : Line) : (s.setLine l c).clock = s.clock := rfl

@[simp] theorem State.setLine_resetLow (s : State) (l : LineId) (c : Line) : (s.setLine l c).resetLow = s.resetLow :=
  rfl

@[simp] theorem State.setLine_ring (s : State) (l : LineId) (c : Line) : (s.setLine l c).ring = s.ring := rfl

@[simp] theorem State.setLine_seg (s : State) (l : LineId) (c : Line) : (s.setLine l c).seg = s.seg := rfl

@[simp] theorem State.setLine_points (s : State) (l : LineId) (c : Line) : (s.setLine l c).points = s.points := rfl

@[simp] theorem State.setLine_fgcs (s : State) (l : LineId) (c : Line) : (s.setLine l c).fgcs = s.fgcs := rfl

@[simp] theorem State.setLine_env (s : State) (l : LineId) (c : Line) : (s.setLine l c).env = s.env := rfl

@[simp] theorem State.setLine_turb (s : State) (l : LineId) (c : Line) : (s.setLine l c).turb = s.turb := rfl

@[simp] theorem State.setLine_disp (s : State) (l : LineId) (c : Line) : (s.setLine l c).disp = s.disp := rfl

@[simp] theorem State.setLine_mgmt (s : State) (l : LineId) (c : Line) : (s.setLine l c).mgmt = s.mgmt := rfl

@[simp] theorem State.setLine_owed (s : State) (l : LineId) (c : Line) : (s.setLine l c).owed = s.owed := rfl

@[simp] theorem State.setLine_pending (s : State) (l : LineId) (c : Line) : (s.setLine l c).pending = s.pending := rfl

/-! ### A flue gas unit is replaced -/

@[simp] theorem State.setFgc_clock (s : State) (l : LineId) (f : Fgc) : (s.setFgc l f).clock = s.clock := rfl

@[simp] theorem State.setFgc_resetLow (s : State) (l : LineId) (f : Fgc) : (s.setFgc l f).resetLow = s.resetLow := rfl

@[simp] theorem State.setFgc_ring (s : State) (l : LineId) (f : Fgc) : (s.setFgc l f).ring = s.ring := rfl

@[simp] theorem State.setFgc_seg (s : State) (l : LineId) (f : Fgc) : (s.setFgc l f).seg = s.seg := rfl

@[simp] theorem State.setFgc_points (s : State) (l : LineId) (f : Fgc) : (s.setFgc l f).points = s.points := rfl

@[simp] theorem State.setFgc_lines (s : State) (l : LineId) (f : Fgc) : (s.setFgc l f).lines = s.lines := rfl

@[simp] theorem State.setFgc_env (s : State) (l : LineId) (f : Fgc) : (s.setFgc l f).env = s.env := rfl

@[simp] theorem State.setFgc_turb (s : State) (l : LineId) (f : Fgc) : (s.setFgc l f).turb = s.turb := rfl

@[simp] theorem State.setFgc_disp (s : State) (l : LineId) (f : Fgc) : (s.setFgc l f).disp = s.disp := rfl

@[simp] theorem State.setFgc_mgmt (s : State) (l : LineId) (f : Fgc) : (s.setFgc l f).mgmt = s.mgmt := rfl

@[simp] theorem State.setFgc_owed (s : State) (l : LineId) (f : Fgc) : (s.setFgc l f).owed = s.owed := rfl

@[simp] theorem State.setFgc_pending (s : State) (l : LineId) (f : Fgc) : (s.setFgc l f).pending = s.pending := rfl

/-! ### A point record is stored -/

@[simp] theorem State.setPoint_clock (s : State) (i : Nat) (p : Point) : (s.setPoint i p).clock = s.clock := rfl

@[simp] theorem State.setPoint_resetLow (s : State) (i : Nat) (p : Point) : (s.setPoint i p).resetLow = s.resetLow :=
  rfl

@[simp] theorem State.setPoint_ring (s : State) (i : Nat) (p : Point) : (s.setPoint i p).ring = s.ring := rfl

@[simp] theorem State.setPoint_seg (s : State) (i : Nat) (p : Point) : (s.setPoint i p).seg = s.seg := rfl

@[simp] theorem State.setPoint_lines (s : State) (i : Nat) (p : Point) : (s.setPoint i p).lines = s.lines := rfl

@[simp] theorem State.setPoint_fgcs (s : State) (i : Nat) (p : Point) : (s.setPoint i p).fgcs = s.fgcs := rfl

@[simp] theorem State.setPoint_env (s : State) (i : Nat) (p : Point) : (s.setPoint i p).env = s.env := rfl

@[simp] theorem State.setPoint_turb (s : State) (i : Nat) (p : Point) : (s.setPoint i p).turb = s.turb := rfl

@[simp] theorem State.setPoint_disp (s : State) (i : Nat) (p : Point) : (s.setPoint i p).disp = s.disp := rfl

@[simp] theorem State.setPoint_mgmt (s : State) (i : Nat) (p : Point) : (s.setPoint i p).mgmt = s.mgmt := rfl

@[simp] theorem State.setPoint_owed (s : State) (i : Nat) (p : Point) : (s.setPoint i p).owed = s.owed := rfl

@[simp] theorem State.setPoint_pending (s : State) (i : Nat) (p : Point) : (s.setPoint i p).pending = s.pending := rfl

/-! ### A station entry is stored -/

@[simp] theorem State.setStation_clock (s : State) (n : Nat) (e : Station) : (s.setStation n e).clock = s.clock := rfl

@[simp] theorem State.setStation_resetLow (s : State) (n : Nat) (e : Station) : (s.setStation n e).resetLow = s.resetLow :=
  rfl

@[simp] theorem State.setStation_ring (s : State) (n : Nat) (e : Station) : (s.setStation n e).ring = s.ring := rfl

@[simp] theorem State.setStation_points (s : State) (n : Nat) (e : Station) : (s.setStation n e).points = s.points :=
  rfl

@[simp] theorem State.setStation_lines (s : State) (n : Nat) (e : Station) : (s.setStation n e).lines = s.lines := rfl

@[simp] theorem State.setStation_fgcs (s : State) (n : Nat) (e : Station) : (s.setStation n e).fgcs = s.fgcs := rfl

@[simp] theorem State.setStation_env (s : State) (n : Nat) (e : Station) : (s.setStation n e).env = s.env := rfl

@[simp] theorem State.setStation_turb (s : State) (n : Nat) (e : Station) : (s.setStation n e).turb = s.turb := rfl

@[simp] theorem State.setStation_disp (s : State) (n : Nat) (e : Station) : (s.setStation n e).disp = s.disp := rfl

@[simp] theorem State.setStation_mgmt (s : State) (n : Nat) (e : Station) : (s.setStation n e).mgmt = s.mgmt := rfl

@[simp] theorem State.setStation_owed (s : State) (n : Nat) (e : Station) : (s.setStation n e).owed = s.owed := rfl

@[simp] theorem State.setStation_pending (s : State) (n : Nat) (e : Station) : (s.setStation n e).pending = s.pending :=
  rfl

/-! ### A step is owed -/

@[simp] theorem State.owe_clock (s : State) (i : Instr) : (s.owe i).clock = s.clock := rfl

@[simp] theorem State.owe_resetLow (s : State) (i : Instr) : (s.owe i).resetLow = s.resetLow := rfl

@[simp] theorem State.owe_ring (s : State) (i : Instr) : (s.owe i).ring = s.ring := rfl

@[simp] theorem State.owe_seg (s : State) (i : Instr) : (s.owe i).seg = s.seg := rfl

@[simp] theorem State.owe_points (s : State) (i : Instr) : (s.owe i).points = s.points := rfl

@[simp] theorem State.owe_lines (s : State) (i : Instr) : (s.owe i).lines = s.lines := rfl

@[simp] theorem State.owe_fgcs (s : State) (i : Instr) : (s.owe i).fgcs = s.fgcs := rfl

@[simp] theorem State.owe_env (s : State) (i : Instr) : (s.owe i).env = s.env := rfl

@[simp] theorem State.owe_turb (s : State) (i : Instr) : (s.owe i).turb = s.turb := rfl

@[simp] theorem State.owe_disp (s : State) (i : Instr) : (s.owe i).disp = s.disp := rfl

@[simp] theorem State.owe_mgmt (s : State) (i : Instr) : (s.owe i).mgmt = s.mgmt := rfl

@[simp] theorem State.owe_pending (s : State) (i : Instr) : (s.owe i).pending = s.pending := rfl

/-! ### Run time has come, in tenths of a millisecond -/

@[simp] theorem State.reachTenths_resetLow (s : State) (t : Nat) : (s.reachTenths t).resetLow = s.resetLow := rfl

@[simp] theorem State.reachTenths_ring (s : State) (t : Nat) : (s.reachTenths t).ring = s.ring := rfl

@[simp] theorem State.reachTenths_seg (s : State) (t : Nat) : (s.reachTenths t).seg = s.seg := rfl

@[simp] theorem State.reachTenths_points (s : State) (t : Nat) : (s.reachTenths t).points = s.points := rfl

@[simp] theorem State.reachTenths_lines (s : State) (t : Nat) : (s.reachTenths t).lines = s.lines := rfl

@[simp] theorem State.reachTenths_fgcs (s : State) (t : Nat) : (s.reachTenths t).fgcs = s.fgcs := rfl

@[simp] theorem State.reachTenths_env (s : State) (t : Nat) : (s.reachTenths t).env = s.env := rfl

@[simp] theorem State.reachTenths_turb (s : State) (t : Nat) : (s.reachTenths t).turb = s.turb := rfl

@[simp] theorem State.reachTenths_disp (s : State) (t : Nat) : (s.reachTenths t).disp = s.disp := rfl

@[simp] theorem State.reachTenths_mgmt (s : State) (t : Nat) : (s.reachTenths t).mgmt = s.mgmt := rfl

@[simp] theorem State.reachTenths_owed (s : State) (t : Nat) : (s.reachTenths t).owed = s.owed := rfl

@[simp] theorem State.reachTenths_pending (s : State) (t : Nat) : (s.reachTenths t).pending = s.pending := rfl

/-! ### Run time has come, in milliseconds -/

@[simp] theorem State.reach_resetLow (s : State) (t : Nat) : (s.reach t).resetLow = s.resetLow := rfl

@[simp] theorem State.reach_ring (s : State) (t : Nat) : (s.reach t).ring = s.ring := rfl

@[simp] theorem State.reach_seg (s : State) (t : Nat) : (s.reach t).seg = s.seg := rfl

@[simp] theorem State.reach_points (s : State) (t : Nat) : (s.reach t).points = s.points := rfl

@[simp] theorem State.reach_lines (s : State) (t : Nat) : (s.reach t).lines = s.lines := rfl

@[simp] theorem State.reach_fgcs (s : State) (t : Nat) : (s.reach t).fgcs = s.fgcs := rfl

@[simp] theorem State.reach_env (s : State) (t : Nat) : (s.reach t).env = s.env := rfl

@[simp] theorem State.reach_turb (s : State) (t : Nat) : (s.reach t).turb = s.turb := rfl

@[simp] theorem State.reach_disp (s : State) (t : Nat) : (s.reach t).disp = s.disp := rfl

@[simp] theorem State.reach_mgmt (s : State) (t : Nat) : (s.reach t).mgmt = s.mgmt := rfl

@[simp] theorem State.reach_owed (s : State) (t : Nat) : (s.reach t).owed = s.owed := rfl

@[simp] theorem State.reach_pending (s : State) (t : Nat) : (s.reach t).pending = s.pending := rfl

/-! ### Plant time has come -/

@[simp] theorem State.reachPlant_resetLow (s : State) (p : Nat) : (s.reachPlant p).resetLow = s.resetLow :=
  by unfold State.reachPlant; split <;> [rfl; (split <;> rfl)]

@[simp] theorem State.reachPlant_ring (s : State) (p : Nat) : (s.reachPlant p).ring = s.ring :=
  by unfold State.reachPlant; split <;> [rfl; (split <;> rfl)]

@[simp] theorem State.reachPlant_seg (s : State) (p : Nat) : (s.reachPlant p).seg = s.seg :=
  by unfold State.reachPlant; split <;> [rfl; (split <;> rfl)]

@[simp] theorem State.reachPlant_points (s : State) (p : Nat) : (s.reachPlant p).points = s.points :=
  by unfold State.reachPlant; split <;> [rfl; (split <;> rfl)]

@[simp] theorem State.reachPlant_lines (s : State) (p : Nat) : (s.reachPlant p).lines = s.lines :=
  by unfold State.reachPlant; split <;> [rfl; (split <;> rfl)]

@[simp] theorem State.reachPlant_fgcs (s : State) (p : Nat) : (s.reachPlant p).fgcs = s.fgcs :=
  by unfold State.reachPlant; split <;> [rfl; (split <;> rfl)]

@[simp] theorem State.reachPlant_env (s : State) (p : Nat) : (s.reachPlant p).env = s.env :=
  by unfold State.reachPlant; split <;> [rfl; (split <;> rfl)]

@[simp] theorem State.reachPlant_turb (s : State) (p : Nat) : (s.reachPlant p).turb = s.turb :=
  by unfold State.reachPlant; split <;> [rfl; (split <;> rfl)]

@[simp] theorem State.reachPlant_disp (s : State) (p : Nat) : (s.reachPlant p).disp = s.disp :=
  by unfold State.reachPlant; split <;> [rfl; (split <;> rfl)]

@[simp] theorem State.reachPlant_mgmt (s : State) (p : Nat) : (s.reachPlant p).mgmt = s.mgmt :=
  by unfold State.reachPlant; split <;> [rfl; (split <;> rfl)]

@[simp] theorem State.reachPlant_owed (s : State) (p : Nat) : (s.reachPlant p).owed = s.owed :=
  by unfold State.reachPlant; split <;> [rfl; (split <;> rfl)]

@[simp] theorem State.reachPlant_pending (s : State) (p : Nat) : (s.reachPlant p).pending = s.pending :=
  by unfold State.reachPlant; split <;> [rfl; (split <;> rfl)]

/-! ### A response is placed -/

@[simp] theorem State.place_clock (s : State) (r : Response) : (s.place r).clock = s.clock := rfl

@[simp] theorem State.place_resetLow (s : State) (r : Response) : (s.place r).resetLow = s.resetLow := rfl

@[simp] theorem State.place_ring (s : State) (r : Response) : (s.place r).ring = s.ring := rfl

@[simp] theorem State.place_seg (s : State) (r : Response) : (s.place r).seg = s.seg := rfl

@[simp] theorem State.place_points (s : State) (r : Response) : (s.place r).points = s.points := rfl

@[simp] theorem State.place_lines (s : State) (r : Response) : (s.place r).lines = s.lines := rfl

@[simp] theorem State.place_fgcs (s : State) (r : Response) : (s.place r).fgcs = s.fgcs := rfl

@[simp] theorem State.place_env (s : State) (r : Response) : (s.place r).env = s.env := rfl

@[simp] theorem State.place_turb (s : State) (r : Response) : (s.place r).turb = s.turb := rfl

@[simp] theorem State.place_disp (s : State) (r : Response) : (s.place r).disp = s.disp := rfl

@[simp] theorem State.place_owed (s : State) (r : Response) : (s.place r).owed = s.owed := rfl

@[simp] theorem State.place_pending (s : State) (r : Response) : (s.place r).pending = s.pending := rfl

/-! ### A command is answered -/

@[simp] theorem State.answer_clock (s : State) (c : CommandCode) (k : RespCode) (d : List Byte) : (s.answer c k d).clock = s.clock :=
  rfl

@[simp] theorem State.answer_resetLow (s : State) (c : CommandCode) (k : RespCode) (d : List Byte) : (s.answer c k d).resetLow = s.resetLow :=
  rfl

@[simp] theorem State.answer_ring (s : State) (c : CommandCode) (k : RespCode) (d : List Byte) : (s.answer c k d).ring = s.ring :=
  rfl

@[simp] theorem State.answer_seg (s : State) (c : CommandCode) (k : RespCode) (d : List Byte) : (s.answer c k d).seg = s.seg :=
  rfl

@[simp] theorem State.answer_points (s : State) (c : CommandCode) (k : RespCode) (d : List Byte) : (s.answer c k d).points = s.points :=
  rfl

@[simp] theorem State.answer_lines (s : State) (c : CommandCode) (k : RespCode) (d : List Byte) : (s.answer c k d).lines = s.lines :=
  rfl

@[simp] theorem State.answer_fgcs (s : State) (c : CommandCode) (k : RespCode) (d : List Byte) : (s.answer c k d).fgcs = s.fgcs :=
  rfl

@[simp] theorem State.answer_env (s : State) (c : CommandCode) (k : RespCode) (d : List Byte) : (s.answer c k d).env = s.env :=
  rfl

@[simp] theorem State.answer_turb (s : State) (c : CommandCode) (k : RespCode) (d : List Byte) : (s.answer c k d).turb = s.turb :=
  rfl

@[simp] theorem State.answer_disp (s : State) (c : CommandCode) (k : RespCode) (d : List Byte) : (s.answer c k d).disp = s.disp :=
  rfl

@[simp] theorem State.answer_owed (s : State) (c : CommandCode) (k : RespCode) (d : List Byte) : (s.answer c k d).owed = s.owed :=
  rfl

@[simp] theorem State.answer_pending (s : State) (c : CommandCode) (k : RespCode) (d : List Byte) : (s.answer c k d).pending = s.pending :=
  rfl

/-! ### A command is in execution -/

@[simp] theorem State.during_clock (s : State) (c : CommandCode) : (s.during c).clock = s.clock := rfl

@[simp] theorem State.during_resetLow (s : State) (c : CommandCode) : (s.during c).resetLow = s.resetLow := rfl

@[simp] theorem State.during_ring (s : State) (c : CommandCode) : (s.during c).ring = s.ring := rfl

@[simp] theorem State.during_seg (s : State) (c : CommandCode) : (s.during c).seg = s.seg := rfl

@[simp] theorem State.during_points (s : State) (c : CommandCode) : (s.during c).points = s.points := rfl

@[simp] theorem State.during_lines (s : State) (c : CommandCode) : (s.during c).lines = s.lines := rfl

@[simp] theorem State.during_fgcs (s : State) (c : CommandCode) : (s.during c).fgcs = s.fgcs := rfl

@[simp] theorem State.during_env (s : State) (c : CommandCode) : (s.during c).env = s.env := rfl

@[simp] theorem State.during_turb (s : State) (c : CommandCode) : (s.during c).turb = s.turb := rfl

@[simp] theorem State.during_disp (s : State) (c : CommandCode) : (s.during c).disp = s.disp := rfl

@[simp] theorem State.during_owed (s : State) (c : CommandCode) : (s.during c).owed = s.owed := rfl

@[simp] theorem State.during_pending (s : State) (c : CommandCode) : (s.during c).pending = s.pending := rfl

/-! ### An event is logged -/

@[simp] theorem State.log_clock (s : State) (a : Source) (n : EventName) (x y z : Int) : (s.log a n x y z).clock = s.clock :=
  by unfold State.log; split <;> rfl

@[simp] theorem State.log_resetLow (s : State) (a : Source) (n : EventName) (x y z : Int) : (s.log a n x y z).resetLow = s.resetLow :=
  by unfold State.log; split <;> rfl

@[simp] theorem State.log_ring (s : State) (a : Source) (n : EventName) (x y z : Int) : (s.log a n x y z).ring = s.ring :=
  by unfold State.log; split <;> rfl

@[simp] theorem State.log_seg (s : State) (a : Source) (n : EventName) (x y z : Int) : (s.log a n x y z).seg = s.seg :=
  by unfold State.log; split <;> rfl

@[simp] theorem State.log_points (s : State) (a : Source) (n : EventName) (x y z : Int) : (s.log a n x y z).points = s.points :=
  by unfold State.log; split <;> rfl

@[simp] theorem State.log_lines (s : State) (a : Source) (n : EventName) (x y z : Int) : (s.log a n x y z).lines = s.lines :=
  by unfold State.log; split <;> rfl

@[simp] theorem State.log_fgcs (s : State) (a : Source) (n : EventName) (x y z : Int) : (s.log a n x y z).fgcs = s.fgcs :=
  by unfold State.log; split <;> rfl

@[simp] theorem State.log_env (s : State) (a : Source) (n : EventName) (x y z : Int) : (s.log a n x y z).env = s.env :=
  by unfold State.log; split <;> rfl

@[simp] theorem State.log_turb (s : State) (a : Source) (n : EventName) (x y z : Int) : (s.log a n x y z).turb = s.turb :=
  by unfold State.log; split <;> rfl

@[simp] theorem State.log_disp (s : State) (a : Source) (n : EventName) (x y z : Int) : (s.log a n x y z).disp = s.disp :=
  by unfold State.log; split <;> rfl

@[simp] theorem State.log_owed (s : State) (a : Source) (n : EventName) (x y z : Int) : (s.log a n x y z).owed = s.owed :=
  by unfold State.log; split <;> rfl

@[simp] theorem State.log_pending (s : State) (a : Source) (n : EventName) (x y z : Int) : (s.log a n x y z).pending = s.pending :=
  by unfold State.log; split <;> rfl

/-! ### An owner sets its point -/

@[simp] theorem State.own_clock (s : State) (r : Role) (l : Option LineId) (v : Int) : (s.own r l v).clock = s.clock :=
  by unfold State.own; split <;> [rfl; (split <;> rfl)]

@[simp] theorem State.own_resetLow (s : State) (r : Role) (l : Option LineId) (v : Int) : (s.own r l v).resetLow = s.resetLow :=
  by unfold State.own; split <;> [rfl; (split <;> rfl)]

@[simp] theorem State.own_ring (s : State) (r : Role) (l : Option LineId) (v : Int) : (s.own r l v).ring = s.ring :=
  by unfold State.own; split <;> [rfl; (split <;> rfl)]

@[simp] theorem State.own_seg (s : State) (r : Role) (l : Option LineId) (v : Int) : (s.own r l v).seg = s.seg :=
  by unfold State.own; split <;> [rfl; (split <;> rfl)]

@[simp] theorem State.own_lines (s : State) (r : Role) (l : Option LineId) (v : Int) : (s.own r l v).lines = s.lines :=
  by unfold State.own; split <;> [rfl; (split <;> rfl)]

@[simp] theorem State.own_fgcs (s : State) (r : Role) (l : Option LineId) (v : Int) : (s.own r l v).fgcs = s.fgcs :=
  by unfold State.own; split <;> [rfl; (split <;> rfl)]

@[simp] theorem State.own_env (s : State) (r : Role) (l : Option LineId) (v : Int) : (s.own r l v).env = s.env :=
  by unfold State.own; split <;> [rfl; (split <;> rfl)]

@[simp] theorem State.own_turb (s : State) (r : Role) (l : Option LineId) (v : Int) : (s.own r l v).turb = s.turb :=
  by unfold State.own; split <;> [rfl; (split <;> rfl)]

@[simp] theorem State.own_disp (s : State) (r : Role) (l : Option LineId) (v : Int) : (s.own r l v).disp = s.disp :=
  by unfold State.own; split <;> [rfl; (split <;> rfl)]

@[simp] theorem State.own_mgmt (s : State) (r : Role) (l : Option LineId) (v : Int) : (s.own r l v).mgmt = s.mgmt :=
  by unfold State.own; split <;> [rfl; (split <;> rfl)]

@[simp] theorem State.own_owed (s : State) (r : Role) (l : Option LineId) (v : Int) : (s.own r l v).owed = s.owed :=
  by unfold State.own; split <;> [rfl; (split <;> rfl)]

@[simp] theorem State.own_pending (s : State) (r : Role) (l : Option LineId) (v : Int) : (s.own r l v).pending = s.pending :=
  by unfold State.own; split <;> [rfl; (split <;> rfl)]

/-! ### An allocation run is due -/

@[simp] theorem State.oweRun_clock (s : State) (c : RunCause) : (s.oweRun c).clock = s.clock :=
  by unfold State.oweRun; split <;> rfl

@[simp] theorem State.oweRun_resetLow (s : State) (c : RunCause) : (s.oweRun c).resetLow = s.resetLow :=
  by unfold State.oweRun; split <;> rfl

@[simp] theorem State.oweRun_ring (s : State) (c : RunCause) : (s.oweRun c).ring = s.ring :=
  by unfold State.oweRun; split <;> rfl

@[simp] theorem State.oweRun_seg (s : State) (c : RunCause) : (s.oweRun c).seg = s.seg :=
  by unfold State.oweRun; split <;> rfl

@[simp] theorem State.oweRun_points (s : State) (c : RunCause) : (s.oweRun c).points = s.points :=
  by unfold State.oweRun; split <;> rfl

@[simp] theorem State.oweRun_lines (s : State) (c : RunCause) : (s.oweRun c).lines = s.lines :=
  by unfold State.oweRun; split <;> rfl

@[simp] theorem State.oweRun_fgcs (s : State) (c : RunCause) : (s.oweRun c).fgcs = s.fgcs :=
  by unfold State.oweRun; split <;> rfl

@[simp] theorem State.oweRun_env (s : State) (c : RunCause) : (s.oweRun c).env = s.env :=
  by unfold State.oweRun; split <;> rfl

@[simp] theorem State.oweRun_turb (s : State) (c : RunCause) : (s.oweRun c).turb = s.turb :=
  by unfold State.oweRun; split <;> rfl

@[simp] theorem State.oweRun_disp (s : State) (c : RunCause) : (s.oweRun c).disp = s.disp :=
  by unfold State.oweRun; split <;> rfl

@[simp] theorem State.oweRun_mgmt (s : State) (c : RunCause) : (s.oweRun c).mgmt = s.mgmt :=
  by unfold State.oweRun; split <;> rfl

@[simp] theorem State.oweRun_pending (s : State) (c : RunCause) : (s.oweRun c).pending = s.pending :=
  by unfold State.oweRun; split <;> rfl

/-! ### What an update sets -/

@[simp] theorem Two.get_set {α : Type} (t : Two α) (l : LineId) (a : α) : (t.set l a).get l = a := by cases l <;> rfl

@[simp] theorem Two.get_set_other {α : Type} (t : Two α) (l : LineId) (a : α) :
    (t.set l a).get (otherLine l) = t.get (otherLine l) := by cases l <;> rfl

@[simp] theorem Two.set_get {α : Type} (t : Two α) (l : LineId) : t.set l (t.get l) = t := by cases l <;> rfl

@[simp] theorem Two.set_set {α : Type} (t : Two α) (l : LineId) (a b : α) : (t.set l a).set l b = t.set l b := by
  cases l <;> rfl

@[simp] theorem State.setLine_line (s : State) (l : LineId) (c : Line) : (s.setLine l c).line l = c := by cases l <;> rfl

@[simp] theorem State.setLine_line_other (s : State) (l : LineId) (c : Line) :
    (s.setLine l c).line (otherLine l) = s.line (otherLine l) := by cases l <;> rfl

@[simp] theorem State.setFgc_fgc (s : State) (l : LineId) (f : Fgc) : (s.setFgc l f).fgc l = f := by cases l <;> rfl

@[simp] theorem State.setFgc_fgc_other (s : State) (l : LineId) (f : Fgc) :
    (s.setFgc l f).fgc (otherLine l) = s.fgc (otherLine l) := by cases l <;> rfl

theorem State.setPoint_point (s : State) (i : Nat) (p : Point) (h : i < s.points.length) :
    (s.setPoint i p).point i = p := by
  simp [State.point, State.setPoint, h]

theorem State.setPoint_point_other (s : State) (i j : Nat) (p : Point) (h : i ≠ j) :
    (s.setPoint i p).point j = s.point j := by
  simp [State.point, State.setPoint, List.getD_eq_getElem?_getD, List.getElem?_set_ne h]

@[simp] theorem State.owe_owed (s : State) (i : Instr) : (s.owe i).owed = s.owed ++ [i] := rfl

@[simp] theorem State.place_response (s : State) (r : Response) : (s.place r).mgmt.response = some r := rfl

@[simp] theorem State.place_nextSegment (s : State) (r : Response) : (s.place r).mgmt.nextSegment = 0 := rfl

@[simp] theorem State.place_events (s : State) (r : Response) : (s.place r).mgmt.events = s.mgmt.events := rfl

@[simp] theorem State.answer_events (s : State) (c : CommandCode) (k : RespCode) (d : List Byte) :
    (s.answer c k d).mgmt.events = s.mgmt.events := rfl

@[simp] theorem State.answer_lost (s : State) (c : CommandCode) (k : RespCode) (d : List Byte) :
    (s.answer c k d).mgmt.lost = s.mgmt.lost := rfl

@[simp] theorem State.answer_executing (s : State) (c : CommandCode) (k : RespCode) (d : List Byte) :
    (s.answer c k d).mgmt.executing = s.mgmt.executing := rfl

theorem State.answered (s : State) (c : CommandCode) (k : RespCode) (d : List Byte) :
    (s.answer c k d).Answered c k d := ⟨rfl, rfl⟩

@[simp] theorem State.during_executing (s : State) (c : CommandCode) :
    (s.during c).mgmt.executing = some c.byte := rfl

@[simp] theorem State.during_events (s : State) (c : CommandCode) : (s.during c).mgmt.events = s.mgmt.events := rfl

@[simp] theorem State.during_lost (s : State) (c : CommandCode) : (s.during c).mgmt.lost = s.mgmt.lost := rfl

@[simp] theorem State.reachTenths_clock (s : State) (t : Nat) : (s.reachTenths t).clock = s.clock.reach t := rfl

@[simp] theorem State.reach_clock (s : State) (t : Nat) : (s.reach t).clock = s.clock.reach (10 * t) := rfl

/-! ### Blocks and points read through an update that leaves them -/

@[simp] theorem State.setLine_fgc (s : State) (l : LineId) (c : Line) (k : LineId) : (s.setLine l c).fgc k = s.fgc k :=
  by simp [State.fgc]

@[simp] theorem State.setLine_point (s : State) (l : LineId) (c : Line) (j : Nat) : (s.setLine l c).point j = s.point j :=
  by simp [State.point]

@[simp] theorem State.setLine_findPoint (s : State) (l : LineId) (c : Line) (q : Role) (m : Option LineId) : (s.setLine l c).findPoint q m = s.findPoint q m :=
  by simp [State.findPoint]

@[simp] theorem State.setLine_runTime (s : State) (l : LineId) (c : Line) : (s.setLine l c).runTime = s.runTime :=
  by simp [State.runTime]

@[simp] theorem State.setFgc_line (s : State) (l : LineId) (f : Fgc) (k : LineId) : (s.setFgc l f).line k = s.line k :=
  by simp [State.line]

@[simp] theorem State.setFgc_point (s : State) (l : LineId) (f : Fgc) (j : Nat) : (s.setFgc l f).point j = s.point j :=
  by simp [State.point]

@[simp] theorem State.setFgc_findPoint (s : State) (l : LineId) (f : Fgc) (q : Role) (m : Option LineId) : (s.setFgc l f).findPoint q m = s.findPoint q m :=
  by simp [State.findPoint]

@[simp] theorem State.setFgc_runTime (s : State) (l : LineId) (f : Fgc) : (s.setFgc l f).runTime = s.runTime :=
  by simp [State.runTime]

@[simp] theorem State.setPoint_line (s : State) (i : Nat) (p : Point) (k : LineId) : (s.setPoint i p).line k = s.line k :=
  by simp [State.line]

@[simp] theorem State.setPoint_fgc (s : State) (i : Nat) (p : Point) (k : LineId) : (s.setPoint i p).fgc k = s.fgc k :=
  by simp [State.fgc]

@[simp] theorem State.setPoint_runTime (s : State) (i : Nat) (p : Point) : (s.setPoint i p).runTime = s.runTime :=
  by simp [State.runTime]

@[simp] theorem State.owe_line (s : State) (i : Instr) (k : LineId) : (s.owe i).line k = s.line k :=
  by simp [State.line]

@[simp] theorem State.owe_fgc (s : State) (i : Instr) (k : LineId) : (s.owe i).fgc k = s.fgc k := by simp [State.fgc]

@[simp] theorem State.owe_point (s : State) (i : Instr) (j : Nat) : (s.owe i).point j = s.point j :=
  by simp [State.point]

@[simp] theorem State.owe_findPoint (s : State) (i : Instr) (q : Role) (m : Option LineId) : (s.owe i).findPoint q m = s.findPoint q m :=
  by simp [State.findPoint]

@[simp] theorem State.owe_runTime (s : State) (i : Instr) : (s.owe i).runTime = s.runTime := by simp [State.runTime]

@[simp] theorem State.reach_line (s : State) (t : Nat) (k : LineId) : (s.reach t).line k = s.line k :=
  by simp [State.line]

@[simp] theorem State.reach_fgc (s : State) (t : Nat) (k : LineId) : (s.reach t).fgc k = s.fgc k :=
  by simp [State.fgc]

@[simp] theorem State.reach_point (s : State) (t : Nat) (j : Nat) : (s.reach t).point j = s.point j :=
  by simp [State.point]

@[simp] theorem State.reach_findPoint (s : State) (t : Nat) (q : Role) (m : Option LineId) : (s.reach t).findPoint q m = s.findPoint q m :=
  by simp [State.findPoint]

@[simp] theorem State.reachTenths_line (s : State) (t : Nat) (k : LineId) : (s.reachTenths t).line k = s.line k :=
  by simp [State.line]

@[simp] theorem State.reachTenths_fgc (s : State) (t : Nat) (k : LineId) : (s.reachTenths t).fgc k = s.fgc k :=
  by simp [State.fgc]

@[simp] theorem State.reachTenths_point (s : State) (t : Nat) (j : Nat) : (s.reachTenths t).point j = s.point j :=
  by simp [State.point]

@[simp] theorem State.reachTenths_findPoint (s : State) (t : Nat) (q : Role) (m : Option LineId) : (s.reachTenths t).findPoint q m = s.findPoint q m :=
  by simp [State.findPoint]

@[simp] theorem State.reachPlant_line (s : State) (p : Nat) (k : LineId) : (s.reachPlant p).line k = s.line k :=
  by simp [State.line]

@[simp] theorem State.reachPlant_fgc (s : State) (p : Nat) (k : LineId) : (s.reachPlant p).fgc k = s.fgc k :=
  by simp [State.fgc]

@[simp] theorem State.reachPlant_point (s : State) (p : Nat) (j : Nat) : (s.reachPlant p).point j = s.point j :=
  by simp [State.point]

@[simp] theorem State.reachPlant_findPoint (s : State) (p : Nat) (q : Role) (m : Option LineId) : (s.reachPlant p).findPoint q m = s.findPoint q m :=
  by simp [State.findPoint]

@[simp] theorem State.place_line (s : State) (r : Response) (k : LineId) : (s.place r).line k = s.line k :=
  by simp [State.line]

@[simp] theorem State.place_fgc (s : State) (r : Response) (k : LineId) : (s.place r).fgc k = s.fgc k :=
  by simp [State.fgc]

@[simp] theorem State.place_point (s : State) (r : Response) (j : Nat) : (s.place r).point j = s.point j :=
  by simp [State.point]

@[simp] theorem State.place_findPoint (s : State) (r : Response) (q : Role) (m : Option LineId) : (s.place r).findPoint q m = s.findPoint q m :=
  by simp [State.findPoint]

@[simp] theorem State.place_runTime (s : State) (r : Response) : (s.place r).runTime = s.runTime :=
  by simp [State.runTime]

@[simp] theorem State.answer_line (s : State) (c : CommandCode) (e : RespCode) (d : List Byte) (k : LineId) : (s.answer c e d).line k = s.line k :=
  by simp [State.line]

@[simp] theorem State.answer_fgc (s : State) (c : CommandCode) (e : RespCode) (d : List Byte) (k : LineId) : (s.answer c e d).fgc k = s.fgc k :=
  by simp [State.fgc]

@[simp] theorem State.answer_point (s : State) (c : CommandCode) (e : RespCode) (d : List Byte) (j : Nat) : (s.answer c e d).point j = s.point j :=
  by simp [State.point]

@[simp] theorem State.answer_findPoint (s : State) (c : CommandCode) (e : RespCode) (d : List Byte) (q : Role) (m : Option LineId) : (s.answer c e d).findPoint q m = s.findPoint q m :=
  by simp [State.findPoint]

@[simp] theorem State.answer_runTime (s : State) (c : CommandCode) (e : RespCode) (d : List Byte) : (s.answer c e d).runTime = s.runTime :=
  by simp [State.runTime]

@[simp] theorem State.during_line (s : State) (c : CommandCode) (k : LineId) : (s.during c).line k = s.line k :=
  by simp [State.line]

@[simp] theorem State.during_fgc (s : State) (c : CommandCode) (k : LineId) : (s.during c).fgc k = s.fgc k :=
  by simp [State.fgc]

@[simp] theorem State.during_point (s : State) (c : CommandCode) (j : Nat) : (s.during c).point j = s.point j :=
  by simp [State.point]

@[simp] theorem State.during_findPoint (s : State) (c : CommandCode) (q : Role) (m : Option LineId) : (s.during c).findPoint q m = s.findPoint q m :=
  by simp [State.findPoint]

@[simp] theorem State.during_runTime (s : State) (c : CommandCode) : (s.during c).runTime = s.runTime :=
  by simp [State.runTime]

@[simp] theorem State.log_line (s : State) (a : Source) (n : EventName) (x y z : Int) (k : LineId) : (s.log a n x y z).line k = s.line k :=
  by simp [State.line]

@[simp] theorem State.log_fgc (s : State) (a : Source) (n : EventName) (x y z : Int) (k : LineId) : (s.log a n x y z).fgc k = s.fgc k :=
  by simp [State.fgc]

@[simp] theorem State.log_point (s : State) (a : Source) (n : EventName) (x y z : Int) (j : Nat) : (s.log a n x y z).point j = s.point j :=
  by simp [State.point]

@[simp] theorem State.log_findPoint (s : State) (a : Source) (n : EventName) (x y z : Int) (q : Role) (m : Option LineId) : (s.log a n x y z).findPoint q m = s.findPoint q m :=
  by simp [State.findPoint]

@[simp] theorem State.log_runTime (s : State) (a : Source) (n : EventName) (x y z : Int) : (s.log a n x y z).runTime = s.runTime :=
  by simp [State.runTime]

@[simp] theorem State.own_line (s : State) (r : Role) (w : Option LineId) (v : Int) (k : LineId) : (s.own r w v).line k = s.line k :=
  by simp [State.line]

@[simp] theorem State.own_fgc (s : State) (r : Role) (w : Option LineId) (v : Int) (k : LineId) : (s.own r w v).fgc k = s.fgc k :=
  by simp [State.fgc]

@[simp] theorem State.own_runTime (s : State) (r : Role) (w : Option LineId) (v : Int) : (s.own r w v).runTime = s.runTime :=
  by simp [State.runTime]

@[simp] theorem State.oweRun_line (s : State) (c : RunCause) (k : LineId) : (s.oweRun c).line k = s.line k :=
  by simp [State.line]

@[simp] theorem State.oweRun_fgc (s : State) (c : RunCause) (k : LineId) : (s.oweRun c).fgc k = s.fgc k :=
  by simp [State.fgc]

@[simp] theorem State.oweRun_point (s : State) (c : RunCause) (j : Nat) : (s.oweRun c).point j = s.point j :=
  by simp [State.point]

@[simp] theorem State.oweRun_findPoint (s : State) (c : RunCause) (q : Role) (m : Option LineId) : (s.oweRun c).findPoint q m = s.findPoint q m :=
  by simp [State.findPoint]

@[simp] theorem State.oweRun_runTime (s : State) (c : RunCause) : (s.oweRun c).runTime = s.runTime :=
  by simp [State.runTime]

/-! ### A message is completed -/

@[simp] theorem State.messageDone_clock (s : State) : s.messageDone.clock = s.clock := rfl

@[simp] theorem State.messageDone_resetLow (s : State) : s.messageDone.resetLow = s.resetLow := rfl

@[simp] theorem State.messageDone_ring (s : State) : s.messageDone.ring = s.ring := rfl

@[simp] theorem State.messageDone_seg (s : State) : s.messageDone.seg = s.seg := rfl

@[simp] theorem State.messageDone_points (s : State) : s.messageDone.points = s.points := rfl

@[simp] theorem State.messageDone_lines (s : State) : s.messageDone.lines = s.lines := rfl

@[simp] theorem State.messageDone_fgcs (s : State) : s.messageDone.fgcs = s.fgcs := rfl

@[simp] theorem State.messageDone_env (s : State) : s.messageDone.env = s.env := rfl

@[simp] theorem State.messageDone_turb (s : State) : s.messageDone.turb = s.turb := rfl

@[simp] theorem State.messageDone_mgmt (s : State) : s.messageDone.mgmt = s.mgmt := rfl

@[simp] theorem State.messageDone_owed (s : State) : s.messageDone.owed = s.owed := rfl

@[simp] theorem State.messageDone_pending (s : State) : s.messageDone.pending = s.pending := rfl

@[simp] theorem State.messageDone_unitUsed (s : State) : s.messageDone.disp.unitUsed = s.disp.page.unit := rfl

@[simp] theorem State.messageDone_poolUsed (s : State) : s.messageDone.disp.poolUsed = s.disp.page.pool := rfl

@[simp] theorem State.messageDone_disp_page (s : State) : s.messageDone.disp.page = s.disp.page := rfl

@[simp] theorem State.messageDone_disp_thrUsed (s : State) : s.messageDone.disp.thrUsed = s.disp.thrUsed := rfl

@[simp] theorem State.messageDone_disp_rx (s : State) : s.messageDone.disp.rx = s.disp.rx := rfl

@[simp] theorem State.messageDone_disp_out (s : State) : s.messageDone.disp.out = s.disp.out := rfl

@[simp] theorem State.messageDone_disp_vr (s : State) : s.messageDone.disp.vr = s.disp.vr := rfl

@[simp] theorem State.messageDone_disp_retained (s : State) : s.messageDone.disp.retained = s.disp.retained := rfl

@[simp] theorem State.messageDone_disp_queue (s : State) : s.messageDone.disp.queue = s.disp.queue := rfl

@[simp] theorem State.messageDone_disp_target (s : State) : s.messageDone.disp.target = s.disp.target := rfl

@[simp] theorem State.messageDone_disp_link (s : State) : s.messageDone.disp.link = s.disp.link := rfl

@[simp] theorem State.messageDone_disp_supAt (s : State) : s.messageDone.disp.supAt = s.disp.supAt := rfl

@[simp] theorem State.messageDone_disp_probe (s : State) : s.messageDone.disp.probe = s.disp.probe := rfl

@[simp] theorem State.messageDone_disp_notice (s : State) : s.messageDone.disp.notice = s.disp.notice := rfl

@[simp] theorem State.messageDone_disp_lastCe (s : State) : s.messageDone.disp.lastCe = s.disp.lastCe := rfl

@[simp] theorem State.messageDone_disp_ignored (s : State) : s.messageDone.disp.ignored = s.disp.ignored := rfl

@[simp] theorem State.messageDone_disp_discards (s : State) : s.messageDone.disp.discards = s.disp.discards := rfl

@[simp] theorem State.messageDone_disp_discardRun (s : State) : s.messageDone.disp.discardRun = s.disp.discardRun := rfl

end Sys2Proof.Machine
end

