-- ==== Sys2Proof/Laws/Ops.lean ====
section
/-! SUPPORT. What each shared operation can do, said once: the clocks, the event queue, the points as their owners set
them, the owed steps, and the three forms of a command. -/

namespace Sys2Proof.Machine

/-! ### Clocks -/

/-- The clock never moves back. -/
theorem Clock.reach_tenths (c : Clock) (t : Nat) : (c.reach t).tenths = max c.tenths t := by
  unfold Clock.reach
  split
  · simp; omega
  · simp; omega

/-- A time already passed moves nothing. -/
theorem Clock.reach_of_le (c : Clock) (t : Nat) (h : t ≤ c.tenths) : c.reach t = c := by
  unfold Clock.reach
  exact if_pos h

/-- Run time in ms after a timer's expiry has come. -/
theorem State.reach_runTime (s : State) (t : Nat) : (s.reach t).runTime = max s.runTime t := by
  simp only [State.runTime, State.reach_clock, Clock.reach_tenths]
  omega

/-- Run time never moves back. -/
theorem State.runTime_le_reach (s : State) (t : Nat) : s.runTime ≤ (s.reach t).runTime := by
  rw [State.reach_runTime]
  omega

/-- Run time never moves back at a plant-time boundary. -/
theorem State.runTime_le_reachPlant (s : State) (p : Nat) : s.runTime ≤ (s.reachPlant p).runTime := by
  unfold State.reachPlant
  split
  · exact Nat.le_refl _
  · split
    · exact Nat.le_refl _
    · exact s.runTime_le_reach _

/-! ### Events -/

/-- R188: an event is placed at the tail, or discarded and counted as lost; nothing else of the management unit
changes. -/
theorem State.log_mgmt (s : State) (a : Source) (n : EventName) (x y z : Int) :
    (s.log a n x y z).mgmt =
      if s.mgmt.events.length < 64 then
        { s.mgmt with events := s.mgmt.events ++
            [⟨s.runTime, s.clock.plant, a, n, eventWord x, eventWord y, eventWord z⟩] }
      else { s.mgmt with lost := min 65535 (s.mgmt.lost + 1) } := by
  unfold State.log
  split <;> rfl

@[simp] theorem State.log_executing (s : State) (a : Source) (n : EventName) (x y z : Int) :
    (s.log a n x y z).mgmt.executing = s.mgmt.executing := by
  rw [State.log_mgmt]
  split <;> rfl

@[simp] theorem State.log_response (s : State) (a : Source) (n : EventName) (x y z : Int) :
    (s.log a n x y z).mgmt.response = s.mgmt.response := by
  rw [State.log_mgmt]
  split <;> rfl

/-- An event that finds room stands in the queue. -/
theorem State.logged_of_room (s : State) (a : Source) (n : EventName) (x y z : Int) (h : s.mgmt.events.length < 64) :
    (s.log a n x y z).Logged a n x y z := by
  refine ⟨⟨s.runTime, s.clock.plant, a, n, eventWord x, eventWord y, eventWord z⟩, ?_, rfl, rfl, rfl, rfl, rfl⟩
  rw [State.log_mgmt, if_pos h]
  simp

/-- A logged event only lengthens the queue. -/
theorem State.log_events_mono (s : State) (a : Source) (n : EventName) (x y z : Int) :
    ∃ rest, (s.log a n x y z).mgmt.events = s.mgmt.events ++ rest ∧ rest.length ≤ 1 := by
  rw [State.log_mgmt]
  split
  · exact ⟨_, rfl, by simp⟩
  · exact ⟨[], by simp, by simp⟩

/-- R188: logging keeps the queue within 64 entries and in order of its stamps. -/
theorem State.QueueOrdered.log {s : State} (h : s.QueueOrdered) (a : Source) (n : EventName) (x y z : Int) :
    (s.log a n x y z).QueueOrdered := by
  obtain ⟨hl, hp, hr⟩ := h
  unfold State.QueueOrdered
  rw [State.log_mgmt, State.log_runTime]
  split
  case isTrue room =>
    refine ⟨by simp; omega, ?_, ?_⟩
    · simp only [List.pairwise_append, List.pairwise_cons, List.mem_singleton]
      exact ⟨hp, by simp, fun e he b hb => by subst hb; exact hr e he⟩
    · intro e he
      simp only [List.mem_append, List.mem_singleton] at he
      rcases he with he | rfl
      · exact hr e he
      · exact Nat.le_refl _
  case isFalse => exact ⟨hl, hp, hr⟩

/-- The order of the queue depends on the queue and on run time alone. -/
theorem State.QueueOrdered.of_le {s t : State} (h : s.QueueOrdered) (he : t.mgmt.events = s.mgmt.events)
    (hr : s.runTime ≤ t.runTime) : t.QueueOrdered := by
  obtain ⟨hl, hp, hb⟩ := h
  exact ⟨he ▸ hl, he ▸ hp, fun e hm => Nat.le_trans (hb e (he ▸ hm)) hr⟩

/-- Time passing keeps the queue in order. -/
theorem State.QueueOrdered.reach {s : State} (h : s.QueueOrdered) (t : Nat) : (s.reach t).QueueOrdered :=
  h.of_le (by simp) (s.runTime_le_reach t)

/-! ### Points -/

/-- R49: setting a point keeps its record's structure. -/
@[simp] theorem Point.own_kind (p : Point) (v : Int) : (p.own v).kind = p.kind := rfl

@[simp] theorem Point.own_role (p : Point) (v : Int) : (p.own v).role = p.role := rfl

@[simp] theorem Point.own_line (p : Point) (v : Int) : (p.own v).line = p.line := rfl

@[simp] theorem Point.own_value (p : Point) (v : Int) : (p.own v).value = v := rfl

@[simp] theorem Point.own_forcing (p : Point) (v : Int) : (p.own v).forcing = p.forcing := rfl

@[simp] theorem Point.own_degraded (p : Point) (v : Int) : (p.own v).degraded = p.degraded := rfl

/-- R43, R49: an owner sets one OUTPUT or REPORT point, or nothing. -/
theorem State.own_cases (s : State) (r : Role) (l : Option LineId) (v : Int) :
    s.own r l v = s ∨
      ∃ i, s.findPoint r l = some i ∧ ((s.point i).kind = .output ∨ (s.point i).kind = .report) ∧
        s.own r l v = s.setPoint i ((s.point i).own v) := by
  unfold State.own
  split
  · exact .inl rfl
  · next i hi =>
    split
    · next hk => exact .inr ⟨i, hi, hk, rfl⟩
    · exact .inl rfl

/-- A point that is neither an OUTPUT nor a REPORT is no owner's to set. -/
theorem State.own_point (s : State) (r : Role) (l : Option LineId) (v : Int) (j : Nat)
    (ho : (s.point j).kind ≠ .output) (hr : (s.point j).kind ≠ .report) : (s.own r l v).point j = s.point j := by
  rcases s.own_cases r l v with h | ⟨i, _, hk, h⟩
  · rw [h]
  · rw [h]
    by_cases hij : i = j
    · subst hij
      rcases hk with hk | hk
      · exact absurd hk ho
      · exact absurd hk hr
    · exact s.setPoint_point_other i j _ hij

/-- Storing a record of the same structure leaves the search for a role as it was. -/
theorem State.setPoint_findPoint_of_same (s : State) (i : Nat) (p : Point) (hk : p.kind = (s.point i).kind)
    (hr : p.role = (s.point i).role) (hl : p.line = (s.point i).line) (q : Role) (m : Option LineId) :
    (s.setPoint i p).findPoint q m = s.findPoint q m := by
  unfold State.findPoint State.setPoint
  simp only [State.point] at hk hr hl
  have key : ∀ (xs : List Point) (i : Nat), p.kind = (xs.getD i .empty).kind → p.role = (xs.getD i .empty).role →
      p.line = (xs.getD i .empty).line →
      (xs.set i p).findIdx? (fun p => decide (p.kind ≠ .empty ∧ p.role = q ∧ p.line = m)) =
        xs.findIdx? (fun p => decide (p.kind ≠ .empty ∧ p.role = q ∧ p.line = m)) := by
    intro xs
    induction xs with
    | nil => intro i _ _ _; rfl
    | cons x xs ih =>
      intro i h1 h2 h3
      cases i with
      | zero =>
        simp only [List.getD_cons_zero] at h1 h2 h3
        simp [List.findIdx?_cons, h1, h2, h3]
      | succ i =>
        simp only [List.getD_cons_succ] at h1 h2 h3
        simp only [List.set_cons_succ, List.findIdx?_cons, ih i h1 h2 h3]
  exact key s.points i hk hr hl

/-- An owner's setting leaves the search for a role as it was. -/
@[simp] theorem State.own_findPoint (s : State) (r : Role) (l : Option LineId) (v : Int) (q : Role) (m : Option LineId) :
    (s.own r l v).findPoint q m = s.findPoint q m := by
  rcases s.own_cases r l v with h | ⟨i, _, _, h⟩
  · rw [h]
  · rw [h]
    exact s.setPoint_findPoint_of_same i ((s.point i).own v) rfl rfl rfl q m

/-- An owner's setting keeps every record's kind. -/
@[simp] theorem State.own_point_kind (s : State) (r : Role) (l : Option LineId) (v : Int) (j : Nat) :
    ((s.own r l v).point j).kind = (s.point j).kind := by
  by_cases ho : (s.point j).kind = .output ∨ (s.point j).kind = .report
  · rcases s.own_cases r l v with h | ⟨i, _, _, h⟩
    · rw [h]
    · rw [h]
      by_cases hij : i = j
      · subst hij
        by_cases hi : i < s.points.length
        · rw [s.setPoint_point i _ hi]; rfl
        · simp [State.point, State.setPoint, List.set_eq_of_length_le (Nat.le_of_not_lt hi)]
      · rw [s.setPoint_point_other i j _ hij]
  · rw [s.own_point r l v j (fun h => ho (.inl h)) (fun h => ho (.inr h))]

/-! ### The due time of a stroke, the end of an episode and the join waits -/

@[simp] theorem Due.none_replace (new : Due) (now : Nat) : Due.none.replace new now = new := rfl

@[simp] theorem Due.atOnce_replace (new : Due) (now : Nat) : Due.atOnce.replace new now = new := rfl

/-- R94: a due time that has not come takes the new one. -/
theorem Due.at_replace_of_lt (t now : Nat) (new : Due) (h : now < t) : (Due.at_ t).replace new now = new := by
  cases new <;> simp [Due.replace, Nat.not_le.mpr h]

/-- R94: a due time that has come is not moved later. -/
theorem Due.at_replace_of_le (t u now : Nat) (h : t ≤ now) : (Due.at_ t).replace (.at_ u) now = .at_ (min t u) := by
  simp [Due.replace, h]

@[simp] theorem Point.endEpisode_logFlag (p : Point) : p.endEpisode.logFlag = false := rfl

@[simp] theorem Point.endEpisode_goodRun (p : Point) : p.endEpisode.goodRun = 0 := rfl

@[simp] theorem Point.endEpisode_forcing (p : Point) : p.endEpisode.forcing = p.forcing := rfl

theorem Point.endEpisode_sameSettings (p : Point) : p.endEpisode.SameSettings p := by
  constructor <;> rfl

/-- R32: a taken frame counts the join wait of an entry that is JOINING with its assignment sent; no other is touched.
-/
theorem State.countJoin_of_not_waiting (s : State) (n : Nat) (h : (s.station n).state ≠ .joining ∨ (s.station n).due = true) :
    s.countJoin n = s := by
  unfold State.countJoin
  rw [if_pos h]

/-! ### Owed steps and the forms of a command -/

/-- A part that owes nothing settles at once. -/
theorem State.settle_of_owed_nil (s : State) (h : s.owed = []) : s.settle = s := by
  unfold State.settle
  show settleN (4095 + 1) s = s
  unfold settleN
  split
  · rfl
  · next hc => rw [h] at hc; cases hc

/-- An event acts on a quiet part. -/
theorem eventForm_of_quiet (act : State → State) (s : State) (h : s.Quiet) : eventForm act s = .next (act s) := by
  unfold eventForm
  rw [if_neg (by simp [h.1]), s.settle_of_owed_nil h.2]

/-- A point's timer acts on a quiet part, for a point of the table. -/
theorem pointForm_of_quiet (i : Nat) (act : State → State) (s : State) (h : s.Quiet) (hi : i < 192) :
    pointForm i act s = .next (act s) := by
  unfold pointForm
  rw [if_pos hi]
  exact eventForm_of_quiet act s h

/-- A change of a port's link acts on a quiet part. -/
theorem linkForm_of_quiet (report act : State → State) (s : State) (h : s.Quiet) :
    linkForm report act s = .next (act s) := by
  unfold linkForm
  rw [if_neg (by simp [h.1]), s.settle_of_owed_nil h.2]

/-- A step that may be owed acts on a quiet part. -/
theorem owedForm_of_quiet (i : Instr) (act : State → State) (s : State) (h : s.Quiet) :
    owedForm i act s = .next (act s) := by
  unfold owedForm
  rw [if_neg (by simp [h.1]), h.2]

/-- R164: a telecontrol message given to a quiet part is the next one completed. -/
theorem messageForm_of_quiet (i : Instr) (act : State → State) (s : State) (h : s.Quiet) :
    messageForm i act s = .next (act s.messageDone) := by
  unfold messageForm
  rw [if_neg (by simp [h.1]), h.2]

/-- R182: a management command acts on a part that is quiet and executes none, and is then in execution. -/
theorem commandForm_of_free (i : Instr) (c : CommandCode) (act : State → State) (s : State) (h : s.Free) :
    commandForm i c act s = .next (act (s.during c)) := by
  unfold commandForm
  rw [if_neg (by simp [h.1.1]), h.1.2]
  simp [State.enterCommand, h.2, State.during]

/-- R182: a management command given while another is in execution is answered BUSY. -/
theorem commandForm_of_busy (i : Instr) (c : CommandCode) (act : State → State) (s : State) (h : s.Quiet)
    (hb : s.mgmt.executing.isSome = true) :
    commandForm i c act s = .next { s with mgmt.busyAnswer := some c.byte } := by
  unfold commandForm
  rw [if_neg (by simp [h.1])]
  simp [h.2, State.enterCommand, hb]

end Sys2Proof.Machine
end

