-- ==== Sys2Proof/Laws/LineFrames.lean ====
section
/-! SUPPORT. Every operation of a line controller and of its flue gas unit stays within its line: one lemma per shared
operation, each saying with `LineEvent` all that the operation leaves alone. -/

namespace Sys2Proof.Machine

/-! ### The frame composes -/

theorem LineEvent.refl (l : LineId) (s : State) : LineEvent l s s where
  clock := rfl
  resetLow := rfl
  ring := rfl
  seg := rfl
  turb := rfl
  disp := rfl
  pending := rfl
  other := rfl
  otherFgc := rfl
  otherCaps := rfl
  header := rfl
  result := rfl
  page := rfl
  fgcPage := rfl
  dosing := rfl
  points := fun _ _ _ => rfl
  mail := rfl

theorem LineEvent.trans {l : LineId} {s t u : State} (h : LineEvent l s t) (k : LineEvent l t u) : LineEvent l s u where
  clock := k.clock.trans h.clock
  resetLow := k.resetLow.trans h.resetLow
  ring := k.ring.trans h.ring
  seg := k.seg.trans h.seg
  turb := k.turb.trans h.turb
  disp := k.disp.trans h.disp
  pending := k.pending.trans h.pending
  other := k.other.trans h.other
  otherFgc := k.otherFgc.trans h.otherFgc
  otherCaps := k.otherCaps.trans h.otherCaps
  header := k.header.trans h.header
  result := k.result.trans h.result
  page := k.page.trans h.page
  fgcPage := k.fgcPage.trans h.fgcPage
  dosing := k.dosing.trans h.dosing
  points := fun i ho hr => by
    have e := h.points i ho hr
    exact (k.points i (by rw [e]; exact ho) (by rw [e]; exact hr)).trans e
  mail := by
    have e := k.mail
    have f := h.mail
    rw [← e] at f
    exact f

/-- A step taken or left out stays within the line when the step does. -/
theorem LineEvent.unless {l : LineId} {s t : State} {b : Prop} [Decidable b] (h : LineEvent l s t) :
    LineEvent l s (if b then s else t) := by
  split
  · exact .refl l s
  · exact h

/-! ### The plain updates -/

/-- Replacing a line's controller, its page kept. -/
theorem LineEvent.setLine {l : LineId} {s : State} {c : Line} (h : c.page = (s.line l).page) :
    LineEvent l s (s.setLine l c) :=
  { LineEvent.refl l s with
    other := State.setLine_line_other s l c
    page := by rw [State.setLine_line]; exact h }

/-- Replacing a line's flue gas unit, its pages kept. -/
theorem LineEvent.setFgc {l : LineId} {s : State} {f : Fgc} (hp : f.page = (s.fgc l).page)
    (hd : f.dosing = (s.fgc l).dosing) : LineEvent l s (s.setFgc l f) :=
  { LineEvent.refl l s with
    otherFgc := State.setFgc_fgc_other s l f
    fgcPage := by rw [State.setFgc_fgc]; exact hp
    dosing := by rw [State.setFgc_fgc]; exact hd }

/-- An owner's setting touches an OUTPUT or REPORT point alone. -/
theorem LineEvent.own (l : LineId) (s : State) (r : Role) (w : Option LineId) (v : Int) : LineEvent l s (s.own r w v) where
  clock := by simp
  resetLow := by simp
  ring := by simp
  seg := by simp
  turb := by simp
  disp := by simp
  pending := by simp
  other := by simp
  otherFgc := by simp
  otherCaps := by simp
  header := by simp
  result := by simp
  page := by simp
  fgcPage := by simp
  dosing := by simp
  points := fun i ho hr => s.own_point r w v i ho hr
  mail := by simp

/-- Logging touches the events alone. -/
theorem LineEvent.log (l : LineId) (s : State) (a : Source) (n : EventName) (x y z : Int) :
    LineEvent l s (s.log a n x y z) where
  clock := by simp
  resetLow := by simp
  ring := by simp
  seg := by simp
  turb := by simp
  disp := by simp
  pending := by simp
  other := by simp
  otherFgc := by simp
  otherCaps := by simp
  header := by simp
  result := by simp
  page := by simp
  fgcPage := by simp
  dosing := by simp
  points := fun i _ _ => by simp
  mail := by
    rw [State.log_mgmt]
    split <;> rfl

/-- Owing a step touches the owed steps alone. -/
theorem LineEvent.owe (l : LineId) (s : State) (i : Instr) : LineEvent l s (s.owe i) := { LineEvent.refl l s with }

theorem LineEvent.oweRun (l : LineId) (s : State) (c : RunCause) : LineEvent l s (s.oweRun c) := by
  unfold State.oweRun
  split
  · exact .refl l s
  · exact .owe l s _

/-- Answering touches the response alone. -/
theorem LineEvent.answer (l : LineId) (s : State) (c : CommandCode) (k : RespCode) (d : List Byte) :
    LineEvent l s (s.answer c k d) := { LineEvent.refl l s with }

/-- A change of the allocator that leaves its page, its results and the other line's list. -/
theorem LineEvent.setEnv {l : LineId} {s : State} {e : Envelope} (hp : e.page = s.env.page)
    (hr : e.result = s.env.result) (hc : e.caps.get (otherLine l) = s.env.caps.get (otherLine l)) :
    LineEvent l s { s with env := e } :=
  { LineEvent.refl l s with header := hp, result := hr, otherCaps := hc }

/-! ### Caps -/

theorem LineEvent.formCap (l : LineId) (s : State) : LineEvent l s (s.formCap l) := by
  unfold State.formCap
  simp only
  split
  · exact .refl l s
  · refine .trans
      (t := { s with env := { s.env with
                effCap := s.env.effCap.set l (effectiveCap (s.line l).page.fMax (s.env.caps.get l)) } })
      (.setEnv (by rfl) (by rfl) (by rfl)) ?_
    refine .trans ?_ (.oweRun l _ _)
    refine .trans ?_ (.own l _ _ _ _)
    exact .setLine (by rfl)

theorem LineEvent.capSetCore (l : LineId) (s : State) (src : CapSource) (v : Int) :
    LineEvent l s (s.capSetCore l src v) := by
  unfold State.capSetCore
  simp only
  split
  · exact .refl l s
  · refine .trans
      (t := { s with env := { s.env with
                caps := s.env.caps.set l
                  ((s.env.caps.get l).set src (some ⟨(clampInt v 0 2000).toNat, s.runTime⟩)) } })
      (.setEnv (by rfl) (by rfl) (Two.get_set_other _ _ _)) ?_
    exact .trans (.log l _ _ _ _ _ _) (.trans (.formCap l _) (.oweRun l _ _))

theorem LineEvent.capReleaseCore (l : LineId) (s : State) (src : CapSource) :
    LineEvent l s (s.capReleaseCore l src) := by
  unfold State.capReleaseCore
  simp only
  split
  · exact .refl l s
  · have h : LineEvent l s
        (((State.formCap { s with env.caps := s.env.caps.set l ((s.env.caps.get l).set src none) } l).log .envelope
          .capReleased (lineNumber l) src.code
          ((State.formCap { s with env.caps := s.env.caps.set l ((s.env.caps.get l).set src none) } l).env.effCap.get l)).oweRun
          .cap) :=
      .trans (t := { s with env.caps := _ }) (.setEnv (by rfl) (by rfl) (Two.get_set_other _ _ _))
        (.trans (.formCap l _) (.trans (.log l _ _ _ _ _ _) (.oweRun l _ _)))
    split
    · exact h.trans (.setEnv (by rfl) (by rfl) (by rfl))
    · exact h

/-! ### Dosing loops -/

theorem LineEvent.clearSaturated (l : LineId) (s : State) (d : DosingLoop) : LineEvent l s (s.clearSaturated l d) := by
  unfold State.clearSaturated
  simp only
  split
  · exact .trans (.setFgc (by rfl) (by rfl)) (.log l _ _ _ _ _ _)
  · exact .setFgc (by rfl) (by rfl)

theorem LineEvent.judgeSaturation (l : LineId) (s : State) (d : DosingLoop) :
    LineEvent l s (s.judgeSaturation l d) := by
  unfold State.judgeSaturation
  simp only
  split
  · split
    · exact .setFgc (by rfl) (by rfl)
    · exact .refl l s
  · exact .clearSaturated l s d

theorem LineEvent.runLoop (l : LineId) (s : State) (d : DosingLoop) : LineEvent l s (s.runLoop l d) := by
  unfold State.runLoop
  exact .trans (.setFgc (by rfl) (by rfl)) (.trans (.own l _ _ _ _) (.judgeSaturation l _ d))

/-- A fold of operations that stay within a line stays within it. -/
theorem LineEvent.foldl {α : Type} (l : LineId) (f : State → α → State) (h : ∀ s a, LineEvent l s (f s a)) :
    ∀ (xs : List α) (s : State), LineEvent l s (xs.foldl f s)
  | [], s => .refl l s
  | a :: xs, s => .trans (h s a) (LineEvent.foldl l f h xs (f s a))

theorem LineEvent.runLoops (l : LineId) (s : State) (t : Trigger) : LineEvent l s (s.runLoops l t) := by
  unfold State.runLoops
  refine LineEvent.foldl l _ (fun s d => ?_) _ s
  try dsimp only
  split
  · exact .runLoop l s d
  · exact .refl l s

theorem LineEvent.stopLoop (l : LineId) (s : State) (d : DosingLoop) : LineEvent l s (s.stopLoop l d) := by
  unfold State.stopLoop
  exact .trans (.clearSaturated l s d) (.trans (.setFgc (by rfl) (by rfl)) (.own l _ _ _ _))

theorem LineEvent.dropRestraint (l : LineId) (s : State) : LineEvent l s (s.dropRestraint l) := by
  unfold State.dropRestraint
  simp only
  split
  · exact .trans (.setFgc (by rfl) (by rfl)) (.trans (.capReleaseCore l _ _) (.log l _ _ _ _ _ _))
  · exact .setFgc (by rfl) (by rfl)

theorem LineEvent.judgeCounting (l : LineId) (s : State) : LineEvent l s (s.judgeCounting l) := by
  unfold State.judgeCounting
  simp only
  split
  · split
    · exact .setFgc (by rfl) (by rfl)
    · exact .refl l s
  · exact .setFgc (by rfl) (by rfl)

theorem LineEvent.fgcLineState (l : LineId) (s : State) : LineEvent l s (s.fgcLineState l) := by
  unfold State.fgcLineState
  simp only
  refine .trans ?_ (.judgeCounting l _)
  split
  · exact .refl l s
  · exact .trans (LineEvent.foldl l _ (fun s d => .stopLoop l s d) _ s) (.dropRestraint l _)

/-! ### Strokes and changes of line state -/

theorem LineEvent.setDue (l : LineId) (s : State) : LineEvent l s (s.setDue l) := by
  unfold State.setDue
  simp only
  split
  · exact .setLine (by rfl)
  · exact .refl l s

theorem LineEvent.tryStroke (l : LineId) (s : State) : LineEvent l s (s.tryStroke l) := by
  unfold State.tryStroke
  simp only
  split
  · exact .trans (.setLine (by rfl)) (.own l _ _ _ _)
  · exact .refl l s

theorem LineEvent.dropStroke (l : LineId) (s : State) : LineEvent l s (s.dropStroke l) := by
  unfold State.dropStroke
  exact .trans (.setLine (by rfl)) (.own l _ _ _ _)

theorem LineEvent.withdraw (l : LineId) (s : State) : LineEvent l s (s.withdraw l) := by
  unfold State.withdraw
  split
  · exact .refl l s
  · exact .trans (.dropStroke l s) (.log l _ _ _ _ _ _)

theorem LineEvent.completeStroke (l : LineId) (s : State) : LineEvent l s (s.completeStroke l) := by
  unfold State.completeStroke
  split
  · exact .refl l s
  · exact .trans (.own l s _ _ _) (.trans (.setLine (by rfl)) (.trans (.setDue l _) (.runLoops l _ _)))

theorem LineEvent.lineOutputs (l : LineId) (s : State) (new : LineState) : LineEvent l s (s.lineOutputs l new) := by
  have off : LineEvent l s (((s.own .grateSpeed (some l) 0).own .primaryAir (some l) 0).own .secondaryAir (some l) 0) :=
    .trans (.own l s _ _ _) (.trans (.own l _ _ _ _) (.own l _ _ _ _))
  cases new with
  | feeding => exact .refl l s
  | feedHold => exact .refl l s
  | burnout => exact .own l s _ _ _
  | off => exact off
  | tripped => exact off

/-- R60: a change of line state stays within its line. -/
theorem LineEvent.changeOnce (l : LineId) (s : State) (new : LineState) (cause : StateCause) :
    LineEvent l s (s.changeOnce l new cause) := by
  unfold State.changeOnce
  simp only
  split
  · exact .refl l s
  · refine .trans ?_ (.fgcLineState l _)
    refine .trans ?_ (.oweRun l _ _)
    refine .trans ?_ (.unless (.capReleaseCore l _ _))
    refine .trans ?_ (.unless (.capReleaseCore l _ _))
    refine .trans ?_ (.log l _ _ _ _ _ _)
    refine .trans ?_ (.own l _ _ _ _)
    refine .trans ?_ (.lineOutputs l _ _)
    refine .trans (.unless (.withdraw l s)) (.setLine (by rfl))

theorem LineEvent.toBurnout (l : LineId) (s : State) (cause : StateCause) : LineEvent l s (s.toBurnout l cause) := by
  unfold State.toBurnout
  split
  · exact .changeOnce l s _ _
  · exact .refl l s

theorem LineEvent.changeLine (l : LineId) (s : State) (new : LineState) (cause : StateCause) :
    LineEvent l s (s.changeLine l new cause) := by
  unfold State.changeLine
  simp only
  split
  · exact .refl l s
  · split
    · exact .trans (.changeOnce l s _ _) (.toBurnout l _ _)
    · exact .changeOnce l s _ _

theorem LineEvent.judgeFloor (l : LineId) (s : State) : LineEvent l s (s.judgeFloor l) := by
  unfold State.judgeFloor
  split
  · exact .toBurnout l s _
  · exact .refl l s

theorem LineEvent.capSet (l : LineId) (s : State) (src : CapSource) (v : Int) : LineEvent l s (s.capSet l src v) := by
  unfold State.capSet
  simp only
  split
  · exact .capSetCore l s src v
  · exact .trans (.capSetCore l s src v) (.judgeFloor l _)

theorem LineEvent.capRelease (l : LineId) (s : State) (src : CapSource) : LineEvent l s (s.capRelease l src) := by
  unfold State.capRelease
  simp only
  split
  · exact .capReleaseCore l s src
  · exact .trans (.capReleaseCore l s src) (.judgeFloor l _)

theorem LineEvent.addCause (l : LineId) (s : State) (k : HoldCause) : LineEvent l s (s.addCause l k) := by
  unfold State.addCause
  simp only
  split
  · exact .trans (.setLine (by rfl)) (.trans (.log l _ _ _ _ _ _) (.changeLine l _ _ _))
  · exact .refl l s

theorem LineEvent.removeCause (l : LineId) (s : State) (k : HoldCause) : LineEvent l s (s.removeCause l k) := by
  unfold State.removeCause
  simp only
  split
  · split
    · exact .trans (.setLine (by rfl)) (.trans (.log l _ _ _ _ _ _) (.trans (.changeLine l _ _ _) (.tryStroke l _)))
    · exact .trans (.setLine (by rfl)) (.log l _ _ _ _ _ _)
  · exact .refl l s

theorem LineEvent.setPermissive (l : LineId) (s : State) (held : Bool) (temp : Int) :
    LineEvent l s (s.setPermissive l held temp) := by
  unfold State.setPermissive
  simp only
  split
  · exact .refl l s
  · split
    · split
      · exact .trans (.setLine (by rfl)) (.trans (.log l _ _ _ _ _ _) (.trans (.removeCause l _ _) (.tryStroke l _)))
      · exact .trans (.setLine (by rfl)) (.trans (.log l _ _ _ _ _ _) (.addCause l _ _))
    · exact .setLine (by rfl)

/-! ### Abnormal operation -/

theorem LineEvent.judgeExhausted (l : LineId) (s : State) : LineEvent l s (s.judgeExhausted l) := by
  unfold State.judgeExhausted
  simp only
  split
  · split
    · exact .refl l s
    · exact .trans (.setFgc (by rfl) (by rfl)) (.trans (.log l _ _ _ _ _ _) (.toBurnout l _ _))
  · split
    · exact .trans (.setFgc (by rfl) (by rfl)) (.log l _ _ _ _ _ _)
    · exact .refl l s

/-! ### Conditions of the points -/

theorem LineEvent.tripLine (l : LineId) (s : State) (k : TripCause) : LineEvent l s (s.tripLine l k) := by
  unfold State.tripLine
  simp only
  split
  · exact .refl l s
  · exact .trans (.setLine (by rfl)) (.trans (.log l _ _ _ _ _ _) (.changeLine l _ _ _))

theorem LineEvent.setCause (l : LineId) (s : State) (k : HoldCause) (b : Bool) : LineEvent l s (s.setCause l k b) := by
  unfold State.setCause
  split
  · exact .addCause l s k
  · exact .removeCause l s k

theorem LineEvent.jamClear (l : LineId) (s : State) (n : Nat) : LineEvent l s (s.jamClear l n) := by
  unfold State.jamClear
  simp only
  split
  · exact .trans (.setLine (by rfl)) (.trans (.log l _ _ _ _ _ _) (.removeCause l _ _))
  · exact .refl l s

/-! ### The control period -/

theorem LineEvent.setAir (l : LineId) (s : State) : LineEvent l s (s.setAir l) := by
  unfold State.setAir
  simp only
  exact .trans (.setLine (by rfl)) (.trans (.own l _ _ _ _) (.own l _ _ _ _))

theorem LineEvent.raiseFeedLimit (l : LineId) (s : State) : LineEvent l s (s.raiseFeedLimit l) := by
  unfold State.raiseFeedLimit
  split
  · exact .refl l s
  · split
    · exact .capSet l s _ _
    · split
      · exact .capSet l s _ _
      · exact .refl l s

theorem LineEvent.feedSaturation (l : LineId) (s : State) : LineEvent l s (s.feedSaturation l) := by
  unfold State.feedSaturation
  simp only
  split
  · split
    · exact .trans (.setLine (by rfl)) (.raiseFeedLimit l _)
    · split
      · exact .trans (.setLine (by rfl)) (.capRelease l _ _)
      · exact .setLine (by rfl)
  · exact .refl l s

/-- The stages of a control period leave the page. -/
theorem Line.stages_page (c : Line) (f : Option Int) : (((c.stageAB f).stageF f).stageGHI).page = c.page := by
  have ab : (c.stageAB f).page = c.page := by cases f <;> rfl
  have ghi : ∀ d : Line, d.stageGHI.page = d.page := by
    intro d
    unfold Line.stageGHI
    simp only
    split <;> rfl
  rw [ghi]
  exact ab

/-- R77: a control period stays within its line. -/
theorem LineEvent.runPeriod (l : LineId) (s : State) : LineEvent l s (s.runPeriod l) := by
  unfold State.runPeriod
  simp only
  refine .trans ?_ (.runLoops l _ _)
  refine .trans ?_ (.tryStroke l _)
  refine .trans ?_ (.setDue l _)
  refine .trans ?_ (.feedSaturation l _)
  refine .trans ?_ (.setAir l _)
  refine .trans ?_ (.own l _ _ _ _)
  exact .setLine ((Line.stages_page _ _).trans rfl)

/-! ### The burn minute and the override -/

theorem LineEvent.setOverride (l : LineId) (s : State) (b : Bool) (v : Nat) : LineEvent l s (s.setOverride l b v) := by
  unfold State.setOverride
  simp only
  split
  · exact .refl l s
  · refine .trans ?_ (.unless (.own l _ _ _ _))
    exact .trans (.setLine (by rfl)) (.log l _ _ _ _ _ _)

/-! ### The flue gas unit -/

theorem LineEvent.enterAbnormal (l : LineId) (s : State) (b : Bool) : LineEvent l s (s.enterAbnormal l b) := by
  unfold State.enterAbnormal
  simp only
  refine .trans ?_ (.trans (.judgeCounting l _) (.judgeExhausted l _))
  split
  · exact .setFgc (by rfl) (by rfl)
  · exact .trans (.setFgc (by rfl) (by rfl)) (.log l _ _ _ _ _ _)

theorem LineEvent.endAbnormal (l : LineId) (s : State) : LineEvent l s (s.endAbnormal l) := by
  unfold State.endAbnormal
  simp only
  exact .trans (.log l _ _ _ _ _ _) (.trans (.setFgc (by simp [State.fgc]) (by simp [State.fgc])) (.judgeExhausted l _))

theorem LineEvent.loadBudget (l : LineId) (s : State) (a k : Nat) (b : Bool) : LineEvent l s (s.loadBudget l a k b) := by
  unfold State.loadBudget
  simp only
  exact .trans (.setFgc (by rfl) (by rfl)) (.trans (.log l _ _ _ _ _ _) (.trans (.own l _ _ _ _) (.judgeExhausted l _)))

end Sys2Proof.Machine
end

