-- ==== Sys2Proof/Tests/Slice0.lean ====
section
/-! SUPPORT. The model's own tests: a smoke test of every check of WellFormed, the manual's worked cases and small runs of
single commands, and for every statement with hypotheses a witness that meets them, each clause at a value of its own. -/

namespace Sys2Proof.Tests

open Sys2Proof.Machine

/- One theorem at a time: each kernel evaluation holds a thread of its own. -/
set_option Elab.async false

/-! ### Helpers -/

/-- What holds of the next state of a command. -/
def after (i : Instr) (s : State) (p : State → Bool) : Bool :=
  match exec i s with
  | .next t => p t
  | .fault _ => false
  | .refused _ => false

/-- A step that answers a next state. -/
def goes (o : Host.Outcome State Fault Refusal) : Bool :=
  match o with
  | .next _ => true
  | .fault _ => false
  | .refused _ => false

theorem goes_of (o : Host.Outcome State Fault Refusal) (h : goes o = true) : ∃ t, o = .next t := by
  cases o with
  | next t => exact ⟨t, rfl⟩
  | fault _ => cases h
  | refused _ => cases h

/-- A configured point that presents a good value. -/
def pt (r : Role) (l : Option LineId) (v : Int) (level : Signals := 0) : Point :=
  { Point.empty with
    kind := r.kind, role := r, line := l, gain := 4096, low := -32768, high := 32767, value := v, level := level
    quality := .good, input := .fresh, started := true, staleAt := some 2000, holdAt := none }

/-- The points of the tests; line 1 alone is configured. -/
def housePoints : List Point :=
  [pt .furnaceTemp (some .one) 9000, pt .steamFlow (some .one) 412, pt .feederStatus (some .one) 0 1,
    pt .lineStatus (some .one) 0 3, pt .feederCommand (some .one) 0, pt .lineState (some .one) 0,
    pt .grateSpeed (some .one) 0, pt .turbineIndication none 1, pt .turbineRequest none 0, pt .nox (some .one) 1480,
    pt .o2Flue (some .one) 1010, pt .h2oFlue (some .one) 1850] ++ List.replicate 179 .empty ++ [pt .heatDemand none 180]

/-- Both links UP, the segment in RUN, line 1 ready to start. -/
def house : State :=
  { State.reset with
    points := housePoints
    ring := { Ring.reset true true with
      segment := .run
      slotMap :=
        [⟨.input, 0, 1⟩, ⟨.input, 1, 1⟩, ⟨.input, 2, 1⟩, ⟨.input, 3, 1⟩, ⟨.output, 4, 0⟩, ⟨.input, 7, 1⟩,
          ⟨.output, 8, 0⟩] ++ List.replicate 249 .unused }
    lines := ⟨{ Line.reset with permissive := true }, .reset⟩ }

/-- The house with line 1 changed. -/
def lineAs (f : Line → Line) : State := house.setLine .one (f (house.line .one))

/-- Line 1 in FEEDING with its first stroke in flight. -/
def feeding : State :=
  lineAs fun c => { c with
    state := .feeding, periodAt := some 500, entry := some .fresh, burnTimer := some 60000, due := .at_ 700
    stroke := some ⟨9, 0, .out⟩, strokeAt := some 30000, dEff := 450, alloc := 450, ranPeriod := true }

/-- Line 1 in FEEDING with no stroke in flight. -/
def waiting : State := feeding.setLine .one { feeding.line .one with stroke := none, strokeAt := none }

/-- Line 1 in FEED-HOLD with one cause. -/
def heldBy (k : HoldCause) : State :=
  lineAs fun c => { c with state := .feedHold, causes := [k], holdAt := some 900000, entry := some .fresh, due := .atOnce }

/-- Line 1 in BURNOUT. -/
def burning : State := lineAs fun c => { c with state := .burnout, burnoutAt := some 3600000 }

/-- Line 1 TRIPPED, its signals high again. -/
def tripped : State := lineAs fun c => { c with state := .tripped, trip := some ⟨.flame, .feeding, 5⟩ }

/-- The house in CONFIG. -/
def config : State := { house with ring.segment := .config }

/-- A part that has nothing configured, in CONFIG. -/
def bare : State := { State.reset with ring := { Ring.reset true true with segment := .config } }

/-- The house with the turbine changed. -/
def turbAs (f : Turbine → Turbine) : State := { house with turb := f house.turb }

/-- The house with the dispatch unit configured and changed. -/
def dispAs (f : Dispatch → Dispatch) : State :=
  { house with
    clock := ⟨10000, some 3600000⟩
    disp := f { house.disp with
      page := { DispatchPage.default with unit := (1, 2), pool := (1, 9) }, unitUsed := (1, 2), poolUsed := (1, 9)
      lastCe := 150 } }

/-- CONFIG with stations: 1 and 4 ACTIVE, 4 locked, 2 SILENT, 3 locked and ABSENT, the others free. -/
def stationed : State :=
  { config with seg.stations :=
      [{ Station.free with serial := some 5, kindCode := 3, state := .active },
        { Station.free with serial := some 6, state := .silent },
        { Station.free with serial := some 7, lock := true },
        { Station.free with serial := some 8, state := .active, lock := true }] ++ List.replicate 26 .free }

/-- The conditions of Shaped, each as a test. -/
def shapedTest (s : State) : Bool :=
  decide (s.points.length = 192 ∧ s.ring.slotMap.length = 256 ∧ s.ring.echoCounts.length = 256 ∧
    s.ring.collisions.length = 256 ∧ s.seg.stations.length = 30 ∧ s.seg.dropFlags.length = 31) &&
  decide ((s.fgc .one).table.length = 48 ∧ (s.fgc .two).table.length = 48 ∧ (s.fgc .one).abn.consec ≤ 14400 ∧
    (s.fgc .two).abn.consec ≤ 14400 ∧ s.disp.out.length ≤ 4 ∧ s.disp.queue.length ≤ 16 ∧ s.disp.vr < 128 ∧
    s.disp.notice.next < 128 ∧ s.mgmt.lost ≤ 65535) &&
  decide (∀ b ∈ s.disp.queue, b.firm = true → b.accPower + b.accReserve ≤ b.capAt) &&
  decide (pointsOnce s.ring.slotMap = true ∧ ∀ e ∈ s.ring.slotMap, e.point < 192) &&
  decide (∀ o ∈ s.ring.outstanding.toList, (o.echo.map (·.1)).Nodup) &&
  decide (∀ a ∈ s.seg.enum.awaiting.toList ++ s.seg.enum.winner.toList, 1 ≤ a.2)

theorem shaped_of (s : State) (h : shapedTest s = true) : s.Shaped := by
  simp only [shapedTest, Bool.and_eq_true, decide_eq_true_eq] at h
  obtain ⟨⟨⟨⟨⟨⟨h1, h2, h3, h4, h5, h6⟩, h7, h8, h9, h10, h11, h12, h13, h14, h15⟩, h16⟩, h17, h18⟩, h19⟩, h20⟩ := h
  refine ⟨h1, h2, h3, h4, h5, h6, ?_, ?_, h11, h12, h16, h13, h14, h15, h17, h18, ?_, ?_⟩
  · intro l; cases l <;> assumption
  · intro l; cases l <;> assumption
  · intro o ho; exact h19 o (by simp [ho])
  · rintro a (ha | ha)
    · exact h20 a (by simp [ha])
    · exact h20 a (by simp [ha])

theorem house_free : house.Free := ⟨⟨rfl, rfl⟩, rfl⟩
theorem feeding_free : feeding.Free := ⟨⟨rfl, rfl⟩, rfl⟩
theorem waiting_quiet : waiting.Quiet := ⟨rfl, rfl⟩
theorem heldBy_free (k : HoldCause) : (heldBy k).Free := ⟨⟨rfl, rfl⟩, rfl⟩
theorem burning_free : burning.Free := ⟨⟨rfl, rfl⟩, rfl⟩
theorem tripped_free : tripped.Free := ⟨⟨rfl, rfl⟩, rfl⟩
theorem config_free : config.Free := ⟨⟨rfl, rfl⟩, rfl⟩
theorem bare_free : bare.Free := ⟨⟨rfl, rfl⟩, rfl⟩
theorem stationed_free : stationed.Free := ⟨⟨rfl, rfl⟩, rfl⟩
theorem reset_free : State.reset.Free := ⟨⟨rfl, rfl⟩, rfl⟩

/-- A cycle frame of two slots. -/
def frame : CycleFrame :=
  ⟨0, 7, 0, 0, 0, [⟨9000, 0, 1⟩, ⟨412, 0, 1⟩], emptyAttention, emptyArea 50, emptyArea 32, []⟩

/-- A cycle frame at its limits. -/
def fullFrame : CycleFrame :=
  ⟨1, 65535, 0, 0, 0, List.replicate 256 ⟨0xFFFF, 0xFF, 0xFF⟩, emptyAttention, emptyArea 50, emptyArea 32, [1]⟩

/-- A frame that is no cycle frame though it begins like one. -/
def damagedFrame : LinkFrame := ⟨ringProtocol, true, [1]⟩

/-- A frame of another protocol. -/
def foreignFrame : LinkFrame := ⟨0x0800, true, []⟩

/-! ### WellFormed refuses an ill-formed term for each of its checks -/

theorem test_wellFormed_refuses :
    (Instr.staleTimerExpiry 192).wellFormed = false ∧ (Instr.holdTimerExpiry 192).wellFormed = false ∧
      (Instr.staircaseStep 192).wellFormed = false ∧ (Instr.schedule 1 2 0 (List.replicate 84 0)).wellFormed = false ∧
      (Instr.cancel 1 2 0 (List.replicate 84 0)).wellFormed = false ∧ (Instr.kindDiscard 1 2 0x10).wellFormed = false ∧
      (Instr.blockStart 128 0).wellFormed = false ∧ (Instr.blockStart 0 4).wellFormed = false ∧
      (Instr.blockEnd 128 0).wellFormed = false ∧ (Instr.blockEnd 0 4).wellFormed = false ∧
      (Instr.writeTable 10 0 0 (List.replicate 234 0)).wellFormed = false ∧
      (Instr.forcePoint 0 (.other 1)).wellFormed = false ∧ (Instr.forcePoint 0 (.other 2)).wellFormed = false ∧
      (Instr.outboundPass ⟨0, true, List.replicate 1501 0⟩).wellFormed = false ∧
      (Instr.inboundPass ⟨0, true, List.replicate 1501 0⟩).wellFormed = false := by decide +kernel

theorem test_wellFormed_accepts :
    (Instr.staleTimerExpiry 191).wellFormed = true ∧ (Instr.blockStart 127 3).wellFormed = true ∧
      (Instr.kindDiscard 1 2 0x21).wellFormed = true ∧ (Instr.forcePoint 255 (.other 3)).wellFormed = true ∧
      (Instr.writeTable 10 0 0 (List.replicate 233 0)).wellFormed = true := by decide +kernel

/-! ### The manual's worked cases -/

/-- The check values of the two CRCs over the nine digits, as their catalogues give them. -/
theorem test_crc_check_values :
    let digits : List Byte := [0x31, 0x32, 0x33, 0x34, 0x35, 0x36, 0x37, 0x38, 0x39]
    crc8 digits = 0xF4 ∧ crc16 digits = 0x29B1 := by decide +kernel

/-- Section 5.6, stages A, G, H and I. -/
theorem test_worked_period :
    let p := { LinePage.default with enthalpy := 2900, strokeMass := 1200 }
    let c := { Line.reset with
      page := p, state := .feeding, alloc := 450, cap := 520, trim := 6, lhvEst := 9490, entry := some .fresh }
    let d := (((c.stageAB (some 412)).stageF (some 412)).stageGHI)
    d.qIn = 39044 ∧ d.entry = some ⟨19522, 0, false, 1⟩ ∧ d.trim = 10 ∧ d.dEff = 460 ∧ d.qReq = 43594 ∧
      d.mReq = 16537 ∧ d.interval = 261232 ∧ grateSpeed p d.mReq = 826 := by decide +kernel

/-- Section 5.6, stages D and E. -/
theorem test_worked_estimate :
    let p := { LinePage.default with enthalpy := 2900, strokeMass := 1200 }
    let record := List.replicate 20 (BurnEntry.mk 2342640 0 false 120) ++
      List.replicate 6 (BurnEntry.mk 2342640 1200 false 120) ++ List.replicate 24 (BurnEntry.mk 2342640 0 false 120)
    (match rawEstimate p record with
      | .ok raw => decide (raw = 9761 ∧ filtered p 9400 raw = 9490)
      | .error _ => false) = true := by decide +kernel

/-- Section 5.7: the estimate is held with reason SHORT until the record is full, and with STEAM-GAP after. -/
theorem test_worked_hold :
    let p := { LinePage.default with heatWindow := 10, massLag := 5, alpha := 8 }
    filtered p 9000 10402 = 9701 ∧
      (match rawEstimate p (List.replicate 14 (BurnEntry.mk 1 1000 false 1)) with
        | .ok _ => 0
        | .error e => e) = 1 ∧
      (match rawEstimate p (⟨1, 1000, true, 1⟩ :: List.replicate 14 (BurnEntry.mk 1 1000 false 1)) with
        | .ok _ => 0
        | .error e => e) = 2 := by decide +kernel

/-- Section 6.2, the worked NOX sample, and the same readings of a DRY analyser. -/
theorem test_worked_sample :
    normalise .wet 1100 1010 1850 1480 = some 2108 ∧ normalise .dry 1100 1010 1850 1480 = some 1480 ∧
      normalise .dry 1100 2000 0 1480 = none := by decide +kernel

/-- Section 6.5, the worked loops. -/
theorem test_worked_loops :
    let urea := { dosingDefault.urea with outputMax := 1200 }
    loopBase .urea 300 39044 16537 = 1171 ∧ loopTrim urea 40 (some 2108) = 59 ∧ loopOutput urea .urea 1171 59 = 1200 ∧
      loopBase .lime 600 39044 16537 = 2342 ∧ loopTrim dosingDefault.lime 0 (some 640) = 2 ∧
      loopOutput dosingDefault.lime .lime 2342 2 = 2344 ∧ loopBase .carbon 50 39044 16537 = 826 := by decide +kernel

/-- The plant of section 8.9. -/
def worked : RunInput :=
  { page := HeaderPage.default, state1 := .feeding, state2 := .feeding, cap1 := 520, cap2 := 480, floor1 := 150
    floor2 := 150, flow1 := 0, flow2 := 0, heat := 180, pressure := some 3968, turbine := .loaded, ramped := 120
    reserve := 15, steamRate := 450, rating := 200, steam := 0 }

/-- Section 8.9: the worked allocation, and the same with line 1 restrained to 440. -/
theorem test_worked_allocation :
    let r := worked.result
    let q := { worked with cap1 := 440 }.result
    (r.sT, r.sX, r.sP, r.sTot, r.alloc1, r.alloc2, r.supply) = (608, 252, 8, 888, 462, 426, 888) ∧
      (r.gX, r.gT, r.pC, r.bypass, r.cE) = (252, 608, 8, 20, 161) ∧ pSent 120 608 450 15 161 200 = 120 ∧
      (q.alloc1, q.alloc2, q.cE) = (425, 463, 144) := by decide +kernel

/-- Section 8.9: the turbine trip. -/
theorem test_worked_trip :
    let r := { worked with cap1 := 440, turbine := .tripped }.result
    (r.sT, r.sTot, r.alloc1, r.alloc2, r.supply) = (0, 280, 150, 150, 300) ∧
      (r.gX, r.gT, r.pC, r.bypass, r.cE) = (252, 0, 8, 40, 0) := by decide +kernel

/-- Section 9.7: the ramp step and P_sent of the worked sequence. -/
theorem test_worked_ramp :
    rampStep 300 1000 = 5 ∧ rampToward 0 120 5 = 5 ∧ pSent 10 90 450 15 161 200 = 5 ∧ pSent 15 113 450 15 161 200 = 10 := by
  decide +kernel

/-- Section 10.6: the accepted values of the worked partial order. -/
theorem test_worked_order :
    acceptedValues true 140 20 150 = (130, 20) ∧ acceptedValues true 130 15 150 = (130, 15) ∧
      acceptedValues false 140 20 150 = (140, 20) := by decide +kernel

/-! ### Single commands -/

/-- The point of the worked stale episode of section 3.2. -/
def furnace : Point :=
  { pt .furnaceTemp (some .one) 8497 with
    gain := 1638, low := 0, high := 14000, staleLimit := 200, holdLimit := 2, staleAt := some 10380 }

/-- The house with its first point replaced. -/
def withFirst (p : Point) : State := { house with points := p :: housePoints.drop 1 }

/-- The house at run time 10,182 with that point as its first. -/
def episode : State := { withFirst furnace with clock := ⟨101820, none⟩ }

/-- Section 3.2: a good sample is scaled, one with quality byte 7 leads to HOLDING, and one out of range is bad. -/
theorem test_worked_episode :
    ((episode.sample 0 21250 0).point 0).value = 8497 ∧ ((episode.sample 0 21400 0).point 0).value = 8557 ∧
      ((episode.sample 0 21250 7).point 0).input = .holding ∧
      ((episode.sample 0 21250 7).point 0).holdAt = some 12182 ∧
      ((episode.sample 0 (BitVec.ofInt 16 (-100)) 0).point 0).quality = .held := by decide +kernel

/-- R42, R45: a sample handed for an OUTPUT or an EMPTY record changes nothing. -/
theorem test_sample_of_wrong_kind : house.sample 4 7 1 = house ∧ house.sample 20 7 0 = house := by decide +kernel

/-- R42, R59, R183: a POINTS record holds value and quality as qualified, READ-POINT the presented ones. -/
theorem test_points_record_is_qualified :
    let p := { furnace with forcing := some (.fixed 5) }
    (p.fields.drop 15).take 2 = [f4 8497, f2 0] ∧ (p.readFields.drop 4).take 2 = [5, 4] := by decide +kernel

/-- Section 3.2: the stale timer leads to HOLDING until two seconds later. -/
theorem test_stale_timer :
    after (.staleTimerExpiry 0) episode (fun t =>
      decide ((t.point 0).quality = .held ∧ (t.point 0).holdAt = some 12380 ∧ t.runTime = 10380)) = true := by
  decide +kernel

/-- Section 3.6: the levels of the worked staircase, whose top is 899. -/
theorem test_worked_staircase :
    (furnace.forcingOf 0 (.staircase 3 10000 200 900)).map (fun f => forcedValue f.1) = some 200 ∧
      forcedValue (.staircase 3 10000 200 900 1 0) = 433 ∧ forcedValue (.staircase 3 10000 200 900 3 0) = 899 := by
  decide +kernel

theorem test_staircase_step_wraps :
    after (.staircaseStep 0) (withFirst { furnace with forcing := some (.staircase 3 10000 200 900 3 500) }) (fun t =>
      decide ((t.point 0).shownValue = 200 ∧ (t.point 0).forcing = some (.staircase 3 10000 200 900 0 10500))) = true := by
  decide +kernel

/-- R159: a negative steam reading is tracked as it stands: min(rating, floor(T_s × 100 / SR)). -/
theorem test_negative_tracking :
    ({ turbAs id with points := housePoints.set 20 (pt .turbineSteam none (-7)) } : State).tracked = -1 := by
  decide +kernel

theorem test_start_gives_stroke_one :
    after (.start 1) house (fun t =>
      decide ((t.line .one).state = .feeding ∧ (t.line .one).stroke = some ⟨1, 0, .out⟩ ∧ (t.point 4).value = 1 ∧
        (t.point 5).value = 1 ∧ t.owed = [.allocationRun .line])) = true := by decide +kernel

/-- R94: a longer interval moves a due time that lies ahead, and leaves one that has come. -/
theorem test_due_time_moves_only_ahead :
    (Due.at_ 8).replace (.at_ 9) 7 = .at_ 9 ∧ (Due.at_ 7).replace (.at_ 9) 7 = .at_ 7 := by decide

/-- R138, R146: right after a COLD reset every demand term of the status is 0, S_b_min among them. -/
theorem test_reset_shows_no_bypass_term : State.reset.env.result = .zero ∧ RunResult.zero.sBMin = 0 := by decide

/-- Section 4.7: after 255 the next stroke is numbered 1. -/
theorem test_stroke_number_wraps : nextStroke 255 = 1 ∧ nextStroke 36 = 37 := by decide

/-- Section 4.7: the worked strokes, from the due time of stroke 37. -/
theorem test_worked_stroke :
    let s := lineAs fun c => { c with
      state := .feeding, entry := some .fresh, due := .at_ 5000000, lastNumber := 36, lastDone := some 4738768
      interval := 261232, ranPeriod := true, mReq := 16537, page := { c.page with strokeMass := 1200 } }
    after (.dueTimeReached .one) s (fun t =>
      let u := ((t.advanceStroke .one 2).advanceStroke .one 1).line .one
      decide ((t.line .one).stroke = some ⟨37, 5000000, .out⟩ ∧ u.stroke = none ∧ u.completed = 1 ∧
        u.entry = some ⟨0, 1200, false, 0⟩ ∧ u.due = .at_ 5261232)) = true := by decide +kernel

theorem test_trip_withdraws_stroke :
    let t := feeding.tripLine .one .both
    (t.line .one).state = .tripped ∧ (t.line .one).stroke = none ∧ (t.line .one).trip = some ⟨.both, .feeding, 0⟩ ∧
      (t.point 5).value = 4 := by decide +kernel

/-- Section 6.4: the minute in progress and six skipped minutes are handed on by a clock correction. -/
theorem test_worked_clock_correction :
    let m : Minute := ⟨37020000, Six.all ⟨42, 40, 1000, false, false⟩, Three.all false, false⟩
    let f := { Fgc.reset with minute := some m, half := some (HalfHour.fresh 36000000 false) }
    let s := { feeding with clock := ⟨0, some 37062000⟩, fgcs := ⟨f, f⟩ }
    after (.setTimeAbsolute 37445000) s (fun t =>
      decide ((t.fgc .one).half.map (fun h => (h.operating, h.adjusted, h.start)) = some (7, true, 36000000) ∧
        (t.fgc .one).minute.map (fun x => (x.start, x.adjusted)) = some (37445000, true))) = true := by decide +kernel

/-- Section 11.1: LINE-CONTROL START of line 1 as its five bytes; a command that is too short; an unknown code. -/
theorem test_command_bytes :
    (house.commandComplete [0x09, 0, 2, 1, 1]).owed = [.start 1] ∧
      ((house.commandComplete [0x09, 0, 2, 1]).mgmt.response.map (·.code)) = some .badLength ∧
      ((house.commandComplete [0x14, 0, 0]).mgmt.response.map (·.code)) = some .badCommand := by decide +kernel

/-- Section 1.9: the header of a cycle frame and an ENUM frame, byte by byte. -/
theorem test_frame_bytes :
    (frame.bytes.take 18) = [1, 0, 0, 7, 0, 2, 0, 0, 0, 0, 0, 0, 0, 0, 0, 0, 0, crc8 (frame.bytes.take 17)] ∧
      (EnumCarry.link ⟨3, 0x010203040506, 9⟩).payload.take 15 =
        [2, 3, 0xFF, 0xFF, 0xFF, 0xFF, 0xFF, 0xFF, 1, 2, 3, 4, 5, 6, 9] := by decide +kernel

theorem test_outbound_goes_south :
    after (.outboundPass frame.link) house (fun t =>
      decide (t.ring.outstanding = some ⟨7, 2, 0, 20, []⟩ ∧ t.ring.sentS.isSome = true)) = true := by decide +kernel

theorem test_read_events_gives_cold_start :
    after (.readEvents 255) house (fun t =>
      decide (t.mgmt.events = [] ∧ (t.mgmt.response.map (·.code)) = some .done)) = true := by decide +kernel

theorem test_load_budget_clamps :
    after (.loadBudget 1 2000000 20000 1) house (fun t =>
      decide ((t.fgc .one).abn.annual = 1000000 ∧ (t.fgc .one).abn.consec = 14400 ∧
        (t.mgmt.response.map (·.code)) = some .doneClamped)) = true := by decide +kernel

/-! ### Witnesses: the machine, its bytes, resets and frames -/

theorem witness_StepRunsFront : ∃ s : State, s.pending = .readEvents 1 :: [] :=
  ⟨{ house with pending := [.readEvents 1] }, rfl⟩

theorem witness_IdleOrder :
    house.pending = [] ∧ ({ house with resetLow := true } : State).resetLow = true ∧
      (house.owe .segmentRestart).owed = .segmentRestart :: [] ∧ house.resetLow = false ∧ house.owed = [] ∧
      ({ State.reset with clock := ⟨10000, none⟩ } : State).dueEvents =
        .sampleInstant .one :: [.sampleInstant .two, .allocationRun .period] ∧
      house.dueEvents = [] := by decide +kernel

theorem witness_ShapedStepGoes :
    house.points.length = 192 ∧ ∀ c ∈ [Instr.staircaseStep 191, .blockEnd 127 3], c.wellFormed = true := by decide +kernel

theorem witness_QueueOrderKept : feeding.QueueOrdered ∧ ∃ t, step feeding = .next t := by
  refine ⟨?_, goes_of _ (by decide +kernel)⟩
  unfold State.QueueOrdered
  decide +kernel

theorem witness_ShapeKept : feeding.Shaped ∧ ∃ t, step feeding = .next t := by
  exact ⟨shaped_of _ (by decide +kernel), goes_of _ (by decide +kernel)⟩

theorem witness_ExhaustedLinesDoNotFeed : feeding.Guarded ∧ ∃ t, step feeding = .next t := by
  refine ⟨?_, goes_of _ (by decide +kernel)⟩
  intro l
  cases l <;> decide +kernel

theorem witness_CommandBytesDecode :
    (Instr.writeTable 10 0 0 (List.replicate 233 0)).wellFormed = true ∧
      commandOf (.writeTable 10 0 0 (List.replicate 233 0)) = some (.writeTable, [10, 0, 0, 0] ++ List.replicate 233 0) ∧
      house.mgmt.executing = none := by decide +kernel

theorem witness_MessageBytesDecode : (List.replicate 83 (0 : Byte)).length ≤ 83 := by decide

theorem witness_LaneReassembly :
    (1 ≤ [(7 : Byte)].length ∧ [(7 : Byte)].length ≤ 90) ∧
      (1 ≤ (List.replicate 90 (7 : Byte)).length ∧ (List.replicate 90 (7 : Byte)).length ≤ 90) ∧
      house.disp.rx = .idle := by decide

/-- The house with the management unit changed. -/
def mgmtAs (f : Mgmt → Mgmt) : State := { house with mgmt := f house.mgmt }

/-- A response with this many data bytes. -/
def reply (n : Nat) : Response := ⟨1, .done, .bytes (List.replicate n 7)⟩

/-- Commands of 1, 48, 49 and 240 bytes; segments that fit no command, each at the last value that fails; responses of one
segment and of five, begun or not; the two short answers; a command met busy, one byte short and with the codes beside
the table's. -/
theorem witness_MailboxSegments :
    (house.mgmt.rx = .idle ∧ ∀ n ∈ [1, 48, 49, 240], 1 ≤ (List.replicate n (7 : Byte)).length ∧
      (List.replicate n (7 : Byte)).length ≤ 240) ∧
      ((mgmtAs fun m => { m with rx := .assembling [1] 1 }).mgmt.rx = .assembling [1] 1 ∧
        (48 : Nat) ≤ 48 ∧ (48 : Nat) < 49 ∧ 240 < 193 + ((List.replicate 48 (7 : Byte)).take 48).length ∧ (5 : Nat) < 5 + 1 ∧
        (mgmtAs fun m => { m with rx := .skipping }).mgmt.rx = .skipping ∧
        (mgmtAs fun m => { m with discardRun := true }).mgmt.discardRun = true ∧ house.mgmt.discardRun = false ∧
        house.mgmt.events.length < 64) ∧
      (∀ n ∈ [0, 44, 45, 236], let s := mgmtAs fun m => { m with response := some (reply n) };
        s.mgmt.response = some (reply n) ∧ s.mgmt.nextSegment = 0 ∧ s.mgmt.abortedCommand = none ∧
          s.mgmt.busyAnswer = none ∧ (reply n).toBytes.length = n + 4) ∧
      (let s := mgmtAs fun m => { m with response := some (reply 236), nextSegment := 4 };
        s.mgmt.response = some (reply 236) ∧ s.mgmt.nextSegment = 3 + 1) ∧
      (let s := mgmtAs fun m => { m with abortedCommand := some 6, busyAnswer := some 9 };
        (s.mgmt.response = none ∨ s.mgmt.nextSegment = 0) ∧ s.mgmt.abortedCommand = some 6 ∧
          (mgmtAs fun m => { m with busyAnswer := some 9 }).mgmt.abortedCommand = none) ∧
      ((mgmtAs fun m => { m with executing := some 9 }).mgmt.executing ≠ none ∧ house.mgmt.executing = none ∧
        ¬(3 ≤ [(9 : Byte), 0].length) ∧ [(0 : Byte), 0, 0].length = 3 + fieldNat [0, 0, 0] 1 2 ∧ 0x13 < (0x14 : Byte).toNat) :=
  ⟨⟨rfl, by decide +kernel⟩, by decide +kernel, by decide +kernel, by decide +kernel, by decide +kernel, by decide +kernel⟩

theorem witness_CycleFrameLayout :
    fullFrame.cycle < 65536 ∧ fullFrame.slots.length ≤ 256 ∧ fullFrame.attn.length = 32 ∧ fullFrame.mbox.length = 50 ∧
      fullFrame.lane.length = 32 := by decide +kernel

theorem witness_WarmResetValues : feeding.Quiet := ⟨rfl, rfl⟩

theorem witness_SegmentRestartCourse : waiting.Quiet := ⟨rfl, rfl⟩

theorem witness_PlainEvents :
    (house.Quiet ∧ ({ house with seg.window := some 5000 } : State).seg.window = some 5000 ∧ house.seg.window = none) ∧
      (({ house with resetLow := true } : State).resetLow = true ∧ (Instr.start 1).wellFormed = true ∧
        Instr.start 1 ≠ .coldReset ∧ Instr.start 1 ≠ .portSLinkUp ∧ Instr.start 1 ≠ .portSLinkDown ∧
        ∀ up, Instr.start 1 ≠ .portNLinkChange up) :=
  ⟨⟨⟨rfl, rfl⟩, rfl, rfl⟩, by decide +kernel⟩

theorem witness_PortSLinkChanges :
    house.Quiet ∧ house.ring.segment ≠ .down ∧ State.reset.Quiet ∧ State.reset.ring.segment = .down :=
  ⟨⟨rfl, rfl⟩, by decide, ⟨rfl, rfl⟩, rfl⟩

/-- The house with a slot of each direction: INPUT of stations 1 and 2, OUTPUT, REQUEST and REPORT. -/
def ringed : State :=
  { house with
    points := housePoints.set 12 { pt .capability none 77 with raw := 77 }
    ring.slotMap := [⟨.input, 0, 1⟩, ⟨.input, 1, 2⟩, ⟨.output, 4, 0⟩, ⟨.request, 191, 0⟩, ⟨.report, 12, 0⟩] ++
      List.replicate 251 .unused
    seg := { house.seg with
      resetLevel := .clear
      stations :=
        [{ Station.free with serial := some 5, state := .active, attention := true, maxLength := 5 },
          { Station.free with serial := some 6, state := .joining, missed := 19 }] ++ List.replicate 28 .free } }

/-- A cycle frame over those slots, with a request, a management command and a reset request. -/
def asking : CycleFrame :=
  ⟨1, 8, 0, 0, 0, [⟨9000, 0, 1⟩, ⟨412, 0, 3⟩, ⟨5, 0, 0xFE⟩, ⟨200, 0, 0xFD⟩, ⟨0, 0, 0⟩], emptyAttention,
    segmentArea 50 true true 0 [0x09, 0, 2, 1, 1], emptyArea 32, []⟩

/-- The ringed house with the frame of cycle 7 outstanding, slot 2 twice missed. -/
def ringedOut : State :=
  { ringed with ring := { ringed.ring with
      outstanding := some ⟨7, 5, 0, 20, [(2, 0)]⟩, echoCounts := [0, 0, 2] ++ List.replicate 253 0 } }

theorem witness_ForwardsSoundFrame :
    (house.Quiet ∧ house.ring.linkN = true ∧ examine frame.link = .cycle frame ∧ house.ring.segment ≠ .down ∧
      house.ring.segment ≠ .enumerating ∧ house.ring.outstanding = none) ∧
      (ringedOut.Quiet ∧ ringedOut.Shaped ∧ ringedOut.ring.linkN = true ∧ examine asking.link = .cycle asking ∧
        ringedOut.ring.segment = .run ∧ ringedOut.ring.outstanding = some ⟨7, 5, 0, 20, [(2, 0)]⟩ ∧
        ringedOut.ring.lossRun = false ∧ ringedOut.mgmt.events.length < 64 ∧ asking.flags.getLsbD 0 = true ∧
        ringedOut.seg.resetLevel = .clear ∧ ringedOut.seg.window = none) :=
  ⟨⟨⟨rfl, rfl⟩, rfl, by decide +kernel, by decide, by decide, rfl⟩,
    ⟨⟨rfl, rfl⟩, shaped_of _ (by decide +kernel), rfl, by decide +kernel, rfl, rfl, rfl, by decide, by decide, rfl, rfl⟩⟩

/-- R4, R8, R40, R48, R181: the outstanding cycle is lost as LATE, the request is taken, the command and the restart are
owed, and the frame's own cycle is outstanding. -/
theorem test_late_frame_hands_over :
    after (.outboundPass asking.link) ringedOut (fun t =>
      decide (t.ring.counters.lostLate = 1 ∧ t.ring.lostInRow = 1 ∧ (t.point 191).value = 200 ∧
        t.ring.outstanding.map (·.cycle) = some 8 ∧ Instr.start 1 ∈ t.owed ∧ Instr.segmentRestart ∈ t.owed ∧
        t.seg.window = some 2000)) = true := by decide +kernel

/-- The house with Port S DOWN. -/
def cut : State := { house with ring := { house.ring with linkS := false, segment := .down } }

/-- The ringed house in a FULL run whose first frame is offered. -/
def offering : State :=
  { ringed with
    ring.segment := .enumerating
    seg.enum := { EnumRecord.reset with running := true, lastRound := 0, offer := some ⟨0, allOnes, 0⟩ } }

theorem witness_TurnsBackSoundFrame :
    (cut.Quiet ∧ cut.ring.linkN = true ∧ examine frame.link = .cycle frame ∧ cut.ring.segment = .down ∧
      cut.ring.outstanding = none) ∧
      (({ house with ring.linkN := false } : State).Quiet ∧ ({ house with ring.linkN := false } : State).ring.linkN = false) ∧
      (offering.Quiet ∧ offering.Shaped ∧ offering.ring.linkN = true ∧ examine asking.link = .cycle asking ∧
        offering.ring.segment = .enumerating ∧ offering.ring.outstanding = none ∧ offering.ring.flight = none ∧
        offering.seg.enum.offer = some ⟨0, allOnes, 0⟩) ∧
      ({ offering with ring.flight := some ⟨⟨0, allOnes, 0⟩, 20⟩ } : State).ring.flight ≠ none :=
  ⟨⟨⟨rfl, rfl⟩, rfl, by decide +kernel, rfl, rfl⟩, ⟨⟨rfl, rfl⟩, rfl⟩,
    ⟨⟨rfl, rfl⟩, shaped_of _ (by decide +kernel), rfl, by decide +kernel, rfl, rfl, rfl, rfl⟩, by decide⟩

/-- R5, R18: in ENUMERATING the frame goes north with the report written, and the offered ENUM frame goes south. -/
theorem test_turned_back_frame_lets_enum_go :
    after (.outboundPass asking.link) offering (fun t =>
      decide (t.ring.sentS = some (EnumCarry.link ⟨0, allOnes, 0⟩) ∧ t.ring.flight = some ⟨⟨0, allOnes, 0⟩, 20⟩ ∧
        t.seg.enum.offer = none ∧
        t.ring.sentN.map (fun f => f.payload.drop 34 |>.take 4) = some [0, 77, 0, 0xFE])) = true := by decide +kernel

/-- R2, R12, R21: the cycle number of a damaged frame whose header is sound stands in its bytes 2 and 3. -/
theorem test_damaged_cycle_number :
    let f : LinkFrame := ⟨ringProtocol, true, asking.bytes.take 30⟩
    examine f = .damaged ∧ damagedCycleOf f = 8 := by decide +kernel

/-- A frame of type ENUM that is cut short. -/
def cutEnum : LinkFrame := ⟨ringProtocol, true, [2]⟩

/-- A FULL run whose frame of round 0 is in flight. -/
def enumerating : State :=
  { State.reset with
    ring := { Ring.reset true true with segment := .enumerating, flight := some ⟨⟨0, allOnes, 0⟩, 20⟩ }
    seg := { Segment.reset with enum := { EnumRecord.reset with running := true, lastRound := 0, rounds := 1 } } }

/-- That run after seven frames lost in a row, with an assignment awaiting its confirmation. -/
def losing : State :=
  { enumerating with seg := { enumerating.seg with
      enum := { enumerating.seg.enum with lost := 7, awaiting := some (5, 1) }
      stations := { Station.free with serial := some 5, state := .joining } :: List.replicate 29 .free } }

theorem witness_UnsoundFrames :
    (house.Quiet ∧ house.ring.linkN = true ∧ house.ring.linkS = true ∧ examine foreignFrame = .foreign ∧
      examine damagedFrame = .damaged ∧ examine cutEnum = .damagedEnum ∧
      examine (EnumCarry.link ⟨0, allOnes, 0⟩) = .enum ⟨0, allOnes, 0, 0⟩ ∧ house.ring.segment ≠ .enumerating) ∧
      (cut.Quiet ∧ cut.ring.linkN = true ∧ cut.ring.linkS = false ∧ cut.ring.outstanding = none ∧
        (cut.ring.segment = .down ∨ cut.ring.segment = .enumerating)) ∧
      ({ house with ring.linkN := false } : State).ring.linkN = false ∧
      (enumerating.Quiet ∧ enumerating.ring.linkS = true ∧ enumerating.ring.segment = .enumerating ∧
        enumerating.ring.flight = some ⟨⟨0, allOnes, 0⟩, 20⟩ ∧ enumerating.seg.enum.running = true ∧
        ({ enumerating with seg.enum.lost := 6 } : State).seg.enum.lost + 1 < 8 ∧
        ({ enumerating with seg := Segment.reset } : State).seg.enum.running = false) ∧
      (losing.Quiet ∧ losing.Shaped ∧ losing.ring.linkS = true ∧ losing.ring.segment = .enumerating ∧
        losing.ring.flight = some ⟨⟨0, allOnes, 0⟩, 20⟩ ∧ losing.seg.enum.running = true ∧
        8 ≤ losing.seg.enum.lost + 1) :=
  ⟨⟨⟨rfl, rfl⟩, rfl, rfl, by decide, by decide, by decide, by decide +kernel, by decide⟩,
    ⟨⟨rfl, rfl⟩, rfl, rfl, rfl, .inl rfl⟩, rfl, ⟨⟨rfl, rfl⟩, by decide +kernel⟩,
    ⟨⟨rfl, rfl⟩, shaped_of _ (by decide +kernel), rfl, rfl, rfl, rfl, by decide⟩⟩

/-- R9, R18: a damaged ENUM frame on Port S loses the frame in flight while ENUMERATING and is only counted elsewhere. -/
theorem test_damaged_enum_frame :
    after (.inboundPass cutEnum) enumerating (fun t =>
      decide (t.ring.counters.damagedInbound = 1 ∧ t.ring.flight = none ∧ t.seg.enum.offer = some ⟨0, allOnes, 0⟩)) = true ∧
      after (.inboundPass cutEnum) house (fun t =>
        decide (t.ring.counters.damagedInbound = 1 ∧ t.ring.sentN = none)) = true := by decide +kernel

/-- The house with a cycle outstanding, one loss short of the broken count. -/
def outstanding (cycle : Nat) : State :=
  { house with ring := { house.ring with outstanding := some ⟨cycle, 2, 0, 20, []⟩, lostInRow := 4 } }

/-- The frame that answers the outstanding cycle of the ringed house, with these attention records. -/
def answering (attn : List Byte) : CycleFrame :=
  { asking with flags := 0, cycle := 7, attn := padTo 8 attn ++ emptyAttention.drop 8, mbox := emptyArea 50 }

/-- A JOIN of serial 9, a JOINED of station 2, a NOTE of station 1 and one of station 30. -/
def joinRecord : List Byte := [0, 1, 5, 0, 0, 0, 0, 9]
def joinedRecord : List Byte := [2, 2, 2, 0, 7]
def noteRecord : List Byte := [1, 9, 4, 0, 1, 0, 2]
def strayRecord : List Byte := [30, 9, 0]

theorem witness_TakesMatchingCycle :
    ((outstanding 7).Quiet ∧ (outstanding 7).ring.linkS = true ∧ (outstanding 7).ring.linkN = true ∧
      examine frame.link = .cycle frame ∧ (outstanding 7).ring.outstanding = some ⟨7, 2, 0, 20, []⟩ ∧ frame.cycle = 7 ∧
      frame.slots.length = 2) ∧
      (ringedOut.Quiet ∧ ringedOut.Shaped ∧ ringedOut.ring.linkS = true ∧
        ringedOut.ring.outstanding = some ⟨7, 5, 0, 20, [(2, 0)]⟩ ∧ (answering joinRecord).cycle = 7 ∧
        (answering joinRecord).slots.length = 5) ∧
      (∀ attn ∈ [joinRecord, joinedRecord, noteRecord, strayRecord, emptyAttention.take 8],
        examine (answering attn).link = .cycle (answering attn) ∧
          ∀ e ∈ (attentionOf (answering attn).attn).drop 1, e.station = 0xFF) ∧
      (ringedOut.numberOf 9 = none ∧ ringedOut.lowestFree = some 3 ∧ ringedOut.seg.joinEnable = true ∧
        ringedOut.ring.segment ≠ .broken) ∧
      (ringedOut.station 2).state = .joining ∧
      (1 ∈ ringedOut.presentIn (answering noteRecord).slots ∧ (ringedOut.station 1).state = .active ∧
        (ringedOut.station 1).attention = true ∧ 4 ≤ (ringedOut.station 1).maxLength ∧ attentionCode 9 = some .note ∧
        ringedOut.bound 1 .note = true) ∧
      (ringedOut.station 30).state = .absent ∧
      ((∀ e ∈ attentionOf frame.attn, e.station = 0xFF) ∧ (outstanding 7).ring.segment ≠ .broken) :=
  ⟨⟨⟨rfl, rfl⟩, rfl, rfl, by decide +kernel, rfl, rfl, rfl⟩,
    ⟨⟨rfl, rfl⟩, shaped_of _ (by decide +kernel), rfl, rfl, rfl, rfl⟩, by decide +kernel, by decide +kernel,
    by decide +kernel, by decide +kernel, by decide +kernel, by decide +kernel⟩

/-- R11, R13: slot 1 bears a stranger's tag, slot 2 misses its echo for the third time. -/
theorem test_collision_and_echo :
    after (.inboundPass (answering []).link) ringedOut (fun t =>
      decide (t.ring.collisions.getD 1 false = true ∧ t.ring.counters.collisions = 1 ∧
        t.ring.counters.echoMismatches = 1 ∧ t.ring.echoCounts.getD 2 0 = 3 ∧ (t.point 4).degraded = true ∧
        (t.point 0).value = 9000)) = true := by decide +kernel

/-- R31: a JOIN takes the lowest free number. -/
theorem test_join_takes_number :
    after (.inboundPass (answering joinRecord).link) ringedOut (fun t =>
      decide (t.station 3 = { Station.free with serial := some 9, state := .joining, due := true })) = true := by
  decide +kernel

/-- R32, R33: a JOINED in the last frame of the join wait is in time; without it the entry is released. -/
theorem test_joined_in_last_frame :
    after (.inboundPass (answering joinedRecord).link) ringedOut (fun t =>
      decide ((t.station 2).state = .active ∧ (t.station 2).kindCode = 7 ∧ t.seg.ackSet = 2)) = true ∧
      after (.inboundPass (answering (emptyAttention.take 8)).link) ringedOut (fun t =>
        decide ((t.station 2).state = .absent ∧ (t.station 2).serial = none)) = true := by decide +kernel

/-- R37, R38: a NOTE of an ACTIVE station is acknowledged; a record of an ABSENT one is dropped under its flag. -/
theorem test_records_accepted_and_dropped :
    after (.inboundPass (answering noteRecord).link) ringedOut (fun t => decide (t.seg.ackSet = 1)) = true ∧
      after (.inboundPass (answering strayRecord).link) ringedOut (fun t =>
        decide (t.seg.ackSet = 0 ∧ t.seg.dropFlags.getD 30 false = true)) = true := by decide +kernel

/-- R14: the tenth taken frame in a row brings the segment back from BROKEN. -/
theorem test_return_from_broken :
    after (.inboundPass frame.link)
      { outstanding 7 with ring := { (outstanding 7).ring with segment := .broken, brokenFrom := .run, takenInRow := 9 } }
      (fun t => decide (t.ring.segment = .run ∧ t.ring.takenInRow = 10)) = true := by decide +kernel

theorem witness_MismatchHandsNothing :
    ((outstanding 8).Quiet ∧ (outstanding 8).ring.linkS = true ∧ examine frame.link = .cycle frame ∧
      (∀ o, (outstanding 8).ring.outstanding = some o → frame.cycle ≠ o.cycle ∨ frame.slots.length ≠ o.slots) ∧
      (outstanding 8).ring.mismatchRun = false ∧ (outstanding 8).mgmt.events.length < 64) ∧
      (house.Quiet ∧ house.ring.linkS = true ∧ house.ring.outstanding = none) ∧
      ({ house with ring.mismatchRun := true } : State).ring.mismatchRun = true :=
  ⟨⟨⟨rfl, rfl⟩, rfl, by decide +kernel, by rintro o ⟨⟩; exact .inl (by decide), rfl, by decide⟩, ⟨⟨rfl, rfl⟩, rfl, rfl⟩, rfl⟩

/-- R12: a frame met with nothing outstanding is logged with its cycle number and 0xFFFF. -/
theorem test_mismatch_is_logged :
    after (.inboundPass frame.link) house (fun t =>
      decide (t.mgmt.events.getLast?.map (fun e => (e.name, e.first, e.second)) = some (.cycleMismatch, 7, 0xFFFF))) = true := by
  decide +kernel

theorem witness_CyclesAreLost :
    (house.Quiet ∧ house.ring.linkN = true ∧ examine damagedFrame = .damaged ∧ house.ring.outstanding = none ∧
      house.ring.flight = none ∧ (house.ring.segment = .run ∨ house.ring.segment = .config) ∧ (outstanding 7).Quiet ∧
      (outstanding 7).ring.outstanding = some ⟨7, 2, 0, 20, []⟩ ∧
      (outstanding 7).ring.brokenCount ≤ (outstanding 7).ring.lostInRow + 1) ∧
      (enumerating.Quiet ∧ enumerating.ring.outstanding = none ∧
        enumerating.ring.flight = some ⟨⟨0, allOnes, 0⟩, 20⟩ ∧ enumerating.seg.enum.running = true ∧
        enumerating.seg.enum.lost + 1 < 8) ∧
      ({ enumerating with seg := Segment.reset } : State).seg.enum.running = false ∧
      (losing.Quiet ∧ losing.Shaped ∧ losing.ring.flight = some ⟨⟨0, allOnes, 0⟩, 20⟩ ∧ 8 ≤ losing.seg.enum.lost + 1 ∧
        losing.seg.enum.awaiting = some (5, 1)) ∧
      ({ losing with mgmt.executing := some CommandCode.enumerate.byte } : State).enumerateWaits = true :=
  ⟨⟨⟨rfl, rfl⟩, rfl, by decide, rfl, rfl, .inl rfl, ⟨rfl, rfl⟩, rfl, by decide⟩, ⟨⟨rfl, rfl⟩, rfl, rfl, rfl, by decide⟩, rfl,
    ⟨⟨rfl, rfl⟩, shaped_of _ (by decide +kernel), rfl, by decide, rfl⟩, by decide +kernel⟩

/-- R25, R28: the eighth ENUM frame lost in a row ends the run INCOMPLETE, and the entry awaiting is released. -/
theorem test_eighth_loss_ends_run :
    after .returnTimeout losing (fun t =>
      decide (t.seg.enum.outcome = some .incomplete ∧ t.station 1 = .free ∧ t.ring.segment = .config)) = true := by
  decide +kernel

/-- A run whose frame in flight carries this, with the assignment of serial 5 to number 1 awaiting. -/
def confirming (serial : Serial) (number : Nat) : State :=
  { losing with ring.flight := some ⟨⟨0, serial, number⟩, 20⟩ }

/-- A run with every number taken, and one in its 120th round. -/
def crowded : State :=
  { enumerating with seg.stations := List.replicate 30 { Station.free with serial := some 77, state := .active } }
def lastRound : State := { enumerating with seg.enum := { enumerating.seg.enum with rounds := 120 } }

theorem witness_EnumReturnCourse :
    (enumerating.Quiet ∧ enumerating.ring.linkS = true ∧ enumerating.ring.segment = .enumerating ∧
      ({ enumerating with ring.flight := none } : State).ring.flight = none ∧
      enumerating.ring.flight = some ⟨⟨0, allOnes, 0⟩, 20⟩ ∧ (0 : Nat) ≠ (1 : Byte).toNat ∧ 0 = (0 : Byte).toNat ∧
      enumerating.seg.enum.running = true ∧ enumerating.seg.enum.awaiting = none ∧
      enumerating.seg.enum.exhausted = false ∧ (0xFFFFFFFFFF : Serial).toNat < 2 ^ 40 ∧
      enumerating.numberOf 0xFFFFFFFFFF = none ∧ enumerating.lowestFree = some 1 ∧ enumerating.seg.enum.rounds < 120) ∧
      (∀ c ∈ [((0 : Serial), 0), (5, 1), (6, 2)], (confirming c.1 c.2).ring.flight = some ⟨⟨0, c.1, c.2⟩, 20⟩ ∧
        (confirming c.1 c.2).ring.linkS = true ∧ (confirming c.1 c.2).ring.segment = .enumerating ∧
        (confirming c.1 c.2).seg.enum.running = true ∧ (confirming c.1 c.2).seg.enum.awaiting = some (5, 1) ∧
        (confirming c.1 c.2).seg.enum.rounds < 120 ∧ shapedTest (confirming c.1 c.2) = true) ∧
      (crowded.Quiet ∧ crowded.numberOf 9 = none ∧ crowded.lowestFree = none ∧ crowded.mgmt.events.length < 64) ∧
      (lastRound.Quiet ∧ lastRound.lowestFree = some 1 ∧ 120 ≤ lastRound.seg.enum.rounds) ∧
      ({ lastRound with mgmt.executing := some CommandCode.enumerate.byte } : State).enumerateWaits = true :=
  ⟨⟨⟨rfl, rfl⟩, rfl, rfl, rfl, rfl, by decide, by decide, rfl, rfl, rfl, by decide, by decide +kernel, by decide +kernel,
    by decide⟩, by decide +kernel, ⟨⟨rfl, rfl⟩, by decide +kernel⟩, ⟨⟨rfl, rfl⟩, by decide +kernel⟩, by decide +kernel⟩

/-- R26: the assignment awaiting is confirmed, superseded by the same one carried again, or missed. -/
theorem test_assignment_judged :
    after (.enumFrameReturn 0 allOnes 5 1) (confirming 0 0) (fun t =>
      decide ((t.station 1).state = .active ∧ t.seg.enum.numbered = 1 ∧ t.seg.enum.outcome = some .complete)) = true ∧
      after (.enumFrameReturn 0 allOnes 0 0) (confirming 5 1) (fun t =>
        decide ((t.station 1).state = .joining ∧ t.seg.enum.awaiting = some (5, 1))) = true ∧
      after (.enumFrameReturn 0 allOnes 0 0) (confirming 0 0) (fun t =>
        decide (t.station 1 = .free ∧ t.seg.enum.numbered = 0)) = true := by decide +kernel

/-- R25, R28: the outcomes EXHAUSTED and INCOMPLETE. -/
theorem test_run_outcomes :
    after (.enumFrameReturn 0 9 0 0) crowded (fun t => decide (t.seg.enum.outcome = some .exhausted)) = true ∧
      after (.enumFrameReturn 0 9 0 0) lastRound (fun t =>
        decide (t.seg.enum.outcome = some .incomplete ∧ t.station 1 = .free)) = true := by decide +kernel

/-! ### Witnesses: stations, modes and points -/

theorem witness_StationNumberCommands :
    (house.Free ∧ house.ring.segment ≠ .config ∧ stationed.Free ∧ stationed.ring.segment = .config ∧
      ¬((1 ≤ (0 : Byte).toNat ∧ (0 : Byte).toNat ≤ 30) ∧ (1 ≤ (31 : Byte).toNat ∧ (31 : Byte).toNat ≤ 30)) ∧
      (1 ≤ (1 : Byte).toNat ∧ (30 : Byte).toNat ≤ 30) ∧ (stationed.station 4).lock = true ∧
      ((stationed.station 2).lock = false ∧ (stationed.station 2).state ≠ .active) ∧
      ((stationed.station 1).lock = false ∧ (stationed.station 1).state = .active ∧
        (stationed.station 1).serial = some 5) ∧
      (stationed.station 3).lock = true ∧
      ((stationed.station 30).lock = false ∧ (stationed.station 30).state = .absent) ∧
      stationed.seg.stations.length = 30) ∧
      (¬(1 ≤ (0 : Byte).toNat ∧ (0 : Byte).toNat ≤ 30) ∧ ¬(1 ≤ (31 : Byte).toNat ∧ (31 : Byte).toNat ≤ 30) ∧
        (stationed.station 30).serial = none ∧ (stationed.station 1).serial ≠ none ∧
        (stationed.station 30).state = .absent ∧ (stationed.station 1).state ≠ .absent ∧ (2 : Byte) ≠ 0 ∧ (2 : Byte) ≠ 1) :=
  ⟨⟨house_free, by decide, stationed_free, by decide +kernel⟩, by decide +kernel⟩

theorem witness_SegmentModeActs :
    (bare.Free ∧ bare.ring.segment = .config ∧ bare.validate = none) ∧
      (config.Free ∧ config.validate = some (0, 1)) ∧
      (house.Free ∧ house.ring.segment = .run ∧ (house.line .one).state = .off ∧ (house.line .two).state = .off ∧
        house.turb.state ≠ .loaded) ∧
      (feeding.Free ∧ (feeding.line .one).state ≠ .off) ∧
      ((house.setLine .two (feeding.line .one)).Free ∧
        ((house.setLine .two (feeding.line .one)).line .two).state ≠ .off) ∧
      ((turbAs fun u => { u with state := .loaded }).Free ∧ (turbAs fun u => { u with state := .loaded }).turb.state = .loaded) ∧
      State.reset.Free ∧ (State.reset.ring.segment = .down ∨ State.reset.ring.segment = .enumerating ∨
        State.reset.ring.segment = .broken) :=
  ⟨⟨bare_free, rfl, by decide +kernel⟩, ⟨config_free, by decide +kernel⟩, ⟨house_free, rfl, rfl, rfl, by decide⟩,
    ⟨feeding_free, by decide⟩, ⟨⟨⟨rfl, rfl⟩, rfl⟩, by decide⟩, ⟨⟨⟨rfl, rfl⟩, rfl⟩, rfl⟩, reset_free, .inl rfl⟩

theorem witness_EnumerateAndRestartCommands :
    config.Free ∧ config.ring.segment = .config ∧ house.Free ∧ house.ring.segment ≠ .config ∧
      house.mgmt.abortedCommand = none ∧ house.mgmt.busyAnswer = none :=
  ⟨config_free, rfl, house_free, by decide, rfl, rfl⟩

/-- The house with its last point sampled, holding or forced. -/
def lastPoint (f : Point → Point) : State :=
  { house with points := List.replicate 191 .empty ++ [f (pt .furnaceTemp (some .one) 9000)] }

theorem witness_PointTimers :
    house.Quiet ∧ 191 < 192 ∧ (lastPoint id).points.length = 192 ∧ ((lastPoint id).point 191).staleAt = some 2000 ∧
      ((lastPoint id).point 191).subst = .holdLast ∧ (lastPoint id).runTime ≤ 2000 ∧
      (∀ k ∈ [PointKind.analog, .binary, .request], ((lastPoint fun p => { p with kind := k }).point 191).kind = k) ∧
      (∀ u ∈ [Substitution.fixed, .none], let p := (lastPoint fun p => { p with subst := u }).point 191
        p.subst = u ∧ p.quality ≠ .substituted ∧ p.quality ≠ .bad ∧ p.logFlag = false) ∧
      (lastPoint id).mgmt.events.length < 64 ∧
      ((lastPoint fun p => { p with holdAt := some 0 }).point 191).holdAt = some 0 ∧
      ((lastPoint fun p => { p with forcing := some (.staircase 16 100 0 9 16 0) }).point 191).forcing =
        some (.staircase 16 100 0 9 16 0) ∧
      ((lastPoint fun p => { p with forcing := some (.fixed 5) }).point 191).forcing = some (.fixed 5) ∧
      ((lastPoint fun p => { p with staleAt := none }).point 191).staleAt = none ∧
      ((lastPoint id).point 191).holdAt = none ∧ ((lastPoint id).point 191).forcing = none ∧ 191 < 192 :=
  ⟨⟨rfl, rfl⟩, by decide +kernel⟩

/-- R47, R55: a stale REQUEST point with policy FIXED presents its substitute, one with NONE is BAD. -/
theorem test_stale_policies :
    (∀ u ∈ [(Substitution.fixed, (44 : Int), Quality.substituted), (.none, 9000, .bad)],
      after (.staleTimerExpiry 191) (lastPoint fun p => { p with kind := .request, subst := u.1, substValue := 44 }) (fun t =>
        decide ((t.point 191).value = u.2.1 ∧ (t.point 191).quality = u.2.2 ∧ (t.point 191).logFlag = true)) = true) := by
  decide +kernel

theorem witness_ForceAndRelease :
    house.Free ∧ house.points.length = 192 ∧ (191 : Byte).toNat < 192 ∧ (house.point 191).kind ≠ .empty ∧
      (house.point 191).forcingOf 0 (.fixed 5) = some (.fixed 5, 0) ∧ house.busyConsumer (house.point 191) = some [2] ∧
      (turbAs fun u => { u with state := .stopped }).busyConsumer (house.point 191) = none ∧
      (turbAs fun u => { u with state := .stopped }).Free ∧ (house.point 191).forcingOf 0 (.other 3) = none ∧
      (house.point 0).kind ≠ .empty ∧ house.busyConsumer (house.point 0) = none ∧
      (house.point 20).kind = .empty ∧ 191 < (192 : Byte).toNat :=
  ⟨house_free, by decide +kernel, by decide, by decide +kernel, by decide +kernel, by decide +kernel, by decide +kernel,
    ⟨⟨rfl, rfl⟩, rfl⟩, by decide +kernel, by decide +kernel, by decide +kernel, by decide +kernel, by decide⟩

/-! ### Witnesses: the lines and the flue gas units -/

theorem witness_StartEntersFeeding :
    (house.Free ∧ lineOf 1 = some .one ∧ house.startCheck .one = none ∧ house.homeHigh .one = true ∧
      (house.line .one).stroke = none) ∧
      (State.reset.Free ∧ lineOf 2 = some .two ∧ State.reset.startCheck .two = some [2]) :=
  ⟨⟨house_free, by decide +kernel⟩, reset_free, by decide +kernel⟩

theorem witness_StopSendsToBurnout :
    lineOf 1 = some .one ∧
      (feeding.Free ∧ (feeding.line .one).state = .feeding ∧ (feeding.line .one).stroke = some ⟨9, 0, .out⟩ ∧
        feeding.mgmt.events.length < 60) ∧
      ((heldBy .jam).Free ∧ ((heldBy .jam).line .one).state = .feedHold) ∧
      (burning.Free ∧ (burning.line .one).state = .burnout) ∧ (house.Free ∧ (house.line .one).state = .off) ∧
      (tripped.Free ∧ (tripped.line .one).state = .tripped) :=
  ⟨by decide, ⟨feeding_free, rfl, rfl, by decide⟩, ⟨heldBy_free _, rfl⟩, ⟨burning_free, rfl⟩, ⟨house_free, rfl⟩,
    ⟨tripped_free, rfl⟩⟩

/-- Line 1 held by a stroke timeout with its stroke due and all else ready. -/
def resumable : State :=
  (heldBy .strokeTimeout).setLine .one { (heldBy .strokeTimeout).line .one with permissive := true }

theorem witness_ResumeRemovesStrokeTimeout :
    lineOf 1 = some .one ∧
      (resumable.Free ∧ (resumable.line .one).state = .feedHold ∧ HoldCause.strokeTimeout ∈ (resumable.line .one).causes ∧
        (resumable.fgc .one).abn.exhausted = false ∧ (resumable.line .one).isDue resumable.runTime = true ∧
        (resumable.line .one).permissive = true ∧ resumable.homeHigh .one = true ∧
        (resumable.line .one).stroke = none) ∧
      ((heldBy .jam).Free ∧ ((heldBy .jam).line .one).state = .feedHold ∧
        HoldCause.strokeTimeout ∉ ((heldBy .jam).line .one).causes) ∧
      (feeding.Free ∧ (feeding.line .one).state = .feeding) ∧ (house.Free ∧ (house.line .one).state = .off) ∧
      (burning.Free ∧ (burning.line .one).state = .burnout) ∧ (tripped.Free ∧ (tripped.line .one).state = .tripped) :=
  ⟨by decide, ⟨⟨⟨rfl, rfl⟩, rfl⟩, by decide +kernel⟩, ⟨heldBy_free _, by decide +kernel⟩, ⟨feeding_free, rfl⟩,
    ⟨house_free, rfl⟩, ⟨burning_free, rfl⟩, ⟨tripped_free, rfl⟩⟩

theorem witness_ResetTripReturnsToOff :
    lineOf 1 = some .one ∧
      (tripped.Free ∧ (tripped.line .one).state = .tripped ∧ tripped.tripSignalsHigh .one = true) ∧
      (({ tripped with points := List.replicate 192 .empty } : State).Free ∧
        ({ tripped with points := List.replicate 192 .empty } : State).tripSignalsHigh .one = false) ∧
      (house.Free ∧ (house.line .one).state ≠ .tripped) ∧ lineOf 0 = none ∧ lineOf 3 = none :=
  ⟨by decide, ⟨tripped_free, by decide +kernel⟩, ⟨⟨⟨rfl, rfl⟩, rfl⟩, by decide +kernel⟩, ⟨house_free, by decide⟩,
    by decide, by decide⟩

theorem witness_OverrideLaysHeatingValue :
    feeding.Free ∧ lineOf 1 = some .one ∧ lineOf 2 = some .two ∧ lineOf 0 = none ∧ lineOf 3 = none :=
  ⟨feeding_free, by decide⟩

theorem witness_RequiredMassFlow :
    (Line.reset.dEff = 0 ∧ 0 < Line.reset.lhvUsed) ∧
      let c := { Line.reset with dEff := 2000, lhvEst := 2000, page := { LinePage.default with enthalpy := 3500, efficiency := 500 } }
      c.dEff ≤ 2000 ∧ c.page.enthalpy ≤ 3500 ∧ 500 ≤ c.page.efficiency ∧ 2000 ≤ c.lhvUsed := by decide +kernel

/-- Line 1 with a period running, its interval below the minimum or far above it, and two such periods before. -/
def saturated (iMin : Nat) (st : LineState) : State :=
  waiting.setLine .one { waiting.line .one with
    state := st, cap := 500, lowCount := 2, highCount := 2, page := { (waiting.line .one).page with iMin := iMin } }

/-- The results of the stages in a state. -/
def staged (s : State) : Line :=
  (((s.line .one).stageAB (s.read Quality.lineOk .steamFlow (some .one))).stageF
    (s.read Quality.lineOk .steamFlow (some .one))).stageGHI

theorem witness_ControlPeriodRuns :
    (feeding.Quiet ∧ (feeding.line .one).periodAt = some 500 ∧ feeding.read Quality.lineOk .steamFlow (some .one) = some 412 ∧
      (feeding.line .one).stroke = some ⟨9, 0, .out⟩ ∧
      after (.controlPeriod .one) feeding (fun t => decide ((t.line .one).state = .feeding)) = true) ∧
      ({ feeding with points := List.replicate 192 .empty } : State).read Quality.lineOk .steamFlow (some .one) = none ∧
      ((waiting.line .one).stroke = none ∧ (waiting.line .one).state = .feeding ∧ (waiting.line .one).permissive = true ∧
        waiting.homeHigh .one = true ∧ waiting.runTime = 0) ∧
      (0 < (staged (saturated 900000 .feeding)).mReq ∧ (staged (saturated 900000 .feeding)).unclamped < 900000 ∧
        min 3 (((saturated 900000 .feeding).line .one).lowCount + 1) = 3) ∧
      (1000 * 11 / 10 ≤ (staged (saturated 1000 .feeding)).unclamped ∧
        min 3 (((saturated 1000 .feeding).line .one).highCount + 1) = 3 ∧
        ({ saturated 1000 .feeding with env.caps := ⟨{ CapList.empty with feedLimit := some ⟨300, 0⟩ }, .empty⟩ } :
          State).env.caps.one.feedLimit ≠ none) ∧
      ((saturated 1000 .burnout).line .one).state ≠ .feeding ∧
      (house.Quiet ∧ (house.line .one).periodAt = none) :=
  ⟨⟨⟨rfl, rfl⟩, by decide +kernel⟩, by decide +kernel, by decide +kernel, by decide +kernel, by decide +kernel, by decide,
    ⟨rfl, rfl⟩, rfl⟩

/-- R80, R133: the third period in a row below the minimum brings the FEED-LIMIT cap, at the steam flow. -/
theorem test_feed_limit :
    after (.controlPeriod .one) (saturated 900000 .feeding) (fun t =>
      decide ((t.env.caps.get .one).feedLimit.map (·.value) = some 412 ∧ (t.line .one).lowCount = 0)) = true := by
  decide +kernel

/-- Line 1 in FEEDING whose permissive delay runs. -/
def cooling : State := waiting.setLine .one { waiting.line .one with permAt := some 10000 }

theorem witness_LineAndStrokeTimers :
    (cooling.Quiet ∧ (cooling.line .one).permAt = some 10000 ∧ (cooling.line .one).permissive = true ∧
      (cooling.line .one).state = .feeding ∧ (cooling.line .one).causes = [] ∧
      (cooling.fgc .one).abn.exhausted = false) ∧
      ((heldBy .jam).Quiet ∧ ((heldBy .jam).line .one).holdAt = some 900000 ∧
        ((heldBy .jam).line .one).state = .feedHold ∧ (heldBy .jam).mgmt.events.length < 60) ∧
      (burning.Quiet ∧ (burning.line .one).burnoutAt = some 3600000 ∧ (burning.line .one).state = .burnout ∧
        ((burning.setFgc .one { burning.fgc .one with capAsked := some 300 }).fgc .one).capAsked ≠ none) ∧
      (feeding.Quiet ∧ (feeding.line .one).strokeAt = some 30000 ∧ (feeding.line .one).stroke = some ⟨9, 0, .out⟩ ∧
        (feeding.line .one).state = .feeding ∧ (feeding.line .one).causes = [] ∧
        (feeding.fgc .one).abn.exhausted = false ∧ (feeding.line .one).due = .at_ 700) ∧
      (waiting.Quiet ∧ (waiting.line .one).due = .at_ 700 ∧ (waiting.line .one).state = .feeding ∧
        (waiting.line .one).permissive = true ∧ waiting.homeHigh .one = true ∧ (waiting.line .one).stroke = none) :=
  ⟨⟨⟨rfl, rfl⟩, rfl, rfl, rfl, rfl, rfl⟩, ⟨⟨rfl, rfl⟩, rfl, rfl, by decide⟩,
    ⟨⟨rfl, rfl⟩, rfl, rfl, by decide⟩, ⟨⟨rfl, rfl⟩, rfl, rfl, rfl, rfl, rfl, rfl⟩, ⟨rfl, rfl⟩, by decide +kernel⟩

/-- Line 1 changed in FEEDING, its binary points at the value of their levels, and the points of a role changed. -/
def sampled (f : Line → Line) (r : Role) (g : Point → Point) : State :=
  let points := housePoints.map fun p => if p.kind = .binary then { p with value := p.level.toInt } else p
  { feeding.setLine .one (f (feeding.line .one)) with points := points.map fun p => if p.role = r then g p else p }

/-- A binary point at a level. -/
def atLevel (x : Signals) (p : Point) : Point := { p with level := x, value := x.toInt }

/-- A point that presents nothing once its input is lost. -/
def unsubstituted (p : Point) : Point := { p with subst := .none }

/-- The conditions of SamplesActOnLines on a sample: the point stands for the role, unforced; it is a good binary one; it is
lost with code 7; it is a good analog sample of this word that changes it. -/
def standsFor (s : State) (r : Role) (i : Nat) : Bool :=
  decide (s.findPoint r (some .one) = some i ∧ (s.point i).forcing = none)
def goodBinary (s : State) (i : Nat) : Bool :=
  decide ((s.point i).kind = .binary ∧ (s.point i).started = true ∧ (s.point i).value = (s.point i).level.toInt)
def goesLost (s : State) (i : Nat) : Bool :=
  decide ((s.point i).input = .fresh ∧ (s.point i).quality = .good ∧ (s.point i).subst = .none)
def scalesTo (s : State) (i : Nat) (word v : Int) : Bool :=
  let p := s.point i
  decide (p.kind = .analog ∧ p.scaled word = v ∧ p.low ≤ v ∧ v ≤ p.high ∧ p.value ≠ v)

/-- LINE_STATUS: both signals fallen, either, and neither, in a line that operates and one that is OFF; a loss in both; the same
in a TRIPPED line; a starting level; a forced point. -/
theorem witness_SamplesActOnLines_status :
    (((sampled id .lineStatus id).point 3).level = 3 ∧ ((sampled id .lineStatus id).point 3).polarity = 0) ∧
      (∀ c ∈ [((0 : Nat), true, true), (2, true, false), (1, false, true), (3, false, false)],
        ((3 : Signals) &&& ~~~BitVec.ofNat 16 c.1).getLsbD 0 = c.2.1 ∧
          ((3 : Signals) &&& ~~~BitVec.ofNat 16 c.1).getLsbD 1 = c.2.2) ∧
      (∀ st ∈ [LineState.feeding, .off, .tripped], let s := sampled (fun c => { c with state := st }) .lineStatus unsubstituted;
        standsFor s .lineStatus 3 = true ∧ goodBinary s 3 = true ∧ goesLost s 3 = true ∧ (s.line .one).state = st) ∧
      LineState.feeding.operates = true ∧ LineState.off.operates = false ∧
      ((sampled id .lineStatus fun p => { p with started := false }).point 3).started = false ∧
      ((sampled id .lineStatus fun p => { p with forcing := some (.fixed 0) }).point 3).forcing ≠ none ∧
      (sampled id .lineStatus id).mgmt.events.length < 60 :=
  ⟨by decide +kernel, by decide, by decide +kernel, rfl, rfl, by decide +kernel, by decide +kernel, by decide +kernel⟩

/-- FEEDER_STATUS: the four turns of a stroke in flight, each with its risen signals, and a change of level with none; a line in
which a next stroke starts at once, at its due time, and not at all. -/
theorem witness_SamplesActOnLines_feeder :
    (∀ c ∈ [((1 : Signals), (2 : Signals), Phase.out, false, true), (0, 3, .out, true, true), (0, 1, .back, true, false),
        (1, 2, .back, false, true), (1, 1, .out, false, false), (0, 1, .out, true, false)],
      let s := sampled (fun l => { l with stroke := some ⟨9, 0, c.2.2.1⟩ }) .feederStatus (atLevel c.1);
      let risen := c.2.1 &&& ~~~(s.point 2).level;
      standsFor s .feederStatus 2 = true ∧ goodBinary s 2 = true ∧ (s.line .one).stroke = some ⟨9, 0, c.2.2.1⟩ ∧
        risen.getLsbD 0 = c.2.2.2.1 ∧ risen.getLsbD 1 = c.2.2.2.2) ∧
      (let s := sampled (fun l => { l with stroke := none, due := .atOnce }) .feederStatus (atLevel 0);
        (s.line .one).stroke = none ∧ (1 : Signals) ≠ (s.point 2).level ∧ (s.line .one).due = .atOnce ∧
          (s.line .one).state = .feeding ∧ (s.line .one).permissive = true) ∧
      goesLost (sampled id .feederStatus unsubstituted) 2 = true := by decide +kernel

/-- R71, R73: the stroke that HOME completes is counted, and the next starts at once when its due time has come. -/
theorem test_stroke_completes_by_sample :
    let s := sampled (fun l => { l with stroke := some ⟨9, 0, .back⟩, lastNumber := 9, mReq := 5, interval := 0 })
      .feederStatus (atLevel 0);
    let t := (s.sample 2 1 0).line .one
    t.completed = 1 ∧ t.stroke = some ⟨10, 0, .out⟩ ∧ t.entry.map (·.mass) = some 1000 := by decide +kernel

/-- STEAM_FLOW, FURNACE_TEMP at its two thresholds and one below each, and FEEDER_COMMAND. -/
theorem witness_SamplesActOnLines_points :
    (let s := sampled id .steamFlow unsubstituted;
      standsFor s .steamFlow 1 = true ∧ goesLost s 1 = true ∧ scalesTo s 1 400 400 = true ∧ (s.line .one).state.feeds = true ∧
        (s.line .one).causes = [] ∧ (s.fgc .one).abn.exhausted = false) ∧
      (∀ k ∈ [HoldCause.steamPoint, .permissive, .feederOutput],
        let s := sampled (fun c => { c with state := .feedHold, causes := [k] }) .steamFlow id;
        (s.line .one).state = .feedHold ∧ k ∈ (s.line .one).causes) ∧
      (∀ v ∈ [(8499 : Int), 8500, 8599, 8600], let s := sampled id .furnaceTemp unsubstituted;
        standsFor s .furnaceTemp 0 = true ∧ scalesTo s 0 v v = true ∧ goesLost s 0 = true ∧ (s.line .one).page.threshold = 8500) ∧
      ((feeding.line .one).permissive = true ∧ (feeding.line .one).permAt = none ∧ (feeding.line .one).page.permDelay ≠ 0 ∧
        (cooling.line .one).permAt ≠ none ∧ State.reset.lines.one.permissive = false) ∧
      (let s := sampled id .feederCommand id;
        s.findPoint .feederCommand (some .one) = some 4 ∧ (s.point 4).kind = .output ∧ (s.point 4).quality = .good ∧
          (s.point 4).degraded = false) ∧
      ((sampled id .feederCommand fun p => { p with degraded := true }).point 4).degraded = true := by decide +kernel

/-- R69, R66, R70: a fallen flame trips, a lost steam point holds, a cold furnace starts the delay. -/
theorem test_samples_act :
    ((sampled id .lineStatus id).sample 3 2 0 |>.line .one).trip = some ⟨.flame, .feeding, 0⟩ ∧
      ((sampled id .steamFlow unsubstituted).sample 1 0 7 |>.line .one).causes = [.steamPoint] ∧
      ((sampled id .furnaceTemp id).sample 0 8499 0 |>.line .one).permAt = some 10000 := by decide +kernel

/-- Line 1 in FEEDING with plant time set. -/
def timed : State :=
  { waiting.setLine .one { waiting.line .one with burnAt := some 60000, burnTimer := none } with clock := ⟨0, some 1⟩ }

theorem witness_BurnMinuteCloses :
    (timed.Quiet ∧ (timed.line .one).entry = some .fresh ∧ (timed.line .one).burnAt = some 60000) ∧
      (waiting.Quiet ∧ (waiting.line .one).entry = some .fresh ∧ (waiting.line .one).burnAt = none ∧
        (waiting.line .one).burnTimer = some 60000) := ⟨⟨⟨rfl, rfl⟩, rfl, rfl⟩, ⟨rfl, rfl⟩, rfl, rfl, rfl⟩

theorem witness_NormalisationSteps :
    (1700 ≤ 1700 ∧ 300 ≤ 300) ∧ (2000 ≤ (2000 : Int).toNat) ∧ ((1999 : Int).toNat < 2000 ∧ 1700 < (1999 : Int).toNat) ∧
      ((1700 : Int).toNat ≤ 1700) ∧ ((32767 : Int) ≤ 32767 ∧ normalise .dry 300 1999 0 32767 = some 583966) ∧
      ((house.fgc .one).basis.get .nox = .dry ∧ (house.fgc .one).page.o2Ref = 1100 ∧
        house.read Quality.sumOk Component.nox.role (some .one) = some 1480 ∧
        house.read Quality.sumOk .o2Flue (some .one) = some 1010 ∧
        house.read Quality.sumOk .h2oFlue (some .one) = some 1850 ∧ (house.fgc .one).calibrating .nox = false) := by
  decide +kernel

/-- The house with the flue gas unit of line 1 changed. -/
def fgcAs (f : Fgc → Fgc) : State := waiting.setFgc .one (f (waiting.fgc .one))

theorem witness_SampleInstantJudges :
    house.Quiet ∧ house.configured .one .dust = false ∧ house.configured .one .nox = true ∧
      (house.setFgc .one (house.fgc .one).takeBasis).judgeSample .one .nox = .ok 1480 ∧
      (fgcAs fun f => { f.takeBasis with calO2 := true }).judgeSample .one .nox = .error 2 := by
  refine ⟨⟨rfl, rfl⟩, by decide +kernel, by decide +kernel, ?_, ?_⟩ <;> rfl

/-- R97, R100: a basis written WET does not bring H2O_FLUE's calibration to a component before the next sample instant,
which then finds it. -/
theorem test_basis_applies_from_next_sample :
    let s := fgcAs fun f =>
      { f with page.comps := Six.of fun c => { f.page.comps.get c with basis := .wet }, calH2O := true }
    (s.fgc .one).touches .h2o .nox = false ∧
      after (.sampleInstant .one) s (fun t =>
        decide (((t.fgc .one).latest.get .nox).reason = 2 ∧ (t.fgc .one).touches .h2o .nox = true)) = true := by
  decide +kernel

/-- The flue gas unit of line 1 in a minute of a half-hour that has seen NOX above its limit. -/
def minuted (start : Nat) : State :=
  { fgcAs fun f => { f with
      minute := some ⟨start, Six.all ⟨60, 60, 180000, false, false⟩, Three.all false, false⟩
      half := some ⟨start / 1800000 * 1800000, Six.all ⟨20, 60000⟩, 20, false, false⟩ } with
    clock := ⟨0, some start⟩ }

/-- That minute with the EMISSION cap asked for at the floor. -/
def floored : State := (minuted 0).setFgc .one { (minuted 0).fgc .one with capAsked := some 150 }

theorem witness_MinuteCloses :
    (house.Quiet ∧ (house.fgc .one).table.length = 48 ∧ (house.fgc .one).minute = none) ∧
      ((minuted 86340000).Quiet ∧ ((minuted 86340000).fgc .one).table.length = 48 ∧
        ((minuted 86340000).fgc .one).minute.isSome = true ∧ ((minuted 86340000).fgc .one).half.isSome = true ∧
        nextMinute 86340000 % 1800000 = 0 ∧ nextMinute 86340000 % 86400000 = 0) ∧
      ((minuted 1740000).Quiet ∧ nextMinute 1740000 % 1800000 = 0 ∧ nextMinute 1740000 % 86400000 ≠ 0) ∧
      ((minuted 0).Quiet ∧ nextMinute 0 % 1800000 ≠ 0 ∧ ((minuted 0).line .one).state.feeds = true ∧
        (∃ h, ((minuted 0).fgc .one).half = some h ∧
          finding true ((minuted 0).fgc .one) h (Three.all false) .nox = Finding.above)) ∧
      (house.line .one).state.feeds = false ∧
      (∃ v, restraintBase ((minuted 0).fgc .one).capAsked ((minuted 0).read Quality.lineOk .steamFlow (some .one))
        ((minuted 0).line .one).page.fMax = v ∧ ((minuted 0).fgc .one).capAsked ≠ some (max (v - 20) 150).toNat) ∧
      (∃ v, restraintBase (floored.fgc .one).capAsked (floored.read Quality.lineOk .steamFlow (some .one))
        (floored.line .one).page.fMax = v ∧ (floored.fgc .one).capAsked = some (max (v - 20) 150).toNat) :=
  ⟨⟨⟨rfl, rfl⟩, rfl, rfl⟩, ⟨⟨rfl, rfl⟩, by decide +kernel⟩, ⟨⟨rfl, rfl⟩, by decide⟩,
    ⟨⟨rfl, rfl⟩, by decide, rfl, ⟨_, rfl, by decide +kernel⟩⟩, rfl, ⟨_, rfl, by decide +kernel⟩, ⟨_, rfl, by decide +kernel⟩⟩

/-- R120, R133: NOX above its limit lowers the EMISSION cap to the steam flow less one step. -/
theorem test_restraint_sets_cap_entry :
    after (.fgcMinuteClose .one) (minuted 0) (fun t =>
      decide ((t.fgc .one).capAsked = some 392 ∧ (t.env.caps.get .one).emission.map (·.value) = some 392)) = true := by
  decide +kernel

/-- A minute of line 1 without samples, this many valid minutes of NOX at one value before it, two low closes and this cap. -/
def meaned (start valid mean : Nat) (asked : Option Nat) : State :=
  (minuted start).setFgc .one { (minuted start).fgc .one with
    half := some ⟨start / 1800000 * 1800000, Six.of fun c => if c = .nox then ⟨valid, valid * mean⟩ else ⟨0, 0⟩, 20, false, false⟩
    minute := some ⟨start, Six.all ⟨0, 0, 0, false, false⟩, Three.all false, false⟩
    lowCloses := 2, capAsked := asked }

/-- What the close of the minute finds of a component: NOX's limits are 2,000 and 1,500, its uncertainty 20 percent. -/
def found (s : State) (c : Component) : Finding :=
  match (s.fgc .one).half with
  | some h => finding (s.configured .one c) (s.fgc .one) h (Three.all false) c
  | none => .unjudged

/-- R121: NOX just between the thresholds, at the lower one, and unjudged; a cap asked for that one step brings to F_max, and one
that it does not. -/
theorem witness_MinuteCloses_restraint :
    (found (meaned 0 20 1801 none) .nox = .between ∧ ∀ c, found (meaned 0 20 1801 none) c ≠ .above) ∧
      (found (meaned 0 20 1800 none) .nox = .low ∧
        ∀ c, found (meaned 0 20 1800 none) c ≠ .above ∧ found (meaned 0 20 1800 none) c ≠ .between) ∧
      (∀ c, found (meaned 0 4 1800 none) c = .unjudged) ∧
      (3 ≤ ((meaned 0 20 1800 none).fgc .one).lowCloses + 1 ∧ ((minuted 0).fgc .one).lowCloses + 1 < 3) ∧
      (((meaned 0 20 0 (some 480)).fgc .one).capAsked = some 480 ∧ ((minuted 0).line .one).page.fMax ≤
        480 + ((minuted 0).fgc .one).page.restraintStep ∧
        479 + ((minuted 0).fgc .one).page.restraintStep < ((minuted 0).line .one).page.fMax) := by
  refine ⟨⟨by decide +kernel, ?_⟩, ⟨by decide +kernel, ?_⟩, ?_, by decide +kernel, by decide +kernel⟩ <;>
    (intro c; cases c <;> decide +kernel)

/-- The record that the close of a minute makes of the half-hour. -/
def closed (s : State) : Option HalfRecord :=
  (s.fgc .one).half.map fun h => s.halfRecord .one
    (h.add (Six.all none) (s.line .one).state.operates false false) .boundary

/-- R124, R125: a half-hour that ends with a component exceeded, one that ends abnormal operation and one that does not, in an
unit whose train stands still. -/
theorem witness_MinuteCloses_abnormal :
    ((meaned 1740000 20 3000 none).Quiet ∧ ((meaned 1740000 20 3000 none).fgc .one).table.length = 48 ∧
      (closed (meaned 1740000 20 3000 none)).map (·.exceeded) = some true ∧
      (closed (meaned 1740000 20 1000 none)).map (·.exceeded) = some false) ∧
      (let s := (meaned 1740000 20 1000 none).setFgc .one { (meaned 1740000 20 1000 none).fgc .one with abn.active := true };
        (s.fgc .one).abn.active = true ∧ (s.fgc .one).trainFault = false ∧
          (closed s).map (fun r => Component.all.all fun c => decide ((r.comps.get c).status ≠ .invalid)) = some true) ∧
      ((meaned 1740000 20 1000 none).fgc .one).abn.active = false :=
  ⟨⟨⟨rfl, rfl⟩, by decide +kernel, by decide +kernel, by decide +kernel⟩, by decide +kernel, by decide +kernel⟩

/-- R121: the third low close in a row raises a cap by its step, and releases it at F_max. -/
theorem test_restraint_raised_and_released :
    after (.fgcMinuteClose .one) (meaned 0 20 1800 (some 479)) (fun t =>
      decide ((t.fgc .one).capAsked = some 499 ∧ (t.env.caps.get .one).emission.map (·.value) = some 499)) = true ∧
      after (.fgcMinuteClose .one) (meaned 0 20 1800 (some 480)) (fun t =>
        decide ((t.fgc .one).capAsked = none ∧ (t.env.caps.get .one).emission = none)) = true := by decide +kernel

/-- The flue gas unit of line 1 with a sample of 2,108 of NOX and one of SO2, each of this age in a house at 100,000 ms, and UREA
SATURATED. -/
def dosed (age : Nat) : State :=
  { fgcAs fun f => { f with
      latest := Six.of fun c => if c = .nox ∨ c = .so2 then ⟨some (2108, 100000 - age), 0⟩ else ⟨none, 1⟩
      loops := f.loops.set .urea { Loop.reset with saturated := true } } with
    clock := ⟨1000000, none⟩ }

/-- That house with loops whose maximum is 0. -/
def still : State :=
  (dosed 60000).setFgc .one { (dosed 60000).fgc .one with dosing := Three.all ⟨.minute, 0, 0, 8, 300, 0, 300⟩ }

/-- A loop run below its maximum with its flag standing, one at it; samples at the age that still counts and one past it; every
trigger and both kinds of line state. -/
theorem witness_DosingLoopsRun :
    (((dosed 60000).runLoop .one .urea).fgc .one).loops.urea.output < ((dosed 60000).fgc .one).dosing.urea.outputMax ∧
      ((dosed 60000).fgc .one).loops.urea.saturated = true ∧ (dosed 60000).mgmt.events.length < 64 ∧
      (∀ d, (((still.runLoop .one d).fgc .one).loops.get d).output = ((still.fgc .one).dosing.get d).outputMax) ∧
      (dosed 60000).runTime ≤ (100000 - 60000) + 60000 ∧ ¬((dosed 60001).runTime ≤ (100000 - 60001) + 60000) ∧
      ((dosed 0).fgc .one).dosing.urea.trigger = .controlPeriod ∧ ((dosed 0).fgc .one).dosing.carbon.trigger = .strokeDone ∧
      (∀ st ∈ [LineState.off, .tripped, .feeding, .feedHold, .burnout],
        (((dosed 0).setLine .one { (dosed 0).line .one with state := st }).line .one).state = st) := by
  refine ⟨by decide +kernel, by decide +kernel, by decide +kernel, ?_, by decide +kernel⟩
  intro d
  cases d <;> decide +kernel

/-- R106, R107: a sample 60,000 ms old moves the trim, an older one does not. -/
theorem test_loop_trim_takes_recent_samples :
    (((dosed 60000).runLoop .one .urea).fgc .one).loops.urea.trim = 19 ∧
      (((dosed 60001).runLoop .one .urea).fgc .one).loops.urea.trim = 0 := by decide +kernel

/-- Abnormal operation one second before both limits. -/
def lastSecond : State :=
  fgcAs fun f => { f with
    abn := ⟨true, true, false, 14399, 1, true, 0, false⟩, secondAt := some 1000
    loops := f.loops.set .urea { Loop.reset with output := 2000, satAt := some 300000 } }

theorem witness_FlueGasTimers :
    lastSecond.Quiet ∧ ((lastSecond.fgc .one).loops.get .urea).satAt = some 300000 ∧
      lastSecond.mgmt.events.length < 64 ∧ (lastSecond.fgc .one).secondAt = some 1000 ∧
      (lastSecond.fgc .one).abn.exhausted = false ∧ (lastSecond.line .one).state.feeds = true ∧
      after (.abnormalSecond .one) lastSecond (fun t => (t.fgc .one).isExhausted) = true ∧
      ((house.fgc .one).loops.get .urea).satAt = none ∧ (house.fgc .one).secondAt = none :=
  ⟨⟨rfl, rfl⟩, by decide +kernel⟩

theorem witness_BudgetIsLoaded :
    feeding.Free ∧ lineOf 3 = none ∧ lineOf 1 = some .one ∧ (2 : Byte) ≠ 0 ∧ (2 : Byte) ≠ 1 ∧
      lastSecond.Free ∧ (lastSecond.fgc .one).abn.exhausted = false ∧ (lastSecond.line .one).state.feeds = true ∧
      after (.loadBudget 1 0 14400 0) lastSecond (fun t => (t.fgc .one).isExhausted) = true :=
  ⟨feeding_free, by decide, by decide, by decide, by decide, ⟨⟨rfl, rfl⟩, rfl⟩, rfl, rfl, by decide +kernel⟩

/-! ### Witnesses: the allocator and the turbine -/

/-- Every share mode, both grants orders, a line that feeds, holds and is OFF, and a steam pressure lost. -/
theorem witness_DemandSharesAndGrants :
    (∀ m ∈ [ShareMode.proportional, .baseLine1, .baseLine2], ∀ h ∈ [true, false],
      ({ worked with page := { worked.page with share := m, heatPriority := h } } : RunInput).page.share = m ∧
        ({ worked.page with share := m, heatPriority := h } : HeaderPage).heatPriority = h) ∧
      (∀ st ∈ [LineState.feeding, .feedHold, .off], ({ worked with state1 := st } : RunInput).state1 = st) ∧
      worked.pressure = some 3968 ∧ ({ worked with pressure := none } : RunInput).pressure = none ∧
      0 < (if worked.state1 = .feeding then worked.cap1 else 0) + worked.cap2 := by decide +kernel

theorem witness_AllocationRunCourse :
    feeding.Quiet ∧
      (let s : State := { feeding with env.caps := ⟨{ CapList.empty with operator := some ⟨149, 0⟩ }, .empty⟩ };
        (((s.formCap .one).formCap .two).env.effCap.get .one < (s.line .one).page.fFloor) ∧ (s.line .one).state.feeds = true) :=
  ⟨⟨rfl, rfl⟩, by decide +kernel⟩

/-- Line 1 in FEEDING under an OPERATOR cap. -/
def capped : State :=
  { waiting with env := { waiting.env with
      caps := ⟨{ CapList.empty with operator := some ⟨400, 0⟩ }, .empty⟩, effCap := ⟨400, 500⟩ } }

theorem witness_OperatorCapCommands :
    capped.Free ∧ lineOf 3 = none ∧ lineOf 1 = some .one ∧ capped.capOf .one .operator = some (400 : Int).toNat ∧
      capped.capOf .one .operator ≠ none ∧ feeding.Free ∧ feeding.capOf .one .operator = none ∧
      feeding.capOf .one .operator ≠ some (100 : Int).toNat :=
  ⟨⟨⟨rfl, rfl⟩, rfl⟩, by decide, by decide, by decide +kernel, by decide +kernel, feeding_free, by decide +kernel,
    by decide +kernel⟩

/-- Both lines in FEEDING with F_floor 150, a bypass maximum, a heat demand of 180, and an entry standing or not. -/
def bypassing (most floor : Nat) (entry : Option CapEntry) : State :=
  let c := { waiting.line .one with page := { (waiting.line .one).page with fFloor := floor } }
  { waiting with
    lines := ⟨c, c⟩
    env := { waiting.env with
      page := { waiting.env.page with bypassMax := most }
      caps := ⟨{ CapList.empty with bypass := entry }, { CapList.empty with bypass := entry }⟩ } }

/-- The bypass setpoint of a run in a state. -/
def bypassOf (s : State) : Int := (((s.formCap .one).formCap .two).runInput.result).bypass

/-- A run above B_max whose candidates stay above the floors or fall below them, one that is not, one at the release bound and
one past it; both kinds of timer expiry. -/
theorem witness_BypassCapsComeAndGo :
    ((bypassing 0 10 none).Quiet ∧ (0 : Int) < bypassOf (bypassing 0 10 none) ∧
      ¬((10000 : Int) < bypassOf (bypassing 10000 10 none)) ∧ ((bypassing 0 10 none).line .one).state = .feeding) ∧
      (((bypassing 0 10 (some ⟨9, 0⟩)).env.caps.get .two).bypass = some ⟨9, 0⟩ ∧
        (9 : Int) < ((bypassing 0 10 (some ⟨9, 0⟩)).line .two).page.fFloor) ∧
      (bypassOf (bypassing 10000 10 (some ⟨9, 0⟩)) ≤ (10000 * 8 / 10 : Nat) ∧
        ((bypassing 0 10 none).line .two).state = .feeding ∧ (house.line .one).state ≠ .feeding) ∧
      (({ house with env.releaseAt := some 60000 } : State).Quiet ∧
        ({ house with env.releaseAt := some 60000 } : State).env.releaseAt = some 60000 ∧
        house.mgmt.events.length < 48 ∧ house.env.releaseAt = none) :=
  ⟨⟨⟨rfl, rfl⟩, by decide +kernel⟩, by decide +kernel, by decide +kernel, ⟨⟨rfl, rfl⟩, rfl, by decide, rfl⟩⟩

/-- The house with its turbine in a state, a stop pending or not. -/
def turbIn (st : TurbineState) (stop : Bool) : State := turbAs fun u => { u with state := st, stopPending := stop }

theorem turbIn_free (st : TurbineState) (stop : Bool) : (turbIn st stop).Free := ⟨⟨rfl, rfl⟩, rfl⟩

theorem witness_TurbineControlActs :
    (∀ st stop, (turbIn st stop).Free ∧ (turbIn st stop).turb.state = st ∧ (turbIn st stop).turb.stopPending = stop) ∧
      (turbIn .stopped false).ring.segment = .run ∧ (turbIn .stopped false).turbineReady = true ∧
      (turbIn .stopped false).mgmt.events.length < 64 ∧ State.reset.ring.segment ≠ .run ∧
      ({ turbIn .stopped false with points := List.replicate 192 .empty } : State).turbineReady = false :=
  ⟨fun st stop => ⟨turbIn_free st stop, rfl, rfl⟩, rfl, by decide +kernel, by decide, by decide, by decide +kernel⟩

/-- A turbine that awaits an indication, and settles. -/
def awaiting (released : Bool) : State :=
  turbAs fun u => { u with
    state := .unloading, request := .load, awaited := some .unloaded, indAt := some 120000, settleAt := some 30000
    released := released }

theorem witness_TurbineTimers :
    (awaiting false).Quiet ∧ (awaiting false).turb.indAt = some 120000 ∧
      ({ awaiting false with points := List.replicate 192 .empty } : State).read Quality.turbOk .turbineIndication none = none ∧
      (awaiting false).mgmt.events.length < 64 ∧ (awaiting false).turb.settleAt = some 30000 ∧
      (awaiting false).turb.state = .unloading ∧ (awaiting false).turb.released = false ∧
      (awaiting true).Quiet ∧ (awaiting true).turb.released = true ∧ house.turb.indAt = none ∧
      house.turb.settleAt = none :=
  ⟨⟨rfl, rfl⟩, rfl, by decide +kernel, by decide, rfl, rfl, rfl, ⟨rfl, rfl⟩, rfl, rfl, rfl⟩

/-- The house with its turbine in a state and showing an indication; point 8 is TURBINE_REQUEST, point 20 BYPASS_STATUS. -/
def showing (st : TurbineState) (n : Int) : State :=
  { turbIn st false with
    points := (housePoints.set 7 (pt .turbineIndication none n)).set 20 (pt .bypassStatus none 0) }

/-- Every state met by every indication and by the two codes beside the table's; the handshakes' conditions; a sample that
changes the point and one that does not; BYPASS_STATUS rising in UNLOADING. -/
theorem witness_IndicationsMoveTurbine :
    (let s := showing .runup 1;
      s.findPoint .turbineIndication none = some 7 ∧ (s.point 7).kind = .analog ∧ (s.point 7).forcing = none ∧
        (s.point 7).low ≤ (s.point 7).scaled 1 ∧ (s.point 7).scaled 1 ≤ (s.point 7).high ∧ (s.point 7).scaled 1 = 1 ∧
        (s.point 7).scaled 3 = 3 ∧ (s.point 7).value = 1 ∧ (s.point 7).quality = .good) ∧
      (∀ st ∈ [TurbineState.unknown, .stopped, .runup, .ready, .synchronising, .loaded, .unloading, .tripped, .local_],
        ∀ n ∈ [(0 : Int), 1, 2, 3, 4, 5, 6, 7, 8, 9, 10], (showing st n).turb.state = st ∧
          (showing st n).read Quality.turbOk .turbineIndication none = some n) ∧
      ({ house with points := List.replicate 192 .empty } : State).read Quality.turbOk .turbineIndication none = none ∧
      (showing .ready 1).mgmt.events.length < 63 ∧ (showing .ready 1).turb.stopPending = false ∧
      (turbAs fun u => { u with target := ⟨50, 0, none, .block, some true⟩ }).turb.target.source = .block ∧
      (showing .synchronising 4).env.result.cE < (showing .synchronising 4).turb.page.pMin ∧
      (showing .unloading 7).turb.released = false ∧
      (let s := showing .unloading 6;
        s.findPoint .bypassStatus none = some 20 ∧ (s.point 20).kind = .binary ∧ (s.point 20).forcing = none ∧
          (s.point 20).started = true ∧ (s.point 20).value = (s.point 20).level.toInt ∧
          (((1 : Signals) ^^^ (s.point 20).polarity) &&& ~~~(s.point 20).level).getLsbD 0 = true) := by decide +kernel

/-- R152: AT-SPEED brings RUNUP to READY, TRIP any state to TRIPPED, and ON-GRID in STOPPED is logged. -/
theorem test_indications :
    (showing .runup 3).indicationUpdate.turb.state = .ready ∧ (showing .loaded 8).indicationUpdate.turb.state = .tripped ∧
      (showing .stopped 5).indicationUpdate.mgmt.events.getLast?.map (·.name) = some .codeUnexpected := by decide +kernel

/-! ### Witnesses: the dispatch unit and the management unit -/

/-- The dispatch unit with a queue: an ACTIVE block under way and a PENDING one. -/
def ordered : State :=
  dispAs fun d => { d with
    vr := 17, retained := some (16, [1]), link := .up, supAt := some 60000
    queue := [⟨15, 0, 3000000, 5400000, 120, 15, 120, 15, 60, true, 150, .active⟩,
      ⟨16, 3, 5400000, 9000000, 100, 10, 100, 10, 60, false, 150, .pending⟩] }

/-- A SCHEDULE body of one FIRM block: 4,000 s, 600 s long, P 140, ramp 60, R 20. -/
def orderBody : List Byte := [1, 1, 0, 0, 0x0F, 0xA0, 0x02, 0x58, 0, 140, 0, 60, 0, 20]

/-- The same block five seconds from now. -/
def lateBody : List Byte := [1, 1, 0, 0, 0x0E, 0x15, 0x02, 0x58, 0, 140, 0, 60, 0, 20]

/-- A queue of 16 blocks of other orders, all later. -/
def fullQueue : State :=
  dispAs fun d => { d with
    vr := 17
    queue := (List.range 16).map fun k =>
      ⟨k / 4, k % 4, 36000000 + 60000 * k, 36060000 + 60000 * k, 10, 0, 10, 0, 60, false, 150, .pending⟩ }

theorem witness_OrdersAreProcessed :
    ordered.Quiet ∧ ordered.messageDone.disp.recognise 9 9 0x10 = none ∧
      ordered.messageDone.disp.recognise 1 2 0x10 = some (1, 2) ∧ ordered.messageDone.disp.recognise 1 9 0x11 = some (1, 9) ∧ ordered.disp.vr = (17 : Byte).toNat ∧
      (parseOrder orderBody = some (true, [⟨4000, 600, 140, 60, 20⟩]) ∧ ordered.clock.plant = some 3600000 ∧
        3600000 + 1000 * ordered.disp.page.lead ≤ 1000 * 4000 ∧
        (afterSupersede ordered.disp.queue (newBlocks 17 true 150 [⟨4000, 600, 140, 60, 20⟩]) 17 3600000).1.length + 1 ≤ 16) ∧
      parseOrder [] = none ∧ (parseOrder orderBody).isSome = true ∧ house.clock.plant = none ∧
      (parseOrder lateBody = some (true, [⟨3605, 600, 140, 60, 20⟩]) ∧
        1000 * 3605 < 3600000 + 1000 * ordered.disp.page.lead) ∧
      (fullQueue.Quiet ∧
        16 < (afterSupersede fullQueue.disp.queue (newBlocks 17 true 150 [⟨4000, 600, 140, 60, 20⟩]) 17 3600000).1.length + 1) ∧
      ((127 : Byte).toNat ≤ 127 ∧ 127 < (128 : Byte).toNat ∧ ([] : List Byte).length ≠ 1) ∧
      ((16 : Byte).toNat ≠ ordered.disp.vr ∧ (16 : Byte).toNat = (ordered.disp.vr + 127) % 128 ∧
        ordered.disp.retained = some ((16 : Byte).toNat, [1])) ∧
      ((18 : Byte).toNat ≠ ordered.disp.vr ∧ (18 : Byte).toNat ≠ (ordered.disp.vr + 127) % 128) :=
  ⟨⟨rfl, rfl⟩, by decide, by decide, by decide, rfl, by decide +kernel, by decide, by decide +kernel, rfl, by decide +kernel,
    ⟨⟨rfl, rfl⟩, by decide +kernel⟩, by decide +kernel, by decide +kernel, by decide +kernel⟩

/-- Section 10.6: the worked order supersedes the block it overlaps and is PARTIAL. -/
theorem test_worked_schedule :
    after (.schedule 1 2 17 orderBody) ordered (fun t =>
      decide (t.disp.queue.map (fun b => (b.order, b.stop, b.accPower, b.accReserve)) =
          [(15, 4000000, 120, 15), (17, 4600000, 130, 20), (16, 9000000, 100, 10)] ∧
        t.disp.out.map (·.bytes.take 8) = [[1, 2, 0x30, 17, 10, 2, 0, 1]] ∧ t.disp.vr = 18)) = true := by decide +kernel

/-- The dispatch unit with notice 127 outstanding, an unmet block pending or not. -/
def noticed (unmet : Bool) : State :=
  dispAs fun d => { d with
    notice := ⟨some ⟨127, 160, .change⟩, 160, 0, some 30000, false, unmet⟩, link := .up, supAt := some 60000 }

theorem witness_SupervisedMessages :
    house.Quiet ∧ house.messageDone.disp.recognise 0 0 0x12 = none ∧ house.disp.link ≠ .silent ∧
      (noticed true).Quiet ∧ (noticed true).messageDone.disp.recognise 0xFF 0xFF 0x20 = some (1, 2) ∧ pairSet (1, 2) = true ∧
      pairSet (0, 0) = false ∧ house.messageDone.disp.recognise 0xFF 0xFF 0x20 = some (0, 0) ∧
      (noticed true).messageDone.disp.recognise 1 2 0x12 = some (1, 2) ∧
      (noticed true).disp.notice.outstanding = some ⟨127, 160, .change⟩ ∧ 127 = (127 : Byte).toNat ∧
      127 ≠ (126 : Byte).toNat ∧ (noticed true).disp.notice.unmetPending = true ∧
      (noticed false).disp.notice.unmetPending = false ∧ moved 150 160 10 = true ∧
      (noticed true).messageDone.disp.recognise 1 9 0x13 = some (1, 9) ∧ (127 : Byte).toNat ≤ 127 ∧ 127 < (128 : Byte).toNat ∧
      (noticed true).disp.out.length < 4 ∧ (noticed true).messageDone.disp.recognise 1 2 0x21 = some (1, 2) :=
  ⟨⟨rfl, rfl⟩, by decide, by decide, ⟨rfl, rfl⟩, by decide +kernel⟩

/-- R164: a new threshold is in force from the next hand-over of C_e, a new UNIT pair from the next message completed.
-/
theorem test_dispatch_page_in_force :
    let s := dispAs fun d => { d with
      page := { d.page with noticeThr := 1, unit := (3, 4) }
      notice := ⟨some ⟨127, 145, .change⟩, 145, 0, some 30000, false, false⟩, link := .up }
    after (.noticeAck 3 4 127) s (fun t => decide (t.disp.notice.outstanding = none ∧ t.disp.unitUsed = (3, 4))) = true ∧
      after .ackTimerExpiry s (fun t => decide (t.disp.out.map (·.bytes.take 2) = [[1, 2]])) = true ∧
      (s.dispatchHandOver 151).disp.thrUsed = 1 := by decide +kernel

theorem witness_BlocksStartAndEnd :
    ordered.Quiet ∧ (ordered.disp.findBlock 16 3).map (·.status) = some .pending ∧
      (ordered.disp.findBlock 15 0).map (·.status) = some .active ∧ ordered.disp.findBlock 17 0 = none :=
  ⟨⟨rfl, rfl⟩, by decide +kernel⟩

theorem witness_DispatchTimers :
    (ordered.Quiet ∧ ordered.disp.supAt = some 60000 ∧ ordered.disp.link = .up ∧ ordered.disp.probe = false) ∧
      (dispAs fun d => { d with supAt := some 60000, link := .up, probe := true }).disp.probe = true ∧
      (dispAs fun d => { d with supAt := some 60000, link := .silent }).disp.link = .silent ∧
      (dispAs fun d => { d with supAt := some 60000 }).disp.link = .down ∧
      ((noticed false).Quiet ∧ (noticed false).disp.notice.ackAt = some 30000 ∧
        (noticed false).disp.notice.outstanding = some ⟨127, 160, .change⟩) ∧
      house.disp.supAt = none ∧ house.disp.notice.ackAt = none :=
  ⟨⟨⟨rfl, rfl⟩, rfl, rfl, rfl⟩, rfl, rfl, rfl, ⟨⟨rfl, rfl⟩, rfl, rfl⟩, rfl, rfl⟩

/-- Line 1 with one entry in its burn record. -/
def recorded : State := lineAs fun c => { c with record := [⟨1, 2, false, 3⟩] }

theorem witness_ReadsAnswer :
    (house.Quiet ∧ house.mgmt.executing = none) ∧ tableOf 0 0 = .error .badTable ∧ tableOf 10 0 = .ok .header ∧
      (TableRef.header.records < (1 : Word16).toNat + (1 : Byte).toNat ∧
        (0 : Word16).toNat + (1 : Byte).toNat ≤ TableRef.header.records) ∧
      (191 < (192 : Byte).toNat ∧ (191 : Byte).toNat < 192 ∧ (2 : Byte) ≠ 0 ∧ (2 : Byte) ≠ 1) ∧
      (house.point 2).kind = .binary ∧ 12 < (13 : Byte).toNat ∧
      ((recorded.line .one).record.length ≤ (1 : Word16).toNat ∧ (0 : Word16).toNat < (recorded.line .one).record.length) ∧
      commandOf .enumerate = some (.enumerate, []) ∧ (house.during .enumerate).mgmt.executing.isSome = true :=
  ⟨⟨⟨rfl, rfl⟩, rfl⟩, by decide +kernel⟩

/-- The house with its turbine LOADED. -/
def loaded : State := turbAs fun u => { u with state := .loaded }

theorem witness_PagesAreWritten :
    let header := encodeFields HeaderPage.default.fields
    let values := decodeFields (TableRef.header).widths header
    house.Free ∧ tableOf 0 0 = .error .badTable ∧ tableOf 10 0 = .ok .header ∧ tableOf 13 0 = .ok .schedule ∧
      (header.length % (TableRef.header).size = 0 ∧ [(0 : Byte)].length % (TableRef.header).size ≠ 0 ∧ header ≠ []) ∧
      house.writable .schedule 0 [] = false ∧ house.writable .header 1 (writtenRecords .header 1 header) = true ∧
      (TableRef.header).records < (1 : Word16).toNat + 1 ∧ header.length = 20 ∧
      headerPageOf values = some HeaderPage.default ∧ headerPageOf (values.set 1 3) = none ∧
      (encodeFields TurbinePage.default.fields).length = 12 ∧ house.turb.state ≠ .loaded ∧
      (encodeFields DispatchPage.default.fields).length = 14 ∧
      dispatchPageOf (decodeFields (TableRef.dispatch).widths (encodeFields DispatchPage.default.fields)) =
        some DispatchPage.default ∧
      dispatchPageOf [65535, 0, 0, 0, 0, 0, 0] = none ∧ (feeding.line .one).state ≠ .off ∧ loaded.turb.state = .loaded ∧
      house.ring.segment ≠ .config :=
  ⟨house_free, by decide +kernel⟩

/-- The code of the answer to a WRITE-TABLE. -/
def written (s : State) (table page : Byte) (start : Word16) (records : List (List Field)) : Option RespCode :=
  match exec (.writeTable table page start (records.flatMap encodeFields)) s with
  | .next t => t.mgmt.response.map (·.code)
  | .fault _ => none
  | .refused _ => none

/-- R3: a slot entry, the same point again, and a direction there is not. -/
theorem witness_PagesAreWritten_slots :
    config.Free ∧ config.Shaped ∧ tableOf 1 0 = .ok .slotMap ∧ config.ring.segment = .config ∧
      written config 1 0 255 [SlotEntry.fields ⟨.output, 191, 0⟩] = some .done ∧
      written config 1 0 255 [SlotEntry.fields ⟨.output, 0, 0⟩] = some .badValue ∧
      written config 1 0 255 [[f2 5, f2 0, f2 0]] = some .badValue :=
  ⟨config_free, shaped_of _ (by decide +kernel), by decide, rfl, by decide +kernel, by decide +kernel, by decide +kernel⟩

/-- R44: a record started afresh with a clamped limit, one with its limits changed, a role held twice, and a kind there
is not. -/
theorem witness_PagesAreWritten_points :
    config.Free ∧ config.Shaped ∧ tableOf 2 0 = .ok .points ∧
      (∀ k recs, config.writable .points k recs = true) ∧
      written config 2 0 190 [Point.fields { pt .dust (some .one) 0 with staleLimit := 1, holdLimit := 5 }] = some .doneClamped ∧
      written config 2 0 0 [Point.fields { pt .furnaceTemp (some .one) 0 with staleLimit := 60, holdLimit := 5 }] = some .done ∧
      written config 2 0 190 [Point.fields { pt .furnaceTemp (some .one) 0 with staleLimit := 60, holdLimit := 5 }] = some .badValue ∧
      written config 2 0 0 [f2 6 :: List.replicate 14 (f2 0) ++ [f4 0] ++ List.replicate 13 (f2 0)] = some .badValue :=
  ⟨config_free, shaped_of _ (by decide +kernel), by decide, fun _ _ => rfl, by decide +kernel, by decide +kernel,
    by decide +kernel, by decide +kernel⟩

/-- R23, R20: the attention fields of a station, clamped and refused; the SEGMENT parameters, the same. -/
theorem witness_PagesAreWritten_segment :
    config.Free ∧ config.Shaped ∧ tableOf 3 0 = .ok .stations ∧ tableOf 4 0 = .ok .segment ∧
      written house 3 0 29 [[f2 0, f6 0, f2 0, f2 0, f2 0, f2 1, f2 6, f2 0, f2 0]] = some .doneClamped ∧
      written house 3 0 29 [[f2 0, f6 0, f2 0, f2 0, f2 0, f2 2, f2 5, f2 0, f2 0]] = some .badValue ∧
      written config 4 0 0 [config.segmentFields] = some .done ∧
      written config 4 0 0 [config.segmentFields.set 3 (f2 2)] = some .badValue :=
  ⟨config_free, shaped_of _ (by decide +kernel), by decide, by decide, by decide +kernel, by decide +kernel, by decide +kernel,
    by decide +kernel⟩

/-- R61, R97, R104: the LINE, EMISSION and DOSING pages of line 1. -/
theorem witness_PagesAreWritten_line :
    house.Free ∧ tableOf 5 1 = .ok (.line .one) ∧ tableOf 6 1 = .ok (.emission .one) ∧ tableOf 7 1 = .ok (.dosing .one) ∧
      (house.line .one).state = .off ∧ written house 5 1 0 [LinePage.default.fields] = some .done ∧
      written house 6 1 0 [(house.fgc .one).page.lineFields, ((house.fgc .one).page.comps.get .dust).fields] = some .done ∧
      written house 6 1 6 [((house.fgc .one).page.comps.get .dust).fields.set 0 (f2 2)] = some .badValue ∧
      written house 7 1 2 [((house.fgc .one).dosing.get .carbon).fields] = some .done ∧
      written house 7 1 2 [((house.fgc .one).dosing.get .carbon).fields.set 0 (f2 3)] = some .badValue :=
  ⟨house_free, by decide, by decide, by decide, rfl, by decide +kernel, by decide +kernel, by decide +kernel,
    by decide +kernel, by decide +kernel⟩

/-- Section 8.2: a period below its range is clamped to 200, and the answer counts one clamped field. -/
theorem test_header_write_clamps :
    after (.writeTable 10 0 0 (encodeFields { HeaderPage.default with period := 9 }.fields)) house (fun t =>
      decide (t.env.page = { HeaderPage.default with period := 200 } ∧
        t.mgmt.response.map (·.code) = some .doneClamped)) = true := by decide +kernel

theorem witness_EventsAreReadOldestFirst :
    feeding.Free ∧ feeding.mgmt.events = [] ++ feeding.mgmt.events ∧ feeding.mgmt.events.length = 1 ∧
      after (.readEvents 1) feeding (fun t => decide (t.mgmt.events = [] ∧ t.mgmt.lost = 0)) = true :=
  ⟨feeding_free, rfl, by decide, by decide +kernel⟩

theorem witness_PlantTimeIsSet :
    house.Free ∧ house.clock.plant = none ∧ timed.Free ∧ timed.clock.plant = some 1 ∧
      (1 : Int) + (0xFFFFFFFFFFFE : BitVec 48).toInt < 0 ∧ 0 ≤ (1 : Int) + (0xFFFFFFFFFFFF : BitVec 48).toInt :=
  ⟨house_free, rfl, ⟨⟨rfl, rfl⟩, rfl⟩, rfl, by decide +kernel⟩

/-- R87: a SET-TIME within the minute under way leaves its boundary; one into another minute moves it. -/
theorem test_set_time_and_burn_boundary :
    (∃ b, (timed.line .one).burnAt = some b ∧ b ≤ 59999 + 60000 ∧ 59999 < b) ∧
      after (.setTimeAbsolute 59999) timed (fun t => decide ((t.line .one).burnAt = some 60000)) = true ∧
      after (.setTimeAbsolute 60001) timed (fun t => decide ((t.line .one).burnAt = some 120000)) = true ∧
      after (.setTimeStep 0)
        ({ timed.setLine .one { timed.line .one with burnAt := some 120000 } with clock := ⟨0, some 60000⟩ } : State)
        (fun t => decide ((t.line .one).burnAt = some 120000)) = true :=
  ⟨⟨60000, rfl, by decide, by decide⟩, by decide +kernel, by decide +kernel, by decide +kernel⟩

end Sys2Proof.Tests
end

