-- ==== Sys2Proof/Proofs/UpdateFrame.lean ====
section
/-! PROOFS. What an update handed to its consumers leaves alone (R46): the frame of every operation of the line
controllers, the flue gas units, the allocator's cap lists and the turbine interface that a sample, a change of segment
state or an attention record can bring. One lemma per operation, each carrying the frame one operation further. -/

namespace Sys2Proof.Machine

/-- A record as its owner may have set it anew (R49): raw, value and quality alone move, and those of an OUTPUT or REPORT
alone. -/
structure Point.SetByOwner (p q : Point) : Prop where
  rest  : { q with raw := p.raw, value := p.value, quality := p.quality } = p
  input : p.kind ≠ .output → p.kind ≠ .report → q = p

theorem Point.SetByOwner.refl (p : Point) : p.SetByOwner p := ⟨rfl, fun _ _ => rfl⟩

theorem Point.SetByOwner.kind {p q : Point} (h : p.SetByOwner q) : q.kind = p.kind := (congrArg Point.kind h.rest :)

theorem Point.SetByOwner.trans {p q r : Point} (h : p.SetByOwner q) (k : q.SetByOwner r) : p.SetByOwner r where
  rest := by
    have e := k.rest
    rw [← h.rest, ← e]
  input := fun ho hr => by
    have e := h.input ho hr
    subst e
    exact k.input ho hr

theorem Point.SetByOwner.sameSettings {p q : Point} (h : p.SetByOwner q) : q.SameSettings p := by
  rw [← h.rest]
  constructor <;> rfl

theorem Point.SetByOwner.forcing {p q : Point} (h : p.SetByOwner q) : q.forcing = p.forcing :=
  (congrArg Point.forcing h.rest :)

theorem Point.SetByOwner.degraded {p q : Point} (h : p.SetByOwner q) : q.degraded = p.degraded :=
  (congrArg Point.degraded h.rest :)

/-- R49: an owner sets an OUTPUT or a REPORT. -/
theorem Point.SetByOwner.own {p : Point} (hk : p.kind = .output ∨ p.kind = .report) (v : Int) : p.SetByOwner (p.own v) where
  rest := rfl
  input := fun ho hr => by
    rcases hk with hk | hk
    · exact absurd hk ho
    · exact absurd hk hr

/-- What the consumers of an update leave alone: the clocks, the ring, the segment manager, the dispatch unit, the queue of
commands, the HEADER page and the turbine's target; every point but the values that owners set; and of the management
unit all but the event queue, which grows in order. What was owed stays owed, and the bounds of section 7.4, R126 and
R188 stay. -/
structure UpdateFrame (s t : State) : Prop where
  clock    : t.clock = s.clock
  resetLow : t.resetLow = s.resetLow
  ring     : t.ring = s.ring
  seg      : t.seg = s.seg
  disp     : t.disp = s.disp
  pending  : t.pending = s.pending
  header   : t.env.page = s.env.page
  target   : t.turb.target = s.turb.target
  length   : t.points.length = s.points.length
  points   : ∀ i, (s.point i).SetByOwner (t.point i)
  mail     : ({ t.mgmt with events := s.mgmt.events, lost := s.mgmt.lost } : Mgmt) = s.mgmt
  events   : ∀ e ∈ s.mgmt.events, e ∈ t.mgmt.events
  ordered  : s.QueueOrdered → t.QueueOrdered
  lost     : s.mgmt.lost ≤ 65535 → t.mgmt.lost ≤ 65535
  owed     : ∀ i ∈ s.owed, i ∈ t.owed
  table    : ∀ l, (s.fgc l).table.length = 48 → (t.fgc l).table.length = 48
  consec   : ∀ l, (s.fgc l).abn.consec ≤ 14400 → (t.fgc l).abn.consec ≤ 14400

/-! ### The frame composes -/

theorem UpdateFrame.refl (s : State) : UpdateFrame s s where
  clock := rfl
  resetLow := rfl
  ring := rfl
  seg := rfl
  disp := rfl
  pending := rfl
  header := rfl
  target := rfl
  length := rfl
  points := fun _ => .refl _
  mail := rfl
  events := fun _ h => h
  ordered := id
  lost := id
  owed := fun _ h => h
  table := fun _ h => h
  consec := fun _ h => h

theorem UpdateFrame.trans {s t u : State} (h : UpdateFrame s t) (k : UpdateFrame t u) : UpdateFrame s u where
  clock := k.clock.trans h.clock
  resetLow := k.resetLow.trans h.resetLow
  ring := k.ring.trans h.ring
  seg := k.seg.trans h.seg
  disp := k.disp.trans h.disp
  pending := k.pending.trans h.pending
  header := k.header.trans h.header
  target := k.target.trans h.target
  length := k.length.trans h.length
  points := fun i => (h.points i).trans (k.points i)
  mail := by
    have e := k.mail
    have f := h.mail
    rw [← e] at f
    exact f
  events := fun e he => k.events e (h.events e he)
  ordered := fun hs => k.ordered (h.ordered hs)
  lost := fun hs => k.lost (h.lost hs)
  owed := fun i hi => k.owed i (h.owed i hi)
  table := fun l hs => k.table l (h.table l hs)
  consec := fun l hs => k.consec l (h.consec l hs)

/-- An operation taken or left out. -/
theorem UpdateFrame.ite {a s t : State} {b : Prop} [Decidable b] (hs : UpdateFrame a s) (ht : UpdateFrame a t) :
    UpdateFrame a (if b then s else t) := by
  split
  · exact hs
  · exact ht

/-- A fold of operations that keep the frame keeps it. -/
theorem UpdateFrame.foldl {α : Type} {a : State} (f : State → α → State)
    (hf : ∀ s x, UpdateFrame a s → UpdateFrame a (f s x)) : ∀ (xs : List α) (s : State), UpdateFrame a s → UpdateFrame a (xs.foldl f s)
  | [], _, h => h
  | x :: xs, s, h => UpdateFrame.foldl f hf xs (f s x) (hf s x h)

/-! ### The plain updates -/

section
variable {a s : State} {l : LineId}

theorem UpdateFrame.setLine {c : Line} (h : UpdateFrame a s) : UpdateFrame a (s.setLine l c) :=
  { h with table := fun k hk => by simpa using h.table k hk, consec := fun k hk => by simpa using h.consec k hk }

/-- Replacing a flue gas unit, its table and its count within their bounds. -/
theorem UpdateFrame.setFgc {f : Fgc} (h : UpdateFrame a s) (ht : (s.fgc l).table.length = 48 → f.table.length = 48)
    (hc : (s.fgc l).abn.consec ≤ 14400 → f.abn.consec ≤ 14400) : UpdateFrame a (s.setFgc l f) :=
  { h with
    table := fun k hk => by
      have e := h.table k hk
      cases l <;> cases k <;> first | exact ht e | exact e
    consec := fun k hk => by
      have e := h.consec k hk
      cases l <;> cases k <;> first | exact hc e | exact e }

theorem UpdateFrame.setEnv {e : Envelope} (h : UpdateFrame a s) (he : e.page = s.env.page) :
    UpdateFrame a { s with env := e } := { h with header := he.trans h.header }

theorem UpdateFrame.setTurb {u : Turbine} (h : UpdateFrame a s) (hu : u.target = s.turb.target) :
    UpdateFrame a { s with turb := u } := { h with target := hu.trans h.target }

theorem UpdateFrame.owe {i : Instr} (h : UpdateFrame a s) : UpdateFrame a (s.owe i) :=
  { h with owed := fun j hj => List.mem_append_left _ (h.owed j hj) }

theorem UpdateFrame.oweRun {c : RunCause} (h : UpdateFrame a s) : UpdateFrame a (s.oweRun c) := h.ite h.owe

/-- R188: an event is placed at the tail, or lost. -/
theorem UpdateFrame.log {src : Source} {n : EventName} {x y z : Int} (h : UpdateFrame a s) :
    UpdateFrame a (s.log src n x y z) := by
  refine .trans h ?_
  have key := s.log_mgmt src n x y z
  refine { UpdateFrame.refl s with
    clock := by simp, resetLow := by simp, ring := by simp, seg := by simp, disp := by simp, pending := by simp
    header := by simp, target := by simp, length := by simp, points := fun i => by simp [Point.SetByOwner.refl]
    mail := ?_, events := ?_, ordered := fun hq => hq.log src n x y z, lost := ?_, owed := by simp, table := by simp
    consec := by simp }
  · rw [key]; split <;> rfl
  · intro e he; rw [key]; split
    · exact List.mem_append_left _ he
    · exact he
  · intro hl; rw [key]; split
    · exact hl
    · exact Nat.min_le_left _ _

/-- R49: an owner sets its point. -/
theorem UpdateFrame.own {r : Role} {w : Option LineId} {v : Int} (h : UpdateFrame a s) :
    UpdateFrame a (s.own r w v) := by
  refine .trans h ?_
  have pts : (s.own r w v).points.length = s.points.length ∧ ∀ i, (s.point i).SetByOwner ((s.own r w v).point i) := by
    rcases s.own_cases r w v with e | ⟨i, _, hk, e⟩ <;> rw [e]
    · exact ⟨rfl, fun _ => .refl _⟩
    · refine ⟨by simp [State.setPoint], fun j => ?_⟩
      by_cases hij : i = j
      · subst hij
        by_cases hi : i < s.points.length
        · rw [s.setPoint_point i _ hi]; exact .own hk v
        · have : s.setPoint i ((s.point i).own v) = s := by
            simp [State.setPoint, List.set_eq_of_length_le (Nat.le_of_not_lt hi)]
          rw [this]; exact .refl _
      · rw [s.setPoint_point_other i j _ hij]; exact .refl _
  refine { UpdateFrame.refl s with
    clock := by simp, resetLow := by simp, ring := by simp, seg := by simp, disp := by simp, pending := by simp
    header := by simp, target := by simp, length := pts.1, points := pts.2, mail := by simp, events := by simp
    ordered := fun hq => hq.of_le (by simp) (by simp), lost := by simp, owed := by simp, table := by simp
    consec := by simp }

/-! ### Caps -/

theorem UpdateFrame.formCap (h : UpdateFrame a s) : UpdateFrame a (s.formCap l) := by
  unfold State.formCap
  exact .ite h (.oweRun (.own (.setLine (h.setEnv rfl))))

theorem UpdateFrame.capSetCore {src : CapSource} {v : Int} (h : UpdateFrame a s) :
    UpdateFrame a (s.capSetCore l src v) := by
  unfold State.capSetCore
  exact .ite h (.oweRun (.formCap (.log (h.setEnv rfl))))

theorem UpdateFrame.capReleaseCore {src : CapSource} (h : UpdateFrame a s) :
    UpdateFrame a (s.capReleaseCore l src) := by
  unfold State.capReleaseCore
  have k := UpdateFrame.oweRun (c := .cap) (UpdateFrame.log (src := .envelope) (n := .capReleased) (x := lineNumber l)
    (y := src.code) (z := (State.formCap { s with env.caps := s.env.caps.set l ((s.env.caps.get l).set src none) } l).env.effCap.get l)
    (UpdateFrame.formCap (l := l) (h.setEnv (e := { s.env with caps := s.env.caps.set l ((s.env.caps.get l).set src none) }) rfl)))
  exact .ite h (.ite (k.setEnv rfl) k)

/-! ### Dosing loops -/

theorem UpdateFrame.clearSaturated {d : DosingLoop} (h : UpdateFrame a s) : UpdateFrame a (s.clearSaturated l d) := by
  unfold State.clearSaturated
  exact .ite (.log (h.setFgc id id)) (h.setFgc id id)

theorem UpdateFrame.judgeSaturation {d : DosingLoop} (h : UpdateFrame a s) : UpdateFrame a (s.judgeSaturation l d) := by
  unfold State.judgeSaturation
  exact .ite (.ite (h.setFgc id id) h) h.clearSaturated

theorem UpdateFrame.runLoop {d : DosingLoop} (h : UpdateFrame a s) : UpdateFrame a (s.runLoop l d) := by
  unfold State.runLoop
  exact .judgeSaturation (.own (h.setFgc id id))

theorem UpdateFrame.runLoops {t : Trigger} (h : UpdateFrame a s) : UpdateFrame a (s.runLoops l t) :=
  .foldl _ (fun _ _ h => .ite h.runLoop h) loopsAll s h

theorem UpdateFrame.stopLoop {d : DosingLoop} (h : UpdateFrame a s) : UpdateFrame a (s.stopLoop l d) := by
  unfold State.stopLoop
  exact .own (h.clearSaturated.setFgc id id)

theorem UpdateFrame.dropRestraint (h : UpdateFrame a s) : UpdateFrame a (s.dropRestraint l) := by
  unfold State.dropRestraint
  exact .ite (.log (.capReleaseCore (h.setFgc id id))) (h.setFgc id id)

theorem UpdateFrame.judgeCounting (h : UpdateFrame a s) : UpdateFrame a (s.judgeCounting l) := by
  unfold State.judgeCounting
  exact .ite (.ite (h.setFgc id id) h) (h.setFgc id id)

theorem UpdateFrame.fgcLineState (h : UpdateFrame a s) : UpdateFrame a (s.fgcLineState l) := by
  unfold State.fgcLineState
  exact .judgeCounting (.ite h (.dropRestraint (.foldl _ (fun _ _ h => h.stopLoop) loopsAll s h)))

/-! ### Strokes and changes of line state -/

theorem UpdateFrame.setDue (h : UpdateFrame a s) : UpdateFrame a (s.setDue l) := by
  unfold State.setDue
  exact .ite h.setLine h

theorem UpdateFrame.tryStroke (h : UpdateFrame a s) : UpdateFrame a (s.tryStroke l) := by
  unfold State.tryStroke
  exact .ite (.own h.setLine) h

theorem UpdateFrame.dropStroke (h : UpdateFrame a s) : UpdateFrame a (s.dropStroke l) := .own h.setLine

theorem UpdateFrame.withdraw (h : UpdateFrame a s) : UpdateFrame a (s.withdraw l) := by
  unfold State.withdraw
  split
  · exact h
  · exact .log h.dropStroke

theorem UpdateFrame.completeStroke (h : UpdateFrame a s) : UpdateFrame a (s.completeStroke l) := by
  unfold State.completeStroke
  split
  · exact h
  · exact .runLoops (.setDue (.setLine h.own))

theorem UpdateFrame.lineOutputs {new : LineState} (h : UpdateFrame a s) : UpdateFrame a (s.lineOutputs l new) := by
  cases new with
  | feeding => exact h
  | feedHold => exact h
  | burnout => exact h.own
  | off => exact .own (.own h.own)
  | tripped => exact .own (.own h.own)

/-- R60: one change of line state. -/
theorem UpdateFrame.changeOnce {new : LineState} {cause : StateCause} (h : UpdateFrame a s) :
    UpdateFrame a (s.changeOnce l new cause) := by
  unfold State.changeOnce
  have entered := UpdateFrame.log (src := lineSource l) (n := .lineState) (x := cause.code) (y := (s.line l).state.code)
    (z := new.code) (UpdateFrame.own (r := .lineState) (w := some l) (v := new.code) (UpdateFrame.lineOutputs (l := l) (new := new)
      (UpdateFrame.setLine (l := l)
        (c := (((if new.feeds then s else s.withdraw l).line l).enter new (if new.feeds then s else s.withdraw l).runTime))
        (UpdateFrame.ite (b := new.feeds) h (h.withdraw (l := l))))))
  have left := entered.ite (b := new.feeds) (entered.capReleaseCore (l := l) (src := .feedLimit))
  exact .ite h (.fgcLineState (.oweRun (left.ite left.capReleaseCore)))

theorem UpdateFrame.toBurnout {cause : StateCause} (h : UpdateFrame a s) : UpdateFrame a (s.toBurnout l cause) :=
  .ite h.changeOnce h

theorem UpdateFrame.changeLine {new : LineState} {cause : StateCause} (h : UpdateFrame a s) :
    UpdateFrame a (s.changeLine l new cause) := by
  unfold State.changeLine
  exact .ite h (.ite (.toBurnout h.changeOnce) h.changeOnce)

theorem UpdateFrame.judgeFloor (h : UpdateFrame a s) : UpdateFrame a (s.judgeFloor l) := .ite h.toBurnout h

theorem UpdateFrame.capSet {src : CapSource} {v : Int} (h : UpdateFrame a s) : UpdateFrame a (s.capSet l src v) := by
  unfold State.capSet
  exact .ite h.capSetCore (.judgeFloor h.capSetCore)

theorem UpdateFrame.capRelease {src : CapSource} (h : UpdateFrame a s) : UpdateFrame a (s.capRelease l src) := by
  unfold State.capRelease
  exact .ite h.capReleaseCore (.judgeFloor h.capReleaseCore)

theorem UpdateFrame.addCause {k : HoldCause} (h : UpdateFrame a s) : UpdateFrame a (s.addCause l k) := by
  unfold State.addCause
  exact .ite (.changeLine (.log h.setLine)) h

theorem UpdateFrame.removeCause {k : HoldCause} (h : UpdateFrame a s) : UpdateFrame a (s.removeCause l k) := by
  unfold State.removeCause
  exact .ite (.ite (.tryStroke (.changeLine (.log h.setLine))) (.log h.setLine)) h

theorem UpdateFrame.setCause {k : HoldCause} {b : Bool} (h : UpdateFrame a s) : UpdateFrame a (s.setCause l k b) :=
  .ite h.addCause h.removeCause

/-- R66: a change of segment state at both line controllers. -/
theorem UpdateFrame.segmentCause {b : Bool} (h : UpdateFrame a s) : UpdateFrame a (s.segmentCause b) :=
  .setCause h.setCause

/-! ### Trips, the permissive and the feeder -/

theorem UpdateFrame.tripLine {k : TripCause} (h : UpdateFrame a s) : UpdateFrame a (s.tripLine l k) := by
  unfold State.tripLine
  exact .ite h (.changeLine (.log h.setLine))

theorem UpdateFrame.lineStatusUpdate {fallen : Signals} {usable : Bool} (h : UpdateFrame a s) :
    UpdateFrame a (s.lineStatusUpdate l fallen usable) :=
  .ite h.tripLine (.ite h.tripLine (.ite h.tripLine (.ite h.tripLine h)))

theorem UpdateFrame.setPermissive {held : Bool} {temp : Int} (h : UpdateFrame a s) :
    UpdateFrame a (s.setPermissive l held temp) := by
  unfold State.setPermissive
  exact .ite h (.ite (.ite (.tryStroke (.removeCause (.log h.setLine))) (.addCause (.log h.setLine))) h.setLine)

theorem UpdateFrame.judgePermissive (h : UpdateFrame a s) : UpdateFrame a (s.judgePermissive l) := by
  unfold State.judgePermissive
  dsimp only
  split
  · exact .ite (.setPermissive h.setLine) h
  · exact .ite (.ite (.ite h (.ite h.setPermissive h.setLine)) h.setLine) (.ite h.setPermissive h)

theorem UpdateFrame.advanceStroke {risen : Signals} (h : UpdateFrame a s) : UpdateFrame a (s.advanceStroke l risen) := by
  unfold State.advanceStroke
  dsimp only
  split
  · exact h
  · next k _ =>
    have out := UpdateFrame.ite (b := risen.getLsbD 1 ∧ k.phase = .out)
      (h.setLine (l := l) (c := { s.line l with stroke := some { k with phase := .back } })) h
    split
    · exact .ite out.completeStroke out
    · exact out

theorem UpdateFrame.feederStatusUpdate {risen : Signals} (h : UpdateFrame a s) :
    UpdateFrame a (s.feederStatusUpdate l risen) := .tryStroke h.advanceStroke

theorem UpdateFrame.jamSet {n : Nat} (h : UpdateFrame a s) : UpdateFrame a (s.jamSet l n) := by
  unfold State.jamSet
  dsimp only
  split
  · exact h
  · split
    · exact .addCause (.log h.setLine)
    · exact .addCause (.setDue (.log (.dropStroke (.log h.setLine))))

theorem UpdateFrame.jamClear {n : Nat} (h : UpdateFrame a s) : UpdateFrame a (s.jamClear l n) := by
  unfold State.jamClear
  exact .ite (.removeCause (.log h.setLine)) h

/-! ### The flue gas unit -/

theorem UpdateFrame.judgeExhausted (h : UpdateFrame a s) : UpdateFrame a (s.judgeExhausted l) := by
  unfold State.judgeExhausted
  exact .ite (.ite h (.toBurnout (.log (h.setFgc id id)))) (.ite (.log (h.setFgc id id)) h)

theorem UpdateFrame.enterAbnormal {b : Bool} (h : UpdateFrame a s) : UpdateFrame a (s.enterAbnormal l b) := by
  unfold State.enterAbnormal
  exact .judgeExhausted (.judgeCounting (.ite (h.setFgc id id) (.log (h.setFgc id id))))

theorem UpdateFrame.endAbnormal (h : UpdateFrame a s) : UpdateFrame a (s.endAbnormal l) := by
  unfold State.endAbnormal
  exact .judgeExhausted (h.log.setFgc (by simp) (by simp))

theorem UpdateFrame.trainFault {n : Nat} {on : Bool} (h : UpdateFrame a s) : UpdateFrame a (s.trainFault l n on) := by
  unfold State.trainFault
  have k := UpdateFrame.log (src := fgcSource l) (n := .trainFault) (x := n) (y := if on then 1 else 0) (z := 0)
    (h.setFgc (l := l) (f := { s.fgc l with trainFault := on }) id id)
  exact .ite h (.ite k.enterAbnormal k)

/-- A change of a calibration flag leaves the table and the count of the unit. -/
theorem Fgc.setCal_kept (f : Fgc) (p : FgcPoint) (on : Bool) :
    (f.setCal p on).table = f.table ∧ (f.setCal p on).abn = f.abn := by cases p <;> exact ⟨rfl, rfl⟩

theorem UpdateFrame.setCalibration {p : FgcPoint} {n : Nat} {on : Bool} (h : UpdateFrame a s) :
    UpdateFrame a (s.setCalibration l p n on) := by
  unfold State.setCalibration
  obtain ⟨ht, hc⟩ := (s.fgc l).setCal_kept p on
  refine .ite h (.log (h.setFgc (fun hl => ?_) (fun hl => ?_)))
  · split
    · exact (congrArg List.length ht).trans hl
    · exact (congrArg List.length ht).trans hl
  · split
    · exact (congrArg Abnormal.consec hc).trans_le hl
    · exact (congrArg Abnormal.consec hc).trans_le hl

theorem UpdateFrame.calibrate {n : Nat} {on : Bool} (h : UpdateFrame a s) : UpdateFrame a (s.calibrate l n on) := by
  refine .foldl _ (fun s p h => ?_) FgcPoint.all s h
  split
  · exact h
  · exact .ite h.setCalibration h

/-- R112: the calibration flags of a unit are ended. -/
theorem UpdateFrame.endCalibrations (h : UpdateFrame a s) : UpdateFrame a (s.endCalibrations l) :=
  .foldl _ (fun _ _ h => h.setCalibration) FgcPoint.all s h

/-! ### The turbine interface -/

theorem UpdateFrame.request {r : Request} (h : UpdateFrame a s) : UpdateFrame a (s.request r) := .own (h.setTurb rfl)

theorem UpdateFrame.await {i : Indication} (h : UpdateFrame a s) : UpdateFrame a (s.await i) := h.setTurb rfl

theorem UpdateFrame.changeTurbine {new : TurbineState} {cause : TurbCause} (h : UpdateFrame a s) :
    UpdateFrame a (s.changeTurbine new cause) := .oweRun (.log (.request (h.setTurb rfl)))

theorem UpdateFrame.askStop (h : UpdateFrame a s) : UpdateFrame a s.askStop := .await (.request (h.setTurb rfl))

theorem UpdateFrame.judgeSync (h : UpdateFrame a s) : UpdateFrame a s.judgeSync := .ite (.await h.changeTurbine) h

theorem UpdateFrame.confirmClose (h : UpdateFrame a s) : UpdateFrame a s.confirmClose :=
  .await (.request (h.setTurb rfl))

theorem UpdateFrame.judgeClose (h : UpdateFrame a s) : UpdateFrame a s.judgeClose :=
  .ite h (.ite h.confirmClose (.ite h (.log (h.setTurb rfl))))

theorem UpdateFrame.unload {cause : TurbCause} (h : UpdateFrame a s) : UpdateFrame a (s.unload cause) :=
  h.changeTurbine.setTurb rfl

theorem UpdateFrame.release (h : UpdateFrame a s) : UpdateFrame a s.release :=
  .ite (.await (.request (h.setTurb rfl))) h

theorem UpdateFrame.matchState {i : Indication} {new : TurbineState} (h : UpdateFrame a s) :
    UpdateFrame a (s.matchState i new) := .log (.changeTurbine (h.setTurb rfl))

theorem UpdateFrame.logUnexpected {i : Indication} (h : UpdateFrame a s) : UpdateFrame a (s.logUnexpected i) := h.log

theorem UpdateFrame.stopped (h : UpdateFrame a s) : UpdateFrame a s.stopped := .changeTurbine (h.setTurb rfl)

theorem UpdateFrame.unloaded (h : UpdateFrame a s) : UpdateFrame a s.unloaded :=
  .ite (.askStop h.changeTurbine) h.changeTurbine

theorem UpdateFrame.atSpeed (h : UpdateFrame a s) : UpdateFrame a s.atSpeed :=
  .ite (.askStop h.changeTurbine) (.judgeSync h.changeTurbine)

/-- R158: an indication judged in any state. -/
theorem UpdateFrame.judgeIndication {i : Indication} (h : UpdateFrame a s) : UpdateFrame a (s.judgeIndication i) := by
  unfold State.judgeIndication
  cases i with
  | trip => exact .ite h (.changeTurbine (h.setTurb rfl))
  | local_ => exact .ite h (.changeTurbine (h.setTurb rfl))
  | stopped =>
    dsimp only
    split
    · exact h.changeTurbine
    · exact h
    · exact .ite h.stopped h.matchState
    · exact .ite h.stopped h.matchState
    · exact h.matchState
    · exact h.matchState
    · exact .ite h.stopped h.matchState
    · exact h.changeTurbine
    · exact h.changeTurbine
  | runningUp =>
    dsimp only
    split <;> first | exact h | exact h.logUnexpected
  | atSpeed =>
    dsimp only
    split
    · exact h.changeTurbine
    · exact h.matchState
    · exact h.atSpeed
    · exact h
    · exact h
    · exact h.matchState
    · exact .ite h.unloaded h.matchState
    · exact h.matchState
    · exact h.changeTurbine
  | closeReady =>
    dsimp only
    split <;> first | exact h | exact h.logUnexpected | exact h.judgeClose
  | onGrid =>
    dsimp only
    split
    · exact h.changeTurbine
    · exact h.matchState
    · exact h.matchState
    · exact h.matchState
    · exact .ite h.changeTurbine h.matchState
    · exact .ite h.request h
    · exact h
    · exact h.matchState
    · exact h.changeTurbine
  | unloadPending =>
    dsimp only
    split <;> first | exact h | exact h.logUnexpected | exact h.unload
  | unloaded =>
    dsimp only
    split <;> first | exact h | exact h.logUnexpected | exact .ite h.unloaded h.logUnexpected

theorem UpdateFrame.indicationUpdate (h : UpdateFrame a s) : UpdateFrame a s.indicationUpdate := by
  unfold State.indicationUpdate
  split
  · exact h
  · split
    · exact .judgeIndication (h.setTurb rfl)
    · exact .ite h (.log (h.setTurb rfl))

theorem UpdateFrame.bypassUpdate {risen : Signals} {usable : Bool} (h : UpdateFrame a s) :
    UpdateFrame a (s.bypassUpdate risen usable) := .ite h.release h

/-! ### Updates of points -/

theorem UpdateFrame.operatorCapUpdate {u : Update} (h : UpdateFrame a s) : UpdateFrame a (s.operatorCapUpdate l u) := by
  unfold State.operatorCapUpdate
  split
  · exact h
  · exact .ite h.capSet h

theorem UpdateFrame.lineUpdate {r : Role} {u : Update} (h : UpdateFrame a s) : UpdateFrame a (s.lineUpdate r l u) := by
  unfold State.lineUpdate
  cases r with
  | furnaceTemp => exact h.judgePermissive
  | steamFlow => exact h.setCause
  | feederStatus => exact h.feederStatusUpdate
  | lineStatus => exact h.lineStatusUpdate
  | feederCommand => exact h.setCause
  | operatorCap => exact h.operatorCapUpdate
  | _ => exact h

theorem UpdateFrame.commonUpdate {r : Role} {u : Update} (h : UpdateFrame a s) : UpdateFrame a (s.commonUpdate r u) := by
  unfold State.commonUpdate
  cases r with
  | turbineIndication => exact h.indicationUpdate
  | bypassStatus => exact h.bypassUpdate
  | _ => exact h

/-- R46: what the consumers of an update leave alone. -/
theorem UpdateFrame.roleUpdate {r : Role} {w : Option LineId} {u : Update} (h : UpdateFrame a s) :
    UpdateFrame a (s.roleUpdate r w u) := by
  cases w with
  | none => exact h.commonUpdate
  | some l => exact h.lineUpdate

end

end Sys2Proof.Machine
end

