-- ==== Sys2Proof/Proofs/Shape.lean ====
section
/-! PROOFS. The sizes of the tables and the bounds of queues and counts (`State.Shaped`), carried through every operation
of the part, block by block, and so through every step. -/

namespace Sys2Proof.Machine

section
variable {s t : State} {l : LineId}

/-! ### The plain updates -/

/-- What stays within the frame of an update keeps its shape. -/
theorem State.Shaped.updated (h : s.Shaped) (k : UpdateFrame s t) : t.Shaped where
  points := k.length.trans h.points
  slots := by rw [k.ring]; exact h.slots
  echoes := by rw [k.ring]; exact h.echoes
  collisions := by rw [k.ring]; exact h.collisions
  stations := by rw [k.seg]; exact h.stations
  drops := by rw [k.seg]; exact h.drops
  halfHours := fun l => k.table l (h.halfHours l)
  consec := fun l => k.consec l (h.consec l)
  out := by rw [k.disp]; exact h.out
  queue := by rw [k.disp]; exact h.queue
  firm := by rw [k.disp]; exact h.firm
  number := by rw [k.disp]; exact h.number
  notice := by rw [k.disp]; exact h.notice
  lost := k.lost h.lost
  once := by rw [k.ring]; exact h.once
  mapped := by rw [k.ring]; exact h.mapped
  echo := by rw [k.ring]; exact h.echo
  assigned := by rw [k.seg]; exact h.assigned

theorem State.Shaped.ite {b : Prop} [Decidable b] (hs : s.Shaped) (ht : t.Shaped) : (if b then s else t).Shaped := by
  split
  · exact hs
  · exact ht

theorem State.Shaped.foldl {α : Type} (f : State → α → State) (hf : ∀ s x, s.Shaped → (f s x).Shaped) :
    ∀ (xs : List α) (s : State), s.Shaped → (xs.foldl f s).Shaped
  | [], _, h => h
  | x :: xs, s, h => State.Shaped.foldl f hf xs (f s x) (hf s x h)

theorem State.Shaped.log {src : Source} {n : EventName} {x y z : Int} (h : s.Shaped) : (s.log src n x y z).Shaped :=
  h.updated (.log (.refl s))

theorem State.Shaped.owe {i : Instr} (h : s.Shaped) : (s.owe i).Shaped := { h with }

theorem State.Shaped.place {r : Response} (h : s.Shaped) : (s.place r).Shaped := { h with }

theorem State.Shaped.answer {c : CommandCode} {k : RespCode} {d : List Byte} (h : s.Shaped) : (s.answer c k d).Shaped :=
  { h with }

theorem State.Shaped.answerClamped {c : CommandCode} {n : Nat} (h : s.Shaped) : (s.answerClamped c n).Shaped :=
  .ite h.answer h.answer

theorem State.Shaped.badState {c : CommandCode} {n : Nat} {d : List Byte} (h : s.Shaped) : (s.badState c n d).Shaped :=
  h.answer

theorem State.Shaped.reachTenths {n : Nat} (h : s.Shaped) : (s.reachTenths n).Shaped := { h with }

theorem State.Shaped.reach {n : Nat} (h : s.Shaped) : (s.reach n).Shaped := { h with }

theorem State.Shaped.reachPlant {n : Nat} (h : s.Shaped) : (s.reachPlant n).Shaped := by
  unfold State.reachPlant
  split
  · exact h
  · exact .ite h h.reach

theorem State.Shaped.setPoint {i : Nat} {p : Point} (h : s.Shaped) : (s.setPoint i p).Shaped :=
  { h with points := (List.length_set ..).trans h.points }

theorem State.Shaped.setLine {c : Line} (h : s.Shaped) : (s.setLine l c).Shaped := h.updated (.setLine (.refl s))

/-- Replacing a flue gas unit, its table and its count within their bounds. -/
theorem State.Shaped.setFgc {f : Fgc} (h : s.Shaped) (ht : f.table.length = 48) (hc : f.abn.consec ≤ 14400) :
    (s.setFgc l f).Shaped := h.updated (.setFgc (.refl s) (fun _ => ht) (fun _ => hc))

/-! ### Points (chapter 3) -/

theorem Point.latch_zero (p : Point) : p.latch 0#16 0#16 = p := by simp [Point.latch]

/-- R46: a record takes its new contents, with its latches, and the rest is what its consumers do. -/
theorem State.commitPoint_frame (s : State) (i : Nat) (new : Point) (edges : Bool) :
    ∃ risen fallen, UpdateFrame (s.setPoint i (new.latch risen fallen)) (s.commitPoint i new edges) ∧
      (new.kind ≠ .binary ∨ edges = false → new.latch risen fallen = new) := by
  refine ⟨if decide (new.kind = .binary) && edges then new.shownLevel &&& ~~~(s.point i).shownLevel else 0,
    if decide (new.kind = .binary) && edges then (s.point i).shownLevel &&& ~~~new.shownLevel else 0,
    .ite (.refl _) (.roleUpdate (.refl _)), ?_⟩
  rintro (hk | he)
  · simp [hk, new.latch_zero]
  · simp [he, new.latch_zero]

theorem State.Shaped.commitPoint {i : Nat} {p : Point} {b : Bool} (h : s.Shaped) : (s.commitPoint i p b).Shaped := by
  obtain ⟨_, _, k, _⟩ := s.commitPoint_frame i p b
  exact h.setPoint.updated k

theorem State.Shaped.loseInput {i : Nat} {p : Point} {r : LossReason} {b : Bool} (h : s.Shaped) :
    (s.loseInput i p r b).Shaped := by
  unfold State.loseInput
  exact .ite (h.log.commitPoint) h.commitPoint

theorem State.Shaped.sample {i : Nat} {w : Word16} {c : Byte} (h : s.Shaped) : (s.sample i w c).Shaped := by
  unfold State.sample
  dsimp only
  split
  · exact h.commitPoint
  · exact h.loseInput
  · exact h

theorem State.Shaped.staleExpiry {i : Nat} (h : s.Shaped) : (s.staleExpiry i).Shaped := by
  unfold State.staleExpiry
  split
  · exact h
  · exact h.reach.loseInput

theorem State.Shaped.holdExpiry {i : Nat} (h : s.Shaped) : (s.holdExpiry i).Shaped := by
  unfold State.holdExpiry
  split
  · exact h
  · exact h.reach.loseInput

theorem State.Shaped.setDegraded {i : Nat} {b : Bool} (h : s.Shaped) : (s.setDegraded i b).Shaped := by
  unfold State.setDegraded
  exact .ite h h.commitPoint

theorem State.Shaped.releaseForcing {i : Nat} (h : s.Shaped) : (s.releaseForcing i).Shaped := by
  unfold State.releaseForcing
  exact .ite h h.log.commitPoint

theorem State.Shaped.staircaseStep {i : Nat} (h : s.Shaped) : (s.staircaseStep i).Shaped := by
  unfold State.staircaseStep
  split
  · exact h.reach.commitPoint
  · exact h
  · exact h

theorem State.Shaped.cmdForcePoint {b : Byte} {p : ForcePattern} (h : s.Shaped) : (s.cmdForcePoint b p).Shaped := by
  unfold State.cmdForcePoint
  dsimp only
  split
  · exact h.answer
  · split
    · exact h.badState
    · split
      · exact h.answer
      · split
        · exact h.answer
        · exact h.log.commitPoint.answerClamped

theorem State.Shaped.cmdReleasePoint {b : Byte} (h : s.Shaped) : (s.cmdReleasePoint b).Shaped :=
  .ite h.answer (.ite h.badState h.releaseForcing.answer)

theorem State.Shaped.cmdReadPoint {b c : Byte} (h : s.Shaped) : (s.cmdReadPoint b c).Shaped :=
  .ite h.answer (.ite h.answer (.place (.ite h.setPoint h)))

/-! ### The line controllers (chapters 4 and 5) -/

theorem UpdateFrame.setAir {a : State} (h : UpdateFrame a s) : UpdateFrame a (s.setAir l) := .own (.own h.setLine)

theorem UpdateFrame.raiseFeedLimit {a : State} (h : UpdateFrame a s) : UpdateFrame a (s.raiseFeedLimit l) := by
  unfold State.raiseFeedLimit
  split
  · exact h
  · split
    · exact h.capSet
    · exact .ite h.capSet h

theorem UpdateFrame.feedSaturation {a : State} (h : UpdateFrame a s) : UpdateFrame a (s.feedSaturation l) := by
  unfold State.feedSaturation
  exact .ite (.ite (.raiseFeedLimit h.setLine) (.ite (.capRelease h.setLine) h.setLine)) h

theorem UpdateFrame.runPeriod {a : State} (h : UpdateFrame a s) : UpdateFrame a (s.runPeriod l) := by
  unfold State.runPeriod
  exact .runLoops (.tryStroke (.setDue (.feedSaturation (.setAir (.own h.setLine)))))

theorem State.Shaped.controlPeriod (h : s.Shaped) : (s.controlPeriod l).Shaped := by
  unfold State.controlPeriod
  split
  · exact h
  · exact h.reach.updated (.runPeriod (.refl _))

theorem State.Shaped.permissiveDelay (h : s.Shaped) : (s.permissiveDelay l).Shaped := by
  unfold State.permissiveDelay
  split
  · exact h
  · exact h.reach.updated (.setPermissive (.refl _))

theorem State.Shaped.lineHoldExpiry (h : s.Shaped) : (s.lineHoldExpiry l).Shaped := by
  unfold State.lineHoldExpiry
  split
  · exact h
  · exact h.reach.updated (.toBurnout (.log (.refl _)))

theorem State.Shaped.burnoutEnd (h : s.Shaped) : (s.burnoutEnd l).Shaped := by
  unfold State.burnoutEnd
  split
  · exact h
  · exact h.reach.updated (.changeLine (.refl _))

theorem State.Shaped.strokeTimeout (h : s.Shaped) : (s.strokeTimeout l).Shaped := by
  unfold State.strokeTimeout
  split
  · exact h.reach.updated (.addCause (.setDue (.log (.dropStroke (.refl _)))))
  · exact h

theorem State.Shaped.dueTimeReached (h : s.Shaped) : (s.dueTimeReached l).Shaped := by
  unfold State.dueTimeReached
  split
  · exact h
  · exact h.updated (.tryStroke (.refl _))
  · exact h.reach.updated (.tryStroke (.refl _))

theorem UpdateFrame.closeBurnMinute {a : State} {e : BurnEntry} (h : UpdateFrame a s) :
    UpdateFrame a (s.closeBurnMinute l e) := by
  unfold State.closeBurnMinute
  dsimp only
  refine .own ?_
  split
  · exact h.setLine
  · exact .ite h.setLine (.log h.setLine)

theorem State.Shaped.burnMinuteClose (h : s.Shaped) : (s.burnMinuteClose l).Shaped := by
  unfold State.burnMinuteClose
  dsimp only
  split
  · exact h
  · split
    · exact h.reachPlant.setLine.updated (.closeBurnMinute (.refl _))
    · exact h.reach.setLine.updated (.closeBurnMinute (.refl _))
    · exact h

theorem UpdateFrame.burnSetTime {a : State} {n : Nat} (h : UpdateFrame a s) : UpdateFrame a (s.burnSetTime l n) :=
  .ite h h.setLine

theorem UpdateFrame.startLine {a : State} (h : UpdateFrame a s) : UpdateFrame a (s.startLine l) :=
  .tryStroke (.changeLine (.own h.setLine))

theorem State.Shaped.cmdStart {b : Byte} (h : s.Shaped) : (s.cmdStart b).Shaped := by
  unfold State.cmdStart
  split
  · exact h.answer
  · split
    · exact h.answer
    · exact (h.updated (.startLine (.refl _))).answer

theorem State.Shaped.cmdStop {b : Byte} (h : s.Shaped) : (s.cmdStop b).Shaped := by
  unfold State.cmdStop
  split
  · exact h.answer
  · exact .ite h.badState (h.updated (.toBurnout (.refl _))).answer

theorem State.Shaped.cmdResume {b : Byte} (h : s.Shaped) : (s.cmdResume b).Shaped := by
  unfold State.cmdResume
  split
  · exact h.answer
  · split
    · exact h.answer
    · exact .ite (h.updated (.removeCause (.refl _))).answer h.badState
    all_goals exact h.badState

theorem State.Shaped.cmdResetTrip {b : Byte} (h : s.Shaped) : (s.cmdResetTrip b).Shaped := by
  unfold State.cmdResetTrip
  split
  · exact h.answer
  · exact .ite h.badState (.ite h.badState (h.updated (.setLine (.changeLine (.refl _)))).answer)

theorem UpdateFrame.setOverride {a : State} {on : Bool} {v : Nat} (h : UpdateFrame a s) :
    UpdateFrame a (s.setOverride l on v) := by
  unfold State.setOverride
  exact .ite h (.ite (.log h.setLine) (.own (.log h.setLine)))

theorem State.Shaped.cmdOverrideOn {b : Byte} {w : Word16} (h : s.Shaped) : (s.cmdOverrideOn b w).Shaped := by
  unfold State.cmdOverrideOn
  split
  · exact h.answer
  · exact (h.updated (.setOverride (.refl _))).answer

theorem State.Shaped.cmdOverrideOff {b : Byte} (h : s.Shaped) : (s.cmdOverrideOff b).Shaped := by
  unfold State.cmdOverrideOff
  split
  · exact h.answer
  · exact (h.updated (.setOverride (.refl _))).answer

/-! ### The flue gas units (chapters 6 and 7) -/

/-- A sample leaves the table and the count of the unit. -/
theorem Fgc.addSample_kept (f : Fgc) (c : Component) (now : Nat) (r : Except Nat Nat) :
    (f.addSample c now r).table = f.table ∧ (f.addSample c now r).abn = f.abn := by
  cases r <;> exact ⟨rfl, rfl⟩

theorem UpdateFrame.sampleComponent {a : State} {c : Component} (h : UpdateFrame a s) :
    UpdateFrame a (s.sampleComponent l c) := by
  obtain ⟨ht, ha⟩ := (s.fgc l).addSample_kept c s.runTime (s.judgeSample l c)
  exact .ite (h.setFgc (fun k => by rw [ht]; exact k) (fun k => by rw [ha]; exact k)) h

theorem State.Shaped.sampleInstant (h : s.Shaped) : (s.sampleInstant l).Shaped := by
  unfold State.sampleInstant
  exact h.reach.updated (.foldl _ (fun _ _ h => h.sampleComponent) _ _ (.setFgc (.refl _) id id))

theorem UpdateFrame.showBudget {a : State} (h : UpdateFrame a s) : UpdateFrame a (s.showBudget l) := h.own

theorem UpdateFrame.judgeHalf {a : State} {r : HalfRecord} (h : UpdateFrame a s) : UpdateFrame a (s.judgeHalf l r) :=
  .ite h.enterAbnormal (.ite h.endAbnormal h)

theorem UpdateFrame.reportHalf {a : State} {r : HalfRecord} {c : Component} (h : UpdateFrame a s) :
    UpdateFrame a (s.reportHalf l r c) := by
  unfold State.reportHalf
  split
  · exact h.own
  · exact h

/-- R115: the record takes its place in the table, whose size stays. -/
theorem UpdateFrame.closeHalf {a : State} {hh : HalfHour} {m : ClosingMark} (h : UpdateFrame a s) :
    UpdateFrame a (s.closeHalf l hh m) := by
  unfold State.closeHalf
  refine .judgeHalf (.foldl _ (fun _ _ h => h.reportHalf) _ _ ?_)
  refine .setFgc (.foldl _ (fun _ _ h => ?_) _ _ h) (fun k => ?_) id
  · exact .ite h.log h
  · exact (List.length_set ..).trans k

theorem UpdateFrame.closeDay {a : State} {n : Nat} {m : ClosingMark} (h : UpdateFrame a s) :
    UpdateFrame a (s.closeDay l n m) := by
  unfold State.closeDay
  exact .setFgc (.foldl _ (fun _ _ h => .ite h.log h) _ _ h) (fun _ => List.length_replicate ..) id

theorem UpdateFrame.lowerEmission {a : State} {c : Component} (h : UpdateFrame a s) :
    UpdateFrame a (s.lowerEmission l c) := by
  unfold State.lowerEmission
  exact .ite h (.ite (.log (.capSet (h.setFgc id id))) (.capSet (h.setFgc id id)))

theorem UpdateFrame.raiseEmission {a : State} (h : UpdateFrame a s) : UpdateFrame a (s.raiseEmission l) := by
  unfold State.raiseEmission
  dsimp only
  split
  · exact h
  · exact .ite (.log (.capRelease (h.setFgc id id))) (.capSet (h.setFgc id id))

theorem UpdateFrame.restrain {a : State} {f : Six Finding} (h : UpdateFrame a s) : UpdateFrame a (s.restrain l f) := by
  unfold State.restrain
  dsimp only
  split
  · exact .lowerEmission (h.setFgc id id)
  · exact .ite (h.setFgc id id) (.ite (.ite (.raiseEmission (h.setFgc id id)) (h.setFgc id id)) h)

theorem UpdateFrame.evaluateRestraint {a : State} {b : Three Bool} (h : UpdateFrame a s) :
    UpdateFrame a (s.evaluateRestraint l b) := by
  unfold State.evaluateRestraint
  dsimp only
  split
  · exact h
  · exact .ite h.restrain h

theorem UpdateFrame.boundaryCloses {a : State} {b : Nat} (h : UpdateFrame a s) : UpdateFrame a (s.boundaryCloses l b) := by
  unfold State.boundaryCloses
  split
  · split
    · exact h
    · exact .setFgc (.ite (.closeDay h.closeHalf) h.closeHalf) id id
  · exact h

theorem State.Shaped.fgcMinuteClose (h : s.Shaped) : (s.fgcMinuteClose l).Shaped := by
  unfold State.fgcMinuteClose
  split
  · exact h
  · exact h.reachPlant.updated
      (.boundaryCloses (.setFgc (.runLoops (.evaluateRestraint (.setFgc (.refl _) id id))) id id))

theorem UpdateFrame.halfSetTime {a : State} {n : Nat} (h : UpdateFrame a s) : UpdateFrame a (s.halfSetTime l n) := by
  unfold State.halfSetTime
  dsimp only
  split
  · exact h.setFgc id id
  · exact .ite h (.setFgc (.ite h.closeHalf (.closeDay h.closeHalf)) id id)

theorem UpdateFrame.fgcSetTime {a : State} {n : Nat} (h : UpdateFrame a s) : UpdateFrame a (s.fgcSetTime l n) := by
  unfold State.fgcSetTime
  refine .setFgc (.setFgc (.halfSetTime ?_) id id) id id
  split
  · exact h
  · exact h.setFgc id id

theorem State.Shaped.saturationExpiry {d : DosingLoop} (h : s.Shaped) : (s.saturationExpiry l d).Shaped := by
  unfold State.saturationExpiry
  dsimp only
  split
  · exact h
  · exact h.reach.updated (.log (.setFgc (.refl _) id id))

theorem State.Shaped.abnormalSecond (h : s.Shaped) : (s.abnormalSecond l).Shaped := by
  unfold State.abnormalSecond
  split
  · exact h
  · next t _ =>
    refine (h.reach (n := t)).updated (.judgeExhausted (.ite ?_ (.showBudget ?_))) <;>
      exact .setFgc (.refl _) id (fun _ => Nat.min_le_left _ _)

theorem UpdateFrame.loadBudget {a : State} {x k : Nat} {b : Bool} (h : UpdateFrame a s) (hk : k ≤ 14400) :
    UpdateFrame a (s.loadBudget l x k b) := .judgeExhausted (.showBudget (.log (h.setFgc id (fun _ => hk))))

theorem State.Shaped.cmdLoadBudget {b v : Byte} {x : BitVec 32} {c : Word16} (h : s.Shaped) :
    (s.cmdLoadBudget b x c v).Shaped := by
  unfold State.cmdLoadBudget
  split
  · exact h.answer
  · exact .ite h.answer (h.updated (.loadBudget (.refl _) (Nat.min_le_right _ _))).answerClamped

/-! ### The turbine interface (chapter 9) -/

theorem State.Shaped.indicationTimeout (h : s.Shaped) : s.indicationTimeout.Shaped := by
  unfold State.indicationTimeout
  split
  · exact h
  · exact h.reach.updated (.indicationUpdate (.request (.ite (.setTurb (.log (.refl _)) (by simp))
      (.changeTurbine (.setTurb (.log (.refl _)) (by simp))))))

theorem State.Shaped.settleExpiry (h : s.Shaped) : s.settleExpiry.Shaped := by
  unfold State.settleExpiry
  split
  · exact h
  · exact h.reach.updated (.release (.refl _))

theorem State.Shaped.takeTarget {g : Target} (h : s.Shaped) : (s.takeTarget g).Shaped :=
  State.Shaped.updated (s := { s with
    turb := { s.turb with
      target := { g with power := min g.power s.turb.page.rating, reserve := min g.reserve s.turb.page.rating }
      reserve := min g.reserve s.turb.page.rating } }) { h with } (.judgeSync (.refl _))

theorem UpdateFrame.stepRamp {a : State} {c : RunCause} (h : UpdateFrame a s) : UpdateFrame a (s.stepRamp c) :=
  .ite (h.setTurb rfl) h

theorem UpdateFrame.judgeHeldClose {a : State} (h : UpdateFrame a s) : UpdateFrame a s.judgeHeldClose :=
  .ite h.confirmClose h

theorem UpdateFrame.sendSetpoint {a : State} (h : UpdateFrame a s) : UpdateFrame a s.sendSetpoint :=
  .own (.own (.own (h.setTurb rfl)))

theorem UpdateFrame.turbineHandOver {a : State} {c : RunCause} (h : UpdateFrame a s) :
    UpdateFrame a (s.turbineHandOver c) := .sendSetpoint (.judgeHeldClose h.stepRamp)

theorem State.Shaped.cmdRunup (h : s.Shaped) : s.cmdRunup.Shaped := by
  unfold State.cmdRunup
  split
  · exact .ite h.badState (.ite h.badState (h.updated (.await (.changeTurbine (.refl _)))).answer)
  · exact h.answer
  · exact h.answer
  · exact h.answer
  · exact h.answer
  · exact h.answer
  all_goals exact h.badState

theorem State.Shaped.cmdTurbineStop (h : s.Shaped) : s.cmdTurbineStop.Shaped := by
  unfold State.cmdTurbineStop
  split
  · exact h.badState
  · exact h.badState
  · exact h.answer
  · exact h.answer
  · refine State.Shaped.answer ?_
    exact .ite h (h.updated (.askStop (.refl _)))
  · refine State.Shaped.answer ?_
    exact .ite h (h.updated (.askStop (.refl _)))
  · refine State.Shaped.answer ?_
    exact .ite h (h.updated (.askStop (.changeTurbine (.refl _))))
  · refine State.Shaped.answer ?_
    exact .ite h (h.updated (.unload (.setTurb (.refl _) rfl)))
  · exact State.Shaped.answer { h with }

end

end Sys2Proof.Machine
end

