-- ==== Sys2Proof/Proofs/ShapeDispatch.lean ====
section
/-! PROOFS. The dispatch unit and the envelope allocator keep the shape of the part (R168 to R178, R137 to R145). -/

namespace Sys2Proof.Machine

/-! ### The schedule queue -/

/-- R171: a FIRM block lies within the capability stored with it. -/
def Block.Within (b : Block) : Prop := b.firm = true → b.accPower + b.accReserve ≤ b.capAt

/-- The bounds of the schedule queue (R170, R171). -/
def QueueBounded (q : List Block) : Prop := q.length ≤ 16 ∧ ∀ b ∈ q, b.Within

theorem QueueBounded.filter {q : List Block} (h : QueueBounded q) (p : Block → Bool) : QueueBounded (q.filter p) :=
  ⟨(List.length_filter_le p q).trans h.1, fun b hb => h.2 b (List.mem_of_mem_filter hb)⟩

/-- A change of the blocks that leaves what was accepted. -/
theorem QueueBounded.map {q : List Block} (h : QueueBounded q) (f : Block → Block) (hf : ∀ b, b.Within → (f b).Within) :
    QueueBounded (q.map f) := by
  refine ⟨by simpa using h.1, fun b hb => ?_⟩
  obtain ⟨x, hx, rfl⟩ := List.mem_map.1 hb
  exact hf x (h.2 x hx)

theorem mem_insertBlock {q : List Block} {b x : Block} (h : x ∈ insertBlock q b) : x = b ∨ x ∈ q := by
  induction q with
  | nil => simpa [insertBlock] using h
  | cons y q ih =>
    unfold insertBlock at h
    split at h
    · simpa using h
    · rcases List.mem_cons.1 h with rfl | h
      · simp
      · rcases ih h with rfl | h <;> simp_all

theorem length_insertBlock (q : List Block) (b : Block) : (insertBlock q b).length = q.length + 1 := by
  induction q with
  | nil => rfl
  | cons y q ih =>
    unfold insertBlock
    split
    · simp
    · simp [ih]

/-- R171, step 4: the new blocks are inserted one after another. -/
theorem QueueBounded.insertAll : ∀ {news left : List Block}, left.length + news.length ≤ 16 → (∀ b ∈ left, b.Within) →
    (∀ b ∈ news, b.Within) → QueueBounded (news.foldl insertBlock left)
  | [], _, hn, hl, _ => ⟨by simpa using hn, hl⟩
  | b :: news, left, hn, hl, hb => by
    refine QueueBounded.insertAll (left := insertBlock left b) ?_ ?_ fun x hx => hb x (List.mem_cons_of_mem _ hx)
    · rw [length_insertBlock]
      simp only [List.length_cons] at hn
      omega
    · intro x hx
      rcases mem_insertBlock hx with rfl | hx
      · exact hb _ List.mem_cons_self
      · exact hl x hx

/-- R171, step 3: the accepted values of a FIRM block lie within C_e. -/
theorem OrderBlock.block_within (b : OrderBlock) (order index : Nat) (firm : Bool) (cE : Nat) :
    (b.block order index firm cE).Within := by
  intro (hf : firm = true)
  show (acceptedValues firm b.power b.reserve cE).1 + (acceptedValues firm b.power b.reserve cE).2 ≤ cE
  unfold acceptedValues
  split
  · simp only; omega
  · next hn => simp only [hf, true_and, not_lt] at hn; exact hn

theorem newBlocks_within (number : Nat) (firm : Bool) (cE : Nat) (blocks : List OrderBlock) :
    ∀ b ∈ newBlocks number firm cE blocks, b.Within := by
  intro b hb
  obtain ⟨p, _, rfl⟩ := List.mem_map.1 hb
  exact p.1.block_within number p.2 firm cE

theorem Block.truncate_within {b c : Block} {now t : Nat} (hb : b.Within) (h : b.truncate now t = some c) : c.Within := by
  unfold Block.truncate at h
  split at h
  · cases h
  · cases h; exact hb

/-- R171, step 2: what is left of a queued block was accepted as the block was. -/
theorem supersede_within {news : List Block} {now : Nat} {b c : Block} (hb : b.Within)
    (h : (supersede news now b).1 = some c) : c.Within := by
  unfold supersede at h
  split at h
  · cases h; exact hb
  · split at h
    · cases h
    · exact b.truncate_within hb h
    · exact b.truncate_within hb h

theorem afterSupersede_within {queue news : List Block} {order now : Nat} (h : ∀ b ∈ queue, b.Within) :
    ∀ b ∈ (afterSupersede queue news order now).1, b.Within := by
  intro b hb
  obtain ⟨p, hp, hpb⟩ := List.mem_filterMap.1 hb
  obtain ⟨x, hx, rfl⟩ := List.mem_map.1 hp
  exact supersede_within (h x (List.mem_of_mem_filter hx)) hpb

section
variable {s t : State} {l : LineId}

theorem State.Shaped.queueBounded (h : s.Shaped) : QueueBounded s.disp.queue := ⟨h.queue, h.firm⟩

theorem State.Shaped.setQueue {q : List Block} (h : s.Shaped) (hq : QueueBounded q) :
    ({ s with disp.queue := q } : State).Shaped := { h with queue := hq.1, firm := hq.2 }

/-! ### Messages and discards -/

theorem State.Shaped.sendBytes {m : List Byte} (h : s.Shaped) : (s.sendBytes m).Shaped := by
  unfold State.sendBytes
  split
  · next hn => exact { h with out := by simp only [List.length_append, List.length_cons, List.length_nil]; omega }
  · exact h.log

theorem State.Shaped.sendTo {p : Byte × Byte} {k : Byte} {n : Nat} {b : List Byte} (h : s.Shaped) :
    (s.sendTo p k n b).Shaped := h.sendBytes

theorem State.Shaped.sendUnit {k : Byte} {n : Nat} {b : List Byte} (h : s.Shaped) : (s.sendUnit k n b).Shaped :=
  .ite h.sendTo h

theorem State.Shaped.messageDone (h : s.Shaped) : s.messageDone.Shaped := { h with }

theorem State.Shaped.laneWritten (h : s.Shaped) : s.laneWritten.Shaped := by
  unfold State.laneWritten
  have hl := h.out
  split
  · exact h
  · next m rest e =>
    rw [e] at hl
    simp only [List.length_cons] at hl
    split
    · exact { h with out := by simp only; omega }
    · exact { h with out := by simp only [List.length_cons]; omega }

theorem State.Shaped.laneDiscard {d : Discard} (h : s.Shaped) : (s.laneDiscard d).Shaped := by
  unfold State.laneDiscard
  have k : ({ s with disp.discards := s.disp.discards.add d, disp.discardRun := true } : State).Shaped := { h with }
  exact .ite k k.log

theorem State.Shaped.laneSkip {d : Discard} {b : Bool} (h : s.Shaped) : (s.laneSkip d b).Shaped :=
  State.Shaped.laneDiscard { h with }

theorem State.Shaped.laneMessage {m : List Byte} (h : s.Shaped) : (s.laneMessage m).Shaped := by
  unfold State.laneMessage
  split
  · exact h.laneDiscard
  · exact h.laneDiscard
  · exact State.Shaped.owe { h with }

theorem State.Shaped.laneTake {b : List Byte} {g : AreaSegment} (h : s.Shaped) : (s.laneTake b g).Shaped := by
  unfold State.laneTake
  refine .ite h.laneSkip (.ite (.laneMessage (.messageDone { h with })) { h with })

theorem State.Shaped.laneFirst {g : AreaSegment} (h : s.Shaped) : (s.laneFirst g).Shaped := .ite h.laneTake h.laneSkip

theorem State.Shaped.laneSegment {g : AreaSegment} (h : s.Shaped) : (s.laneSegment g).Shaped := by
  unfold State.laneSegment
  split
  · exact .ite h.laneFirst h.laneDiscard
  · exact .ite h.laneDiscard.laneFirst (.ite h.laneTake h.laneSkip)
  · exact .ite h.laneFirst (.ite { h with } h)

/-! ### The target and the notices -/

theorem State.Shaped.chooseTarget (h : s.Shaped) : s.chooseTarget.Shaped := by
  unfold State.chooseTarget
  exact .ite h (.takeTarget { h with })

theorem State.Shaped.sendCapability {n : Notice} (h : s.Shaped) : (s.sendCapability n).Shaped := h.sendUnit

theorem State.Shaped.newNotice {r : NoticeReason} (h : s.Shaped) : (s.newNotice r).Shaped := by
  unfold State.newNotice
  refine .ite (.sendCapability { h with notice := ?_ }) h
  exact Nat.mod_lt _ (by decide)

theorem State.Shaped.callUnmet (h : s.Shaped) : s.callUnmet.Shaped := by
  unfold State.callUnmet
  exact .ite h (.ite { h with } h.newNotice)

theorem State.Shaped.judgeChange (h : s.Shaped) : s.judgeChange.Shaped := .ite h.newNotice h

theorem State.Shaped.judgeBlocks (h : s.Shaped) : s.judgeBlocks.Shaped := by
  unfold State.judgeBlocks
  refine .foldl _ (fun _ _ h => h.log.callUnmet) _ _ (h.setQueue (h.queueBounded.map _ fun b hb => ?_))
  split
  · exact hb
  · exact hb

theorem State.Shaped.dispatchHandOver {n : Nat} (h : s.Shaped) : (s.dispatchHandOver n).Shaped :=
  .judgeChange (.judgeBlocks { h with })

theorem State.Shaped.ackExpiry (h : s.Shaped) : s.ackExpiry.Shaped := by
  unfold State.ackExpiry
  split
  · next x n _ _ =>
    have k : ({ s.reach x with
        disp.notice.ackAt := some ((s.reach x).runTime + 1000 * (s.reach x).disp.page.ackTimeout) } : State).Shaped :=
      { h.reach (n := x) with }
    refine .ite k (.ite (.sendCapability { k with }) (.log (.sendCapability { k with })))
  · exact h

/-! ### Link supervision and the messages -/

theorem State.Shaped.supervise (h : s.Shaped) : s.supervise.Shaped := by
  unfold State.supervise
  dsimp only
  have k : ({ s with
      disp.supAt := some (s.runTime + 1000 * s.disp.page.supTime), disp.probe := false, disp.link := .up } : State).Shaped :=
    { h with }
  split
  · exact k
  · exact k.log
  · exact k.log.chooseTarget

theorem State.Shaped.supervisionExpiry (h : s.Shaped) : s.supervisionExpiry.Shaped := by
  unfold State.supervisionExpiry
  split
  · exact h
  · next x _ =>
    have k : ({ s.reach x with
        disp.supAt := some ((s.reach x).runTime + 1000 * (s.reach x).disp.page.supTime) } : State).Shaped :=
      { h.reach (n := x) with }
    dsimp only
    split
    · exact { k with }
    · refine .ite (.sendUnit (.chooseTarget (.log { k with }))) (.sendUnit { k with })
    · exact k.sendUnit

/-- R167: a message that is taken acts on a supervised link. -/
theorem State.Shaped.takeMessage {p u k : Byte} {act : State → Byte × Byte → State} (h : s.Shaped)
    (hact : ∀ s x, s.Shaped → (act s x).Shaped) : (s.takeMessage p u k act).Shaped := by
  unfold State.takeMessage
  split
  · exact { h with }
  · exact hact _ _ h.supervise

/-- R169: a numbered message, for a processing that keeps the shape. -/
theorem State.Shaped.numbered {pr : Byte × Byte} {n : Byte} {process : State → State × List Byte} (h : s.Shaped)
    (hp : (process s).1.Shaped) : (s.numbered pr n process).Shaped := by
  unfold State.numbered
  dsimp only
  split
  · exact { hp.sendBytes with number := Nat.mod_lt _ (by decide) }
  · split
    · exact .ite h.sendBytes h.sendTo
    · exact h.sendTo

theorem State.Shaped.refuseOrder {n : Nat} {r : OrderReason} (h : s.Shaped) : (s.refuseOrder n r).1.Shaped := h.log

theorem State.Shaped.startAndJudge {n : Nat} (h : s.Shaped) : (s.startAndJudge n).Shaped := by
  unfold State.startAndJudge
  have k : ({ s with disp.queue := startBlocks n s.disp.queue } : State).Shaped :=
    h.setQueue (h.queueBounded.map _ fun b hb => by split <;> exact hb)
  exact .ite k.judgeBlocks k

theorem State.Shaped.takeOrder {number now x : Nat} {news left : List Block} (h : s.Shaped)
    (hn : left.length + news.length ≤ 16) (hl : ∀ b ∈ left, b.Within) (hb : ∀ b ∈ news, b.Within) :
    (s.takeOrder number now news left x).1.Shaped :=
  .log (.chooseTarget (.startAndJudge (h.setQueue (.insertAll hn hl hb))))

theorem State.Shaped.processSchedule {n : Nat} {b : List Byte} (h : s.Shaped) : (s.processSchedule n b).1.Shaped := by
  unfold State.processSchedule
  split
  · exact h.refuseOrder
  · split
    · exact h.refuseOrder
    · dsimp only
      split
      · exact h.refuseOrder
      · split
        · exact h.refuseOrder
        · next hn => exact h.takeOrder (by omega) (afterSupersede_within h.firm) (newBlocks_within _ _ _ _)

theorem State.Shaped.scheduleMessage {p u n : Byte} {b : List Byte} (h : s.Shaped) : (s.scheduleMessage p u n b).Shaped :=
  h.takeMessage fun _ _ h => h.numbered h.processSchedule

theorem State.Shaped.processCancel {n : Nat} {b : List Byte} (h : s.Shaped) : (s.processCancel n b).1.Shaped := by
  unfold State.processCancel
  split
  · dsimp only
    split
    · exact h.refuseOrder
    · exact .log (.chooseTarget (h.setQueue (h.queueBounded.filter _)))
  · exact h.refuseOrder

theorem State.Shaped.cancelMessage {p u n : Byte} {b : List Byte} (h : s.Shaped) : (s.cancelMessage p u n b).Shaped :=
  h.takeMessage fun _ _ h => h.numbered h.processCancel

theorem State.Shaped.linkCheckMessage {p u : Byte} (h : s.Shaped) : (s.linkCheckMessage p u).Shaped :=
  h.takeMessage fun _ _ h => .ite h.sendTo h

theorem State.Shaped.noticeAckMessage {p u n : Byte} (h : s.Shaped) : (s.noticeAckMessage p u n).Shaped := by
  refine h.takeMessage fun s _ h => ?_
  dsimp only
  split
  · exact h
  · have k : ({ s with disp.notice := { s.disp.notice with outstanding := none, ackAt := none } } : State).Shaped :=
      { h with }
    exact .ite h (.ite (.ite (.newNotice { k with }) k) (.ite k.newNotice k))

theorem State.Shaped.resyncMessage {p u n : Byte} (h : s.Shaped) : (s.resyncMessage p u n).Shaped := by
  refine h.takeMessage fun s _ h => ?_
  dsimp only
  refine .sendTo ?_
  split
  · exact { h with number := by simp only; omega }
  · exact h

theorem State.Shaped.kindDiscardMessage {p u k : Byte} (h : s.Shaped) : (s.kindDiscardMessage p u k).Shaped :=
  h.takeMessage fun _ _ h => h.laneDiscard

/-! ### Block timing -/

theorem State.Shaped.blockStart {o i : Nat} (h : s.Shaped) : (s.blockStart o i).Shaped := by
  unfold State.blockStart
  split
  · exact h
  · next b _ =>
    dsimp only
    split
    · exact h
    · refine .chooseTarget ?_
      have k := (h.reachPlant (n := b.start)).setQueue ((h.reachPlant (n := b.start)).queueBounded.map
        (fun x => if x.order = o ∧ x.index = i then { x with status := .active } else x) fun b hb => by split <;> exact hb)
      exact .ite k.judgeBlocks k

theorem State.Shaped.blockEnd {o i : Nat} (h : s.Shaped) : (s.blockEnd o i).Shaped := by
  unfold State.blockEnd
  split
  · exact h
  · exact .chooseTarget (h.reachPlant.setQueue (h.reachPlant.queueBounded.filter _))

theorem State.Shaped.queueSetTime {n : Nat} (h : s.Shaped) : (s.queueSetTime n).Shaped := by
  unfold State.queueSetTime
  dsimp only
  refine .chooseTarget ?_
  have k : (((s.disp.queue.filter fun (b : Block) => decide (b.stop ≤ n)).foldl (init :=
      ({ s with disp.queue := s.disp.queue.filter fun (b : Block) => decide (n < b.stop) } : State)) fun s b =>
        s.log .dispatch .blockExpired b.order b.index b.status.code).startAndJudge n).Shaped :=
    .startAndJudge (.foldl _ (fun _ _ h => h.log) _ _ (h.setQueue (h.queueBounded.filter _)))
  exact k.setQueue (k.queueBounded.map _ fun b hb => by split <;> exact hb)

/-! ### The envelope allocator -/

theorem UpdateFrame.bypassCap {a : State} {b : Bool} {c : Int} {n : Nat} (h : UpdateFrame a s) :
    UpdateFrame a (s.bypassCap l b c n) := .ite h.capSet h

theorem UpdateFrame.cutLines {a : State} {i : RunInput} {r : RunResult} (h : UpdateFrame a s) :
    UpdateFrame a (s.cutLines i r) := by
  unfold State.cutLines
  exact .ite (.toBurnout h.bypassCap) (.ite (.toBurnout h.bypassCap) (.bypassCap h.bypassCap))

theorem UpdateFrame.overCapacity {a : State} {i : RunInput} {r : RunResult} (h : UpdateFrame a s) :
    UpdateFrame a (s.overCapacity i r) := by
  unfold State.overCapacity
  exact .ite (.cutLines (.ite (h.setEnv rfl) (.log (h.setEnv rfl)))) (h.setEnv rfl)

theorem UpdateFrame.judgeRelease {a : State} {i : RunInput} {r : RunResult} (h : UpdateFrame a s) :
    UpdateFrame a (s.judgeRelease i r) := .ite h (.ite (.ite (h.setEnv rfl) h) (h.setEnv rfl))

theorem UpdateFrame.judgeShortfall {a : State} {r : RunResult} (h : UpdateFrame a s) :
    UpdateFrame a (s.judgeShortfall r) := .ite (.ite (h.setEnv rfl) (.log (h.setEnv rfl))) (h.setEnv rfl)

theorem State.Shaped.handResults {r : RunResult} {c : RunCause} (h : s.Shaped) : (s.handResults r c).Shaped :=
  .dispatchHandOver (h.updated (.turbineHandOver (.own (.own (.setLine (.setLine (.refl _)))))))

/-- R137: an allocation run up to the hand-over of its results stays within the frame of an update. -/
theorem State.Shaped.allocationRun {c : RunCause} (h : s.Shaped) : (s.allocationRun c).Shaped := by
  unfold State.allocationRun
  exact .handResults (h.updated (.judgeRelease (.overCapacity (.judgeShortfall (.judgeFloor (.judgeFloor
    (.setEnv (.formCap (.formCap (.refl s))) rfl)))))))

theorem State.Shaped.runAllocation {c : RunCause} (h : s.Shaped) : (s.runAllocation c).Shaped := by
  unfold State.runAllocation
  cases c with
  | period => exact .allocationRun { h.reach (n := s.env.periodAt) with }
  | turbine => exact h.allocationRun
  | line => exact h.allocationRun
  | cap => exact h.allocationRun

theorem State.Shaped.bypassRelease (h : s.Shaped) : s.bypassRelease.Shaped := by
  unfold State.bypassRelease
  split
  · exact h
  · next n _ =>
    exact (h.reach (n := n)).updated (.log (.capRelease (.capRelease (.setEnv (.refl _) rfl))))

theorem State.Shaped.cmdSetCap {b : Byte} {w : Word16} (h : s.Shaped) : (s.cmdSetCap b w).Shaped := by
  unfold State.cmdSetCap
  split
  · exact h.answer
  · exact (h.updated (.capSet (.refl _))).answer

theorem State.Shaped.cmdReleaseCap {b : Byte} (h : s.Shaped) : (s.cmdReleaseCap b).Shaped := by
  unfold State.cmdReleaseCap
  split
  · exact h.answer
  · exact (h.updated (.capRelease (.refl _))).answer

end

end Sys2Proof.Machine
end

