-- ==== Sys2Proof/Proofs/ShapeStep.lean ====
section
/-! PROOFS. The segment manager, the tables, the mailbox, the frame engine and the resets keep the shape of the part, and
so does every step (O5). -/

namespace Sys2Proof.Machine

/-! ### A change of segment state -/

/-- R1: a change of segment state is a change of the ring alone, and then what the line controllers make of it. -/
theorem State.setSegment_frame (s : State) (new : SegState) :
    UpdateFrame ({ s with ring.segment := new } : State) (s.setSegment new) := by
  unfold State.setSegment
  dsimp only
  split
  · next h => subst h; exact .refl _
  · exact .segmentCause (.log (.refl _))

section
variable {s t : State} {l : LineId}

/-! ### The station table (chapter 2) -/

theorem State.Shaped.setStation {n : Nat} {e : Station} (h : s.Shaped) : (s.setStation n e).Shaped :=
  { h with stations := (List.length_set ..).trans h.stations }

theorem State.Shaped.setDrop {n : Nat} {b : Bool} (h : s.Shaped) : (s.setDrop n b).Shaped :=
  { h with drops := (List.length_set ..).trans h.drops }

theorem State.Shaped.logDrop {n : Nat} {m : EventName} {x y z : Int} (h : s.Shaped) : (s.logDrop n m x y z).Shaped :=
  .ite h h.log.setDrop

theorem State.Shaped.drop {r : Attention} {d : DropReason} (h : s.Shaped) : (s.drop r d).Shaped := h.logDrop

theorem State.Shaped.accept {n : Nat} (h : s.Shaped) : (s.accept n).Shaped := .setDrop { h with }

theorem State.Shaped.joinAt {n k : Nat} {sr : Serial} (h : s.Shaped) : (s.joinAt n sr k).Shaped := h.setStation.setDrop

theorem State.Shaped.takeJoin {sr : Serial} (h : s.Shaped) : (s.takeJoin sr).Shaped := by
  unfold State.takeJoin
  refine .ite h.logDrop (.ite h.logDrop ?_)
  split
  · exact h.joinAt
  · split
    · exact h.joinAt
    · exact h.logDrop

theorem State.Shaped.takeJoined {r : Attention} {n k : Nat} (h : s.Shaped) : (s.takeJoined r n k).Shaped := by
  unfold State.takeJoined
  dsimp only
  split
  · exact h.drop
  · exact h.setStation.accept.log
  · exact h.setStation.accept
  · exact h.setStation.accept.log

theorem UpdateFrame.attendLine {a : State} {n : Nat} {c : AttentionCode} (h : UpdateFrame a s) :
    UpdateFrame a (s.attendLine n c l) := by
  cases c with
  | fault on => exact .ite h.trainFault h
  | cal on => exact .ite h.calibrate h
  | jam on => exact .ite (.ite h.jamSet h.jamClear) h
  | note => exact h

/-- R39: what an accepted record does stays within the frame of an update. -/
theorem UpdateFrame.attend {a : State} {n : Nat} {c : AttentionCode} {p : List Byte} (h : UpdateFrame a s) :
    UpdateFrame a (s.attend n c p) := by
  unfold State.attend
  cases c with
  | fault on => exact .attendLine h.attendLine
  | cal on => exact .attendLine h.attendLine
  | jam on => exact .attendLine h.attendLine
  | note => exact h.log

theorem State.Shaped.takeNumbered {r : Attention} {n : Nat} (h : s.Shaped) : (s.takeNumbered r n).Shaped := by
  unfold State.takeNumbered
  refine .ite h.drop (.ite h.drop (.ite h.drop ?_))
  split
  · exact h.drop
  · exact .ite (h.accept.updated (.attend (.refl _))) h.drop

theorem State.Shaped.takeRecord {r : Attention} (h : s.Shaped) : (s.takeRecord r).Shaped := by
  unfold State.takeRecord
  exact .ite h (.ite h.drop (.ite (.ite h.drop (.ite h.drop h.takeJoin)) (.ite h.drop
    (.ite (.ite h.drop h.takeJoined) h.takeNumbered))))

theorem State.Shaped.takeAttention {b : List Byte} (h : s.Shaped) : (s.takeAttention b).Shaped :=
  .foldl _ (fun _ _ h => h.takeRecord) _ _ h

theorem State.Shaped.watchStation {n : Nat} {e p : Bool} (h : s.Shaped) : (s.watchStation n e p).Shaped := by
  unfold State.watchStation
  dsimp only
  split
  · exact h
  · exact h
  · exact .ite h (.ite h.setStation (.ite h.setStation.log h.setStation))
  · exact .ite h.setStation.log h

theorem State.Shaped.watchStations {e p : List Nat} (h : s.Shaped) : (s.watchStations e p).Shaped :=
  .foldl _ (fun _ _ h => h.watchStation) _ _ h

theorem State.Shaped.countJoins (h : s.Shaped) : s.countJoins.Shaped :=
  .foldl _ (fun _ _ h => .ite h (.ite h.log.setStation h.setStation)) _ _ h

theorem State.Shaped.assignmentSent (h : s.Shaped) : s.assignmentSent.Shaped := by
  unfold State.assignmentSent
  split
  · exact h
  · exact h.setStation

theorem State.Shaped.cmdRenumber {a b : Byte} (h : s.Shaped) : (s.cmdRenumber a b).Shaped :=
  .ite h.answer (.ite h.answer (.ite h.answer (.ite h.answer (.ite h.answer (.ite h.answer (.ite h.answer
    h.setStation.setStation.log.answer))))))

theorem State.Shaped.cmdLockSet {b : Byte} (h : s.Shaped) : (s.cmdLockSet b).Shaped :=
  .ite h.answer (.ite h.answer h.setStation.answer)

theorem State.Shaped.cmdLockClear {b : Byte} (h : s.Shaped) : (s.cmdLockClear b).Shaped :=
  .ite h.answer h.setStation.answer

theorem State.Shaped.resetFlag {b : Bool} (h : s.Shaped) : (s.resetFlag b).Shaped := by
  unfold State.resetFlag
  exact .ite (.ite (.owe (.log { h with })) (.owe { h with })) { h with }

theorem State.Shaped.windowExpiry (h : s.Shaped) : s.windowExpiry.Shaped := by
  unfold State.windowExpiry
  split
  · exact h
  · next n _ => exact { h.reach (n := n) with }

/-! ### The segment state (chapter 1) -/

theorem State.Shaped.setSegment {g : SegState} (h : s.Shaped) : (s.setSegment g).Shaped :=
  State.Shaped.updated (s := { s with ring.segment := g }) { h with } (s.setSegment_frame g)

theorem State.Shaped.countLost (h : s.Shaped) : s.countLost.Shaped := by
  unfold State.countLost
  dsimp only
  split
  · exact h
  · exact h
  · exact .ite (.setSegment { h with }) { h with }
  · exact .ite (.setSegment { h with }) { h with }
  · exact { h with }

theorem State.Shaped.loseCycle {c : LossCause} {n : Nat} (h : s.Shaped) : (s.loseCycle c n).Shaped := by
  unfold State.loseCycle
  exact .countLost (.ite { h with } (.log { h with }))

theorem State.Shaped.emptied (h : s.Shaped) : ({ s with ring.outstanding := none } : State).Shaped :=
  { h with echo := by simp }

theorem State.Shaped.endLate (h : s.Shaped) : s.endLate.Shaped := by
  unfold State.endLate
  split
  · exact h
  · exact h.emptied.loseCycle

theorem State.Shaped.countTaken (h : s.Shaped) : s.countTaken.Shaped := by
  unfold State.countTaken
  exact .ite (.setSegment { h with }) { h with }

theorem State.Shaped.mismatch {n : Nat} (h : s.Shaped) : (s.mismatch n).Shaped := by
  unfold State.mismatch
  exact .ite { h with } (.log { h with })

/-! ### The enumeration run -/

theorem State.Shaped.beginRun {k : EnumKind} (h : s.Shaped) : (s.beginRun k).Shaped := { h with assigned := by simp [State.beginRun] }

theorem State.Shaped.enterEnumerating {k : EnumKind} (h : s.Shaped) : (s.enterEnumerating k).Shaped :=
  .beginRun (.setSegment { h with echo := by simp })

theorem State.Shaped.endEnumerating (h : s.Shaped) : s.endEnumerating.Shaped := by
  unfold State.endEnumerating
  dsimp only
  split
  · exact .setSegment { h with }
  · split
    · exact .setSegment { h with }
    · exact .log (.setSegment { h with })

theorem State.Shaped.releaseAssigned {a : Option (Serial × Nat)} (h : s.Shaped) : (s.releaseAssigned a).Shaped := by
  unfold State.releaseAssigned
  split
  · exact h
  · exact h.setStation

theorem State.Shaped.endRun {o : EnumOutcome} (h : s.Shaped) : (s.endRun o).Shaped := by
  unfold State.endRun
  have k := State.Shaped.ite (b := o = .incomplete)
    ((h.releaseAssigned (a := s.seg.enum.awaiting)).releaseAssigned (a := s.seg.enum.winner)) h
  refine .ite (.answer (.endEnumerating (.log { k with assigned := ?_ })))
    (.endEnumerating (.log { k with assigned := ?_ }))
  all_goals rintro a (ha | ha) <;> cases ha

theorem State.Shaped.abandonRun (h : s.Shaped) : s.abandonRun.Shaped := by
  unfold State.abandonRun
  have k := (h.releaseAssigned (a := s.seg.enum.awaiting)).releaseAssigned (a := s.seg.enum.winner)
  exact .ite (.ite (.answer { k with assigned := by simp }) { k with assigned := by simp }) h

theorem State.Shaped.nextRound (h : s.Shaped) : s.nextRound.Shaped := by
  unfold State.nextRound
  exact .ite h.endRun { h with }

theorem State.Shaped.enumLost (h : s.Shaped) : s.enumLost.Shaped := by
  unfold State.enumLost
  split
  · exact h
  · exact .ite (.ite (.endRun { h with }) { h with }) { h with }

theorem State.Shaped.confirm {c : EnumCarry} {sr : Serial} {n : Nat} (h : s.Shaped) : (s.confirm c sr n).Shaped := by
  unfold State.confirm
  split
  · exact h
  · next x k _ =>
    exact .ite { h.setStation (n := k) (e := { s.station k with state := .active, missed := 0 }) with }
      (.ite h h.log.setStation)

theorem State.numberOf_pos {sr : Serial} {n : Nat} (h : s.numberOf sr = some n) : 1 ≤ n := by
  obtain ⟨k, _, rfl⟩ := Option.map_eq_some_iff.1 h
  exact Nat.le_add_left 1 k

theorem State.lowestFree_pos {n : Nat} (h : s.lowestFree = some n) : 1 ≤ n := by
  obtain ⟨k, _, rfl⟩ := Option.map_eq_some_iff.1 h
  exact Nat.le_add_left 1 k

theorem State.Shaped.chooseWinner {sr : Serial} {n k : Nat} (h : s.Shaped) (hn : 1 ≤ n) :
    (s.chooseWinner sr n k).Shaped :=
  { h.setStation (n := n) (e := (s.station n).join sr k false) with
    assigned := by
      rintro a (ha | ha)
      · exact h.assigned a (.inl ha)
      · cases ha; exact hn }

theorem State.Shaped.arbitrate {sr : Serial} (h : s.Shaped) : (s.arbitrate sr).Shaped := by
  unfold State.arbitrate
  split
  · exact h
  · split
    · next hn => exact h.chooseWinner (s.numberOf_pos hn)
    · split
      · next hn => exact h.chooseWinner (s.lowestFree_pos hn)
      · exact .log { h with }

theorem State.Shaped.judgeRun {sr : Serial} (h : s.Shaped) : (s.judgeRun sr).Shaped :=
  .ite h.endRun (.ite h.endRun h.nextRound)

theorem State.Shaped.enumReturned {c : EnumCarry} {x y : Serial} {n : Nat} (h : s.Shaped) :
    (s.enumReturned c x y n).Shaped := by
  unfold State.enumReturned
  have k := State.Shaped.confirm (c := c) (sr := y) (n := n) (s := { s with seg.enum.lost := 0 }) { h with }
  refine .ite (.judgeRun (.arbitrate { k with assigned := ?_ })) h
  rintro a (ha | ha)
  · simp only at ha
    split at ha
    · cases ha
    · cases ha; omega
  · cases ha

theorem State.Shaped.enumFrameReturn {r n : Nat} {x y : Serial} (h : s.Shaped) : (s.enumFrameReturn r x y n).Shaped := by
  unfold State.enumFrameReturn
  split
  · exact h
  · exact .ite h (.enumReturned { h with })

theorem State.Shaped.linkSDown (h : s.Shaped) : s.linkSDown.Shaped :=
  .setSegment (.abandonRun { h with echo := by simp })

theorem State.Shaped.linkSUp (h : s.Shaped) : s.linkSUp.Shaped := by
  unfold State.linkSUp
  exact .ite (.enterEnumerating { h with }) { h with }

theorem State.Shaped.returnTimeout (h : s.Shaped) : s.returnTimeout.Shaped := by
  unfold State.returnTimeout
  split
  · exact h.reachTenths.emptied.loseCycle
  · split
    · exact h.reachTenths.enumLost
    · exact h

theorem State.Shaped.cmdSegmentRun (h : s.Shaped) : s.cmdSegmentRun.Shaped := by
  unfold State.cmdSegmentRun
  split
  · exact h.answer
  · split
    · exact h.answer
    · exact .answer (.setSegment { h with })
  all_goals exact h.answer

theorem State.Shaped.cmdSegmentConfig (h : s.Shaped) : s.cmdSegmentConfig.Shaped := by
  unfold State.cmdSegmentConfig
  split
  · exact h.answer
  · exact .ite h.answer (.ite h.answer (.ite h.answer (.answer (.setSegment { h with }))))
  all_goals exact h.answer

theorem State.Shaped.cmdEnumerate (h : s.Shaped) : s.cmdEnumerate.Shaped :=
  .ite (.enterEnumerating { h with }) h.answer

end

/-! ### The tables (section 11.2) -/

theorem length_replaceFrom {α : Type} : ∀ (es xs : List α) (k : Nat), (replaceFrom xs k es).length = xs.length
  | [], _, _ => rfl
  | a :: es, xs, k => (length_replaceFrom es (xs.set k a) (k + 1)).trans (List.length_set ..)

theorem mem_replaceFrom {α : Type} {x : α} : ∀ {es xs : List α} {k : Nat}, x ∈ replaceFrom xs k es → x ∈ xs ∨ x ∈ es
  | [], _, _, h => .inl h
  | a :: es, xs, k, h => by
    rcases mem_replaceFrom (es := es) h with h | h
    · rcases List.mem_or_eq_of_mem_set h with h | rfl
      · exact .inl h
      · exact .inr List.mem_cons_self
    · exact .inr (List.mem_cons_of_mem _ h)

/-- Each value that `allOf` gives stood in the list. -/
theorem mem_of_allOf {α : Type} {x : α} : ∀ {os : List (Option α)} {xs : List α}, allOf os = some xs → x ∈ xs → some x ∈ os
  | [], xs, h, hx => by cases h; cases hx
  | none :: os, xs, h, hx => by cases h
  | some a :: os, xs, h, hx => by
    obtain ⟨ys, hy, rfl⟩ := Option.map_eq_some_iff.1 h
    rcases List.mem_cons.1 hx with rfl | hx
    · exact List.mem_cons_self
    · exact List.mem_cons_of_mem _ (mem_of_allOf hy hx)

/-- R3: a written entry names a point of the table. -/
theorem slotEntryOf_point {v : List Nat} {e : SlotEntry} (h : slotEntryOf v = some e) : e.point < 192 := by
  unfold slotEntryOf at h
  split at h
  · cases h
  · split at h
    · cases h
    · next hp =>
      have bound : at_ v 1 < 192 := by omega
      split at h
      · cases h; decide
      · split at h
        · cases h; exact bound
        · cases h
      all_goals cases h; exact bound

section
variable {s t : State} {l : LineId}

theorem State.Shaped.writeSlots {k : Nat} {es : List SlotEntry} (h : s.Shaped) (hp : ∀ e ∈ es, e.point < 192)
    (ho : pointsOnce (replaceFrom s.ring.slotMap k es) = true) : (s.writeSlots k es).Shaped :=
  { h with
    slots := (length_replaceFrom ..).trans h.slots
    echoes := by
      simp only [State.writeSlots, List.length_map, List.length_zip, length_replaceFrom, h.echoes, h.slots]
      decide
    once := ho
    mapped := fun e he => by
      rcases mem_replaceFrom he with he | he
      · exact h.mapped e he
      · exact hp e he }

theorem State.Shaped.writtenPoint {i : Nat} {p : Point} (h : s.Shaped) : (s.writtenPoint i p).Shaped := by
  refine h.updated ?_
  unfold State.writtenPoint
  exact .ite (.ite (.roleUpdate (.refl s)) (.refl s)) (.roleUpdate (.ite (.roleUpdate (.refl s)) (.refl s)))

theorem State.Shaped.logReleases : ∀ {ps : List Point} {s : State} {k : Nat}, s.Shaped → (s.logReleases k ps).Shaped
  | [], _, _, h => h
  | p :: ps, s, k, h => State.Shaped.logReleases (ps := ps) (s := if startsAfresh (s.point k) p ∧ (s.point k).forcing.isSome
      then s.log .point .pointReleased k else s) (k := k + 1) (.ite h.log h)

theorem State.Shaped.writeLimits : ∀ {ps : List Point} {s : State} {k : Nat}, s.Shaped → (s.writeLimits k ps).Shaped
  | [], _, _, h => h
  | p :: ps, s, k, h => State.Shaped.writeLimits (ps := ps) (s := s.commitPoint k ((s.point k).rewritten p) (s.point k).started)
      (k := k + 1) h.commitPoint

theorem State.Shaped.writePoints {k : Nat} {ps : List Point} (h : s.Shaped) : (s.writePoints k ps).Shaped :=
  .writeLimits (.foldl _ (fun _ _ h => h.writtenPoint) _ _ (.foldl _ (fun _ _ h => h.setPoint) _ _ h.logReleases))

/-- R185: a taken write keeps the shape of the part. -/
theorem State.Shaped.written {r : TableRef} {k n : Nat} {recs : List (List Nat)} (h : s.Shaped)
    (hw : s.written r k recs = some (t, n)) : t.Shaped := by
  unfold State.written at hw
  cases r with
  | slotMap =>
    dsimp only at hw
    split at hw
    · cases hw
    · next es he =>
      split at hw
      · next ho =>
        cases hw
        refine h.writeSlots (fun e hm => ?_) ho
        obtain ⟨v, _, hv⟩ := List.mem_map.1 (mem_of_allOf he hm)
        exact slotEntryOf_point hv
      · cases hw
  | points =>
    dsimp only at hw
    split at hw
    · cases hw
    · split at hw
      · cases hw; exact h.writePoints
      · cases hw
  | stations =>
    dsimp only at hw
    split at hw
    · cases hw
    · cases hw; exact .foldl _ (fun _ _ h => h.setStation) _ _ h
  | segment =>
    dsimp only at hw
    split at hw
    · cases hw
    · cases hw; exact { h with }
  | line l => cases hw; exact h.setLine
  | emission l =>
    dsimp only at hw
    split at hw
    · cases hw
    · cases hw; exact h.updated (.judgeExhausted (.setFgc (.refl _) id id))
  | dosing l =>
    dsimp only at hw
    split at hw
    · cases hw
    · cases hw; exact h.updated (.setFgc (.refl _) id id)
  | header => obtain ⟨p, _, hp⟩ := Option.map_eq_some_iff.1 hw; cases hp; exact { h with }
  | turbine => cases hw; exact { h with }
  | dispatch => obtain ⟨p, _, hp⟩ := Option.map_eq_some_iff.1 hw; cases hp; exact { h with }
  | halfHours _ => cases hw
  | days _ => cases hw
  | schedule => cases hw

theorem State.Shaped.cmdWriteTable {a b : Byte} {w : Word16} {r : List Byte} (h : s.Shaped) :
    (s.cmdWriteTable a b w r).Shaped := by
  unfold State.cmdWriteTable
  split
  · exact h.answer
  · dsimp only
    refine .ite h.answer (.ite h.answer (.ite h.answer ?_))
    split
    · exact h.answer
    · next hw => exact (h.written hw).answerClamped

theorem State.Shaped.cmdReadTable {a b c : Byte} {w : Word16} (h : s.Shaped) : (s.cmdReadTable a b w c).Shaped := by
  unfold State.cmdReadTable
  split
  · exact h.answer
  · exact .ite h.answer (.ite h.answer h.answer)

/-! ### The mailbox (sections 11.1, 11.3, 11.4) -/

theorem State.Shaped.mailDiscard {d : MailDiscard} (h : s.Shaped) : (s.mailDiscard d).Shaped := by
  have k : ({ s with mgmt := { s.mgmt.addDiscard d with discardRun := true } } : State).Shaped :=
    { h with lost := by cases d <;> exact h.lost }
  exact .ite k k.log

theorem State.Shaped.commandComplete {c : List Byte} (h : s.Shaped) : (s.commandComplete c).Shaped := by
  unfold State.commandComplete
  refine .ite { h with } (.ite (.place { h with }) ?_)
  split
  · exact .place { h with }
  · exact .place { h with }
  · exact .place { h with }
  · exact .owe { h with }

theorem State.Shaped.mailTake {b : List Byte} {n : Nat} {g : AreaSegment} (h : s.Shaped) : (s.mailTake b n g).Shaped :=
  .ite (.mailDiscard { h with }) (.ite (.commandComplete { h with }) { h with })

theorem State.Shaped.mailSegment {g : AreaSegment} (h : s.Shaped) : (s.mailSegment g).Shaped := by
  unfold State.mailSegment
  split
  · exact .ite h.mailTake h.mailDiscard
  · exact .ite h.mailDiscard.mailTake h.mailTake
  · exact .ite h.mailTake (.ite { h with } h)

theorem State.Shaped.oweRestart {r : Response} (h : s.Shaped) : (s.oweRestart r).Shaped := .ite h.owe (.ite h.owe h)

theorem State.Shaped.mailWritten (h : s.Shaped) : s.mailWritten.Shaped := by
  unfold State.mailWritten
  split
  · exact h
  · exact .ite (.oweRestart { h with }) { h with }
  · exact { h with }
  · exact { h with }

theorem State.Shaped.setTime {m n : Nat} (h : s.Shaped) : (s.setTime m n).Shaped := by
  unfold State.setTime
  refine .answer (.log (.queueSetTime ?_))
  exact State.Shaped.updated (s := { s with clock := { s.clock with plant := some n } }) { h with }
    (.fgcSetTime (.fgcSetTime (.burnSetTime (.burnSetTime (.refl _)))))

theorem State.Shaped.cmdTimeStep {v : BitVec 48} (h : s.Shaped) : (s.cmdTimeStep v).Shaped := by
  unfold State.cmdTimeStep
  split
  · exact h.answer
  · exact .ite h.answer h.setTime

theorem State.Shaped.cmdReadEvents {b : Byte} (h : s.Shaped) : (s.cmdReadEvents b).Shaped :=
  .answer { h with lost := Nat.zero_le _ }

theorem State.Shaped.cmdReadStatus {b : Byte} {w : Word16} (h : s.Shaped) : (s.cmdReadStatus b w).Shaped := by
  have burn : ∀ k n c, (s.answerBurn k n c).Shaped := fun _ _ _ => .ite h.answer h.place
  refine .ite (burn ..) (.ite (burn ..) ?_)
  split
  · exact h.answer
  · exact .ite h.answer h.place

/-! ### The frame engine (chapter 1) -/

theorem State.Shaped.sendSouth {f : LinkFrame} (h : s.Shaped) : (s.sendSouth f).Shaped := { h with }

theorem State.Shaped.sendNorth {f : LinkFrame} (h : s.Shaped) : (s.sendNorth f).Shaped := .ite { h with } h

theorem State.Shaped.countForeign (h : s.Shaped) : s.countForeign.Shaped := { h with }

theorem State.Shaped.countDamagedOut (h : s.Shaped) : s.countDamagedOut.Shaped := { h with }

theorem State.Shaped.countDamagedIn (h : s.Shaped) : s.countDamagedIn.Shaped := { h with }

theorem State.Shaped.takeOutbound {f : CycleFrame} (h : s.Shaped) : (s.takeOutbound f).Shaped := by
  unfold State.takeOutbound
  have k : (s.readRequests f.slots).Shaped := .foldl _ (fun _ _ h => .ite h.sample h) _ _ h
  dsimp only
  split
  · exact k.mailSegment.resetFlag
  · exact k.resetFlag

/-- Records kept of some positions of a list are of different positions. -/
theorem nodup_filterMap_zipIdx {α β : Type} (xs : List α) (f : α × Nat → Option (Nat × β))
    (hf : ∀ p q, f p = some q → q.1 = p.2) : ((xs.zipIdx.filterMap f).map (·.1)).Nodup := by
  have sub : ∀ ys : List (α × Nat), List.Sublist ((ys.filterMap f).map (·.1)) (ys.map (·.2)) := by
    intro ys
    induction ys with
    | nil => exact .slnil
    | cons y ys ih =>
      cases hy : f y with
      | none => simpa [List.filterMap_cons, hy] using ih.cons y.2
      | some q => simpa [List.filterMap_cons, hy, hf y q hy] using ih.cons_cons y.2
  refine (sub _).nodup ?_
  rw [List.zipIdx_map_snd]
  exact List.nodup_range'

/-- R4: the echo records of a cycle are of different slots. -/
theorem State.echoRecords_nodup (s : State) (slots : List Slot) : ((s.echoRecords slots).map (·.1)).Nodup := by
  refine nodup_filterMap_zipIdx _ _ fun p q h => ?_
  split at h
  · cases h; rfl
  · cases h

theorem State.Shaped.passSouth {f : CycleFrame} (h : s.Shaped) : (s.passSouth f).Shaped := by
  unfold State.passSouth
  refine .sendSouth { h.takeOutbound (f := f).laneWritten.assignmentSent with echo := ?_ }
  rintro o ho
  cases ho
  exact s.echoRecords_nodup f.slots

theorem State.Shaped.sendEnum (h : s.Shaped) : s.sendEnum.Shaped := by
  unfold State.sendEnum
  split
  · exact .sendSouth { h with }
  · exact h

theorem State.Shaped.turnBack {f : CycleFrame} (h : s.Shaped) : (s.turnBack f).Shaped := by
  unfold State.turnBack
  have k := h.takeOutbound (f := f).mailWritten
  exact .ite k.sendNorth.sendEnum k.sendNorth

theorem State.Shaped.outbound {f : LinkFrame} (h : s.Shaped) : (s.outbound f).Shaped := by
  unfold State.outbound
  refine .ite h ?_
  split
  · exact h.countForeign
  · unfold State.damagedSouth
    have k := h.countDamagedOut.endLate
    dsimp only
    split
    · exact k.sendNorth
    · exact k.sendNorth
    all_goals exact k.loseCycle.sendSouth
  · unfold State.soundSouth
    dsimp only
    split
    · exact h.endLate.turnBack
    · exact h.endLate.turnBack
    all_goals exact h.endLate.passSouth
  · exact h.countDamagedOut
  · exact h.countDamagedOut

theorem State.Shaped.setCollision {k : Nat} {b : Bool} (h : s.Shaped) : (s.setCollision k b).Shaped :=
  { h with collisions := (List.length_set ..).trans h.collisions }

theorem State.Shaped.setEcho {k n : Nat} (h : s.Shaped) : (s.setEcho k n).Shaped :=
  { h with echoes := (List.length_set ..).trans h.echoes }

theorem State.Shaped.takeInput {k : Nat} {e : SlotEntry} {x : Slot} (h : s.Shaped) : (s.takeInput k e x).Shaped := by
  unfold State.takeInput
  exact .ite h.setCollision.sample (.ite h.setCollision (.setCollision (.ite { h with } (.log { h with }))))

theorem State.Shaped.checkEcho {k i : Nat} {x : Slot} {w : Word16} (h : s.Shaped) : (s.checkEcho k i x w).Shaped := by
  unfold State.checkEcho
  exact .ite h.setEcho.setDegraded (.ite (.log (.setDegraded (.setEcho { h with }))) (.setEcho { h with }))

theorem State.Shaped.checkEchoes {xs : List Slot} {es : List (Nat × Word16)} (h : s.Shaped) :
    (s.checkEchoes xs es).Shaped := by
  refine .foldl _ (fun s p h => ?_) _ _ h
  dsimp only
  split
  · exact .ite h.checkEcho h
  · exact h

theorem State.Shaped.takeCycle {o : Outstanding} {f : CycleFrame} (h : s.Shaped) : (s.takeCycle o f).Shaped := by
  unfold State.takeCycle
  have inputs : (({ s with ring.outstanding := none } : State).takeInputs f.slots).Shaped :=
    .foldl _ (fun _ _ h => .ite h.takeInput h) _ _ h.emptied
  have attended := (((inputs.watchStations (e := s.expectedIn f.slots) (p := s.presentIn f.slots)).checkEchoes
    (xs := f.slots) (es := o.echo)).takeAttention (b := f.attn)).countJoins
  dsimp only
  split
  · exact attended.laneSegment.countTaken.mailWritten.sendNorth
  · exact attended.countTaken.mailWritten.sendNorth

theorem State.Shaped.soundNorth {f : LinkFrame} {c : CycleFrame} (h : s.Shaped) : (s.soundNorth f c).Shaped := by
  unfold State.soundNorth
  split
  · exact h.mismatch.sendNorth
  · exact .ite h.takeCycle h.mismatch.sendNorth

theorem State.Shaped.enumNorth {r n : Nat} {x y : Serial} (h : s.Shaped) : (s.enumNorth r x y n).Shaped :=
  .ite h (.ite h.enumFrameReturn h.countDamagedIn)

theorem State.Shaped.inbound {f : LinkFrame} (h : s.Shaped) : (s.inbound f).Shaped := by
  unfold State.inbound
  refine .ite h ?_
  split
  · exact h.countForeign
  · exact h.countDamagedIn.sendNorth
  · exact h.soundNorth
  · exact h.enumNorth
  · exact .ite h.countDamagedIn.enumLost h.countDamagedIn

/-! ### The resets -/

/-- R47: the episodes of loss are over. -/
theorem State.Shaped.endEpisodes (h : s.Shaped) : ({ s with points := s.points.map Point.endEpisode } : State).Shaped :=
  { h with points := (List.length_map ..).trans h.points }

theorem State.Shaped.segmentRestart (h : s.Shaped) : s.segmentRestart.Shaped := by
  unfold State.segmentRestart
  have k := h.abandonRun
  have r : ({ s.abandonRun with
      seg := s.abandonRun.seg.reduced
      ring := { s.abandonRun.ring.quiet with resume := s.ring.restartTarget } } : State).releaseAll.Shaped :=
    .foldl _ (fun _ _ h => h.releaseForcing) _ _
      { k with
        stations := (List.length_map ..).trans k.stations
        drops := List.length_replicate ..
        echoes := List.length_replicate ..
        collisions := List.length_replicate ..
        echo := fun o ho => by cases ho }
  have ended := r.endEpisodes
  have e := ended.updated (.endCalibrations (l := .two) (.endCalibrations (l := .one) (.refl _)))
  exact .ite { e with out := Nat.zero_le _ } (.enterEnumerating { e with out := Nat.zero_le _ })

theorem UpdateFrame.warmLinePoints {a : State} (h : UpdateFrame a s) : UpdateFrame a (s.warmLinePoints l) := by
  unfold State.warmLinePoints
  refine .own (.foldl _ (fun s c h => ?_) _ _ (.showBudget (.foldl _ (fun _ _ h => h.own) _ _
    (.own (.own (.own (.own (.own h.own))))))))
  split
  · exact h
  · exact h.own

theorem UpdateFrame.warmCommonPoints {a : State} (h : UpdateFrame a s) : UpdateFrame a s.warmCommonPoints :=
  .own (.own (.own (.own (.own h.own))))

theorem State.warmShown_frame :
    UpdateFrame s ((s.warmLinePoints .one).warmLinePoints .two).warmCommonPoints :=
  .warmCommonPoints (.warmLinePoints (.warmLinePoints (.refl s)))

theorem State.Shaped.setLines {x : Two Line} (h : s.Shaped) : ({ s with lines := x } : State).Shaped := { h with }

theorem State.Shaped.setMgmt {m : Mgmt} (h : s.Shaped) (hm : m.lost ≤ 65535) : ({ s with mgmt := m } : State).Shaped :=
  { h with lost := hm }

theorem State.Shaped.warmReset {c : WarmCause} (h : s.Shaped) : (s.warmReset c).Shaped := by
  unfold State.warmReset
  refine .log ?_
  have blocks : ({ s.warmSegment with
      points := s.warmSegment.points.map Point.warm
      env := s.warmSegment.env.warm s.warmSegment.runTime s.warmSegment.lines.one.page.fMax s.warmSegment.lines.two.page.fMax
      turb := Turbine.resetWith s.warmSegment.turb.page
      disp := Dispatch.resetWith s.warmSegment.disp.page
      fgcs := ⟨s.warmSegment.fgcs.one.warm, s.warmSegment.fgcs.two.warm⟩
      owed := [] } : State).Shaped :=
    { h with
      points := (List.length_map ..).trans h.points
      echoes := List.length_replicate ..
      collisions := List.length_replicate ..
      stations := (List.length_map ..).trans h.stations
      drops := List.length_replicate ..
      halfHours := fun l => by cases l; exacts [h.halfHours .one, h.halfHours .two]
      consec := fun l => by cases l; exacts [h.consec .one, h.consec .two]
      out := Nat.zero_le _
      queue := Nat.zero_le _
      firm := fun b hb => by cases hb
      number := Nat.zero_lt_succ _
      notice := Nat.zero_lt_succ _
      echo := fun o ho => by cases ho
      assigned := fun a ha => by rcases ha with ha | ha <;> cases ha }
  have shown : ∀ x : Two Line, _ := fun x => (State.Shaped.setLines (x := x) blocks).updated State.warmShown_frame
  exact State.Shaped.setMgmt (.ite (shown _).enterEnumerating (shown _).setSegment) (Nat.zero_le _)

end

/-- A slot map of UNUSED entries maps no point twice. -/
theorem pointsOnce_unused (n : Nat) : pointsOnce (List.replicate n .unused) = true := by
  simp [pointsOnce, SlotEntry.unused]

/-- The part right after a COLD reset has its shape (R19). -/
theorem State.reset_shaped : State.reset.Shaped where
  points := List.length_replicate ..
  slots := List.length_replicate ..
  echoes := List.length_replicate ..
  collisions := List.length_replicate ..
  stations := List.length_replicate ..
  drops := List.length_replicate ..
  halfHours := fun l => by cases l <;> exact List.length_replicate ..
  consec := fun l => by cases l <;> exact Nat.zero_le _
  out := Nat.zero_le _
  queue := Nat.zero_le _
  firm := fun b hb => by cases hb
  number := Nat.zero_lt_succ _
  notice := Nat.zero_lt_succ _
  lost := Nat.zero_le _
  once := pointsOnce_unused 256
  mapped := fun e he => by rw [List.eq_of_mem_replicate he]; decide
  echo := fun o ho => by cases ho
  assigned := fun a ha => by rcases ha with ha | ha <;> cases ha

theorem State.coldReset_shaped (s : State) : s.coldReset.Shaped := by
  unfold State.coldReset
  have k : ({ State.reset with
      ring := Ring.reset s.ring.linkN s.ring.linkS, pending := s.pending } : State).Shaped := { State.reset_shaped with }
  exact .ite { k.enterEnumerating with lost := Nat.zero_le _ } k

/-! ### Steps -/

section
variable {s t : State}

/-- Every step that the part may owe itself keeps its shape. -/
theorem State.Shaped.perform {i : Instr} (h : s.Shaped) : (s.perform i).Shaped := by
  cases i with
  | segmentRestart => exact h.segmentRestart
  | warmReset => exact h.warmReset
  | allocationRun => exact h.runAllocation
  | schedule => exact h.scheduleMessage
  | cancel => exact h.cancelMessage
  | linkCheck => exact h.linkCheckMessage
  | noticeAck => exact h.noticeAckMessage
  | resync => exact h.resyncMessage
  | kindDiscard => exact h.kindDiscardMessage
  | readTable => exact h.cmdReadTable
  | writeTable => exact h.cmdWriteTable
  | readPoint => exact h.cmdReadPoint
  | forcePoint => exact h.cmdForcePoint
  | releasePoint => exact h.cmdReleasePoint
  | readEvents => exact h.cmdReadEvents
  | setTimeAbsolute => exact h.setTime
  | setTimeStep => exact h.cmdTimeStep
  | loadBudget => exact h.cmdLoadBudget
  | start => exact h.cmdStart
  | stop => exact h.cmdStop
  | resume => exact h.cmdResume
  | resetTrip => exact h.cmdResetTrip
  | turbineRunup => exact h.cmdRunup
  | turbineStop => exact h.cmdTurbineStop
  | setCapSet => exact h.cmdSetCap
  | setCapRelease => exact h.cmdReleaseCap
  | setOverrideOn => exact h.cmdOverrideOn
  | setOverrideOff => exact h.cmdOverrideOff
  | segmentModeRun => exact h.cmdSegmentRun
  | segmentModeConfig => exact h.cmdSegmentConfig
  | enumerate => exact h.cmdEnumerate
  | renumber => exact h.cmdRenumber
  | lockNumberSet => exact h.cmdLockSet
  | lockNumberClear => exact h.cmdLockClear
  | restartSegment => exact h.answer
  | warmRestart => exact h.answer
  | readStatus => exact h.cmdReadStatus
  | _ => exact h

theorem settleN_shaped : ∀ {n : Nat} {s : State}, s.Shaped → (settleN n s).Shaped
  | 0, _, h => h
  | n + 1, s, h => by
    unfold settleN
    split
    · exact h
    · exact settleN_shaped (.perform { h with })

theorem State.Shaped.settle (h : s.Shaped) : s.settle.Shaped := settleN_shaped h

/-- A meaning keeps the shape of the part, whatever next state it answers. -/
def KeepsShape (o : Host.Outcome State Fault Refusal) : Prop := ∀ t, o = .next t → t.Shaped

theorem KeepsShape.next (h : t.Shaped) : KeepsShape (.next t) := fun _ e => by cases e; exact h

theorem State.Shaped.eventForm {act : State → State} (h : s.Shaped) (ha : ∀ s, s.Shaped → (act s).Shaped) :
    KeepsShape (eventForm act s) := .next (.ite h (ha _ h.settle))

theorem State.Shaped.linkForm {report act : State → State} (h : s.Shaped) (hr : (report s).Shaped)
    (ha : ∀ s, s.Shaped → (act s).Shaped) : KeepsShape (linkForm report act s) := .next (.ite hr (ha _ h.settle))

theorem State.Shaped.pointForm {i : Nat} {act : State → State} (h : s.Shaped) (ha : ∀ s, s.Shaped → (act s).Shaped) :
    KeepsShape (pointForm i act s) := by
  unfold Machine.pointForm
  split
  · exact h.eventForm ha
  · intro t e; cases e

/-- The step that is owed next is taken in its turn; any other after what is owed. -/
theorem State.Shaped.owedForm {i : Instr} {act : State → State} (h : s.Shaped) (ha : ∀ s, s.Shaped → (act s).Shaped) :
    KeepsShape (owedForm i act s) := by
  unfold Machine.owedForm
  split
  · exact .next h
  · split
    · exact .next (ha _ h)
    · exact .next (ha _ (.ite { h with } h.settle))

theorem State.Shaped.messageForm {i : Instr} {act : State → State} (h : s.Shaped)
    (ha : ∀ s, s.Shaped → (act s).Shaped) : KeepsShape (messageForm i act s) := by
  unfold Machine.messageForm
  split
  · exact .next h
  · split
    · exact .next (ha _ h.messageDone)
    · exact .next (ha _ (.ite { h with } h.settle.messageDone))

theorem State.Shaped.commandForm {i : Instr} {c : CommandCode} {act : State → State} (h : s.Shaped)
    (ha : ∀ s, s.Shaped → (act s).Shaped) : KeepsShape (commandForm i c act s) := by
  have enter : ∀ s : State, s.Shaped → (s.enterCommand c act).Shaped := fun s h => .ite { h with } (ha _ { h with })
  unfold Machine.commandForm
  split
  · exact .next h
  · split
    · exact .next (enter _ h)
    · split
      · exact .next (ha _ { h with })
      · exact .next (enter _ h.settle)

/-- Every command keeps the shape of the part. -/
theorem State.Shaped.exec {i : Instr} (h : s.Shaped) : KeepsShape (exec i s) := by
  cases i with
  | coldReset => exact .next s.coldReset_shaped
  | portSLinkDown =>
    exact h.linkForm (report := fun s => { s with ring.linkS := false }) { h with } fun _ h => h.linkSDown
  | portSLinkUp =>
    exact h.linkForm (report := fun s => { s with ring.linkS := true }) { h with } fun _ h => h.linkSUp
  | portNLinkChange up =>
    exact h.linkForm (report := fun s => { s with ring.linkN := up }) { h with } (act := fun s => s.linkNChange up)
      fun _ h => { h with }
  | outboundPass => exact h.eventForm fun _ h => h.outbound
  | inboundPass => exact h.eventForm fun _ h => h.inbound
  | enumFrameReturn => exact h.eventForm fun _ h => h.enumNorth
  | returnTimeout => exact h.eventForm fun _ h => h.returnTimeout
  | segmentRestart => exact h.owedForm fun _ h => h.segmentRestart
  | warmReset c => exact h.owedForm (i := .warmReset c) (act := fun s => s.warmReset c) fun _ h => h.warmReset (c := c)
  | escalationWindowExpiry => exact h.eventForm fun _ h => h.windowExpiry
  | staleTimerExpiry => exact h.pointForm fun _ h => h.staleExpiry
  | holdTimerExpiry => exact h.pointForm fun _ h => h.holdExpiry
  | staircaseStep => exact h.pointForm fun _ h => h.staircaseStep
  | controlPeriod => exact h.eventForm fun _ h => h.controlPeriod
  | permissiveDelayExpiry => exact h.eventForm fun _ h => h.permissiveDelay
  | lineHoldExpiry => exact h.eventForm fun _ h => h.lineHoldExpiry
  | burnoutEnd => exact h.eventForm fun _ h => h.burnoutEnd
  | strokeTimeout => exact h.eventForm fun _ h => h.strokeTimeout
  | dueTimeReached => exact h.eventForm fun _ h => h.dueTimeReached
  | burnMinuteClose => exact h.eventForm fun _ h => h.burnMinuteClose
  | sampleInstant => exact h.eventForm fun _ h => h.sampleInstant
  | fgcMinuteClose => exact h.eventForm fun _ h => h.fgcMinuteClose
  | saturationTimerExpiry => exact h.eventForm fun _ h => h.saturationExpiry
  | abnormalSecond => exact h.eventForm fun _ h => h.abnormalSecond
  | allocationRun => exact h.owedForm fun _ h => h.runAllocation
  | bypassReleaseTimerExpiry => exact h.eventForm fun _ h => h.bypassRelease
  | indicationTimeout => exact h.eventForm fun _ h => h.indicationTimeout
  | settleTimerExpiry => exact h.eventForm fun _ h => h.settleExpiry
  | schedule => exact h.messageForm fun _ h => h.scheduleMessage
  | cancel => exact h.messageForm fun _ h => h.cancelMessage
  | linkCheck => exact h.messageForm fun _ h => h.linkCheckMessage
  | noticeAck => exact h.messageForm fun _ h => h.noticeAckMessage
  | resync => exact h.messageForm fun _ h => h.resyncMessage
  | kindDiscard => exact h.messageForm fun _ h => h.kindDiscardMessage
  | blockStart => exact h.eventForm fun _ h => h.blockStart
  | blockEnd => exact h.eventForm fun _ h => h.blockEnd
  | supervisionTimerExpiry => exact h.eventForm fun _ h => h.supervisionExpiry
  | ackTimerExpiry => exact h.eventForm fun _ h => h.ackExpiry
  | readTable => exact h.commandForm fun _ h => h.cmdReadTable
  | writeTable => exact h.commandForm fun _ h => h.cmdWriteTable
  | readPoint => exact h.commandForm fun _ h => h.cmdReadPoint
  | forcePoint => exact h.commandForm fun _ h => h.cmdForcePoint
  | releasePoint => exact h.commandForm fun _ h => h.cmdReleasePoint
  | readEvents => exact h.commandForm fun _ h => h.cmdReadEvents
  | setTimeAbsolute => exact h.commandForm fun _ h => h.setTime
  | setTimeStep => exact h.commandForm fun _ h => h.cmdTimeStep
  | loadBudget => exact h.commandForm fun _ h => h.cmdLoadBudget
  | start => exact h.commandForm fun _ h => h.cmdStart
  | stop => exact h.commandForm fun _ h => h.cmdStop
  | resume => exact h.commandForm fun _ h => h.cmdResume
  | resetTrip => exact h.commandForm fun _ h => h.cmdResetTrip
  | turbineRunup => exact h.commandForm fun _ h => h.cmdRunup
  | turbineStop => exact h.commandForm fun _ h => h.cmdTurbineStop
  | setCapSet => exact h.commandForm fun _ h => h.cmdSetCap
  | setCapRelease => exact h.commandForm fun _ h => h.cmdReleaseCap
  | setOverrideOn => exact h.commandForm fun _ h => h.cmdOverrideOn
  | setOverrideOff => exact h.commandForm fun _ h => h.cmdOverrideOff
  | segmentModeRun => exact h.commandForm fun _ h => h.cmdSegmentRun
  | segmentModeConfig => exact h.commandForm fun _ h => h.cmdSegmentConfig
  | enumerate => exact h.commandForm fun _ h => h.cmdEnumerate
  | renumber => exact h.commandForm fun _ h => h.cmdRenumber
  | lockNumberSet => exact h.commandForm fun _ h => h.cmdLockSet
  | lockNumberClear => exact h.commandForm fun _ h => h.cmdLockClear
  | restartSegment => exact h.commandForm fun _ h => h.answer
  | warmRestart => exact h.commandForm fun _ h => h.answer
  | readStatus => exact h.commandForm fun _ h => h.cmdReadStatus
  | resetNLow => exact .next { h with }

theorem State.Shaped.arriveDue {l : LineId} (h : s.Shaped) : (s.arriveDue l).Shaped := by
  unfold State.arriveDue
  split
  · exact .ite h.dueTimeReached h
  · exact h
  · exact h

theorem State.Shaped.tick (h : s.Shaped) : s.tick.Shaped := h.reachTenths.arriveDue.arriveDue

theorem State.Shaped.idle (h : s.Shaped) : KeepsShape s.idle := by
  unfold State.idle
  split
  · exact .next h
  · split
    · exact .next (.perform { h with })
    · split
      · exact h.exec
      · exact .next h.tick

theorem State.Shaped.step (h : s.Shaped) : KeepsShape (step s) := by
  unfold Machine.step
  split
  · exact h.idle
  · exact State.Shaped.exec { h with }

end

end Sys2Proof.Machine

open Sys2Proof.Machine in
/-- Settles O5: every operation of the part keeps its shape, and so does every step. -/
theorem Sys2Proof.shapeKept : Obligations.ShapeKept := fun _ t h e => h.step t e
end

