-- ==== Sys2Proof/Proofs/SegmentState.lean ====
section
/-! PROOFS. Changes of segment state and what the enumeration run does to the part (R1, R15, R24, R29): one lemma per
operation for what it sets and what it leaves alone. -/

namespace Sys2Proof.Machine

section
variable {s : State} {l : LineId} {k : HoldCause} {new : SegState}

/-! ### Hold causes on idle lines (R66) -/

theorem State.addCause_of_idle (h : (s.line l).state.feeds = false) : s.addCause l k = s := by
  unfold State.addCause
  simp [h]

theorem State.removeCause_of_idle (h : (s.line l).state.feeds = false) : s.removeCause l k = s := by
  unfold State.removeCause
  simp [h]

theorem State.setCause_of_idle {b : Bool} (h : (s.line l).state.feeds = false) : s.setCause l k b = s := by
  unfold State.setCause
  rw [State.addCause_of_idle h, State.removeCause_of_idle h, ite_self]

theorem State.segmentCause_of_idle {b : Bool} (h : ∀ l, (s.line l).state.feeds = false) : s.segmentCause b = s := by
  unfold State.segmentCause
  rw [State.setCause_of_idle (h .one), State.setCause_of_idle (h .two)]

theorem State.segmentCause_turb (b : Bool) : (s.segmentCause b).turb = s.turb :=
  (LineEvent.setCause .two _ .segment (!b)).turb.trans (LineEvent.setCause .one s .segment (!b)).turb

/-! ### Changes of segment state -/

theorem State.setSegment_of_same (h : s.ring.segment = new) : s.setSegment new = s := by
  unfold State.setSegment
  simp [h]

theorem State.setSegment_of_ne (h : s.ring.segment ≠ new) : s.setSegment new =
    (({ s with ring.segment := new } : State).log .ring .segmentState 0 s.ring.segment.code new.code).segmentCause
      (decide (new = .run)) := by
  unfold State.setSegment
  simp only [if_neg h]

/-- R1, R66: while no line feeds, a change of segment state is logged and nothing more. -/
theorem State.setSegment_of_idle (h : s.ring.segment ≠ new) (hl : ∀ l, (s.line l).state.feeds = false) :
    s.setSegment new =
      ({ s with ring.segment := new } : State).log .ring .segmentState 0 s.ring.segment.code new.code := by
  rw [State.setSegment_of_ne h]
  exact State.segmentCause_of_idle fun l => (congrArg (fun c : Line => c.state.feeds) (State.log_line ..)).trans (hl l)

theorem State.setSegment_lines (hl : ∀ l, (s.line l).state.feeds = false) : (s.setSegment new).lines = s.lines := by
  by_cases h : s.ring.segment = new
  · rw [State.setSegment_of_same h]
  · rw [State.setSegment_of_idle h hl, State.log_lines]

variable (s new)

@[simp] theorem State.setSegment_ring : (s.setSegment new).ring = { s.ring with segment := new } :=
  (s.setSegment_frame new).ring

@[simp] theorem State.setSegment_clock : (s.setSegment new).clock = s.clock := (s.setSegment_frame new).clock

@[simp] theorem State.setSegment_resetLow : (s.setSegment new).resetLow = s.resetLow := (s.setSegment_frame new).resetLow

@[simp] theorem State.setSegment_seg : (s.setSegment new).seg = s.seg := (s.setSegment_frame new).seg

@[simp] theorem State.setSegment_disp : (s.setSegment new).disp = s.disp := (s.setSegment_frame new).disp

@[simp] theorem State.setSegment_pending : (s.setSegment new).pending = s.pending := (s.setSegment_frame new).pending

@[simp] theorem State.setSegment_header : (s.setSegment new).env.page = s.env.page := (s.setSegment_frame new).header

@[simp] theorem State.setSegment_turb : (s.setSegment new).turb = s.turb := by
  by_cases h : s.ring.segment = new
  · rw [State.setSegment_of_same h]
  · rw [State.setSegment_of_ne h, State.segmentCause_turb, State.log_turb]

variable {s new}

theorem UpdateFrame.executing {t : State} (h : UpdateFrame s t) : t.mgmt.executing = s.mgmt.executing :=
  (congrArg Mgmt.executing h.mail :)

theorem UpdateFrame.response {t : State} (h : UpdateFrame s t) : t.mgmt.response = s.mgmt.response :=
  (congrArg Mgmt.response h.mail :)

/-! ### The beginning and the abandoning of a run -/

/-- R24: the enumeration record of a run that has just begun. -/
def EnumRecord.begun (e : EnumRecord) (kind : EnumKind) : EnumRecord :=
  { e with
    running := true, kind := kind, lastRound := (e.lastRound + 1) % 256, rounds := 0, lost := 0, winner := none
    awaiting := none, numbered := 0, exhausted := false
    offer := some ⟨(e.lastRound + 1) % 256, (match kind with | .full => allOnes | .added => 0), 0⟩ }

/-- R26: the segment manager once the entry of an assignment has been released. -/
def Segment.releasing (g : Segment) : Option (Serial × Nat) → Segment
  | none => g
  | some (_, n) =>
    { g with stations := g.stations.set (n - 1) (if n = 0 then Station.free else g.stations.getD (n - 1) .free).release }

theorem State.beginRun_eq (s : State) (kind : EnumKind) : s.beginRun kind = { s with seg.enum := s.seg.enum.begun kind } :=
  rfl

/-- R15, R66: while no line feeds, entering ENUMERATING touches the ring, the enumeration record and the events alone. -/
theorem State.enterEnumerating_of_idle {s : State} {kind : EnumKind} {m : Mgmt} (h : s.ring.segment ≠ .enumerating)
    (hl : ∀ l, (s.line l).state.feeds = false) :
    { s.enterEnumerating kind with mgmt := m } = { s with
      ring := { s.ring with
        segment := .enumerating, outstanding := none, flight := none, lostInRow := 0, takenInRow := 0 }
      seg.enum := s.seg.enum.begun kind
      mgmt := m } := by
  unfold State.enterEnumerating
  dsimp only
  rw [State.setSegment_of_idle (s := { s with ring := { s.ring with
    outstanding := none, flight := none, lostInRow := 0, takenInRow := 0 } }) h hl, State.beginRun_eq, State.log_seg]
  unfold State.log
  split <;> rfl

section
variable (s : State) (kind : EnumKind)

@[simp] theorem State.enterEnumerating_ring : (s.enterEnumerating kind).ring =
    { s.ring with segment := .enumerating, outstanding := none, flight := none, lostInRow := 0, takenInRow := 0 } := by
  simp [State.enterEnumerating, State.beginRun_eq]

@[simp] theorem State.enterEnumerating_seg :
    (s.enterEnumerating kind).seg = { s.seg with enum := s.seg.enum.begun kind } := by
  simp [State.enterEnumerating, State.beginRun_eq]

@[simp] theorem State.enterEnumerating_clock : (s.enterEnumerating kind).clock = s.clock := by
  simp [State.enterEnumerating, State.beginRun_eq]

@[simp] theorem State.enterEnumerating_turb : (s.enterEnumerating kind).turb = s.turb := by
  simp [State.enterEnumerating, State.beginRun_eq]

@[simp] theorem State.enterEnumerating_disp : (s.enterEnumerating kind).disp = s.disp := by
  simp [State.enterEnumerating, State.beginRun_eq]

@[simp] theorem State.enterEnumerating_pending : (s.enterEnumerating kind).pending = s.pending := by
  simp [State.enterEnumerating, State.beginRun_eq]

theorem State.enterEnumerating_executing : (s.enterEnumerating kind).mgmt.executing = s.mgmt.executing :=
  (State.setSegment_frame _ .enumerating).executing

theorem State.enterEnumerating_response : (s.enterEnumerating kind).mgmt.response = s.mgmt.response :=
  (State.setSegment_frame _ .enumerating).response

theorem State.releaseAssigned_eq (a : Option (Serial × Nat)) :
    s.releaseAssigned a = { s with seg := s.seg.releasing a } := by
  cases a <;> rfl

/-- R29: abandoning a run touches the segment manager and the management unit alone. -/
theorem State.abandonRun_frame : { s.abandonRun with seg := s.seg, mgmt := s.mgmt } = s := by
  unfold State.abandonRun
  split
  · rw [State.releaseAssigned_eq, State.releaseAssigned_eq]
    dsimp only
    split <;> rfl
  · rfl

@[simp] theorem State.abandonRun_ring : s.abandonRun.ring = s.ring := (congrArg State.ring s.abandonRun_frame :)

@[simp] theorem State.abandonRun_clock : s.abandonRun.clock = s.clock := (congrArg State.clock s.abandonRun_frame :)

@[simp] theorem State.abandonRun_turb : s.abandonRun.turb = s.turb := (congrArg State.turb s.abandonRun_frame :)

@[simp] theorem State.abandonRun_disp : s.abandonRun.disp = s.disp := (congrArg State.disp s.abandonRun_frame :)

@[simp] theorem State.abandonRun_pending : s.abandonRun.pending = s.pending := (congrArg State.pending s.abandonRun_frame :)

@[simp] theorem State.abandonRun_env : s.abandonRun.env = s.env := (congrArg State.env s.abandonRun_frame :)

@[simp] theorem State.abandonRun_points : s.abandonRun.points = s.points := (congrArg State.points s.abandonRun_frame :)

end

end

end Sys2Proof.Machine
end

