-- ==== Sys2Proof/Proofs/Machine.lean ====
section
/-! PROOFS. The machine as a whole: what a part does on an empty queue (O2), right after reset (O7), at a COLD reset
(O13), at the plain events and while RESET_N is low (O16). -/

namespace Sys2Proof.Machine

section
variable {s : State} {act : State → State}

/-! ### The forms of a command while RESET_N is low (R22, log 37) -/

theorem eventForm_of_low (h : s.resetLow = true) : eventForm act s = .next s := by
  unfold eventForm
  rw [if_pos h]

theorem pointForm_of_low {i : Nat} (h : s.resetLow = true) (hi : i < 192) : pointForm i act s = .next s := by
  unfold pointForm
  rw [if_pos hi, eventForm_of_low h]

theorem owedForm_of_low {i : Instr} (h : s.resetLow = true) : owedForm i act s = .next s := by
  unfold owedForm
  rw [if_pos h]

theorem messageForm_of_low {i : Instr} (h : s.resetLow = true) : messageForm i act s = .next s := by
  unfold messageForm
  rw [if_pos h]

theorem commandForm_of_low {i : Instr} {c : CommandCode} (h : s.resetLow = true) : commandForm i c act s = .next s := by
  unfold commandForm
  rw [if_pos h]

/-- R22 (log 37): while RESET_N is low only its rise and the links have an effect. -/
theorem exec_of_low {i : Instr} (h : s.resetLow = true) (hw : i.wellFormed = true) (hc : i ≠ .coldReset)
    (hu : i ≠ .portSLinkUp) (hd : i ≠ .portSLinkDown) (hn : ∀ up, i ≠ .portNLinkChange up) : exec i s = .next s := by
  unfold exec
  cases i with
  | coldReset => exact absurd rfl hc
  | portSLinkUp => exact absurd rfl hu
  | portSLinkDown => exact absurd rfl hd
  | portNLinkChange up => exact absurd rfl (hn up)
  | resetNLow => exact congrArg Host.Outcome.next (by cases s; cases h; rfl)
  | staleTimerExpiry i | holdTimerExpiry i | staircaseStep i => exact pointForm_of_low h (of_decide_eq_true hw)
  | segmentRestart | warmReset | allocationRun => exact owedForm_of_low h
  | schedule | cancel | linkCheck | noticeAck | resync | kindDiscard => exact messageForm_of_low h
  | outboundPass | inboundPass | enumFrameReturn | returnTimeout | escalationWindowExpiry | controlPeriod
  | permissiveDelayExpiry | lineHoldExpiry | burnoutEnd | strokeTimeout | dueTimeReached | burnMinuteClose | sampleInstant
  | fgcMinuteClose | saturationTimerExpiry | abnormalSecond | bypassReleaseTimerExpiry | indicationTimeout
  | settleTimerExpiry | blockStart | blockEnd | supervisionTimerExpiry | ackTimerExpiry => exact eventForm_of_low h
  | readTable | writeTable | readPoint | forcePoint | releasePoint | readEvents | setTimeAbsolute | setTimeStep
  | loadBudget | start | stop | resume | resetTrip | turbineRunup | turbineStop | setCapSet | setCapRelease
  | setOverrideOn | setOverrideOff | segmentModeRun | segmentModeConfig | enumerate | renumber | lockNumberSet
  | lockNumberClear | restartSegment | warmRestart | readStatus => exact commandForm_of_low h

/-! ### The events of the ring on a quiet part -/

theorem exec_portSLinkDown (q : s.Quiet) : exec .portSLinkDown s = .next s.linkSDown :=
  linkForm_of_quiet (fun s => { s with ring.linkS := false }) State.linkSDown s q

theorem exec_portSLinkUp (q : s.Quiet) : exec .portSLinkUp s = .next s.linkSUp :=
  linkForm_of_quiet (fun s => { s with ring.linkS := true }) State.linkSUp s q

theorem exec_portNLinkChange {up : Bool} (q : s.Quiet) : exec (.portNLinkChange up) s = .next (s.linkNChange up) :=
  linkForm_of_quiet (fun s => { s with ring.linkN := up }) (fun s => s.linkNChange up) s q

theorem exec_outboundPass {f : LinkFrame} (q : s.Quiet) : exec (.outboundPass f) s = .next (s.outbound f) :=
  eventForm_of_quiet (fun s => s.outbound f) s q

theorem exec_inboundPass {f : LinkFrame} (q : s.Quiet) : exec (.inboundPass f) s = .next (s.inbound f) :=
  eventForm_of_quiet (fun s => s.inbound f) s q

theorem exec_enumFrameReturn {round number : Byte} {arb serial : Serial} (q : s.Quiet) :
    exec (.enumFrameReturn round arb serial number) s = .next (s.enumNorth round.toNat arb serial number.toNat) :=
  eventForm_of_quiet (fun s => s.enumNorth round.toNat arb serial number.toNat) s q

theorem exec_returnTimeout (q : s.Quiet) : exec .returnTimeout s = .next s.returnTimeout :=
  eventForm_of_quiet State.returnTimeout s q

theorem exec_segmentRestart (q : s.Quiet) : exec .segmentRestart s = .next s.segmentRestart :=
  owedForm_of_quiet .segmentRestart State.segmentRestart s q

theorem exec_warmReset {c : WarmCause} (q : s.Quiet) : exec (.warmReset c) s = .next (s.warmReset c) :=
  owedForm_of_quiet (.warmReset c) (fun s => s.warmReset c) s q

theorem exec_escalationWindowExpiry (q : s.Quiet) : exec .escalationWindowExpiry s = .next s.windowExpiry :=
  eventForm_of_quiet State.windowExpiry s q

theorem exec_segmentModeRun (h : s.Free) : exec .segmentModeRun s = .next (s.during .segmentMode).cmdSegmentRun :=
  commandForm_of_free .segmentModeRun .segmentMode State.cmdSegmentRun s h

theorem exec_segmentModeConfig (h : s.Free) :
    exec .segmentModeConfig s = .next (s.during .segmentMode).cmdSegmentConfig :=
  commandForm_of_free .segmentModeConfig .segmentMode State.cmdSegmentConfig s h

theorem exec_enumerate (h : s.Free) : exec .enumerate s = .next (s.during .enumerate).cmdEnumerate :=
  commandForm_of_free .enumerate .enumerate State.cmdEnumerate s h

theorem exec_restartSegment (h : s.Free) :
    exec .restartSegment s = .next ((s.during .restartSegment).answer .restartSegment .done) :=
  commandForm_of_free .restartSegment .restartSegment State.cmdRestartSegment s h

theorem exec_warmRestart (h : s.Free) :
    exec .warmRestart s = .next ((s.during .warmRestart).answer .warmRestart .done) :=
  commandForm_of_free .warmRestart .warmRestart State.cmdWarmRestart s h

/-! ### The escalation window -/

theorem State.windowExpiry_of_open {w : Nat} (h : s.seg.window = some w) :
    s.windowExpiry = { s.reach w with seg.window := none } := by
  unfold State.windowExpiry
  rw [h]

theorem State.windowExpiry_of_closed (h : s.seg.window = none) : s.windowExpiry = s := by
  unfold State.windowExpiry
  rw [h]

/-! ### What the part does while no command waits -/

theorem State.idle_of_low (h : s.resetLow = true) : s.idle = .next s := by
  unfold State.idle
  rw [if_pos h]

theorem State.idle_of_owed {i : Instr} {rest : List Instr} (h : s.resetLow = false) (ho : s.owed = i :: rest) :
    s.idle = .next (State.perform { s with owed := rest } i) := by
  unfold State.idle
  rw [if_neg (by simp [h]), ho]

theorem State.idle_of_due {i : Instr} {rest : List Instr} (h : s.resetLow = false) (ho : s.owed = [])
    (hd : s.dueEvents = i :: rest) : s.idle = exec i s := by
  unfold State.idle
  rw [if_neg (by simp [h]), ho]
  simp only [hd]

theorem State.idle_of_nothing (h : s.resetLow = false) (ho : s.owed = []) (hd : s.dueEvents = []) :
    s.idle = .next s.tick := by
  unfold State.idle
  rw [if_neg (by simp [h]), ho]
  simp only [hd]

theorem step_of_idle (h : s.pending = []) : step s = s.idle := by
  unfold step
  rw [h]

end

/-! ### The reset state -/

/-- R188: the queue of the reset state holds COLD-START alone, at run time 0. -/
theorem State.reset_queueOrdered : State.reset.QueueOrdered := ⟨by decide, by decide, by decide⟩

/-- R127: right after reset both lines are OFF and no record is ABNORMAL. -/
theorem State.reset_guarded : State.reset.Guarded := fun l => by cases l <;> decide

/-- R24: the round after 255 is 0. -/
theorem EnumRecord.begun_reset : EnumRecord.reset.begun .full =
    { EnumRecord.reset with running := true, lastRound := 0, offer := some ⟨0, allOnes, 0⟩ } := by decide

/-- R19: both lines are OFF at a COLD reset, so that the segment's entry into ENUMERATING adds no hold cause. -/
theorem State.coldReset_of_linkS {s : State} (h : s.ring.linkS = true) :
    s.coldReset = { State.reset with
      ring := { Ring.reset s.ring.linkN true with segment := .enumerating }
      seg := { Segment.reset with
        enum := { EnumRecord.reset with running := true, lastRound := 0, offer := some ⟨0, allOnes, 0⟩ } }
      pending := s.pending } := by
  unfold State.coldReset
  rw [if_pos h, h]
  rw [← EnumRecord.begun_reset]
  exact State.enterEnumerating_of_idle
    (s := { State.reset with ring := Ring.reset s.ring.linkN true, pending := s.pending })
    SegState.noConfusion (fun l => by cases l <;> rfl)

theorem State.coldReset_of_not_linkS {s : State} (h : s.ring.linkS = false) :
    s.coldReset = { State.reset with ring := Ring.reset s.ring.linkN false, pending := s.pending } := by
  unfold State.coldReset
  rw [if_neg (by simp [h]), h]

end Sys2Proof.Machine

open Sys2Proof.Machine in
/-- Settles O2: the four branches of the part's idle step. -/
theorem Sys2Proof.idleOrder : Obligations.IdleOrder := fun s hp => by
  rw [step_of_idle hp]
  exact ⟨State.idle_of_low, fun _ _ => State.idle_of_owed, fun _ _ => State.idle_of_due, State.idle_of_nothing⟩

open Sys2Proof.Machine in
/-- Settles O7: the values of a COLD reset, invariant by invariant. -/
theorem Sys2Proof.resetMeetsInvariants : Obligations.ResetMeetsInvariants :=
  ⟨State.reset_queueOrdered, State.reset_shaped, State.reset_guarded⟩

open Sys2Proof.Machine in
/-- Settles O13, by the state of Port S. -/
theorem Sys2Proof.coldResetValues : Obligations.ColdResetValues := fun s => by
  show Host.Outcome.next s.coldReset = _
  cases h : s.ring.linkS with
  | true => rw [State.coldReset_of_linkS h]; rfl
  | false => rw [State.coldReset_of_not_linkS h]; rfl

open Sys2Proof.Machine in
/-- Settles O16: each event acts on a quiet part at once, and none but the rise of RESET_N and the links acts while it is
low. -/
theorem Sys2Proof.plainEvents : Obligations.PlainEvents :=
  ⟨fun _ q =>
    ⟨fun _ => exec_portNLinkChange q, rfl,
      fun _ h => (exec_escalationWindowExpiry q).trans (congrArg _ (State.windowExpiry_of_open h)),
      fun h => (exec_escalationWindowExpiry q).trans (congrArg _ (State.windowExpiry_of_closed h))⟩,
    fun _ _ => exec_of_low⟩
end

