-- ==== Sys2Proof/Proofs/SegmentModes.lean ====
section
/-! PROOFS. Port S (O17), the commands SEGMENT-MODE, ENUMERATE, RESTART-SEGMENT and WARM-RESTART (O26, O27), and a cycle
frame that does not match (O22). -/

namespace Sys2Proof.Machine

section
variable {s t : State}

/-! ### Port S (R1) -/

theorem State.linkSDown_ring : s.linkSDown.ring = { s.ring with
    linkS := false, segment := .down, outstanding := none, flight := none, lostInRow := 0, takenInRow := 0
    resume := if s.ring.segment = .broken then s.ring.brokenFrom else s.ring.resume } := by
  simp [State.linkSDown]

theorem State.linkSUp_of_ne (h : s.ring.segment ≠ .down) : s.linkSUp = { s with ring.linkS := true } := by
  unfold State.linkSUp
  exact if_neg h

theorem State.linkSUp_of_down (h : s.ring.segment = .down) :
    s.linkSUp = ({ s with ring.linkS := true } : State).enterEnumerating .full := by
  unfold State.linkSUp
  exact if_pos h

/-! ### Validation (R16) -/

/-- R16: the validation reads the states of the stations and the kinds of the points. -/
theorem State.validateFrom_congr (hs : ∀ n, (t.station n).state = (s.station n).state)
    (hp : ∀ i, (t.point i).kind = (s.point i).kind) :
    ∀ (es : List SlotEntry) (k : Nat), t.validateFrom k es = s.validateFrom k es
  | [], _ => rfl
  | e :: es, k => by
    unfold State.validateFrom
    rw [hs, hp, State.validateFrom_congr hs hp es]

theorem State.validate_congr (hs : ∀ n, (t.station n).state = (s.station n).state)
    (hp : ∀ i, (t.point i).kind = (s.point i).kind) (hm : t.ring.slotMap = s.ring.slotMap) : t.validate = s.validate := by
  unfold State.validate
  rw [hm, State.validateFrom_congr hs hp]

/-! ### SEGMENT-MODE (R16, R17) -/

theorem State.cmdSegmentRun_of_valid (h : s.ring.segment = .config) (hv : s.validate = none) :
    s.cmdSegmentRun = (({ s with ring.resume := .run } : State).setSegment .run).answer .segmentMode .done := by
  unfold State.cmdSegmentRun
  simp only [h, hv]

theorem State.cmdSegmentRun_of_invalid {k r : Nat} (h : s.ring.segment = .config) (hv : s.validate = some (k, r)) :
    s.cmdSegmentRun = s.segmentRefused k r := by
  unfold State.cmdSegmentRun
  simp only [h, hv]

theorem State.cmdSegmentRun_of_run (h : s.ring.segment = .run) : s.cmdSegmentRun = s.answer .segmentMode .done := by
  unfold State.cmdSegmentRun
  simp only [h]

theorem State.cmdSegmentConfig_of_config (h : s.ring.segment = .config) :
    s.cmdSegmentConfig = s.answer .segmentMode .done := by
  unfold State.cmdSegmentConfig
  simp only [h]

/-- R17: SEGMENT-MODE CONFIG from RUN, by its checks in their order. -/
theorem State.cmdSegmentConfig_of_run (h : s.ring.segment = .run) : s.cmdSegmentConfig =
    if (s.line .one).state ≠ .off then s.segmentRefused 1 5
    else if (s.line .two).state ≠ .off then s.segmentRefused 2 5
    else if s.turb.state = .loaded then s.segmentRefused 0xFFFF 6
    else (({ s with ring.resume := .config } : State).setSegment .config).answer .segmentMode .done := by
  unfold State.cmdSegmentConfig State.lineOff
  simp only [h, decide_eq_false_iff_not, ne_eq]

/-- R16, R17: elsewhere both commands are refused with reason 7. -/
theorem State.cmdSegment_of_other (h : s.ring.segment = .down ∨ s.ring.segment = .enumerating ∨ s.ring.segment = .broken) :
    s.cmdSegmentRun = s.segmentRefused 0xFFFF 7 ∧ s.cmdSegmentConfig = s.segmentRefused 0xFFFF 7 := by
  unfold State.cmdSegmentRun State.cmdSegmentConfig
  rcases h with h | h | h <;> simp only [h, and_self]

/-! ### ENUMERATE and the restarts by command (R30, R187) -/

theorem State.cmdEnumerate_of_config (h : s.ring.segment = .config) :
    s.cmdEnumerate = ({ s with ring.resume := .config } : State).enterEnumerating .added := by
  unfold State.cmdEnumerate
  exact if_pos h

theorem State.cmdEnumerate_of_ne (h : s.ring.segment ≠ .config) : s.cmdEnumerate = s.answer .enumerate .badState := by
  unfold State.cmdEnumerate
  exact if_neg h

/-- R182: a DONE response without data is written in one segment, which ends the command. -/
theorem State.mailWritten_of_done {c : CommandCode} (ha : s.mgmt.abortedCommand = none) (hb : s.mgmt.busyAnswer = none) :
    (s.answer c .done).mailWritten =
      State.oweRestart { s with mgmt := { s.mgmt with response := none, nextSegment := 0, executing := none } }
        ⟨c.byte, .done, .bytes []⟩ := by
  have offer : (s.answer c .done).mgmt.offer = some (.response ⟨c.byte, .done, .bytes []⟩) := by
    simp [State.answer, State.place, Mgmt.offer, ha, hb]
  unfold State.mailWritten
  simp only [offer]
  rfl

/-! ### A cycle frame that does not match (R9, R12) -/

/-- R1: a frame is forwarded north while Port N is UP. -/
theorem State.sendNorth_eq (f : LinkFrame) :
    s.sendNorth f = { s with ring.sentN := if s.ring.linkN then some f else s.ring.sentN } := by
  unfold State.sendNorth
  split <;> rfl

/-- R9: a frame that is not of the outstanding cycle counts as a mismatch and goes north unchanged. -/
theorem State.soundNorth_of_mismatch {f : LinkFrame} {c : CycleFrame}
    (h : ∀ o, s.ring.outstanding = some o → c.cycle ≠ o.cycle ∨ c.slots.length ≠ o.slots) :
    s.soundNorth f c = (s.mismatch c.cycle).sendNorth f := by
  unfold State.soundNorth
  split
  · rfl
  · next o ho =>
    exact if_neg fun e => (h o ho).elim (· e.1) (· e.2)

/-- R12: the ring once a mismatch has been counted. -/
def Ring.mismatched (r : Ring) : Ring :=
  { r with counters := { r.counters with mismatches := wrap32 r.counters.mismatches }, mismatchRun := true }

theorem State.mismatch_of_run (h : s.ring.mismatchRun = true) (n : Nat) :
    s.mismatch n = { s with ring := s.ring.mismatched } := by
  unfold State.mismatch
  simp only [h, if_true]
  rfl

theorem State.mismatch_of_first (h : s.ring.mismatchRun = false) (n : Nat) :
    s.mismatch n = ({ s with ring := s.ring.mismatched } : State).log .ring .cycleMismatch 0 n
      ((s.ring.outstanding.map (·.cycle)).getD 0xFFFF) := by
  unfold State.mismatch
  simp only [h, Bool.false_eq_true, if_false]
  rfl

end

end Sys2Proof.Machine

open Sys2Proof.Machine in
/-- Settles O17, by the three changes of the link. -/
theorem Sys2Proof.portSLinkChanges : Obligations.PortSLinkChanges := fun s q =>
  ⟨⟨_, exec_portSLinkDown q, State.linkSDown_ring, by simp [State.linkSDown], by simp [State.linkSDown],
      by simp [State.linkSDown], by simp [State.linkSDown], by simp [State.linkSDown]⟩,
    fun h => (exec_portSLinkUp q).trans (congrArg _ (State.linkSUp_of_ne h)),
    fun h => ⟨_, (exec_portSLinkUp q).trans (congrArg _ (State.linkSUp_of_down h)), State.enterEnumerating_ring ..,
      State.enterEnumerating_seg .., State.enterEnumerating_clock .., State.enterEnumerating_turb ..,
      State.enterEnumerating_disp .., State.enterEnumerating_pending ..⟩⟩

open Sys2Proof.Machine in
/-- Settles O26, by the segment state and the checks of each command. -/
theorem Sys2Proof.segmentModeActs : Obligations.SegmentModeActs := fun s h => by
  have run := exec_segmentModeRun h
  have config := exec_segmentModeConfig h
  have byChecks := fun hr => config.trans
    (congrArg Host.Outcome.next (State.cmdSegmentConfig_of_run (s := s.during .segmentMode) hr))
  have idle : (s.line .one).state = .off → (s.line .two).state = .off → ∀ l, (s.line l).state.feeds = false :=
    fun h1 h2 l => by cases l; exacts [h1 ▸ rfl, h2 ▸ rfl]
  have valid : (s.during .segmentMode).validate = s.validate := State.validate_congr (fun _ => rfl) (fun _ => rfl) rfl
  refine ⟨fun hc hv => ⟨_, run.trans (congrArg _ (State.cmdSegmentRun_of_valid hc (valid.trans hv))), ?_⟩,
    fun k r hc hv => run.trans (congrArg _ (State.cmdSegmentRun_of_invalid hc (valid.trans hv))),
    fun hr => run.trans (congrArg _ (State.cmdSegmentRun_of_run hr)), fun hr h1 h2 ht => ?_, fun hr h1 => ?_,
    fun hr h1 h2 => ?_, fun hr h1 h2 ht => ?_, fun hc => config.trans (congrArg _ (State.cmdSegmentConfig_of_config hc)),
    fun ho => ?_⟩
  · exact ⟨by simp, State.answered .., by simp, by simp, by simp, by simp⟩
  · refine ⟨(({ s.during .segmentMode with ring.resume := .config } : State).setSegment .config).answer .segmentMode .done,
      (byChecks hr).trans ?_, by simp, State.answered .., ?_, by simp, by simp, by simp, by simp⟩
    · simp [h1, h2, ht]
    · exact State.setSegment_lines (s := { s.during .segmentMode with ring.resume := .config }) (idle h1 h2)
  · refine (byChecks hr).trans ?_
    simp [h1, State.segmentRefused, bytesOf]
  · refine (byChecks hr).trans ?_
    simp [h1, h2, State.segmentRefused, bytesOf]
  · refine (byChecks hr).trans ?_
    simp [h1, h2, ht, State.segmentRefused, bytesOf]
  · obtain ⟨hrun, hconfig⟩ := State.cmdSegment_of_other (s := s.during .segmentMode) ho
    exact ⟨run.trans (congrArg _ hrun), config.trans (congrArg _ hconfig)⟩

open Sys2Proof.Machine in
/-- Settles O27. -/
theorem Sys2Proof.enumerateAndRestartCommands : Obligations.EnumerateAndRestartCommands :=
  ⟨fun s h =>
    ⟨fun hc => ⟨_, (exec_enumerate h).trans (congrArg _ (State.cmdEnumerate_of_config hc)), by simp, by simp [EnumRecord.begun],
        by simp [EnumRecord.begun], by simp [EnumRecord.begun], by simp, by simp [State.enterEnumerating_executing],
        State.enterEnumerating_response .., by simp, by simp, by simp⟩,
      fun hc => (exec_enumerate h).trans (congrArg _ (State.cmdEnumerate_of_ne hc))⟩,
    fun s h => ⟨exec_restartSegment h, exec_warmRestart h, fun ha hb => by
      rw [State.mailWritten_of_done (s := s.during .restartSegment) ha hb,
        State.mailWritten_of_done (s := s.during .warmRestart) ha hb]
      simp [State.oweRestart, CommandCode.byte, State.owe, h.1.2]⟩⟩

open Sys2Proof.Machine in
/-- Settles O22, by whether a run of mismatches goes on. -/
theorem Sys2Proof.mismatchHandsNothing : Obligations.MismatchHandsNothing := fun f c s q hl hf hm => by
  intro wanted
  have hw : (s.ring.outstanding.map fun o => (o.cycle : Int)).getD 0xFFFF = wanted := by
    cases h : s.ring.outstanding <;> simp only [wanted, h] <;> rfl
  refine ⟨_, exec_inboundPass q, ?_⟩
  have e : s.inbound f = (s.mismatch c.cycle).sendNorth f := by
    unfold State.inbound
    simp only [hl, hf, Bool.true_eq_false, if_false]
    exact State.soundNorth_of_mismatch hm
  rw [e, State.sendNorth_eq]
  cases hr : s.ring.mismatchRun with
  | true =>
    rw [State.mismatch_of_run hr]
    exact ⟨rfl, rfl, rfl, fun _ => rfl, fun h => by cases h⟩
  | false =>
    rw [State.mismatch_of_first hr, hw]
    refine ⟨by simp [Ring.mismatched], ?_, ?_, fun h => (by cases h), fun _ hroom => ?_⟩
    · unfold State.log
      split <;> rfl
    · simp only [State.log_mgmt]
      split <;> rfl
    · exact State.logged_of_room { s with ring := s.ring.mismatched } .ring .cycleMismatch 0 c.cycle wanted hroom
end

