-- ==== Sys2Proof/Proofs/CommandBytes.lean ====
section
/-! PROOFS. The bytes of a management command and of a telecontrol message are taken as that command (O8) and that message
(O9). -/

namespace Sys2Proof.Machine

/-! ### Reading fields out of written bytes (R21) -/

@[simp] theorem drop_bytesOf_append {n k : Nat} (x : Nat) (b : List Byte) (h : n ≤ k) :
    (bytesOf n x ++ b).drop k = b.drop (k - n) := by
  rw [List.drop_append, bytesOf_length, List.drop_of_length_le (by simpa using h), List.nil_append]

@[simp] theorem take_bytesOf_append (n x : Nat) (b : List Byte) : (bytesOf n x ++ b).take n = bytesOf n x :=
  List.take_left' (bytesOf_length n x)

@[simp] theorem take_bytesOf (n x : Nat) : (bytesOf n x).take n = bytesOf n x :=
  List.take_of_length_le (bytesOf_length n x).le

@[simp] theorem getElem?_bytesOf_append {n k : Nat} (x : Nat) (b : List Byte) (h : n ≤ k) :
    (bytesOf n x ++ b)[k]? = b[k - n]? := by
  rw [List.getElem?_append_right (by simpa using h), bytesOf_length]

/-- A word that fits its bytes is read back whole. -/
@[simp] theorem ofNat_natOf_bytesOf {w n : Nat} (x : BitVec w) (h : 2 ^ w ≤ 256 ^ n) :
    BitVec.ofNat w (natOf (bytesOf n x.toNat)) = x := by
  rw [natOf_bytesOf_of_lt (Nat.lt_of_lt_of_le x.isLt h), BitVec.ofNat_toNat, BitVec.setWidth_eq]

/-! ### Management commands (section 11.1) -/

/-- The argument bytes of a FORCE-POINT are taken by its pattern byte; one outside the two is sent in the short form. -/
theorem parseForce_patternBytes (point : Byte) {p : ForcePattern} (hw : p.wellFormed = true) :
    parseForce (point :: patternBytes p) = .run (.forcePoint point p) := by
  cases p with
  | fixed v => simp [parseForce, patternBytes, fixedForm, word2, fieldNat, field, byteAt, -natOf_bytesOf]
  | staircase n d lo hi =>
    simp [parseForce, patternBytes, fixedForm, word2, fieldNat, field, byteAt, -natOf_bytesOf]
  | other b =>
    obtain ⟨h1, h2⟩ : b ≠ 1 ∧ b ≠ 2 := by simpa [ForcePattern.wellFormed] using hw
    simp [parseForce, patternBytes, byteAt] at h1 h2 ⊢
    simp [h1, h2]

/-- The argument bytes of a command are taken as that command. -/
theorem parseCommand_of_commandOf {i : Instr} {code : CommandCode} {args : List Byte} (hw : i.wellFormed = true)
    (hc : commandOf i = some (code, args)) : parseCommand code.byte args = .run i := by
  cases i with
  | forcePoint point p =>
    cases hc
    exact parseForce_patternBytes point hw
  | readTable | readPoint | releasePoint | readEvents | loadBudget | readStatus | renumber | writeTable | enumerate
  | restartSegment | warmRestart =>
    cases hc
    simp [parseCommand, CommandCode.byte, fixedForm, word2, fieldNat, field, byteAt, -natOf_bytesOf]
  | setTimeAbsolute | setTimeStep | turbineRunup | turbineStop | segmentModeRun | segmentModeConfig =>
    cases hc
    simp [parseCommand, CommandCode.byte, fixedForm, twoWay, fieldNat, field, byteAt, -natOf_bytesOf]
  | start | stop | resume | resetTrip =>
    cases hc
    simp [parseCommand, CommandCode.byte, fixedForm, parseLineControl, byteAt]
  | setCapSet | setCapRelease =>
    cases hc
    simp [parseCommand, CommandCode.byte, fixedForm, parseSetCap, word2, fieldNat, field, byteAt, -natOf_bytesOf]
  | setOverrideOn | setOverrideOff =>
    cases hc
    simp [parseCommand, CommandCode.byte, fixedForm, parseOverride, word2, fieldNat, field, byteAt, -natOf_bytesOf]
  | lockNumberSet | lockNumberClear =>
    cases hc
    simp [parseCommand, CommandCode.byte, fixedForm, parseLock, byteAt]
  | _ => cases hc

/-- The arguments of a command that can be sent fit the mailbox, so that the length field tells them. -/
theorem commandOf_length {i : Instr} {code : CommandCode} {args : List Byte} (hw : i.wellFormed = true)
    (hc : commandOf i = some (code, args)) : args.length ≤ 237 := by
  cases i with
  | writeTable table page start records =>
    cases hc
    have h : records.length ≤ 233 := of_decide_eq_true hw
    simp
    omega
  | forcePoint point p => cases hc; cases p <;> simp [patternBytes]
  | readTable | readPoint | releasePoint | readEvents | loadBudget | readStatus | renumber | enumerate | restartSegment
  | warmRestart | setTimeAbsolute | setTimeStep | turbineRunup | turbineStop | segmentModeRun | segmentModeConfig | start
  | stop | resume | resetTrip | setCapSet | setCapRelease | setOverrideOn | setOverrideOff | lockNumberSet
  | lockNumberClear => cases hc; simp
  | _ => cases hc

/-- R182: the bytes of a command, its header before its arguments, pass steps 1 to 4. -/
theorem State.commandComplete_commandBytes {s : State} {i : Instr} {code : CommandCode} {args : List Byte}
    (he : s.mgmt.executing = none) (hl : args.length ≤ 237) (hp : parseCommand code.byte args = .run i) :
    s.commandComplete (commandBytes code args) = (s.during code).owe i := by
  have length : fieldNat (commandBytes code args) 1 2 = args.length := by
    simp [commandBytes, fieldNat, field]
    omega
  have rest : (commandBytes code args).drop 3 = args := by simp [commandBytes]
  have sound : ¬((commandBytes code args).length < 3 ∨
      (commandBytes code args).length ≠ 3 + fieldNat (commandBytes code args) 1 2) := by
    rw [length]
    simp [commandBytes]
    omega
  unfold State.commandComplete
  simp only [he, Option.isSome_none, Bool.false_eq_true, if_false, if_neg sound, rest]
  simp only [commandBytes, List.cons_append, hp]
  rfl

/-! ### Telecontrol messages (R166) -/

/-- The bytes of a message that its CRC-16 is formed over (R21). -/
def messageHead (pair : Byte × Byte) (kind : Byte) (number : Nat) (body : List Byte) : List Byte :=
  [pair.1, pair.2, kind, BitVec.ofNat 8 number, BitVec.ofNat 8 body.length] ++ body

theorem messageBytes_eq (pair : Byte × Byte) (kind : Byte) (n : Nat) (body : List Byte) :
    messageBytes pair kind n body =
      messageHead pair kind n body ++ bytesOf 2 (crc16 (messageHead pair kind n body)).toNat := rfl

theorem length_messageHead (pair : Byte × Byte) (kind : Byte) (n : Nat) (body : List Byte) :
    (messageHead pair kind n body).length = body.length + 5 := rfl

section
variable (pair : Byte × Byte) (kind : Byte) (n : Nat) {body : List Byte}

/-- The length byte of a message tells the length of its body. -/
theorem messageBytes_length_byte (h : body.length ≤ 83) : fieldNat (messageBytes pair kind n body) 4 1 = body.length := by
  show natOf [BitVec.ofNat 8 body.length] = _
  simp [natOf]
  omega

/-- R166: a message formed by the layout passes both checks. -/
theorem checkMessage_messageBytes (h : body.length ≤ 83) : checkMessage (messageBytes pair kind n body) = none := by
  have length : (messageBytes pair kind n body).length - 2 = (messageHead pair kind n body).length := by
    simp [messageBytes_eq]
  have head : (messageBytes pair kind n body).take (messageHead pair kind n body).length = messageHead pair kind n body :=
    List.take_left
  have check : (messageBytes pair kind n body).drop (messageHead pair kind n body).length =
      bytesOf 2 (crc16 (messageHead pair kind n body)).toNat := List.drop_left
  have word : (crc16 (messageHead pair kind n body)).toNat < 256 ^ 2 := (crc16 _).isLt
  unfold checkMessage
  rw [messageBytes_length_byte pair kind n h, length, head, check, natOf_bytesOf_of_lt word,
    if_neg (by simp [messageBytes_eq, length_messageHead]; omega), if_neg (by simp)]

theorem messageBytes_body : field (messageBytes pair kind n body) 5 body.length = body := by
  show (body ++ bytesOf 2 _).take body.length = body
  exact List.take_left

end

/-- R166: a message that passes both checks goes to the step of its kind. -/
theorem State.laneMessage_messageBytes (s : State) (plant unit kind number : Byte) {body : List Byte}
    (h : body.length ≤ 83) : s.laneMessage (messageBytes (plant, unit) kind number.toNat body) =
      ({ s with disp.discardRun := false }).owe (messageStep plant unit kind number body) := by
  unfold State.laneMessage
  rw [checkMessage_messageBytes _ _ _ h, messageBytes_length_byte _ _ _ h, messageBytes_body]
  simp [messageBytes, byteAt]

end Sys2Proof.Machine

open Sys2Proof.Machine in
/-- Settles O8: the header tells the length, and each command's arguments are taken by its form. -/
theorem Sys2Proof.commandBytesDecode : Obligations.CommandBytesDecode := fun _ _ _ _ hw hc he =>
  State.commandComplete_commandBytes he (commandOf_length hw hc) (parseCommand_of_commandOf hw hc)

open Sys2Proof.Machine in
/-- Settles O9: a message formed by the layout passes both checks. -/
theorem Sys2Proof.messageBytesDecode : Obligations.MessageBytesDecode := fun plant unit kind number _ s h =>
  s.laneMessage_messageBytes plant unit kind number h
end

