-- ==== Sys2Proof/Proofs/CycleFrameBytes.lean ====
section
/-! PROOFS. The bytes of a cycle frame are read back as that frame (O12). -/

namespace Sys2Proof.Machine

/-! ### Slots -/

theorem Slot.length_bytes (x : Slot) : x.bytes.length = 4 := by simp [Slot.bytes]

theorem length_flatMap_slotBytes (xs : List Slot) : (xs.flatMap Slot.bytes).length = 4 * xs.length := by
  induction xs with
  | nil => rfl
  | cons x xs ih => simp [Slot.length_bytes, ih]; omega

/-- The bytes of slots spell those slots, whatever follows them. -/
theorem slotsOf_flatMap_slotBytes (xs : List Slot) (rest : List Byte) :
    slotsOf xs.length (xs.flatMap Slot.bytes ++ rest) = xs := by
  induction xs with
  | nil => rfl
  | cons x xs ih =>
    simp [slotsOf, Slot.bytes, fieldNat, field, byteAt, -natOf_bytesOf] at ih ⊢
    exact ih

/-! ### The header and the areas -/

/-- The 17 bytes of the header that its check is formed over (R21). -/
def CycleFrame.head (f : CycleFrame) : List Byte :=
  [0x01, f.flags] ++ bytesOf 2 f.cycle ++ bytesOf 2 f.slots.length ++ bytesOf 4 f.ack.toNat ++
    bytesOf 6 f.serial.toNat ++ [f.number]

/-- What a cycle frame carries behind its slots. -/
def CycleFrame.areas (f : CycleFrame) : List Byte := f.attn ++ f.mbox ++ f.lane ++ f.rest

section
variable (f : CycleFrame)

theorem CycleFrame.length_head : f.head.length = 17 := by simp [CycleFrame.head]

theorem CycleFrame.bytes_eq : f.bytes = f.head ++ (crc8 f.head :: (f.slots.flatMap Slot.bytes ++ f.areas)) := by
  show f.head ++ [crc8 f.head] ++ f.slots.flatMap Slot.bytes ++ f.attn ++ f.mbox ++ f.lane ++ f.rest = _
  simp [CycleFrame.areas]

theorem CycleFrame.take_bytes : f.bytes.take 17 = f.head := by
  rw [f.bytes_eq]
  exact List.take_left' f.length_head

theorem CycleFrame.drop_bytes : f.bytes.drop 17 = crc8 f.head :: (f.slots.flatMap Slot.bytes ++ f.areas) := by
  rw [f.bytes_eq]
  exact List.drop_left' f.length_head

theorem CycleFrame.byteAt_check : byteAt f.bytes 17 = crc8 f.head := by
  have h : f.bytes.getD 17 0 = (f.bytes.drop 17).getD 0 0 := by simp
  rw [byteAt, h, f.drop_bytes]
  rfl

theorem CycleFrame.drop_header : f.bytes.drop 18 = f.slots.flatMap Slot.bytes ++ f.areas := by
  have h : f.bytes.drop 18 = (f.bytes.drop 17).drop 1 := by simp
  rw [h, f.drop_bytes]
  rfl

theorem CycleFrame.drop_slots : f.bytes.drop (18 + 4 * f.slots.length) = f.areas := by
  rw [← List.drop_drop, f.drop_header]
  exact List.drop_left' (length_flatMap_slotBytes f.slots)

theorem CycleFrame.length_bytes : f.bytes.length = 18 + 4 * f.slots.length + f.areas.length := by
  rw [f.bytes_eq]
  simp only [List.length_append, List.length_cons, f.length_head, length_flatMap_slotBytes]
  omega

/-- The header fields of a written frame, by their places (R21). -/
theorem CycleFrame.header_fields (hc : f.cycle < 65536) (hn : f.slots.length ≤ 256) :
    byteAt f.bytes 1 = f.flags ∧ fieldNat f.bytes 2 2 = f.cycle ∧ fieldNat f.bytes 4 2 = f.slots.length ∧
      BitVec.ofNat 32 (fieldNat f.bytes 6 4) = f.ack ∧ BitVec.ofNat 48 (fieldNat f.bytes 10 6) = f.serial ∧
      byteAt f.bytes 16 = f.number := by
  have cycle : natOf (bytesOf 2 f.cycle) = f.cycle := natOf_bytesOf_of_lt hc
  have count : natOf (bytesOf 2 f.slots.length) = f.slots.length := natOf_bytesOf_of_lt (by omega)
  simp [f.bytes_eq, CycleFrame.head, byteAt, fieldNat, field, cycle, count, -natOf_bytesOf]

theorem CycleFrame.area_fields (ha : f.attn.length = 32) (hm : f.mbox.length = 50) (hl : f.lane.length = 32) :
    field f.areas 0 32 = f.attn ∧ field f.areas 32 50 = f.mbox ∧ field f.areas 82 32 = f.lane ∧
      f.areas.drop 114 = f.rest := by
  have ha' : f.attn.drop 114 = [] := List.drop_of_length_le (by omega)
  have hm' : f.mbox.drop 82 = [] := List.drop_of_length_le (by omega)
  simp [field, CycleFrame.areas, List.drop_append, List.take_append, ha, hm, hl, ha', hm']

/-- R2: a written frame whose areas have their lengths is sound. -/
theorem CycleFrame.parseCycle_bytes (hc : f.cycle < 65536) (hn : f.slots.length ≤ 256) (ha : f.attn.length = 32)
    (hm : f.mbox.length = 50) (hl : f.lane.length = 32) : parseCycle f.bytes = some f := by
  obtain ⟨flags, cycle, count, ack, serial, number⟩ := f.header_fields hc hn
  obtain ⟨attn, mbox, lane, rest⟩ := f.area_fields ha hm hl
  have areas : 114 ≤ f.areas.length := by simp [CycleFrame.areas, ha, hm, hl]; omega
  have sound : ¬(f.bytes.length < 18 ∨ crc8 (f.bytes.take 17) ≠ byteAt f.bytes 17 ∨ 256 < f.slots.length ∨
      f.bytes.length < 132 + 4 * f.slots.length) := by
    rw [f.take_bytes, f.byteAt_check, f.length_bytes]
    simp
    omega
  unfold parseCycle
  simp only [count, if_neg sound, f.drop_header, slotsOf_flatMap_slotBytes, f.drop_slots, flags, cycle, ack, serial, number,
    attn, mbox, lane, rest]

end

end Sys2Proof.Machine

open Sys2Proof.Machine in
/-- Settles O12: a written frame passes the checks of R2 and is taken apart into its fields. -/
theorem Sys2Proof.cycleFrameLayout : Obligations.CycleFrameLayout := fun f hc hn ha hm hl => by
  have first : f.bytes.head? = some 0x01 := rfl
  unfold examine CycleFrame.link
  simp [first, f.parseCycle_bytes hc hn ha hm hl]
end

