-- ==== Sys2Proof/Proofs/Mailbox.lean ====
section
/-! PROOFS. The mailbox: a command put together from its segments (R181), the discards, and a response offered segment by
segment (R182) (O11). -/

namespace Sys2Proof.Machine

/-! ### Areas and segments (R21) -/

theorem segmentArea_length_byte {n : Nat} {first last : Bool} {data : List Byte} (h : data.length < 256) :
    (byteAt (segmentArea n first last 0 data) 1).toNat = data.length := by
  show (BitVec.ofNat 8 data.length).toNat = _
  simp
  omega

/-- An area that carries a segment is read as that segment, its data area padded. -/
theorem segmentOf_segmentArea {n : Nat} {first last : Bool} {data : List Byte} (h : data.length < 256) :
    segmentOf (segmentArea n first last 0 data) =
      some ⟨first, last, 0, data.length, (segmentArea n first last 0 data).drop 2⟩ := by
  have flags : byteAt (segmentArea n first last 0 data) 0 = segmentFlags first last 0 := rfl
  unfold segmentOf
  rw [flags, segmentArea_length_byte h]
  cases first <;> cases last <;> rfl

theorem take_drop_segmentArea {n : Nat} {first last : Bool} {data : List Byte} :
    ((segmentArea n first last 0 data).drop 2).take data.length = data :=
  List.take_left

/-! ### Reassembly (R181) -/

section
variable {s : State} {g : AreaSegment} {d : MailDiscard} {bytes : List Byte} {n : Nat}

theorem State.mailTake_of_overlong (h : 48 < g.length ∨ 240 < (bytes ++ g.data.take g.length).length ∨ 5 < n + 1) :
    s.mailTake bytes n g = ({ s with mgmt.rx := if g.last then .idle else .skipping } : State).mailDiscard .overlong := by
  unfold State.mailTake
  exact if_pos h

theorem State.mailTake_of_last (h : ¬(48 < g.length ∨ 240 < (bytes ++ g.data.take g.length).length ∨ 5 < n + 1))
    (hl : g.last = true) : s.mailTake bytes n g =
      ({ s with mgmt := { s.mgmt with rx := .idle, discardRun := false } } : State).commandComplete
        (bytes ++ g.data.take g.length) := by
  unfold State.mailTake
  simp only [if_neg h, hl, if_true]

theorem State.mailTake_of_more (h : ¬(48 < g.length ∨ 240 < (bytes ++ g.data.take g.length).length ∨ 5 < n + 1))
    (hl : g.last = false) :
    s.mailTake bytes n g = { s with mgmt.rx := .assembling (bytes ++ g.data.take g.length) (n + 1) } := by
  unfold State.mailTake
  simp only [if_neg h, hl, Bool.false_eq_true, if_false]

/-- R181: what is held of a command once its first `k` segments have been taken. -/
def heldOf (c : List Byte) (k : Nat) : Reassembly := if k = 0 then .idle else .assembling (c.take (48 * k)) k

/-- R181: the area of segment `k` of a command. -/
def commandArea (c : List Byte) (k : Nat) : List Byte :=
  segmentArea 50 (decide (k = 0)) (decide (k + 1 = (c.length + 47) / 48)) 0 ((c.drop (48 * k)).take 48)

/-- R181: segment `k` of a command is handed over when those before it have been taken. -/
theorem State.mailIn_commandArea {c : List Byte} {k : Nat} (hk : k < (c.length + 47) / 48) (hc : c.length ≤ 240)
    (hs : s.mgmt.rx = heldOf c k) :
    s.mailIn (commandArea c k) =
      if k + 1 = (c.length + 47) / 48 then
        ({ s with mgmt := { s.mgmt with rx := .idle, discardRun := false } } : State).commandComplete c
      else { s with mgmt.rx := heldOf c (k + 1) } := by
  have size : ((c.drop (48 * k)).take 48).length ≤ 48 := by simp
  have joined : c.take (48 * k) ++ (c.drop (48 * k)).take 48 = c.take (48 * (k + 1)) := by
    rw [Nat.mul_succ, List.take_add]
  have taken : s.mailIn (commandArea c k) = s.mailTake (c.take (48 * k)) k
      ⟨decide (k = 0), decide (k + 1 = (c.length + 47) / 48), 0, ((c.drop (48 * k)).take 48).length,
        (commandArea c k).drop 2⟩ := by
    unfold State.mailIn commandArea
    rw [segmentOf_segmentArea (by omega)]
    unfold State.mailSegment
    cases k with
    | zero => simp [hs, heldOf]
    | succ k => simp [hs, heldOf]
  rw [taken]
  have all : c.take (48 * k) ++ ((commandArea c k).drop 2).take ((c.drop (48 * k)).take 48).length =
      c.take (48 * (k + 1)) := by
    unfold commandArea
    rw [take_drop_segmentArea, joined]
  have fits : ¬(48 < ((c.drop (48 * k)).take 48).length ∨ 240 < (c.take (48 * k) ++
      ((commandArea c k).drop 2).take ((c.drop (48 * k)).take 48).length).length ∨ 5 < k + 1) := by
    have whole : (c.take (48 * (k + 1))).length ≤ c.length := List.length_take_le' ..
    rw [all]
    omega
  split
  case isTrue hl =>
    rw [State.mailTake_of_last fits (decide_eq_true hl), all, List.take_of_length_le (by omega)]
  case isFalse hl =>
    rw [State.mailTake_of_more fits (decide_eq_false hl), all]
    simp [heldOf]

/-- R181: a command cut into segments and handed over to an IDLE buffer is put together again. -/
theorem State.mailIn_reassembles {c : List Byte} (h1 : 1 ≤ c.length) (h2 : c.length ≤ 240) (hs : s.mgmt.rx = .idle) :
    ((List.range ((c.length + 47) / 48)).map (commandArea c)).foldl State.mailIn s =
      ({ s with mgmt.discardRun := false } : State).commandComplete c := by
  have held : ∀ k, k < (c.length + 47) / 48 →
      ((List.range k).map (commandArea c)).foldl State.mailIn s = { s with mgmt.rx := heldOf c k } := by
    intro k
    induction k with
    | zero =>
      intro _
      show s = { s with mgmt.rx := .idle }
      rw [← hs]
    | succ k ih =>
      intro hk
      rw [List.range_succ, List.map_append, List.foldl_append, ih (by omega)]
      show State.mailIn _ (commandArea c k) = _
      rw [State.mailIn_commandArea (by omega) h2 rfl, if_neg (by omega)]
  obtain ⟨k, hk⟩ : ∃ k, (c.length + 47) / 48 = k + 1 := ⟨(c.length + 47) / 48 - 1, by omega⟩
  rw [hk, List.range_succ, List.map_append, List.foldl_append, held k (by omega)]
  show State.mailIn _ (commandArea c k) = _
  rw [State.mailIn_commandArea (by omega) h2 rfl, if_pos hk.symm]
  show State.commandComplete { s with mgmt := { s.mgmt with rx := .idle, discardRun := false } } c = _
  rw [← hs]

/-! ### Discards (R181) -/

theorem Mgmt.addDiscard_events (m : Mgmt) (d : MailDiscard) : (m.addDiscard d).events = m.events := by cases d <;> rfl

/-- R181: a discard is counted and begins or goes on with a run of discards; the event queue apart, nothing else
changes. -/
theorem State.mailDiscard_mgmt (s : State) (d : MailDiscard) :
    ∃ events lost, (s.mailDiscard d).mgmt = { s.mgmt.addDiscard d with discardRun := true, events := events, lost := lost } := by
  unfold State.mailDiscard
  dsimp only
  split
  · exact ⟨_, _, rfl⟩
  · rw [State.log_mgmt]
    split
    · exact ⟨_, _, rfl⟩
    · exact ⟨_, _, rfl⟩

theorem State.mailDiscard_of_run (h : s.mgmt.discardRun = true) :
    s.mailDiscard d = { s with mgmt := { s.mgmt.addDiscard d with discardRun := true } } := by
  unfold State.mailDiscard
  exact if_pos h

theorem State.mailDiscard_of_first (h : s.mgmt.discardRun = false) :
    s.mailDiscard d = ({ s with mgmt := { s.mgmt.addDiscard d with discardRun := true } } : State).log .mgmt
      .mailboxDiscard d.code := by
  unfold State.mailDiscard
  exact if_neg (by simp [h])

/-- R181: the discard-run flag stands after a discard, and the first discard of a run is logged. -/
theorem State.mailDiscard_logs (s : State) (d : MailDiscard) :
    (s.mailDiscard d).mgmt.discardRun = true ∧
      (s.mgmt.discardRun = true → (s.mailDiscard d).mgmt.events = s.mgmt.events) ∧
      (s.mgmt.discardRun = false → s.mgmt.events.length < 64 →
        (s.mailDiscard d).Logged .mgmt .mailboxDiscard d.code 0 0) := by
  refine ⟨?_, fun h => ?_, fun h room => ?_⟩
  · obtain ⟨_, _, e⟩ := s.mailDiscard_mgmt d
    rw [e]
  · rw [State.mailDiscard_of_run h]
    exact s.mgmt.addDiscard_events d
  · rw [State.mailDiscard_of_first h]
    exact State.logged_of_room _ _ _ _ _ _ ((s.mgmt.addDiscard_events d).symm ▸ room)

theorem State.mailSegment_of_orphan (h : s.mgmt.rx = .idle) (hf : g.first = false) :
    s.mailSegment g = s.mailDiscard .orphan := by
  unfold State.mailSegment
  simp [h, hf]

theorem State.mailSegment_of_restart (h : s.mgmt.rx = .assembling bytes n) (hf : g.first = true) (hl : g.last = false)
    (hg : g.length ≤ 48) : s.mailSegment g =
      { s.mailDiscard .incomplete with mgmt.rx := .assembling (g.data.take g.length) 1 } := by
  have fits : ¬(48 < g.length ∨ 240 < (g.data.take g.length).length ∨ 5 < 0 + 1) := by
    have := List.length_take_le g.length g.data
    omega
  unfold State.mailSegment
  simp only [h, hf, if_true]
  exact State.mailTake_of_more (bytes := []) fits hl

theorem State.mailSegment_of_overlong (h : s.mgmt.rx = .assembling bytes n) (hf : g.first = false)
    (ho : 48 < g.length ∨ 240 < bytes.length + (g.data.take g.length).length ∨ 5 < n + 1) : s.mailSegment g =
      ({ s with mgmt.rx := if g.last then .idle else .skipping } : State).mailDiscard .overlong := by
  unfold State.mailSegment
  simp only [h, hf, Bool.false_eq_true, if_false]
  exact State.mailTake_of_overlong (by rwa [List.length_append])

theorem State.mailSegment_of_skipping (h : s.mgmt.rx = .skipping) (hf : g.first = false) :
    s.mailSegment g = if g.last then { s with mgmt.rx := .idle } else s := by
  unfold State.mailSegment
  simp [h, hf]

/-! ### Responses (R182) -/

variable {r : Response} {k : Nat}

theorem RespData.length_toBytes (d : RespData) : d.toBytes.length ≤ 236 := by
  cases d <;> exact List.length_take_le ..

theorem Response.length_toBytes (r : Response) : r.toBytes.length = 4 + r.data.toBytes.length := by
  simp [Response.toBytes]
  omega

theorem Response.toBytes_of_no_data (c : Byte) (k : RespCode) :
    Response.toBytes ⟨c, k, .bytes []⟩ = [c, k.byte, 0, 0] := by
  simp [Response.toBytes, RespData.toBytes, bytesOf]

theorem Mgmt.offer_of_begun {m : Mgmt} (hr : m.response = some r) (hn : m.nextSegment = k + 1) :
    m.offer = some (.response r) := by
  unfold Mgmt.offer
  rw [hr, hn]

section
variable {m : Mgmt} {c : Byte}

/-- R191: the ABORTED response stands before a response not yet begun. -/
theorem Mgmt.offer_of_aborted (h : m.response = none ∨ m.nextSegment = 0) (ha : m.abortedCommand = some c) :
    m.offer = some (.aborted c) := by
  unfold Mgmt.offer
  split
  case h_1 hr hn => simp [hr, hn] at h
  case h_2 => simp only [ha]

/-- R182: and so does a busy answer. -/
theorem Mgmt.offer_of_busy (h : m.response = none ∨ m.nextSegment = 0) (ha : m.abortedCommand = none)
    (hb : m.busyAnswer = some c) : m.offer = some (.busy c) := by
  unfold Mgmt.offer
  split
  case h_1 hr hn => simp [hr, hn] at h
  case h_2 => simp only [ha, hb]

theorem Mgmt.offer_of_waiting (h : m.response = none ∨ m.nextSegment = 0) (ha : m.abortedCommand = none)
    (hb : m.busyAnswer = none) : m.offer = m.response.map .response := by
  unfold Mgmt.offer
  split
  case h_1 hr hn => simp [hr, hn] at h
  case h_2 => simp only [ha, hb]

end

theorem State.mailArea_of_response (h : s.mgmt.offer = some (.response r)) : s.mailArea =
    segmentArea 50 (decide (s.mgmt.nextSegment = 0)) (decide (r.toBytes.length ≤ 48 * (s.mgmt.nextSegment + 1))) 0
      ((r.toBytes.drop (48 * s.mgmt.nextSegment)).take 48) := by
  unfold State.mailArea
  simp only [h]
  rfl

theorem State.mailWritten_of_more (h : s.mgmt.offer = some (.response r))
    (hk : 48 * (s.mgmt.nextSegment + 1) < r.toBytes.length) :
    s.mailWritten = { s with mgmt.nextSegment := s.mgmt.nextSegment + 1 } := by
  unfold State.mailWritten
  simp only [h, cutSegment]
  exact if_neg (by simpa using hk)

theorem State.mailWritten_of_last (h : s.mgmt.offer = some (.response r))
    (hk : r.toBytes.length ≤ 48 * (s.mgmt.nextSegment + 1)) : s.mailWritten =
      State.oweRestart { s with mgmt := { s.mgmt with response := none, nextSegment := 0, executing := none } } r := by
  unfold State.mailWritten
  simp only [h, cutSegment]
  exact if_pos (by simpa using hk)

theorem State.oweRestart_frame (s : State) (r : Response) : { s.oweRestart r with owed := s.owed } = s := by
  unfold State.oweRestart
  split
  · rfl
  · split <;> rfl

theorem State.oweRestart_mgmt (s : State) (r : Response) : (s.oweRestart r).mgmt = s.mgmt :=
  (congrArg State.mgmt (s.oweRestart_frame r) :)

/-- R182: while a response is written, segment by segment, only the number of the next one moves. -/
theorem State.repeat_mailWritten (hr : s.mgmt.response = some r) (hn : s.mgmt.nextSegment = 0)
    (ha : s.mgmt.abortedCommand = none) (hb : s.mgmt.busyAnswer = none) :
    ∀ k, k < (r.toBytes.length + 47) / 48 → Nat.repeat State.mailWritten k s = { s with mgmt.nextSegment := k } ∧
      ({ s with mgmt.nextSegment := k } : State).mgmt.offer = some (.response r) := by
  have offer : ∀ k, ({ s with mgmt.nextSegment := k } : State).mgmt.offer = some (.response r) := by
    intro k
    cases k with
    | zero => exact (Mgmt.offer_of_waiting (m := { s.mgmt with nextSegment := 0 }) (.inr rfl) ha hb).trans (congrArg _ hr)
    | succ k => exact Mgmt.offer_of_begun hr rfl
  intro k
  induction k with
  | zero =>
    intro _
    refine ⟨?_, offer 0⟩
    show s = { s with mgmt.nextSegment := 0 }
    rw [← hn]
  | succ k ih =>
    intro hk
    refine ⟨?_, offer (k + 1)⟩
    obtain ⟨e, _⟩ := ih (by omega)
    show State.mailWritten (Nat.repeat State.mailWritten k s) = _
    rw [e, State.mailWritten_of_more (offer k) (show 48 * (k + 1) < _ by omega)]

/-- R182: once the last segment of a response has been written, the command's execution has ended. -/
theorem State.repeat_mailWritten_all (hr : s.mgmt.response = some r) (hn : s.mgmt.nextSegment = 0)
    (ha : s.mgmt.abortedCommand = none) (hb : s.mgmt.busyAnswer = none) :
    Nat.repeat State.mailWritten ((r.toBytes.length + 47) / 48) s =
      State.oweRestart { s with mgmt := { s.mgmt with response := none, nextSegment := 0, executing := none } } r := by
  have size := r.length_toBytes
  obtain ⟨k, hk⟩ : ∃ k, (r.toBytes.length + 47) / 48 = k + 1 := ⟨(r.toBytes.length + 47) / 48 - 1, by omega⟩
  obtain ⟨e, offer⟩ := State.repeat_mailWritten hr hn ha hb k (by omega)
  rw [hk]
  show State.mailWritten (Nat.repeat State.mailWritten k s) = _
  rw [e, State.mailWritten_of_last offer (show _ ≤ 48 * (k + 1) by omega)]

theorem State.mailArea_of_waiting (h : s.mgmt.response = none ∨ s.mgmt.nextSegment = 0) :
    (∀ c, s.mgmt.abortedCommand = some c →
      s.mailArea = segmentArea 50 true true 0 [c, RespCode.aborted.byte, 0, 0] ∧
        s.mailWritten = { s with mgmt.abortedCommand := none }) ∧
      (∀ c, s.mgmt.abortedCommand = none → s.mgmt.busyAnswer = some c →
        s.mailArea = segmentArea 50 true true 0 [c, RespCode.busy.byte, 0, 0] ∧
          s.mailWritten = { s with mgmt.busyAnswer := none }) ∧
      (s.mgmt.abortedCommand = none → s.mgmt.busyAnswer = none → s.mgmt.response = none →
        s.mailArea = emptyArea 50 ∧ s.mailWritten = s) := by
  unfold State.mailArea State.mailWritten
  refine ⟨fun c hc => ?_, fun c ha hc => ?_, fun ha hb hr => ?_⟩
  · simp only [Mgmt.offer_of_aborted h hc, Response.toBytes_of_no_data, and_self]
  · simp only [Mgmt.offer_of_busy h ha hc, Response.toBytes_of_no_data, and_self]
  · simp only [Mgmt.offer_of_waiting h ha hb, hr]
    exact ⟨rfl, rfl⟩

/-! ### The judgement of a complete command (R182) -/

theorem State.commandComplete_of_busy {code : Byte} {rest : List Byte} (h : s.mgmt.executing ≠ none) :
    s.commandComplete (code :: rest) = { s with mgmt.busyAnswer := some code } := by
  unfold State.commandComplete
  exact if_pos (Option.isSome_iff_ne_none.mpr h)

theorem State.commandComplete_of_unsound {code : Byte} {rest : List Byte} (h : s.mgmt.executing = none)
    (hl : ¬(3 ≤ (code :: rest).length ∧ (code :: rest).length = 3 + fieldNat (code :: rest) 1 2)) :
    s.commandComplete (code :: rest) =
      ({ s with mgmt.executing := some code } : State).place ⟨code, .badLength, .bytes []⟩ := by
  unfold State.commandComplete
  simp only [h, Option.isSome_none, Bool.false_eq_true, if_false]
  exact if_pos (by omega)

/-- R182, step 3: the codes outside 1 to 0x13 are no commands. -/
theorem parseCommand_of_unknown {code : Byte} (a : List Byte) (h : code = 0 ∨ 0x13 < code.toNat) :
    parseCommand code a = .badCommand := by
  unfold parseCommand
  rcases h with rfl | h
  · rfl
  · split
    case h_20 => rfl
    all_goals omega

theorem State.commandComplete_of_unknown {code : Byte} {rest : List Byte} (h : s.mgmt.executing = none)
    (hl : 3 ≤ (code :: rest).length ∧ (code :: rest).length = 3 + fieldNat (code :: rest) 1 2)
    (hc : code = 0 ∨ 0x13 < code.toNat) : s.commandComplete (code :: rest) =
      ({ s with mgmt.executing := some code } : State).place ⟨code, .badCommand, .bytes []⟩ := by
  have sound : ¬((code :: rest).length < 3 ∨ (code :: rest).length ≠ 3 + fieldNat (code :: rest) 1 2) := by omega
  unfold State.commandComplete
  simp only [h, Option.isSome_none, Bool.false_eq_true, if_false, if_neg sound, parseCommand_of_unknown _ hc]

end

end Sys2Proof.Machine

open Sys2Proof.Machine in
/-- Settles O11: reassembly, discards, the offers in their order and the judgement. -/
theorem Sys2Proof.mailboxSegments : Obligations.MailboxSegments := fun s => by
  refine ⟨fun c h1 h2 hs => State.mailIn_reassembles h1 h2 hs, fun g => ⟨fun hs hf => ?_, fun bytes n hs hf hl hg => ?_,
    fun bytes n hs hf ho => ?_, State.mailSegment_of_skipping⟩, fun r hr hn ha hb => ?_, fun r k hr hk => ?_,
    State.mailArea_of_waiting, fun code rest => ⟨State.commandComplete_of_busy, State.commandComplete_of_unsound,
    State.commandComplete_of_unknown⟩⟩
  · rw [State.mailSegment_of_orphan hs hf]
    obtain ⟨_, _, e⟩ := s.mailDiscard_mgmt .orphan
    exact ⟨by rw [e]; exact hs, by rw [e]; rfl, s.mailDiscard_logs .orphan⟩
  · rw [State.mailSegment_of_restart hs hf hl hg]
    obtain ⟨_, _, e⟩ := s.mailDiscard_mgmt .incomplete
    exact ⟨rfl, by show (s.mailDiscard .incomplete).mgmt.incomplete = _; rw [e]; rfl, s.mailDiscard_logs .incomplete⟩
  · rw [State.mailSegment_of_overlong hs hf ho]
    obtain ⟨_, _, e⟩ := State.mailDiscard_mgmt { s with mgmt.rx := if g.last then .idle else .skipping } .overlong
    exact ⟨by rw [e]; rfl, by rw [e]; rfl, State.mailDiscard_logs _ .overlong⟩
  · have size := r.length_toBytes
    have bound := r.data.length_toBytes
    refine ⟨by omega, by omega, rfl, fun k hk => ?_, ?_, ?_⟩
    · obtain ⟨e, offer⟩ := State.repeat_mailWritten hr hn ha hb k hk
      have last : decide (k + 1 = (r.toBytes.length + 47) / 48) = decide (r.toBytes.length ≤ 48 * (k + 1)) := by
        rw [decide_eq_decide]
        omega
      rw [e, State.mailArea_of_response offer, last]
    · rw [State.repeat_mailWritten_all hr hn ha hb, State.oweRestart_mgmt]
    · rw [State.repeat_mailWritten_all hr hn ha hb]
      exact (congrArg (fun u : State => { u with mgmt := s.mgmt }) (State.oweRestart_frame _ r) :)
  · rw [State.mailArea_of_response (Mgmt.offer_of_begun hr hk), hk]
    rfl
end

