-- ==== Sys2Proof/Proofs/EnumerationRun.lean ====
section
/-! PROOFS. The course of an enumeration run: the station entries it touches, its end and the return to the resume target
(R15, R25 to R28), and ENUM_FRAME_RETURN (O24). -/

namespace Sys2Proof.Machine

section
variable {s t : State} {n m : Nat} {e : Station}

/-! ### Station entries (R23, R26) -/

theorem State.setStation_station (h : 1 ≤ n) (hn : n ≤ s.seg.stations.length) : (s.setStation n e).station n = e := by
  have h0 : n ≠ 0 := by omega
  have h1 : n - 1 < s.seg.stations.length := by omega
  simp [State.station, State.setStation, h0, h1]

theorem State.setStation_station_other (h : 1 ≤ n) (hm : m ≠ n) : (s.setStation n e).station m = s.station m := by
  by_cases h0 : m = 0
  · simp [State.station, h0]
  · have h1 : n - 1 ≠ m - 1 := by omega
    simp [State.station, State.setStation, h0, h1]

theorem State.station_congr (h : t.seg.stations = s.seg.stations) (n : Nat) : t.station n = s.station n := by
  unfold State.station
  rw [h]

theorem Station.release_release (e : Station) : e.release.release = e.release := by
  cases h : e.lock <;> simp [Station.release, h]

/-- R26: the entry of an assignment released, and no other. -/
theorem State.setStation_release (h : 1 ≤ n) (m : Nat) :
    (s.setStation n (s.station n).release).station m = if m = n then (s.station n).release else s.station m := by
  split
  case isTrue hm =>
    subst hm
    by_cases hn : m ≤ s.seg.stations.length
    · exact State.setStation_station h hn
    · have beyond : s.station m = .free := by
        have h1 : s.seg.stations.length ≤ m - 1 := by omega
        simp [State.station, h1]
      have same : (s.setStation m Station.free.release).station m = s.station m := by
        unfold State.setStation State.station
        rw [List.set_eq_of_length_le (by omega)]
      rw [beyond, same, beyond]
      rfl
  case isFalse hm => exact State.setStation_station_other h hm

theorem State.releaseAssigned_station {a : Option (Serial × Nat)} (h : ∀ x, a = some x → 1 ≤ x.2) (m : Nat) :
    (s.releaseAssigned a).station m = if ∃ x, a = some x ∧ x.2 = m then (s.station m).release else s.station m := by
  cases a with
  | none => simp [State.releaseAssigned]
  | some x =>
    show (s.setStation x.2 (s.station x.2).release).station m = _
    rw [State.setStation_release (h x rfl)]
    by_cases hm : m = x.2
    · simp [hm]
    · simp [hm, Ne.symm hm]

/-! ### The end of a run (R15, R28) -/

/-- R15: the ring once ENUMERATING has ended toward the resume target; a target RUN needs a valid slot map (log 17). -/
def Ring.resumed (r : Ring) (valid : Bool) : Ring :=
  if r.resume = .run ∧ valid = true then { r with flight := none, segment := .run }
  else { r with flight := none, segment := .config, resume := .config }

theorem Ring.resumed_flight (r : Ring) (valid : Bool) : (r.resumed valid).flight = none := by
  unfold Ring.resumed
  split <;> rfl

theorem Ring.resumed_counters (r : Ring) (valid : Bool) : (r.resumed valid).counters = r.counters := by
  unfold Ring.resumed
  split <;> rfl

theorem Ring.resumed_slotMap (r : Ring) (valid : Bool) : (r.resumed valid).slotMap = r.slotMap := by
  unfold Ring.resumed
  split <;> rfl

theorem Ring.resumed_segment (r : Ring) (valid : Bool) :
    (r.resumed valid).segment = if r.resume = .run ∧ valid = true then .run else .config := by
  unfold Ring.resumed
  split <;> rfl

theorem Ring.resumed_segment_ne (r : Ring) (valid : Bool) : (r.resumed valid).segment ≠ .enumerating := by
  rw [r.resumed_segment]
  split <;> exact SegState.noConfusion

theorem Ring.resumed_of_config {r : Ring} (h : r.resume = .config) (valid : Bool) :
    r.resumed valid = { r with flight := none, segment := .config } := by
  simp [Ring.resumed, h]

theorem Ring.resumed_of_valid {r : Ring} (h : r.resume = .run) :
    r.resumed true = { r with flight := none, segment := .run } := by
  simp [Ring.resumed, h]

theorem Ring.resumed_of_invalid (r : Ring) :
    r.resumed false = { r with flight := none, segment := .config, resume := .config } := by
  simp [Ring.resumed]

/-- R15: the end of ENUMERATING is a change of the ring, and what the line controllers make of it. -/
theorem State.endEnumerating_frame (s : State) :
    UpdateFrame { s with ring := s.ring.resumed s.validate.isNone } s.endEnumerating ∧
      s.endEnumerating.turb = s.turb := by
  have valid : ({ s with ring.flight := none } : State).validate = s.validate :=
    State.validate_congr (fun _ => rfl) (fun _ => rfl) rfl
  unfold State.endEnumerating
  dsimp only at valid ⊢
  rw [valid]
  split
  · next hr =>
    rw [Ring.resumed_of_config hr]
    exact ⟨State.setSegment_frame { s with ring.flight := none } .config, State.setSegment_turb ..⟩
  · next hr =>
    split
    · next hv =>
      rw [hv, Option.isNone_none, Ring.resumed_of_valid hr]
      exact ⟨State.setSegment_frame { s with ring.flight := none } .run, State.setSegment_turb ..⟩
    · next hv =>
      rw [hv, Option.isNone_some, Ring.resumed_of_invalid]
      exact ⟨(State.setSegment_frame { s with ring := { s.ring with flight := none, resume := .config } } .config).log,
        by simp⟩

/-- R28: the segment manager once a run has ended; INCOMPLETE releases the assignments under way. -/
def Segment.runClosed (g : Segment) (o : EnumOutcome) : Segment :=
  { (if o = .incomplete then (g.releasing g.enum.awaiting).releasing g.enum.winner else g) with
    enum := { g.enum with running := false, winner := none, awaiting := none, offer := none, outcome := some o } }

/-- R28: what the end of a run makes of the part. -/
structure State.RunEnded (s : State) (o : EnumOutcome) (t : State) : Prop where
  clock    : t.clock = s.clock
  turb     : t.turb = s.turb
  disp     : t.disp = s.disp
  seg      : t.seg = s.seg.runClosed o
  ring     : t.ring = s.ring.resumed t.validate.isNone
  events   : ∀ e ∈ s.mgmt.events, e ∈ t.mgmt.events
  answered : s.enumerateWaits = true → t.Answered .enumerate .done
    [BitVec.ofNat 8 o.code, BitVec.ofNat 8 s.seg.enum.numbered, BitVec.ofNat 8 t.activeCount]

theorem State.endRun_eq (s : State) (o : EnumOutcome) :
    s.endRun o =
      let v := { s with seg := s.seg.runClosed o }
      let u := (v.log .station .enumerationDone o.code s.seg.enum.numbered v.activeCount).endEnumerating
      if u.enumerateWaits then
        u.answer .enumerate .done
          [BitVec.ofNat 8 o.code, BitVec.ofNat 8 s.seg.enum.numbered, BitVec.ofNat 8 v.activeCount]
      else u := by
  unfold State.endRun Segment.runClosed
  by_cases ho : o = .incomplete
  · subst ho
    rw [if_pos rfl, if_pos rfl, State.releaseAssigned_eq, State.releaseAssigned_eq]
    cases s.seg.enum.awaiting <;> cases s.seg.enum.winner <;> rfl
  · rw [if_neg ho, if_neg ho]

theorem State.answer_validate (s : State) (c : CommandCode) (k : RespCode) (d : List Byte) :
    (s.answer c k d).validate = s.validate := State.validate_congr (fun _ => rfl) (fun _ => rfl) rfl

theorem State.endRun_ended (s : State) (o : EnumOutcome) : s.RunEnded o (s.endRun o) := by
  rw [State.endRun_eq]
  dsimp only
  generalize hv : ({ s with seg := s.seg.runClosed o } : State) = v
  generalize hw : v.log .station .enumerationDone o.code s.seg.enum.numbered v.activeCount = w
  obtain ⟨resumed, turb⟩ := w.endEnumerating_frame
  have logged : UpdateFrame v w := hw ▸ .log (.refl v)
  have turb : w.endEnumerating.turb = s.turb := by rw [turb, ← hw, State.log_turb, ← hv]
  generalize w.endEnumerating = u at resumed turb
  have valid : u.validate = w.validate :=
    State.validate_congr (fun n => congrArg Station.state (State.station_congr (congrArg Segment.stations resumed.seg) n))
      (fun i => (resumed.points i).kind) (by rw [resumed.ring]; exact Ring.resumed_slotMap ..)
  have clock : u.clock = s.clock := by rw [resumed.clock, logged.clock, ← hv]
  have disp : u.disp = s.disp := by rw [resumed.disp, logged.disp, ← hv]
  have seg : u.seg = v.seg := by rw [resumed.seg, logged.seg]
  have ring : u.ring = s.ring.resumed u.validate.isNone := by rw [valid, resumed.ring, logged.ring, ← hv]
  have events : ∀ e ∈ s.mgmt.events, e ∈ u.mgmt.events := fun e he =>
    resumed.events e (logged.events e (by rwa [← hv]))
  have waits : u.enumerateWaits = s.enumerateWaits := by
    unfold State.enumerateWaits
    rw [resumed.executing, resumed.response, logged.executing, logged.response, ← hv]
  have active : v.activeCount = u.activeCount := by
    unfold State.activeCount
    rw [seg]
  rw [← hv] at seg
  split
  · exact ⟨clock, turb, disp, seg, by rw [State.answer_validate]; exact ring, events, fun _ => active ▸ State.answered ..⟩
  · next hn => exact ⟨clock, turb, disp, seg, ring, events, fun h => absurd (waits.trans h) hn⟩

theorem Segment.runClosed_stations {g : Segment} {o : EnumOutcome} (h : o ≠ .incomplete) :
    (g.runClosed o).stations = g.stations := by
  simp [Segment.runClosed, h]

/-- R26, R28: at the end of an INCOMPLETE run the entries of its assignments are released, and no other. -/
theorem State.station_of_incomplete (h : t.seg = s.seg.runClosed .incomplete)
    (ha : ∀ a, s.seg.enum.awaiting = some a ∨ s.seg.enum.winner = some a → 1 ≤ a.2) :
    (∀ a, s.seg.enum.awaiting = some a ∨ s.seg.enum.winner = some a → t.station a.2 = (s.station a.2).release) ∧
      ∀ m, (∀ a, s.seg.enum.awaiting = some a ∨ s.seg.enum.winner = some a → a.2 ≠ m) → t.station m = s.station m := by
  have stations : t.seg.stations =
      ((s.releaseAssigned s.seg.enum.awaiting).releaseAssigned s.seg.enum.winner).seg.stations := by
    rw [h, State.releaseAssigned_eq, State.releaseAssigned_eq]
    rfl
  have first := State.releaseAssigned_station (s := s) fun x hx => ha x (.inl hx)
  have second := State.releaseAssigned_station (s := s.releaseAssigned s.seg.enum.awaiting) fun x hx => ha x (.inr hx)
  refine ⟨fun a hm => ?_, fun m hm => ?_⟩
  · rw [State.station_congr stations, second, first]
    by_cases h1 : ∃ x, s.seg.enum.awaiting = some x ∧ x.2 = a.2
    · rw [if_pos h1, Station.release_release, ite_self]
    · rw [if_neg h1, if_pos ⟨a, hm.resolve_left fun e => h1 ⟨a, e, rfl⟩, rfl⟩]
  · rw [State.station_congr stations, second, first, if_neg fun ⟨x, hx, e⟩ => hm x (.inr hx) e,
      if_neg fun ⟨x, hx, e⟩ => hm x (.inl hx) e]

/-- R25, R28: the run of `s` with one more frame lost has ended INCOMPLETE. -/
theorem State.RunEnded.endedIncomplete {v : State} (h : State.RunEnded v .incomplete t) (hs : s.Shaped)
    (hv : v = { s with clock := v.clock, ring.flight := none, seg.enum.lost := s.seg.enum.lost + 1 }) :
    EndedIncomplete s t := by
  have assigned : ∀ a, v.seg.enum.awaiting = some a ∨ v.seg.enum.winner = some a → 1 ≤ a.2 := by
    rw [hv]
    exact hs.assigned
  obtain ⟨released, others⟩ := State.station_of_incomplete h.seg assigned
  rw [hv] at released others
  exact {
    turb := by rw [h.turb, hv]
    disp := by rw [h.disp, hv]
    flight := by rw [h.ring]; exact Ring.resumed_flight ..
    counters := by rw [h.ring, Ring.resumed_counters, hv]
    enum := by rw [h.seg, hv]; rfl
    segment := by
      rw [h.ring, Ring.resumed_segment, hv]
      simp only [Option.isNone_iff_eq_none]
    released := released
    others := others
    answered := fun hw => by
      have ended := h.answered (by rw [hv]; exact hw)
      rwa [hv] at ended }

/-! ### A returned frame at the segment manager (R26 to R28) -/

section
variable {c : EnumCarry} {arb cs : Serial} {cn : Nat} {sr : Serial}

theorem State.confirm_of_none (h : s.seg.enum.awaiting = none) : s.confirm c cs cn = s := by
  unfold State.confirm
  rw [h]

/-- R26: an assignment confirmed. -/
theorem State.confirm_of_match (h : s.seg.enum.awaiting = some (sr, n)) (hm : cs = sr ∧ cn = n) :
    s.confirm c cs cn =
      { s.setStation n { s.station n with state := .active, missed := 0 } with
        seg.enum.numbered := s.seg.enum.numbered + 1 } := by
  unfold State.confirm
  simp only [h, if_pos hm]
  rfl

/-- R26: an assignment superseded by the same assignment carried again. -/
theorem State.confirm_of_again (h : s.seg.enum.awaiting = some (sr, n)) (hm : ¬(cs = sr ∧ cn = n))
    (hc : c.serial = sr ∧ c.number = n) : s.confirm c cs cn = s := by
  unfold State.confirm
  simp only [h, if_neg hm, if_pos hc]

/-- R26: an assignment missed. -/
theorem State.confirm_of_missed (h : s.seg.enum.awaiting = some (sr, n)) (hm : ¬(cs = sr ∧ cn = n))
    (hc : ¬(c.serial = sr ∧ c.number = n)) : s.confirm c cs cn =
      (s.log .station .stationUnconfirmed n c.round).setStation n (s.station n).release := by
  unfold State.confirm
  simp only [h, if_neg hm, if_neg hc]

/-- R26: what the confirmation fields leave alone. -/
theorem State.confirm_frame (s : State) (c : EnumCarry) (cs : Serial) (cn : Nat) :
    { s.confirm c cs cn with seg := s.seg, mgmt := s.mgmt } = s ∧
      { (s.confirm c cs cn).seg.enum with numbered := s.seg.enum.numbered } = s.seg.enum ∧
      (∀ e ∈ s.mgmt.events, e ∈ (s.confirm c cs cn).mgmt.events) := by
  cases h : s.seg.enum.awaiting with
  | none => rw [State.confirm_of_none h]; exact ⟨rfl, rfl, fun _ => id⟩
  | some a =>
    obtain ⟨sr, n⟩ := a
    by_cases hm : cs = sr ∧ cn = n
    · rw [State.confirm_of_match h hm]
      exact ⟨rfl, rfl, fun _ => id⟩
    · by_cases hc : c.serial = sr ∧ c.number = n
      · rw [State.confirm_of_again h hm hc]
        exact ⟨rfl, rfl, fun _ => id⟩
      · rw [State.confirm_of_missed h hm hc]
        refine ⟨?_, by simp [State.setStation], (UpdateFrame.log (.refl s)).events⟩
        unfold State.log
        split <;> rfl

theorem State.arbitrate_of_idle : s.arbitrate allOnes = s := by
  unfold State.arbitrate
  exact if_pos (.inl (by decide))

/-- R27: a new serial with a number free. -/
theorem State.arbitrate_of_free (ha : arb.toNat < 2 ^ 40) (he : s.seg.enum.exhausted = false) (hn : s.numberOf arb = none)
    (hf : s.lowestFree = some n) : s.arbitrate arb = s.chooseWinner arb n 0 := by
  have serial : ¬(arb.toNat / 1099511627776 ≠ 0 ∨ s.seg.enum.exhausted = true) := by simp [he]; omega
  unfold State.arbitrate
  simp only [if_neg serial, hn, hf]

/-- R27: a new serial with no number left. -/
theorem State.arbitrate_of_full (ha : arb.toNat < 2 ^ 40) (he : s.seg.enum.exhausted = false) (hn : s.numberOf arb = none)
    (hf : s.lowestFree = none) :
    s.arbitrate arb = ({ s with seg.enum.exhausted := true } : State).log .station .numbersExhausted := by
  have serial : ¬(arb.toNat / 1099511627776 ≠ 0 ∨ s.seg.enum.exhausted = true) := by simp [he]; omega
  unfold State.arbitrate
  simp only [if_neg serial, hn, hf]

theorem State.judgeRun_of_exhausted (ha : s.seg.enum.awaiting = none) (hw : s.seg.enum.winner = none)
    (he : s.seg.enum.exhausted = true) : s.judgeRun arb = s.endRun .exhausted := by
  unfold State.judgeRun
  exact if_pos ⟨ha, hw, he⟩

theorem State.judgeRun_of_idle (ha : s.seg.enum.awaiting = none) (hw : s.seg.enum.winner = none) :
    s.judgeRun allOnes = s.endRun (if s.seg.enum.exhausted then .exhausted else .complete) := by
  unfold State.judgeRun
  cases he : s.seg.enum.exhausted <;> simp [ha, hw, he]

/-- R25: the run goes on while an assignment is awaited or carried. -/
theorem State.judgeRun_of_more (h : s.seg.enum.awaiting ≠ none ∨ s.seg.enum.winner ≠ none) : s.judgeRun arb = s.nextRound := by
  unfold State.judgeRun
  rcases h with h | h <;> simp [h]

/-- R25: the carry of the next round. -/
def EnumRecord.nextCarry (e : EnumRecord) : EnumCarry :=
  match e.winner with
  | none => ⟨(e.lastRound + 1) % 256, 0, 0⟩
  | some (sr, n) => ⟨(e.lastRound + 1) % 256, sr, n⟩

theorem State.nextRound_of_lt (h : s.seg.enum.rounds < 120) : s.nextRound = { s with
    seg.enum := { s.seg.enum with
      lastRound := (s.seg.enum.lastRound + 1) % 256, rounds := s.seg.enum.rounds + 1
      offer := some s.seg.enum.nextCarry } } := by
  unfold State.nextRound
  exact if_neg (by omega)

theorem State.nextRound_of_ge (h : 120 ≤ s.seg.enum.rounds) : s.nextRound = s.endRun .incomplete := by
  unfold State.nextRound
  exact if_pos (by omega)

/-- R26: the record once a return has been read, before arbitration. -/
def EnumRecord.heard (e : EnumRecord) (c : EnumCarry) : EnumRecord :=
  { e with awaiting := if c.number = 0 then none else some (c.serial, c.number), winner := none }

theorem State.enumReturned_eq (h : s.seg.enum.running = true) :
    s.enumReturned c arb cs cn =
      let u := State.confirm { s with seg.enum.lost := 0 } c cs cn
      (State.arbitrate { u with seg.enum := u.seg.enum.heard c } arb).judgeRun arb := by
  unfold State.enumReturned EnumRecord.heard
  exact if_pos h

theorem State.enumNorth_of_flight {f : EnumFlight} {round : Nat} (hl : s.ring.linkS = true)
    (hs : s.ring.segment = .enumerating) (hf : s.ring.flight = some f) (hr : f.carry.round = round) :
    s.enumNorth round arb cs cn = ({ s with ring.flight := none } : State).enumReturned f.carry arb cs cn := by
  unfold State.enumNorth State.enumFrameReturn
  simp [hl, hs, hf, hr]

end

end

end Sys2Proof.Machine
end

