-- ==== Sys2Proof/Proofs/EnumerationReturn.lean ====
section
/-! PROOFS. ENUM_FRAME_RETURN in its courses: discarded, an assignment confirmed, superseded or missed, a new serial, and
the three outcomes (O24). -/

namespace Sys2Proof.Machine

section
variable {s t w : State} {c : EnumCarry} {f : EnumFlight} {arb cs sr : Serial} {cn n round : Nat}

/-! ### The stages of a sound return -/

/-- R18: the part once a sound return has closed the flight. -/
def State.landed (s : State) : State := { s with ring.flight := none, seg.enum.lost := 0 }

/-- R26: the part once the confirmation fields have been read, before arbitration. -/
def State.heard (s : State) (c : EnumCarry) : State := { s with seg.enum := s.seg.enum.heard c }

theorem State.heard_awaiting_none (h : c.number = 0) : (s.heard c).seg.enum.awaiting = none := if_pos h

theorem State.heard_awaiting (h : c.number ≠ 0) : (s.heard c).seg.enum.awaiting = some (c.serial, c.number) := if_neg h

theorem State.enumNorth_eq (hl : s.ring.linkS = true) (hs : s.ring.segment = .enumerating)
    (hf : s.ring.flight = some f) (hr : f.carry.round = round) (hrun : s.seg.enum.running = true) :
    s.enumNorth round arb cs cn = (((s.landed.confirm f.carry cs cn).heard f.carry).arbitrate arb).judgeRun arb :=
  (State.enumNorth_of_flight hl hs hf hr).trans (State.enumReturned_eq (s := { s with ring.flight := none }) hrun)

/-! ### A return that brings no new serial -/

theorem State.log_station (s : State) (a : Source) (k : EventName) (x y z : Int) (m : Nat) :
    (s.log a k x y z).station m = s.station m := State.station_congr (by rw [State.log_seg]) m

/-- R26: reading the confirmation fields touches the entry of the assignment alone. -/
theorem State.confirm_station_other {m : Nat} (h : s.seg.enum.awaiting = some (sr, n)) (hn : 1 ≤ n) (hm : m ≠ n) :
    (s.confirm c cs cn).station m = s.station m := by
  by_cases h1 : cs = sr ∧ cn = n
  · rw [State.confirm_of_match h h1]
    exact State.setStation_station_other hn hm
  · by_cases h2 : c.serial = sr ∧ c.number = n
    · rw [State.confirm_of_again h h1 h2]
    · rw [State.confirm_of_missed h h1 h2, State.setStation_station_other hn hm, State.log_station]

/-- R26: the entry of an assignment missed is released. -/
theorem State.confirm_station_of_missed (h : s.seg.enum.awaiting = some (sr, n)) (hn : 1 ≤ n)
    (h1 : ¬(cs = sr ∧ cn = n)) (h2 : ¬(c.serial = sr ∧ c.number = n)) :
    (s.confirm c cs cn).station n = (s.station n).release := by
  have released := State.setStation_release (s := s.log .station .stationUnconfirmed n c.round) hn n
  rw [State.log_station, if_pos rfl] at released
  rw [State.confirm_of_missed h h1 h2, released]

theorem State.confirm_numbered (h : s.seg.enum.awaiting = some (sr, n)) : (s.confirm c cs cn).seg.enum.numbered =
    s.seg.enum.numbered + if cs = sr ∧ cn = n then 1 else 0 := by
  by_cases h1 : cs = sr ∧ cn = n
  · rw [State.confirm_of_match h h1, if_pos h1]
  · rw [if_neg h1]
    by_cases h2 : c.serial = sr ∧ c.number = n
    · rw [State.confirm_of_again h h1 h2]
      rfl
    · rw [State.confirm_of_missed h h1 h2]
      simp [State.setStation]

/-- R25, R28: what the judgement of an idle return makes of the part, once its confirmation fields have been read. -/
structure ReturnJudged (w : State) (c : EnumCarry) (t : State) : Prop where
  clock    : t.clock = w.clock
  flight   : w.ring.flight = none → t.ring.flight = none
  stations : t.seg.stations = w.seg.stations
  numbered : t.seg.enum.numbered = w.seg.enum.numbered
  events   : ∀ e ∈ w.mgmt.events, e ∈ t.mgmt.events
  carried  : c.number ≠ 0 → t.seg.enum.awaiting = some (c.serial, c.number) ∧
    t.seg.enum.running = w.seg.enum.running ∧ t.seg.enum.offer = some ⟨(w.seg.enum.lastRound + 1) % 256, 0, 0⟩
  ended    : c.number = 0 → t.seg.enum.running = false ∧
    t.seg.enum.outcome = some (if w.seg.enum.exhausted then .exhausted else .complete)

theorem returnJudged (h : w.seg.enum.rounds < 120) : ReturnJudged w c ((w.heard c).judgeRun allOnes) := by
  by_cases hc : c.number = 0
  · rw [State.judgeRun_of_idle (State.heard_awaiting_none hc) rfl]
    have done : (if w.seg.enum.exhausted then EnumOutcome.exhausted else .complete) ≠ .incomplete := by split <;> simp
    have ended := State.endRun_ended (w.heard c) (if w.seg.enum.exhausted then EnumOutcome.exhausted else .complete)
    exact {
      clock := ended.clock
      flight := fun _ => (congrArg Ring.flight ended.ring).trans (Ring.resumed_flight ..)
      stations := (congrArg Segment.stations ended.seg).trans (Segment.runClosed_stations done)
      numbered := (congrArg (fun g : Segment => g.enum.numbered) ended.seg :)
      events := ended.events
      carried := fun h => absurd hc h
      ended := fun _ => ⟨(congrArg (fun g : Segment => g.enum.running) ended.seg :),
        (congrArg (fun g : Segment => g.enum.outcome) ended.seg :)⟩ }
  · have awaits : (w.heard c).seg.enum.awaiting ≠ none := by simp [State.heard_awaiting hc]
    rw [State.judgeRun_of_more (.inl awaits), State.nextRound_of_lt (s := w.heard c) h]
    exact ⟨rfl, id, rfl, rfl, fun _ => id, fun _ => ⟨State.heard_awaiting (s := w) hc, rfl, rfl⟩, fun h => absurd h hc⟩

/-- R26, R28: a return that brings no new serial is judged by what was carried. -/
theorem enumNorth_idle (hl : s.ring.linkS = true) (hs : s.ring.segment = .enumerating) (hf : s.ring.flight = some f)
    (hr : f.carry.round = round) (hrun : s.seg.enum.running = true) (hn : s.seg.enum.rounds < 120) :
    ReturnJudged (s.landed.confirm f.carry cs cn) f.carry (s.enumNorth round allOnes cs cn) := by
  have rounds : (s.landed.confirm f.carry cs cn).seg.enum.rounds = s.seg.enum.rounds :=
    (congrArg EnumRecord.rounds (s.landed.confirm_frame f.carry cs cn).2.1 :)
  rw [State.enumNorth_eq hl hs hf hr hrun, State.arbitrate_of_idle]
  exact returnJudged (rounds.symm ▸ hn)

section
variable (judged : ReturnJudged (s.landed.confirm c cs cn) c t) (ha : s.seg.enum.awaiting = some (sr, n)) (pos : 1 ≤ n)
include judged ha pos

theorem ReturnJudged.confirmed (hsh : s.Shaped) (hm : cs = sr ∧ cn = n) : t.seg.enum.numbered = s.seg.enum.numbered + 1 ∧
    (n ≤ 30 → t.station n = { s.station n with state := .active, missed := 0 }) := by
  have numbered := State.confirm_numbered (s := s.landed) (c := c) (cs := cs) (cn := cn) ha
  rw [if_pos hm] at numbered
  refine ⟨judged.numbered.trans numbered, fun h30 => (State.station_congr judged.stations n).trans ?_⟩
  rw [State.confirm_of_match (s := s.landed) ha hm]
  exact State.setStation_station (s := s.landed) pos (h30.trans hsh.stations.ge)

theorem ReturnJudged.again (hrun : s.seg.enum.running = true) (hm : ¬(cs = sr ∧ cn = n)) (hc : c.serial = sr ∧ c.number = n) :
    t.station n = s.station n ∧ t.seg.enum.awaiting = some (sr, n) ∧ t.seg.enum.running = true ∧
      t.seg.enum.offer = some ⟨(s.seg.enum.lastRound + 1) % 256, 0, 0⟩ := by
  have station := State.station_congr judged.stations n
  obtain ⟨awaits, running, offer⟩ := judged.carried (by omega)
  rw [State.confirm_of_again (s := s.landed) ha hm hc] at station running offer
  exact ⟨station, by rw [awaits, hc.1, hc.2], running.trans hrun, offer⟩

theorem ReturnJudged.missed (hm : ¬(cs = sr ∧ cn = n)) (hc : ¬(c.serial = sr ∧ c.number = n)) :
    t.station n = (s.station n).released ∧
      (s.mgmt.events.length < 64 → t.Logged .station .stationUnconfirmed n c.round 0) := by
  refine ⟨(State.station_congr judged.stations n).trans (State.confirm_station_of_missed (s := s.landed) ha pos hm hc),
    fun room => ?_⟩
  have events := judged.events
  rw [State.confirm_of_missed (s := s.landed) ha hm hc] at events
  obtain ⟨e, he, hlog⟩ := s.landed.logged_of_room .station .stationUnconfirmed n c.round 0 room
  exact ⟨e, events e he, hlog⟩

end

/-! ### A return with a new serial (R27) -/

theorem State.lowestFree_le (h : s.lowestFree = some n) : n ≤ s.seg.stations.length ∧ (s.station n).lock = false := by
  obtain ⟨k, hk, rfl⟩ := Option.map_eq_some_iff.1 h
  obtain ⟨hlt, free, _⟩ := List.findIdx?_eq_some_iff_getElem.1 hk
  refine ⟨hlt, ?_⟩
  have lock : (s.seg.stations[k]).lock = false := by
    simp only [Station.isFree, Bool.and_eq_true, Bool.not_eq_true'] at free
    exact free.2
  simpa [State.station, hlt] using lock

/-- R27: an entry is JOINING for the new serial, and no other has changed. -/
theorem State.chooseWinner_station (hf : s.lowestFree = some n) :
    (s.chooseWinner arb n 0).station n = (s.station n).join arb 0 false ∧
      ∀ m, m ≠ n → (s.chooseWinner arb n 0).station m = s.station m :=
  ⟨State.setStation_station (s.lowestFree_pos hf) (State.lowestFree_le hf).1,
    fun _ hm => State.setStation_station_other (s.lowestFree_pos hf) hm⟩

/-- R26, R28: a winner released leaves its entry as it was before, released. -/
theorem Station.release_join {e : Station} (h : e.lock = false) : (e.join arb 0 false).release = e.release := by
  simp [Station.join, Station.release, h]

/-- R25, R27: the winner of the last round is released, and no other entry has changed. -/
theorem State.winner_released (ha : s.seg.enum.awaiting = none) (hf : s.lowestFree = some n)
    (ht : t.seg = Segment.runClosed (s.chooseWinner arb n 0).seg .incomplete) :
    t.station n = (s.station n).released ∧ ∀ m, m ≠ n → t.station m = s.station m := by
  obtain ⟨winner, others⟩ := State.chooseWinner_station (arb := arb) hf
  have assigned : ∀ a, (s.chooseWinner arb n 0).seg.enum.awaiting = some a ∨
      (s.chooseWinner arb n 0).seg.enum.winner = some a → a = (arb, n) := by
    rintro a (h | h)
    · cases ha.symm.trans h
    · cases h
      rfl
  obtain ⟨released, kept⟩ := State.station_of_incomplete ht fun a h => by rw [assigned a h]; exact s.lowestFree_pos hf
  refine ⟨?_, fun m hm => ?_⟩
  · rw [released (arb, n) (.inr rfl), winner]
    exact Station.release_join (State.lowestFree_le hf).2
  · rw [kept m fun a h => by rw [assigned a h]; exact hm.symm, others m hm]

/-- R27: a return while nothing is awaited or carried goes to arbitration at once. -/
theorem enumNorth_arbitrates (hl : s.ring.linkS = true) (hs : s.ring.segment = .enumerating)
    (hf : s.ring.flight = some f) (hr : f.carry.round = round) (hrun : s.seg.enum.running = true)
    (ha : s.seg.enum.awaiting = none) :
    s.enumNorth round arb cs cn = ((s.landed.heard f.carry).arbitrate arb).judgeRun arb := by
  rw [State.enumNorth_eq hl hs hf hr hrun, State.confirm_of_none (s := s.landed) ha]

/-- R27, R28: a new serial with no number left ends the run, once nothing is awaited or carried. -/
theorem judgeRun_of_full (hc : c.number = 0) (harb : arb.toNat < 2 ^ 40) (he : s.seg.enum.exhausted = false)
    (hn : s.numberOf arb = none) (hf : s.lowestFree = none) :
    ((s.heard c).arbitrate arb).judgeRun arb = State.endRun
      (({ s.heard c with seg.enum.exhausted := true } : State).log .station .numbersExhausted) .exhausted := by
  rw [State.arbitrate_of_full (s := s.heard c) harb he hn hf]
  exact State.judgeRun_of_exhausted (by rw [State.log_seg]; exact if_pos hc) (by rw [State.log_seg]; rfl)
    (by rw [State.log_seg])

/-- R25, R27: a new serial with a number free is carried by the next round. -/
theorem judgeRun_of_winner (harb : arb.toNat < 2 ^ 40) (he : s.seg.enum.exhausted = false)
    (hn : s.numberOf arb = none) (hf : s.lowestFree = some n) :
    ((s.heard c).arbitrate arb).judgeRun arb = ((s.heard c).chooseWinner arb n 0).nextRound := by
  rw [State.arbitrate_of_free (s := s.heard c) harb he hn hf]
  exact State.judgeRun_of_more (.inr (Option.some_ne_none _))

end

end Sys2Proof.Machine

open Sys2Proof.Machine in
/-- Settles O24, course by course. -/
theorem Sys2Proof.enumReturnCourse : Obligations.EnumReturnCourse := fun round cn arb cs s q hl hs => by
  have run := exec_enumFrameReturn (round := round) (arb := arb) (serial := cs) (number := cn) q
  refine ⟨fun hf => run.trans ?_, fun f hf hr => run.trans ?_, fun f hf hr hc hrun ha he harb => ?_,
    fun f sr n hf hr hrun ha harb hn hsh => ?_, fun f hf hr hc hrun ha he hlt hno hfree => ?_,
    fun f n hf hr hc hrun ha he hlt hno hfree hn => ?_, fun f n hf hr hc hrun ha he hlt hno hfree hn => ?_⟩
  · simp [State.enumNorth, State.enumFrameReturn, hl, hs, hf]
  · simp [State.enumNorth, State.enumFrameReturn, hl, hs, hf, hr]
  · subst harb
    have complete : (if (s.landed.heard f.carry).seg.enum.exhausted = true then EnumOutcome.exhausted else .complete) =
      .complete := if_neg (Bool.eq_false_iff.1 he)
    have ended := State.endRun_ended (s.landed.heard f.carry) .complete
    refine ⟨_, run, ?_⟩
    rw [enumNorth_arbitrates hl hs hf hr hrun ha, State.arbitrate_of_idle,
      State.judgeRun_of_idle (State.heard_awaiting_none hc) rfl, complete]
    exact ⟨(congrArg Ring.flight ended.ring).trans (Ring.resumed_flight ..),
      (congrArg (fun g : Segment => g.enum.running) ended.seg :),
      (congrArg (fun g : Segment => g.enum.outcome) ended.seg :), by rw [ended.ring]; exact Ring.resumed_segment_ne _ _,
      (congrArg Segment.stations ended.seg).trans (Segment.runClosed_stations (by simp)), ended.clock, ended.answered⟩
  · subst harb
    have judged := enumNorth_idle (cs := cs) (cn := cn.toNat) hl hs hf hr hrun hn
    have pos : 1 ≤ n := hsh.assigned (sr, n) (.inl ha)
    obtain ⟨frame, enum, events⟩ := s.landed.confirm_frame f.carry cs cn.toNat
    refine ⟨_, run, judged.flight (congrArg (fun u : State => u.ring.flight) frame :),
      judged.clock.trans (congrArg State.clock frame :), fun m hm => ?_, fun hm => ?_, fun hm => ?_, fun hc => ?_, fun hc => ?_⟩
    · exact (State.station_congr judged.stations m).trans (State.confirm_station_other (s := s.landed) ha pos hm)
    · exact judged.confirmed ha pos hsh hm
    · have numbered := State.confirm_numbered (s := s.landed) (c := f.carry) (cs := cs) (cn := cn.toNat) ha
      rw [if_neg hm] at numbered
      exact ⟨judged.numbered.trans numbered, judged.again ha pos hrun hm, judged.missed ha pos hm⟩
    · obtain ⟨awaits, running, _⟩ := judged.carried hc
      exact ⟨awaits, running.trans ((congrArg EnumRecord.running enum :).trans hrun)⟩
    · obtain ⟨running, outcome⟩ := judged.ended hc
      have same : (s.landed.confirm f.carry cs cn.toNat).seg.enum.exhausted = s.seg.enum.exhausted :=
        (congrArg EnumRecord.exhausted enum :)
      exact ⟨running, by rw [outcome, same]⟩
  · have ended := State.endRun_ended
      (({ s.landed.heard f.carry with seg.enum.exhausted := true } : State).log .station .numbersExhausted) .exhausted
    refine ⟨_, run, ?_⟩
    rw [enumNorth_arbitrates hl hs hf hr hrun ha, judgeRun_of_full (s := s.landed) hc hlt he hno hfree]
    refine ⟨by rw [ended.seg]; rfl, by rw [ended.seg]; rfl, by rw [ended.ring]; exact Ring.resumed_segment_ne _ _, ?_,
      by rw [ended.clock, State.log_clock]; rfl, fun room => ?_, fun hw => ?_⟩
    · rw [ended.seg, Segment.runClosed_stations (by simp), State.log_seg]
      rfl
    · obtain ⟨e, he, hlog⟩ := State.logged_of_room { s.landed.heard f.carry with seg.enum.exhausted := true } .station
        .numbersExhausted 0 0 0 room
      exact ⟨e, ended.events e he, hlog⟩
    · have answered := ended.answered (by
        unfold State.enumerateWaits
        rw [State.log_executing, State.log_response]
        exact hw)
      rw [State.log_seg] at answered
      exact answered
  · have ended := State.endRun_ended ((s.landed.heard f.carry).chooseWinner arb n 0) .incomplete
    have released := State.winner_released (s := s.landed.heard f.carry) (if_pos hc) hfree ended.seg
    refine ⟨_, run, ?_⟩
    rw [enumNorth_arbitrates hl hs hf hr hrun ha, judgeRun_of_winner (s := s.landed) hlt he hno hfree,
      State.nextRound_of_ge (s := (s.landed.heard f.carry).chooseWinner arb n 0) hn]
    exact ⟨by rw [ended.seg]; rfl, by rw [ended.seg]; rfl, by rw [ended.ring]; exact Ring.resumed_segment_ne _ _,
      released.1, released.2, ended.clock, ended.answered⟩
  · obtain ⟨winner, others⟩ := State.chooseWinner_station (s := s.landed.heard f.carry) (arb := arb) hfree
    refine ⟨_, run, ?_⟩
    rw [enumNorth_arbitrates hl hs hf hr hrun ha, judgeRun_of_winner (s := s.landed) hlt he hno hfree,
      State.nextRound_of_lt (s := (s.landed.heard f.carry).chooseWinner arb n 0) hn]
    exact ⟨rfl, winner, others, rfl, rfl, rfl, rfl⟩
end

