-- ==== Sys2Proof/Proofs/LostCycles.lean ====
section
/-! PROOFS. Lost cycles and lost ENUM frames (O23), and the frames that are not sound (O20). -/

namespace Sys2Proof.Machine

section
variable {s t : State} {cause : LossCause} {n : Nat}

/-! ### Lost cycles (R12, R14) -/

/-- R4: the segment states in which frames are forwarded south. -/
def SegState.Forwards (g : SegState) : Prop := g = .run ∨ g = .config ∨ g = .broken

theorem SegState.forwards_of_ne {g : SegState} (hd : g ≠ .down) (he : g ≠ .enumerating) : g.Forwards := by
  cases g with
  | down => exact absurd rfl hd
  | enumerating => exact absurd rfl he
  | run => exact .inl rfl
  | config => exact .inr (.inl rfl)
  | broken => exact .inr (.inr rfl)

theorem Ring.lostOne_forwards {r : Ring} (h : r.segment.Forwards) : r.lostOne.segment.Forwards := by
  unfold Ring.lostOne
  dsimp only
  split
  · exact .inr (.inr rfl)
  · exact h

/-- R14: the ring with one more lost cycle in a row, short of the change to BROKEN. -/
def Ring.lostMore (r : Ring) : Ring := { r with lostInRow := r.lostInRow + 1, takenInRow := 0 }

theorem State.countLost_of_working {w : Working} (h : s.ring.segment = w.segment) : s.countLost =
    if s.ring.brokenCount ≤ s.ring.lostInRow + 1 then
      ({ s with ring := { s.ring.lostMore with brokenFrom := w } } : State).setSegment .broken
    else { s with ring := s.ring.lostMore } := by
  unfold State.countLost
  dsimp only
  split
  case h_3 hs =>
    cases w with
    | config => rfl
    | run => cases hs.symm.trans h
  case h_4 hs =>
    cases w with
    | config => cases hs.symm.trans h
    | run => rfl
  all_goals
    next hs => cases w <;> cases hs.symm.trans h

theorem State.countLost_of_broken (h : s.ring.segment = .broken) : s.countLost = { s with ring := s.ring.lostMore } := by
  unfold State.countLost
  dsimp only
  split
  case h_5 => rfl
  all_goals
    next hs => cases hs.symm.trans h

theorem Ring.lostOne_of_working {r : Ring} {w : Working} (h : r.segment = w.segment) : r.lostOne =
    if r.brokenCount ≤ r.lostInRow + 1 then { r.lostMore with lossRun := true, segment := .broken, brokenFrom := w }
    else { r.lostMore with lossRun := true } := by
  unfold Ring.lostOne Ring.lostMore
  cases w <;> split <;> simp_all [Working.segment]

theorem Ring.lostOne_of_broken {r : Ring} (h : r.segment = .broken) : r.lostOne = { r.lostMore with lossRun := true } := by
  unfold Ring.lostOne Ring.lostMore
  simp [h]

/-- R14: a lost cycle is counted in a row, and breaks the segment when the count reaches its limit. -/
theorem State.countLost_frame (h : s.ring.segment.Forwards) :
    UpdateFrame { s with ring := { s.ring.lostOne with lossRun := s.ring.lossRun } } s.countLost ∧
      s.countLost.turb = s.turb := by
  have working : ∀ w : Working, s.ring.segment = w.segment →
      UpdateFrame { s with ring := { s.ring.lostOne with lossRun := s.ring.lossRun } } s.countLost ∧
        s.countLost.turb = s.turb := by
    intro w hw
    rw [State.countLost_of_working hw, Ring.lostOne_of_working hw]
    split
    · exact ⟨State.setSegment_frame { s with ring := { s.ring.lostMore with brokenFrom := w } } .broken,
        State.setSegment_turb ..⟩
    · exact ⟨.refl _, rfl⟩
  rcases h with h | h | h
  · exact working .run h
  · exact working .config h
  · rw [State.countLost_of_broken h, Ring.lostOne_of_broken h]
    exact ⟨.refl _, rfl⟩

/-- R12: the part once a loss has been counted by its cause and logged, before it is counted in a row. -/
def State.lossNoted (s : State) (cause : LossCause) (cycle : Nat) : State :=
  let u := { s with ring := { s.ring with counters := s.ring.counters.lose cause, lossRun := true } }
  if s.ring.lossRun then u else u.log .ring .cycleLost 0 cause.code cycle

theorem State.loseCycle_eq (s : State) (cause : LossCause) (n : Nat) :
    s.loseCycle cause n = (s.lossNoted cause n).countLost := rfl

theorem State.lossNoted_frame (s : State) (cause : LossCause) (n : Nat) (r : Ring) :
    UpdateFrame { s with ring := r } { s.lossNoted cause n with ring := r } := by
  unfold State.lossNoted
  dsimp only
  split
  · exact .refl _
  · have logged := UpdateFrame.log (src := .ring) (n := .cycleLost) (x := 0) (y := cause.code) (z := n)
      (.refl { s with ring := { s.ring with counters := s.ring.counters.lose cause, lossRun := true } })
    exact { logged with ring := rfl }

theorem State.lossNoted_ring (s : State) (cause : LossCause) (n : Nat) : (s.lossNoted cause n).ring =
    { s.ring with counters := s.ring.counters.lose cause, lossRun := true } := by
  unfold State.lossNoted
  dsimp only
  split
  · rfl
  · rw [State.log_ring]

/-- R12, R14: a lost cycle moves the counter of its cause, the counts in a row and the segment state, and brings the rest
what that change brings. -/
theorem State.loseCycle_frame (h : s.ring.segment.Forwards) :
    UpdateFrame { s with ring := { s.ring.lostOne with counters := s.ring.counters.lose cause } } (s.loseCycle cause n) ∧
      (s.loseCycle cause n).turb = s.turb := by
  have forwards : (s.lossNoted cause n).ring.segment.Forwards := by rw [State.lossNoted_ring]; exact h
  obtain ⟨frame, turb⟩ := State.countLost_frame forwards
  have noted := s.lossNoted_frame cause n { s.ring.lostOne with counters := s.ring.counters.lose cause }
  rw [State.lossNoted_ring] at frame
  rw [State.loseCycle_eq]
  refine ⟨noted.trans frame, turb.trans ?_⟩
  unfold State.lossNoted
  dsimp only
  split
  · rfl
  · rw [State.log_turb]

/-- R12: the first loss of a run is logged. -/
theorem State.loseCycle_logged (h : s.ring.segment.Forwards) (hr : s.ring.lossRun = false)
    (room : s.mgmt.events.length < 64) : (s.loseCycle cause n).Logged .ring .cycleLost 0 cause.code n := by
  have forwards : (s.lossNoted cause n).ring.segment.Forwards := by rw [State.lossNoted_ring]; exact h
  obtain ⟨e, he, hlog⟩ := State.logged_of_room
    { s with ring := { s.ring with counters := s.ring.counters.lose cause, lossRun := true } } .ring .cycleLost 0 cause.code n
    room
  refine ⟨e, (State.countLost_frame forwards).1.events e ?_, hlog⟩
  unfold State.lossNoted
  rw [if_neg (by simp [hr])]
  exact he

/-! ### Cycles still outstanding (R8), damaged frames (R6) and the return timer (R7) -/

theorem State.endLate_of_none (h : s.ring.outstanding = none) : s.endLate = s := by
  unfold State.endLate
  rw [h]

theorem State.endLate_of_some {o : Outstanding} (h : s.ring.outstanding = some o) :
    s.endLate = ({ s with ring.outstanding := none } : State).loseCycle .late o.cycle := by
  unfold State.endLate
  rw [h]

theorem State.damagedSouth_of_forwards {f : LinkFrame} (h : s.countDamagedOut.endLate.ring.segment.Forwards) :
    s.damagedSouth f = (s.countDamagedOut.endLate.loseCycle .damaged (damagedCycleOf f)).sendSouth f := by
  unfold State.damagedSouth
  rcases h with h | h | h <;> simp only [h]

theorem State.returnTimeout_of_cycle {o : Outstanding} (h : s.ring.outstanding = some o) : s.returnTimeout =
    ({ s.reachTenths o.expiry with ring.outstanding := none } : State).loseCycle .timeout o.cycle := by
  unfold State.returnTimeout
  rw [h]

theorem State.returnTimeout_of_flight {x : EnumFlight} (h : s.ring.outstanding = none) (hf : s.ring.flight = some x) :
    s.returnTimeout = (s.reachTenths x.expiry).enumLost := by
  unfold State.returnTimeout
  rw [h, hf]

theorem State.returnTimeout_of_none (h : s.ring.outstanding = none) (hf : s.ring.flight = none) : s.returnTimeout = s := by
  unfold State.returnTimeout
  rw [h, hf]

theorem State.outbound_of_damaged {f : LinkFrame} (hl : s.ring.linkN = true) (hf : examine f = .damaged) :
    s.outbound f = s.damagedSouth f := by
  unfold State.outbound
  simp only [hl, hf, Bool.true_eq_false, if_false]

/-! ### ENUM frames lost (R25) -/

section
variable {x : EnumFlight}

theorem State.enumLost_of_none (h : s.ring.flight = none) : s.enumLost = s := by
  unfold State.enumLost
  rw [h]

theorem State.enumLost_of_idle (h : s.ring.flight = some x) (hr : s.seg.enum.running = false) :
    s.enumLost = { s with ring.flight := none } := by
  unfold State.enumLost
  simp only [h, hr, Bool.false_eq_true, if_false]

theorem State.enumLost_of_more (h : s.ring.flight = some x) (hr : s.seg.enum.running = true) (hn : s.seg.enum.lost + 1 < 8) :
    s.enumLost = { s with
      ring.flight := none, seg.enum := { s.seg.enum with lost := s.seg.enum.lost + 1, offer := some x.carry } } := by
  unfold State.enumLost
  simp only [h]
  exact (if_pos hr).trans (if_neg (by omega))

/-- R25: at the eighth loss in a row the run ends INCOMPLETE. -/
theorem State.enumLost_endedIncomplete (h : s.ring.flight = some x) (hr : s.seg.enum.running = true)
    (hn : 8 ≤ s.seg.enum.lost + 1) (hs : s.Shaped) : s.enumLost.clock = s.clock ∧ EndedIncomplete s s.enumLost := by
  have e : s.enumLost =
      State.endRun { s with ring.flight := none, seg.enum.lost := s.seg.enum.lost + 1 } .incomplete := by
    unfold State.enumLost
    simp only [h]
    exact (if_pos hr).trans (if_pos hn)
  have ended := State.endRun_ended { s with ring.flight := none, seg.enum.lost := s.seg.enum.lost + 1 } .incomplete
  rw [e]
  exact ⟨ended.clock, ended.endedIncomplete hs rfl⟩

end

end

end Sys2Proof.Machine

open Sys2Proof.Machine in
/-- Settles O23: each cause of loss, and the return timer of an ENUM frame. -/
theorem Sys2Proof.cyclesAreLost : Obligations.CyclesAreLost := fun s q => by
  refine ⟨fun f hl hf hg => ?_, fun o ho hg => ?_, fun x ho hx => ?_, fun ho hx =>
    (exec_returnTimeout q).trans (congrArg _ (State.returnTimeout_of_none ho hx))⟩
  · refine ⟨fun ho => ⟨_, exec_outboundPass q, ?_⟩, fun o ho => ⟨_, exec_outboundPass q, ?_⟩⟩
    · have late : s.countDamagedOut.endLate = s.countDamagedOut := State.endLate_of_none ho
      have forwards : s.countDamagedOut.endLate.ring.segment.Forwards := by rw [late]; exact hg
      obtain ⟨frame, turb⟩ := State.loseCycle_frame (s := s.countDamagedOut) (cause := .damaged) (n := damagedCycleOf f) hg
      rw [State.outbound_of_damaged hl hf, State.damagedSouth_of_forwards forwards, late]
      exact ⟨⟨frame.seg, turb, frame.disp, frame.pending⟩, frame.clock,
        congrArg (fun r : Ring => { r with sentS := some f }) frame.ring,
        State.loseCycle_logged (s := s.countDamagedOut) hg⟩
    · have late : s.countDamagedOut.endLate = _ := State.endLate_of_some ho
      obtain ⟨frame, turb⟩ := State.loseCycle_frame (s := { s.countDamagedOut with ring.outstanding := none })
        (cause := .late) (n := o.cycle) hg
      have logged := State.loseCycle_logged (s := { s.countDamagedOut with ring.outstanding := none })
        (cause := .late) (n := o.cycle) hg
      rw [← late] at frame turb logged
      have forwards : s.countDamagedOut.endLate.ring.segment.Forwards := by
        rw [frame.ring]
        exact Ring.lostOne_forwards (r := { s.ring with outstanding := none }) hg
      obtain ⟨frame', turb'⟩ := State.loseCycle_frame (cause := .damaged) (n := damagedCycleOf f) forwards
      rw [State.outbound_of_damaged hl hf, State.damagedSouth_of_forwards forwards]
      refine ⟨⟨frame'.seg.trans frame.seg, turb'.trans turb, frame'.disp.trans frame.disp, frame'.pending.trans frame.pending⟩,
        frame'.clock.trans frame.clock, ?_, fun hr room => ?_⟩
      · refine (congrArg (fun r : Ring => { r with sentS := some f }) frame'.ring).trans ?_
        simp only [frame.ring]
        rfl
      · obtain ⟨e, he, hlog⟩ := logged hr room
        exact ⟨e, frame'.events e he, hlog⟩
  · obtain ⟨frame, turb⟩ := State.loseCycle_frame (s := { s.reachTenths o.expiry with ring.outstanding := none })
      (cause := .timeout) (n := o.cycle) hg
    exact ⟨_, (exec_returnTimeout q).trans (congrArg _ (State.returnTimeout_of_cycle ho)),
      ⟨frame.seg, turb, frame.disp, frame.pending⟩, frame.clock, frame.ring,
      State.loseCycle_logged (s := { s.reachTenths o.expiry with ring.outstanding := none }) hg⟩
  · have run := (exec_returnTimeout q).trans (congrArg _ (State.returnTimeout_of_flight ho hx))
    refine ⟨fun hr => run.trans (congrArg _ (State.enumLost_of_idle hx hr)),
      fun hr hn => run.trans (congrArg _ (State.enumLost_of_more hx hr hn)), fun hr hn hs => ⟨_, run, ?_⟩⟩
    obtain ⟨clock, ended⟩ := State.enumLost_endedIncomplete (s := s.reachTenths x.expiry) hx hr hn hs.reachTenths
    exact ⟨clock, ended.turb, ended.disp, ended.flight, ended.counters, ended.enum, ended.segment, ended.released,
      ended.others, ended.answered⟩

end

