-- ==== Sys2Proof/Proofs/UnsoundFrames.lean ====
section
/-! PROOFS. What each kind of arrival does on each port (R2, R6, R9, R18), and the frames that are not sound cycle frames
(O20). -/

namespace Sys2Proof.Machine

section
variable {s : State} {f : LinkFrame} {c : CycleFrame} {r : EnumReturn}

/-! ### The kinds of arrival -/

theorem State.outbound_of_linkDown (hl : s.ring.linkN = false) : s.outbound f = s := if_pos hl

theorem State.outbound_of_foreign (hl : s.ring.linkN = true) (hf : examine f = .foreign) :
    s.outbound f = s.countForeign := by
  unfold State.outbound
  simp only [hl, hf, Bool.true_eq_false, if_false]

theorem State.outbound_of_cycle (hl : s.ring.linkN = true) (hf : examine f = .cycle c) : s.outbound f = s.soundSouth c := by
  unfold State.outbound
  simp only [hl, hf, Bool.true_eq_false, if_false]

theorem State.outbound_of_enum (hl : s.ring.linkN = true) (hf : (∃ r, examine f = .enum r) ∨ examine f = .damagedEnum) :
    s.outbound f = s.countDamagedOut := by
  unfold State.outbound
  rcases hf with ⟨r, hf⟩ | hf <;> simp only [hl, hf, Bool.true_eq_false, if_false]

theorem State.inbound_of_linkDown (hl : s.ring.linkS = false) : s.inbound f = s := if_pos hl

theorem State.inbound_of_foreign (hl : s.ring.linkS = true) (hf : examine f = .foreign) :
    s.inbound f = s.countForeign := by
  unfold State.inbound
  simp only [hl, hf, Bool.true_eq_false, if_false]

theorem State.inbound_of_damaged (hl : s.ring.linkS = true) (hf : examine f = .damaged) :
    s.inbound f = s.countDamagedIn.sendNorth f := by
  unfold State.inbound
  simp only [hl, hf, Bool.true_eq_false, if_false]

theorem State.inbound_of_cycle (hl : s.ring.linkS = true) (hf : examine f = .cycle c) : s.inbound f = s.soundNorth f c := by
  unfold State.inbound
  simp only [hl, hf, Bool.true_eq_false, if_false]

theorem State.inbound_of_enum (hl : s.ring.linkS = true) (hf : examine f = .enum r) :
    s.inbound f = s.enumNorth r.round r.arbitration r.confirmSerial r.confirmNumber.toNat := by
  unfold State.inbound
  simp only [hl, hf, Bool.true_eq_false, if_false]

theorem State.inbound_of_damagedEnum (hl : s.ring.linkS = true) (hf : examine f = .damagedEnum) :
    s.inbound f = if s.ring.segment = .enumerating then s.countDamagedIn.enumLost else s.countDamagedIn := by
  unfold State.inbound
  simp only [hl, hf, Bool.true_eq_false, if_false]

/-! ### ENUM frames -/

/-- R21: the round of an ENUM frame is one byte. -/
theorem examine_enum_round (h : examine f = .enum r) : r.round < 256 := by
  have byte : fieldNat f.payload 1 1 < 256 := by
    unfold fieldNat field
    match (f.payload.drop 1).take 1, List.length_take_le 1 (f.payload.drop 1) with
    | [], _ => decide
    | [b], _ => exact (by simpa [natOf] using b.isLt)
  unfold examine at h
  split at h
  · cases h
  split at h
  · cases h
  split at h
  · split at h <;> cases h
  split at h
  · next hp =>
    split at h
    · next r' he =>
      cases h
      unfold parseEnum at he
      split at he
      · cases he
      · cases he
        exact byte
    · cases h
  · cases h

/-- R9, R18: a sound ENUM frame from Port S is handed over in ENUMERATING, and elsewhere counted as damaged. -/
theorem exec_inboundPass_of_enum (q : s.Quiet) (hl : s.ring.linkS = true) (hf : examine f = .enum r) :
    exec (.inboundPass f) s =
      if s.ring.segment = .enumerating then
        exec (.enumFrameReturn (BitVec.ofNat 8 r.round) r.arbitration r.confirmSerial r.confirmNumber) s
      else .next s.countDamagedIn := by
  have round : (BitVec.ofNat 8 r.round).toNat = r.round := by
    rw [BitVec.toNat_ofNat]
    exact Nat.mod_eq_of_lt (examine_enum_round hf)
  rw [exec_inboundPass q, State.inbound_of_enum hl hf, exec_enumFrameReturn q, round]
  unfold State.enumNorth
  simp only [hl, Bool.true_eq_false, if_false]
  split <;> rfl

/-! ### Damaged frames -/

/-- R6: in DOWN and ENUMERATING a damaged frame from Port N is turned back with nothing lost. -/
theorem State.damagedSouth_of_turned (hl : s.ring.linkN = true) (ho : s.ring.outstanding = none)
    (hs : s.ring.segment = .down ∨ s.ring.segment = .enumerating) :
    s.damagedSouth f = { s.countDamagedOut with ring.sentN := some f } := by
  have late : s.countDamagedOut.endLate = s.countDamagedOut := State.endLate_of_none ho
  have north : s.countDamagedOut.sendNorth f = { s.countDamagedOut with ring.sentN := some f } := if_pos hl
  have turned : s.countDamagedOut.ring.segment = .down ∨ s.countDamagedOut.ring.segment = .enumerating := hs
  unfold State.damagedSouth
  rw [late]
  rcases turned with h | h <;> simp only [h, north]

end

end Sys2Proof.Machine

open Sys2Proof.Machine in
/-- Settles O20, kind by kind and port by port. -/
theorem Sys2Proof.unsoundFrames : Obligations.UnsoundFrames := fun f s q => by
  have south := exec_outboundPass (f := f) q
  have north := exec_inboundPass (f := f) q
  refine ⟨fun hl => south.trans (congrArg _ (State.outbound_of_linkDown hl)),
    fun hl => north.trans (congrArg _ (State.inbound_of_linkDown hl)),
    fun hl hf => south.trans (congrArg _ (State.outbound_of_foreign hl hf)),
    fun hl hf => north.trans (congrArg _ (State.inbound_of_foreign hl hf)),
    fun hl hf ho hs => south.trans
      (congrArg _ ((State.outbound_of_damaged hl hf).trans (State.damagedSouth_of_turned hl ho hs))),
    fun hl hf => north.trans (congrArg _ (State.inbound_of_damaged hl hf)),
    fun hl hf => south.trans (congrArg _ (State.outbound_of_enum hl hf)),
    fun r hl hf => exec_inboundPass_of_enum q hl hf, fun hl hf => ?_⟩
  have lost := north.trans (congrArg _ (State.inbound_of_damagedEnum hl hf))
  refine ⟨fun h => lost.trans ?_, fun x hs hx => ?_⟩
  · rcases h with h | h
    · rw [if_neg h]
    · rw [State.enumLost_of_none (s := s.countDamagedIn) h, ite_self]
  · rw [if_pos hs] at lost
    refine ⟨fun hr => lost.trans (congrArg _ (State.enumLost_of_idle (s := s.countDamagedIn) hx hr)),
      fun hr hn => lost.trans (congrArg _ (State.enumLost_of_more (s := s.countDamagedIn) hx hr hn)), fun hr hn hsh => ?_⟩
    exact ⟨_, lost, State.enumLost_endedIncomplete (s := s.countDamagedIn) hx hr hn hsh.countDamagedIn⟩
end

