-- ==== Sys2Proof/Proofs/SegmentRestart.lean ====
section
/-! PROOFS. What a change of point records brings, the records apart (R46), and SEGMENT_RESTART (O15). -/

namespace Sys2Proof.Machine

section
variable {s t u : State} {i j : Nat} {p q : Point}

/-! ### A record stored and its update handed on (R46) -/

/-- What a change of point records leaves alone: all that `UpdateFrame` names but the records themselves. -/
structure CommitFrame (s t : State) : Prop where
  update : UpdateFrame { s with points := t.points } t
  length : t.points.length = s.points.length

theorem UpdateFrame.setPoints (h : UpdateFrame s t) (ps : List Point) :
    UpdateFrame { s with points := ps } { t with points := ps } :=
  { h with length := rfl, points := fun _ => .refl _ }

theorem UpdateFrame.setDisp (h : UpdateFrame s t) (d : Dispatch) :
    UpdateFrame { s with disp := d } { t with disp := d } :=
  { h with disp := rfl, points := h.points }

theorem Point.SetByOwner.logFlag (h : p.SetByOwner q) : q.logFlag = p.logFlag := (congrArg Point.logFlag h.rest :)

theorem Point.SetByOwner.goodRun (h : p.SetByOwner q) : q.goodRun = p.goodRun := (congrArg Point.goodRun h.rest :)

theorem UpdateFrame.commit (h : UpdateFrame s t) : CommitFrame s t := ⟨h.setPoints t.points, h.length⟩

theorem CommitFrame.refl (s : State) : CommitFrame s s := (UpdateFrame.refl s).commit

theorem CommitFrame.trans (h : CommitFrame s t) (k : CommitFrame t u) : CommitFrame s u :=
  ⟨(h.update.setPoints u.points).trans k.update, k.length.trans h.length⟩

theorem CommitFrame.setPoint (s : State) (i : Nat) (p : Point) : CommitFrame s (s.setPoint i p) :=
  ⟨.refl _, List.length_set ..⟩

theorem CommitFrame.foldl {α : Type} (f : State → α → State) (hf : ∀ s x, CommitFrame s (f s x)) :
    ∀ (xs : List α) (s : State), CommitFrame s (xs.foldl f s)
  | [], s => .refl s
  | x :: xs, s => (hf s x).trans (CommitFrame.foldl f hf xs (f s x))

theorem State.commitPoint_commit (s : State) (i : Nat) (new : Point) (edges : Bool) :
    CommitFrame s (s.commitPoint i new edges) := by
  obtain ⟨_, _, frame, _⟩ := s.commitPoint_frame i new edges
  exact (CommitFrame.setPoint ..).trans frame.commit

/-- R46: the other records stay as they are but for what their owners set. -/
theorem State.commitPoint_other {edges : Bool} (h : i ≠ j) : (s.point j).SetByOwner ((s.commitPoint i p edges).point j) := by
  obtain ⟨_, _, frame, _⟩ := s.commitPoint_frame i p edges
  have k := frame.points j
  rwa [State.setPoint_point_other _ _ _ _ h] at k

/-- R46, R52: the record stored, with its latches. -/
theorem State.commitPoint_self {edges : Bool} (h : i < s.points.length) : ∃ risen fallen,
    (p.latch risen fallen).SetByOwner ((s.commitPoint i p edges).point i) ∧
      (p.kind ≠ .binary ∨ edges = false → p.latch risen fallen = p) := by
  obtain ⟨risen, fallen, frame, latch⟩ := s.commitPoint_frame i p edges
  have k := frame.points i
  rw [State.setPoint_point _ _ _ h] at k
  exact ⟨risen, fallen, k, latch⟩

theorem Point.SameSettings.refl (p : Point) : p.SameSettings p := by constructor <;> rfl

theorem Point.SameSettings.trans {r : Point} (h : p.SameSettings q) (k : q.SameSettings r) : p.SameSettings r where
  kind := h.kind.trans k.kind
  role := h.role.trans k.role
  line := h.line.trans k.line
  gain := h.gain.trans k.gain
  offset := h.offset.trans k.offset
  low := h.low.trans k.low
  high := h.high.trans k.high
  staleLimit := h.staleLimit.trans k.staleLimit
  subst := h.subst.trans k.subst
  substValue := h.substValue.trans k.substValue
  holdLimit := h.holdLimit.trans k.holdLimit
  polarity := h.polarity.trans k.polarity
  riseMask := h.riseMask.trans k.riseMask
  fallMask := h.fallMask.trans k.fallMask

/-! ### Forcing records removed (R56, R59) -/

theorem State.releaseForcing_commit (s : State) (i : Nat) : CommitFrame s (s.releaseForcing i) := by
  unfold State.releaseForcing
  dsimp only
  split
  · exact .refl s
  · exact (UpdateFrame.log (.refl s)).commit.trans (State.commitPoint_commit ..)

theorem Point.latch_sameSettings (p : Point) (a b : Signals) : (p.latch a b).SameSettings p := by constructor <;> rfl

theorem Point.represent_sameSettings (p : Point) : p.represent.SameSettings p := by
  unfold Point.represent
  split <;> constructor <;> rfl

theorem Point.represent_forcing (p : Point) : p.represent.forcing = p.forcing := by
  unfold Point.represent
  split <;> rfl

/-- R56: the point's forcing record is gone, and no point has got one. -/
theorem State.releaseForcing_point (hi : i < s.points.length) (j : Nat) :
    ((s.releaseForcing i).point j).SameSettings (s.point j) ∧
      ((s.point j).forcing = none ∨ j = i → ((s.releaseForcing i).point j).forcing = none) := by
  unfold State.releaseForcing
  dsimp only
  split
  · next hn =>
    refine ⟨.refl _, fun h => h.elim id fun h => ?_⟩
    rw [h]
    exact Option.isNone_iff_eq_none.1 hn
  · by_cases h : i = j
    · subst h
      obtain ⟨risen, fallen, k, _⟩ := State.commitPoint_self (s := s.log .point .pointReleased i)
        (p := Point.represent { s.point i with forcing := none }) (edges := true) (by rwa [State.log_points])
      refine ⟨(k.sameSettings.trans (Point.latch_sameSettings ..)).trans
        ((Point.represent_sameSettings _).trans (by constructor <;> rfl)), fun _ => k.forcing.trans ?_⟩
      exact Point.represent_forcing _
    · have k := State.commitPoint_other (s := s.log .point .pointReleased i)
        (p := Point.represent { s.point i with forcing := none }) (edges := true) h
      rw [State.log_point] at k
      exact ⟨k.sameSettings, fun hf => k.forcing.trans (hf.resolve_right (Ne.symm h))⟩

/-- R59: every forcing record is gone, and the settings stay. -/
theorem State.releaseAll_points (s : State) : CommitFrame s s.releaseAll ∧
    ∀ j, (s.releaseAll.point j).SameSettings (s.point j) ∧
      (j < s.points.length → (s.releaseAll.point j).forcing = none) := by
  unfold State.releaseAll
  have upTo : ∀ k, k ≤ s.points.length → CommitFrame s ((List.range k).foldl State.releaseForcing s) ∧
      ∀ j, (((List.range k).foldl State.releaseForcing s).point j).SameSettings (s.point j) ∧
        (j < k → (((List.range k).foldl State.releaseForcing s).point j).forcing = none) := by
    intro k
    induction k with
    | zero => exact fun _ => ⟨.refl s, fun j => ⟨.refl _, fun h => absurd h (Nat.not_lt_zero j)⟩⟩
    | succ k ih =>
      intro hk
      obtain ⟨frame, points⟩ := ih (by omega)
      rw [List.range_succ, List.foldl_append]
      refine ⟨frame.trans (State.releaseForcing_commit _ k), fun j => ?_⟩
      obtain ⟨settings, forcing⟩ := points j
      obtain ⟨settings', forcing'⟩ := State.releaseForcing_point (i := k) (by rw [frame.length]; omega) j
      exact ⟨settings'.trans settings, fun hj => forcing' ((Nat.lt_succ_iff_lt_or_eq.1 hj).imp forcing id)⟩
  exact upTo _ (Nat.le_refl _)

/-! ### SEGMENT_RESTART (R20) -/

/-- R15, R24: entering ENUMERATING is a change of the ring and the enumeration record, and what the line controllers make of
it. -/
theorem State.enterEnumerating_frame (s : State) (kind : EnumKind) :
    UpdateFrame { s with
      ring := { s.ring with
        segment := .enumerating, outstanding := none, flight := none, lostInRow := 0, takenInRow := 0 }
      seg.enum := s.seg.enum.begun kind } (s.enterEnumerating kind) := by
  have k := State.setSegment_frame { s with ring := { s.ring with
    outstanding := none, flight := none, lostInRow := 0, takenInRow := 0 } } .enumerating
  unfold State.enterEnumerating
  rw [State.beginRun_eq]
  exact { k with
    seg := by rw [k.seg]
    points := k.points }

/-- R20: the part before the segment's course: the run abandoned, the station table reduced, the ring quiet. -/
def State.restartBegun (s : State) : State :=
  { s.abandonRun with
    seg := s.abandonRun.seg.reduced, ring := { s.abandonRun.ring.quiet with resume := s.ring.restartTarget } }

/-- R47, R59, R112, R180: the part once forcing records, episodes of loss and calibrations are over and the lane is
empty. -/
def State.restartCleared (s : State) : State :=
  let u := s.restartBegun.releaseAll
  let v := (State.endCalibrations { u with points := u.points.map Point.endEpisode } .one).endCalibrations .two
  { v with disp := { v.disp with rx := .idle, out := [] } }

theorem State.segmentRestart_eq (s : State) : s.segmentRestart =
    if s.restartCleared.ring.segment = .down then s.restartCleared else s.restartCleared.enterEnumerating .full := by
  unfold State.segmentRestart State.restartCleared State.restartBegun
  rfl

theorem State.restartCleared_frame (s : State) :
    UpdateFrame { s.restartBegun with
      points := s.restartBegun.releaseAll.points.map Point.endEpisode
      disp := { s.disp with rx := .idle, out := [] } } s.restartCleared := by
  obtain ⟨released, _⟩ := s.restartBegun.releaseAll_points
  have ended := released.update.setPoints (s.restartBegun.releaseAll.points.map Point.endEpisode)
  have calibrated := UpdateFrame.endCalibrations (l := .two) (.endCalibrations (l := .one) ended)
  have disp : s.restartBegun.disp = s.disp := s.abandonRun_disp
  have k := calibrated.setDisp
    { ((State.endCalibrations { s.restartBegun.releaseAll with
        points := s.restartBegun.releaseAll.points.map Point.endEpisode } .one).endCalibrations .two).disp with
      rx := .idle, out := [] }
  rw [calibrated.disp.trans disp] at k
  unfold State.restartCleared
  dsimp only
  rw [calibrated.disp.trans disp]
  exact k

theorem State.restartCleared_ring (s : State) :
    s.restartCleared.ring = { s.ring.quiet with resume := s.ring.restartTarget } :=
  s.restartCleared_frame.ring.trans
    (congrArg (fun r : Ring => { r.quiet with resume := s.ring.restartTarget }) s.abandonRun_ring)

/-- R15, R20: from a quiet ring a segment in DOWN stays there, and any other is ENUMERATING. -/
theorem State.quietCourse_frame {r : Ring} {w : Working} (h : u.ring = { r.quiet with resume := w }) :
    ∃ e : EnumRecord, UpdateFrame { u with
      ring := { r.quiet with resume := w, segment := if r.segment = .down then .down else .enumerating }
      seg := { u.seg with enum := e } } (if u.ring.segment = .down then u else u.enterEnumerating .full) := by
  have segment : u.ring.segment = r.segment := (congrArg Ring.segment h :)
  rw [segment]
  by_cases hd : r.segment = .down
  · rw [if_pos hd, if_pos hd, ← hd]
    refine ⟨u.seg.enum, ?_⟩
    change UpdateFrame { u with ring := { r.quiet with resume := w } } u
    rw [← h]
    exact .refl u
  · rw [if_neg hd, if_neg hd]
    have k := u.enterEnumerating_frame .full
    rw [h] at k
    exact ⟨_, k⟩

theorem State.segmentRestart_frame (s : State) : ∃ e : EnumRecord, UpdateFrame { s.restartCleared with
    ring := { s.ring.quiet with
      resume := s.ring.restartTarget, segment := if s.ring.segment = .down then .down else .enumerating }
    seg := { s.restartCleared.seg with enum := e } } s.segmentRestart := by
  rw [State.segmentRestart_eq]
  exact State.quietCourse_frame s.restartCleared_ring

/-- R47, R59: the records once cleared. -/
theorem State.restartCleared_point (s : State) (i : Nat) (hi : i < s.points.length) :
    (s.restartCleared.point i).forcing = none ∧ (s.restartCleared.point i).logFlag = false ∧
      (s.restartCleared.point i).goodRun = 0 ∧ (s.restartCleared.point i).SameSettings (s.point i) := by
  obtain ⟨released, points⟩ := s.restartBegun.releaseAll_points
  obtain ⟨settings, forcing⟩ := points i
  have same : s.restartBegun.points = s.points := s.abandonRun_points
  have length : i < s.restartBegun.releaseAll.points.length := by rw [released.length, same]; exact hi
  have start : s.restartBegun.point i = s.point i := congrArg (fun ps : List Point => ps.getD i .empty) same
  have k := s.restartCleared_frame.points i
  have ended : ({ s.restartBegun with
      points := s.restartBegun.releaseAll.points.map Point.endEpisode
      disp := { s.disp with rx := .idle, out := [] } } : State).point i =
        (s.restartBegun.releaseAll.point i).endEpisode := by
    simp [State.point, length]
  rw [ended] at k
  rw [start] at settings
  exact ⟨k.forcing.trans (forcing (by rw [same]; exact hi)), k.logFlag.trans (Point.endEpisode_logFlag _),
    k.goodRun.trans (Point.endEpisode_goodRun _), k.sameSettings.trans ((Point.endEpisode_sameSettings _).trans settings)⟩

end

end Sys2Proof.Machine

open Sys2Proof.Machine in
/-- Settles O15: the part cleared, then the segment's course. -/
theorem Sys2Proof.segmentRestartCourse : Obligations.SegmentRestartCourse := fun s q => by
  have cleared := s.restartCleared_frame
  obtain ⟨_, frame⟩ := s.segmentRestart_frame
  have points := s.restartCleared_point
  have next := exec_segmentRestart q
  have stations : s.restartBegun.seg.stations = s.abandonRun.seg.stations.map Station.release := rfl
  have ackSet : s.restartBegun.seg.ackSet = 0 := rfl
  have clock : s.restartBegun.clock = s.clock := s.abandonRun_clock
  have pending : s.restartBegun.pending = s.pending := s.abandonRun_pending
  have turb : s.restartBegun.turb = s.turb := s.abandonRun_turb
  generalize s.segmentRestart = t at frame next
  generalize s.restartCleared = c at cleared frame points
  generalize s.restartBegun = b at cleared stations ackSet clock pending turb
  have released : t.seg.stations = s.abandonRun.seg.stations.map Station.release :=
    (congrArg Segment.stations frame.seg :).trans ((congrArg Segment.stations cleared.seg :).trans stations)
  refine ⟨t, next, frame.clock.trans (cleared.clock.trans clock), frame.pending.trans (cleared.pending.trans pending),
    (congrArg Ring.slotMap frame.ring :), (congrArg Ring.counters frame.ring :), (congrArg Ring.outstanding frame.ring :),
    (congrArg Ring.lostInRow frame.ring :), (congrArg Ring.takenInRow frame.ring :),
    (congrArg Ring.resume frame.ring :), (congrArg Ring.segment frame.ring :), fun e he => ?_,
    (congrArg Segment.ackSet frame.seg :).trans ((congrArg Segment.ackSet cleared.seg :).trans ackSet), fun i hi => ?_,
    frame.disp.trans cleared.disp, frame.target.trans (cleared.target.trans (congrArg Turbine.target turb))⟩
  · rw [released] at he
    obtain ⟨x, _, rfl⟩ := List.mem_map.1 he
    exact ⟨rfl, fun hl => if_neg (Bool.eq_false_iff.1 hl)⟩
  · obtain ⟨forcing, flag, run, settings⟩ := points i hi
    have k := frame.points i
    exact ⟨k.forcing.trans forcing, k.logFlag.trans flag, k.goodRun.trans run, k.sameSettings.trans settings⟩
end

