-- ==== Sys2Proof/Proofs/WarmReset.lean ====
section
/-! PROOFS. WARM_RESET (R20, R191): the blocks take their values, the owners show theirs again, and the segment takes its
course with both lines OFF (O14). -/

namespace Sys2Proof.Machine

section
variable {s t u : State} {l : LineId} {new : SegState} {kind : EnumKind} {m : Mgmt}

/-! ### What the owners show again -/

/-- Values shown by their owners and nothing else: a GOOD OUTPUT stays GOOD (R49). -/
structure ShownFrame (s t : State) : Prop where
  rest : { t with points := s.points } = s
  good : ∀ i, (s.point i).kind = .output → (s.point i).quality = .good →
    (t.point i).kind = .output ∧ (t.point i).quality = .good

theorem ShownFrame.refl (s : State) : ShownFrame s s := ⟨rfl, fun _ h k => ⟨h, k⟩⟩

theorem ShownFrame.trans (h : ShownFrame s t) (k : ShownFrame t u) : ShownFrame s u where
  rest := by
    have e := k.rest
    rw [← h.rest, ← e]
  good := fun i hk hq => by
    obtain ⟨kind, good⟩ := h.good i hk hq
    exact k.good i kind good

theorem ShownFrame.lines (h : ShownFrame s t) : t.lines = s.lines := (congrArg State.lines h.rest :)

theorem ShownFrame.ring (h : ShownFrame s t) : t.ring = s.ring := (congrArg State.ring h.rest :)

theorem ShownFrame.seg (h : ShownFrame s t) : t.seg = s.seg := (congrArg State.seg h.rest :)

theorem ShownFrame.mgmt (h : ShownFrame s t) : t.mgmt = s.mgmt := (congrArg State.mgmt h.rest :)

theorem ShownFrame.foldl {α : Type} {a : State} (f : State → α → State)
    (hf : ∀ s x, ShownFrame a s → ShownFrame a (f s x)) : ∀ (xs : List α) (s : State), ShownFrame a s → ShownFrame a (xs.foldl f s)
  | [], _, h => h
  | x :: xs, s, h => ShownFrame.foldl f hf xs (f s x) (hf s x h)

theorem Point.own_good {p : Point} (h : p.kind = .output) (v : Int) : (p.own v).quality = .good :=
  if_neg fun k => absurd (h.symm.trans k.1) (by decide)

theorem State.own_shown (s : State) (r : Role) (w : Option LineId) (v : Int) : ShownFrame s (s.own r w v) := by
  rcases s.own_cases r w v with h | ⟨i, _, _, h⟩
  · rw [h]
    exact .refl s
  · rw [h]
    refine ⟨rfl, fun j kind good => ?_⟩
    by_cases hij : i = j
    · subst hij
      have hi : i < s.points.length := by
        by_contra hi
        rw [State.point, List.getD_eq_default _ _ (by omega)] at kind
        cases kind
      rw [s.setPoint_point i _ hi]
      exact ⟨kind, Point.own_good kind v⟩
    · rw [s.setPoint_point_other i j _ hij]
      exact ⟨kind, good⟩

theorem ShownFrame.own {r : Role} {w : Option LineId} {v : Int} (h : ShownFrame s t) : ShownFrame s (t.own r w v) :=
  h.trans (t.own_shown r w v)

theorem ShownFrame.showBudget (h : ShownFrame s t) : ShownFrame s (t.showBudget l) := h.own

theorem ShownFrame.warmLinePoints (h : ShownFrame s t) : ShownFrame s (t.warmLinePoints l) := by
  unfold State.warmLinePoints
  refine .own (.foldl _ (fun s c h => ?_) _ _ (.showBudget (.foldl _ (fun _ _ h => h.own) _ _
    (.own (.own (.own (.own (.own h.own))))))))
  split
  · exact h
  · exact h.own

theorem ShownFrame.warmCommonPoints (h : ShownFrame s t) : ShownFrame s t.warmCommonPoints :=
  .own (.own (.own (.own (.own h.own))))

/-- R82, R96, R112, R131, R147, R162: the values set again are shown, and nothing else moves. -/
theorem State.warmShown (s : State) : ShownFrame s ((s.warmLinePoints .one).warmLinePoints .two).warmCommonPoints :=
  .warmCommonPoints (.warmLinePoints (.warmLinePoints (.refl s)))

/-! ### The segment's course with both lines OFF (R66) -/

theorem State.log_quiet {src : Source} {n : EventName} {x y z : Int} : { s.log src n x y z with mgmt := m } = { s with mgmt := m } := by
  unfold State.log
  split <;> rfl

/-- R66: with no line fed a change of segment state moves the ring and the events alone. -/
theorem State.setSegment_quiet (hl : ∀ l, (s.line l).state.feeds = false) :
    { s.setSegment new with mgmt := m } = { s with ring.segment := new, mgmt := m } := by
  by_cases h : s.ring.segment = new
  · rw [State.setSegment_of_same h, ← h]
  · rw [State.setSegment_of_idle h hl, State.log_quiet]

/-- R15, R66: and so does entering ENUMERATING, the enumeration record apart. -/
theorem State.enterEnumerating_quiet (hl : ∀ l, (s.line l).state.feeds = false) :
    { s.enterEnumerating kind with mgmt := m } = { s with
      ring := { s.ring with
        segment := .enumerating, outstanding := none, flight := none, lostInRow := 0, takenInRow := 0 }
      seg.enum := s.seg.enum.begun kind
      mgmt := m } := by
  have k := State.setSegment_quiet (s := { s with ring := { s.ring with
    outstanding := none, flight := none, lostInRow := 0, takenInRow := 0 } }) (new := .enumerating) (m := m) hl
  unfold State.enterEnumerating
  rw [State.beginRun_eq]
  generalize State.setSegment _ _ = u at k ⊢
  exact (congrArg (fun t : State => { t with seg.enum := t.seg.enum.begun kind }) k :)

/-! ### WARM_RESET block by block -/

/-- R20, R58, R112, R147, R162, R180: every block but the management unit with its values, before the owners show
theirs. -/
def State.warmBlocks (s : State) : State :=
  let s := s.warmSegment
  let s := { s with
    points := s.points.map Point.warm
    env := s.env.warm s.runTime s.lines.one.page.fMax s.lines.two.page.fMax
    turb := Turbine.resetWith s.turb.page
    disp := Dispatch.resetWith s.disp.page
    fgcs := ⟨s.fgcs.one.warm, s.fgcs.two.warm⟩
    owed := [] }
  { s with lines := ⟨s.lines.one.warm s.env.effCap.one, s.lines.two.warm s.env.effCap.two⟩ }

/-- R82, R112: the blocks with what their owners show. -/
def State.warmCleared (s : State) : State :=
  ((s.warmBlocks.warmLinePoints .one).warmLinePoints .two).warmCommonPoints

/-- R15, R20: the ring and the enumeration record once the segment has taken its course. -/
def State.warmCourse (s : State) : State :=
  if s.ring.linkS then
    { s with
      ring := { s.ring with
        segment := .enumerating, outstanding := none, flight := none, lostInRow := 0, takenInRow := 0 }
      seg.enum := s.seg.enum.begun .full }
  else { s with ring.segment := .down }

theorem State.warmBlocks_idle (s : State) (l : LineId) : (s.warmBlocks.line l).state.feeds = false := by
  cases l <;> rfl

theorem State.warmCleared_shown (s : State) : ShownFrame s.warmBlocks s.warmCleared := s.warmBlocks.warmShown

theorem Mgmt.warm_congr {n : Mgmt} (h : m.executing = n.executing) (cause : WarmCause) : m.warm cause = n.warm cause := by
  unfold Mgmt.warm
  rw [h]

theorem State.setSegment_executing (s : State) (new : SegState) :
    (s.setSegment new).mgmt.executing = s.mgmt.executing := (s.setSegment_frame new).executing

/-- R15, R191: the segment's course, the management unit's values and WARM-START. -/
def State.warmFinish (s : State) (cause : WarmCause) : State :=
  let t := if s.ring.linkS then s.enterEnumerating .full else s.setSegment .down
  ({ t with mgmt := t.mgmt.warm cause }).log .mgmt .warmStart (warmCode cause)

theorem State.warmReset_cleared (s : State) (cause : WarmCause) : s.warmReset cause = s.warmCleared.warmFinish cause := by
  unfold State.warmReset State.warmFinish
  extract_lets w b c d e f
  have cleared : d = s.warmCleared := rfl
  have finished : e = f := by
    unfold e f
    rw [cleared]
  rw [finished]

/-- R20: with both lines OFF the segment's course moves the ring, the enumeration record and the management unit alone. -/
theorem State.warmFinish_of_idle (cause : WarmCause) (hl : ∀ l, (s.line l).state.feeds = false) : s.warmFinish cause =
    ({ s.warmCourse with mgmt := s.mgmt.warm cause } : State).log .mgmt .warmStart (warmCode cause) := by
  have up := State.enterEnumerating_quiet (kind := .full) (m := s.mgmt.warm cause) hl
  have down := State.setSegment_quiet (new := .down) (m := s.mgmt.warm cause) hl
  refine congrArg (fun v : State => v.log .mgmt .warmStart (warmCode cause)) ?_
  unfold State.warmCourse
  split
  · rw [Mgmt.warm_congr (s.enterEnumerating_executing .full) cause]
    exact up
  · rw [Mgmt.warm_congr (s.setSegment_executing .down) cause]
    exact down

theorem ShownFrame.finished (h : ShownFrame s t) (hl : ∀ l, (s.line l).state.feeds = false) (cause : WarmCause) :
    t.warmFinish cause =
      ({ t.warmCourse with mgmt := s.mgmt.warm cause } : State).log .mgmt .warmStart (warmCode cause) := by
  have idle : ∀ l, (t.line l).state.feeds = false := fun l => by rw [State.line, h.lines]; exact hl l
  rw [State.warmFinish_of_idle cause idle, h.mgmt]

/-- The clocks, the line controllers, the flue gas units, the allocator, the turbine interface and the dispatch unit are
those of another state. -/
structure SameBlocks (s t : State) : Prop where
  clock   : t.clock = s.clock
  pending : t.pending = s.pending
  lines   : t.lines = s.lines
  fgcs    : t.fgcs = s.fgcs
  env     : t.env = s.env
  turb    : t.turb = s.turb
  disp    : t.disp = s.disp

theorem SameBlocks.of_eq (h : { t with ring := s.ring, seg := s.seg, mgmt := s.mgmt, points := s.points } = s) :
    SameBlocks s t where
  clock := (congrArg State.clock h :)
  pending := (congrArg State.pending h :)
  lines := (congrArg State.lines h :)
  fgcs := (congrArg State.fgcs h :)
  env := (congrArg State.env h :)
  turb := (congrArg State.turb h :)
  disp := (congrArg State.disp h :)

theorem State.warmCourse_rest (s : State) : { s.warmCourse with ring := s.ring, seg := s.seg } = s := by
  unfold State.warmCourse
  split <;> rfl

/-- R20: nothing but the ring, the segment manager, the management unit and the points differs from the blocks' values. -/
theorem ShownFrame.finished_blocks (h : ShownFrame s t) (hl : ∀ l, (s.line l).state.feeds = false) (cause : WarmCause) :
    SameBlocks s (t.warmFinish cause) := by
  apply SameBlocks.of_eq
  have course := congrArg (fun v : State => { v with ring := s.ring, seg := s.seg, mgmt := s.mgmt, points := s.points })
    t.warmCourse_rest
  have rest := congrArg (fun v : State => { v with ring := s.ring, seg := s.seg, mgmt := s.mgmt }) h.rest
  rw [h.finished hl, State.log]
  split
  · exact course.trans rest
  · exact course.trans rest

theorem ShownFrame.finished_points (h : ShownFrame s t) (hl : ∀ l, (s.line l).state.feeds = false) (cause : WarmCause) :
    (t.warmFinish cause).points = t.points := by
  rw [h.finished hl, State.log_points]
  exact (congrArg State.points t.warmCourse_rest :)

theorem ShownFrame.finished_ring (h : ShownFrame s t) (hl : ∀ l, (s.line l).state.feeds = false) (cause : WarmCause) :
    (t.warmFinish cause).ring = s.warmCourse.ring := by
  rw [h.finished hl, State.log_ring]
  unfold State.warmCourse
  rw [h.ring]
  split
  · rfl
  · rfl

theorem ShownFrame.finished_seg (h : ShownFrame s t) (hl : ∀ l, (s.line l).state.feeds = false) (cause : WarmCause) :
    (t.warmFinish cause).seg = s.warmCourse.seg := by
  rw [h.finished hl, State.log_seg]
  unfold State.warmCourse
  rw [h.ring]
  split
  · exact congrArg (fun g : Segment => { g with enum := g.enum.begun .full }) h.seg
  · exact h.seg

theorem ShownFrame.finished_mgmt (h : ShownFrame s t) (hl : ∀ l, (s.line l).state.feeds = false) (cause : WarmCause) :
    (t.warmFinish cause).mgmt = { s.mgmt.warm cause with
      events := [⟨s.runTime, s.clock.plant, .mgmt, .warmStart, eventWord (warmCode cause), eventWord 0, eventWord 0⟩] } := by
  have clock : t.warmCourse.clock = s.clock :=
    (congrArg State.clock t.warmCourse_rest :).trans (congrArg State.clock h.rest :)
  rw [h.finished hl]
  exact congrArg (fun c : Clock => { s.mgmt.warm cause with events := [
    ⟨c.tenths / 10, c.plant, .mgmt, .warmStart, eventWord (warmCode cause), eventWord 0, eventWord 0⟩] }) clock

variable (s) (cause : WarmCause)

/-- R20: the ring after a WARM reset. -/
theorem State.warmReset_ring : (s.warmReset cause).ring = { s.ring.quiet with
    counters := .zero, lossRun := false, mismatchRun := false, resume := .config
    segment := if s.ring.linkS then .enumerating else .down } := by
  rw [State.warmReset_cleared, s.warmCleared_shown.finished_ring s.warmBlocks_idle]
  unfold State.warmCourse
  by_cases h : s.ring.linkS = true
  · rw [if_pos h, if_pos (show s.warmBlocks.ring.linkS = true from h)]
    rfl
  · rw [if_neg h, if_neg (show ¬ s.warmBlocks.ring.linkS = true from h)]
    rfl

/-- R41: the segment manager after a WARM reset. -/
theorem State.warmReset_seg : ∃ e, (s.warmReset cause).seg = { s.seg.reduced with window := none, enum := e } ∧
    e.running = s.ring.linkS := by
  rw [State.warmReset_cleared, s.warmCleared_shown.finished_seg s.warmBlocks_idle]
  unfold State.warmCourse
  by_cases h : s.ring.linkS = true
  · rw [if_pos (show s.warmBlocks.ring.linkS = true from h)]
    exact ⟨_, rfl, h.symm⟩
  · rw [if_neg (show ¬ s.warmBlocks.ring.linkS = true from h)]
    exact ⟨_, rfl, (Bool.eq_false_iff.2 h).symm⟩

/-- R58, R82, R112, R147, R162, R180: what a WARM reset makes of every other block, the points apart. -/
theorem State.warmReset_blocks : SameBlocks s.warmBlocks (s.warmReset cause) := by
  rw [State.warmReset_cleared]
  exact s.warmCleared_shown.finished_blocks s.warmBlocks_idle cause

theorem State.warmBlocks_point (i : Nat) : s.warmBlocks.point i = (s.point i).warm := by
  change (s.points.map Point.warm).getD i .empty = (s.points.getD i .empty).warm
  rw [List.getD_eq_getElem?_getD, List.getElem?_map, List.getD_eq_getElem?_getD]
  cases s.points[i]? <;> rfl

/-- R58: the points after a WARM reset. -/
theorem State.warmReset_point (i : Nat) : (s.point i).warm.SetByOwner ((s.warmReset cause).point i) ∧
    ((s.point i).warm.kind = .output → (s.point i).warm.quality = .good →
      ((s.warmReset cause).point i).quality = .good) := by
  have points : (s.warmReset cause).point i = s.warmCleared.point i := by
    rw [State.warmReset_cleared, State.point, s.warmCleared_shown.finished_points s.warmBlocks_idle]
    rfl
  have owned := s.warmBlocks.warmShown_frame.points i
  have good := s.warmCleared_shown.good i
  rw [points, ← s.warmBlocks_point]
  exact ⟨owned, fun kind quality => (good kind quality).2⟩

/-- R191: the management unit after a WARM reset: WARM-START is the one event. -/
theorem State.warmReset_mgmt : (s.warmReset cause).mgmt = { s.mgmt.warm cause with
    events := [⟨s.runTime, s.clock.plant, .mgmt, .warmStart, eventWord (warmCode cause), eventWord 0, eventWord 0⟩] } := by
  rw [State.warmReset_cleared, s.warmCleared_shown.finished_mgmt s.warmBlocks_idle]
  rfl

/-! ### What the blocks' values are -/

theorem State.warmReset_line (l : LineId) : ∃ cap, (s.warmReset cause).line l = (s.line l).warm cap := by
  rw [State.line, (s.warmReset_blocks cause).lines]
  cases l <;> exact ⟨_, rfl⟩

theorem State.warmReset_fgc (l : LineId) : (s.warmReset cause).fgc l = (s.fgc l).warm := by
  rw [State.fgc, (s.warmReset_blocks cause).fgcs]
  cases l <;> rfl

/-- R58: a configured record. -/
theorem Point.warm_cleared {p : Point} (h : p.kind ≠ .empty) : p.warm = { p with
    raw := 0, value := 0, level := 0, riseLatch := 0, fallLatch := 0, input := .unsampled, degraded := false
    forcing := none, staleAt := none, holdAt := none, logFlag := false, goodRun := 0, started := false
    quality := if p.kind = .output then .good else .bad } := if_neg h

theorem Point.SetByOwner.cleared {p q : Point} (h : p.kind ≠ .empty) (k : p.warm.SetByOwner q) :
    q.forcing = none ∧ q.riseLatch = 0 ∧ q.fallLatch = 0 ∧ q.level = 0 ∧ q.degraded = false ∧ q.input = .unsampled ∧
      q.staleAt = none ∧ q.holdAt = none ∧ q.logFlag = false ∧ q.goodRun = 0 ∧ q.started = false := by
  have e := k.rest
  rw [Point.warm_cleared h] at e
  exact ⟨(congrArg Point.forcing e :), (congrArg Point.riseLatch e :), (congrArg Point.fallLatch e :),
    (congrArg Point.level e :), (congrArg Point.degraded e :), (congrArg Point.input e :),
    (congrArg Point.staleAt e :), (congrArg Point.holdAt e :), (congrArg Point.logFlag e :),
    (congrArg Point.goodRun e :), (congrArg Point.started e :)⟩

theorem Point.warm_sameSettings (p : Point) : p.warm.SameSettings p := by
  unfold Point.warm
  split <;> constructor <;> rfl

/-- R131: the minute in progress goes on, invalid. -/
theorem Fgc.warm_minute {f : Fgc} {n : Minute} (h : f.minute = some n) : f.warm.minute = some n.warm := by
  unfold Fgc.warm
  rw [h]
  rfl

theorem Minute.warm_comps (n : Minute) (k : Component) : n.warm.comps.get k = { n.comps.get k with forcedInvalid := true } := by
  cases k <;> rfl

end

end Sys2Proof.Machine

open Sys2Proof.Machine in
/-- Settles O14: the ring, the segment manager, the management unit and the points one after another, then the blocks
that stand as they were set. -/
theorem Sys2Proof.warmResetValues : Obligations.WarmResetValues := fun cause s q => by
  have ring := s.warmReset_ring cause
  obtain ⟨e, seg, running⟩ := s.warmReset_seg cause
  have blocks := s.warmReset_blocks cause
  have env : (s.warmReset cause).env = s.env.warm s.runTime s.lines.one.page.fMax s.lines.two.page.fMax := blocks.env
  have mgmt := s.warmReset_mgmt cause
  refine ⟨_, exec_warmReset q, blocks.clock, blocks.pending,
    (congrArg Ring.slotMap ring :), (congrArg Ring.counters ring :), (congrArg Ring.resume ring :),
    (congrArg Ring.outstanding ring :), (congrArg Ring.segment ring :), (congrArg Ring.lossRun ring :),
    (congrArg Ring.mismatchRun ring :), (congrArg Ring.lostInRow ring :), (congrArg Ring.takenInRow ring :),
    (congrArg Ring.echoCounts ring :), (congrArg Ring.collisions ring :), (congrArg Ring.returnTimeout ring :),
    (congrArg Ring.brokenCount ring :), (congrArg Segment.stations seg :), (congrArg Segment.ackSet seg :),
    (congrArg Segment.dropFlags seg :), (congrArg Segment.resetLevel seg :), (congrArg Segment.window seg :),
    (congrArg Segment.silenceCount seg :), (congrArg Segment.joinEnable seg :),
    (congrArg (fun g : Segment => g.enum.running) seg :).trans running, fun i => ?points, fun l => ?line, fun l => ?fgc,
    (congrArg Envelope.page env :), (congrArg Envelope.result env :), (congrArg Envelope.shortfall env :),
    (congrArg Envelope.overFlag env :), (congrArg Envelope.releaseAt env :), fun l => ?caps,
    blocks.turb, blocks.disp,
    (congrArg (fun m : Mgmt => m.events.map fun e => (e.runTime, e.name, e.subject)) mgmt :),
    (congrArg Mgmt.executing mgmt :), (congrArg Mgmt.abortedCommand mgmt :)⟩
  case points =>
    obtain ⟨owned, good⟩ := s.warmReset_point cause i
    refine ⟨owned.sameSettings.trans (Point.warm_sameSettings _), fun h => ?_, fun h => ?_, fun h => ?_⟩
    · exact Point.SetByOwner.cleared h owned
    · have input : (s.point i).kind ≠ .empty ∧ (s.point i).kind ≠ .output ∧ (s.point i).kind ≠ .report := by
        rcases h with h | h | h <;> rw [h] <;> decide
      obtain ⟨configured, output, report⟩ := input
      rw [Point.warm_cleared configured] at owned
      rw [owned.input output report, if_neg output]
      exact ⟨rfl, rfl, rfl⟩
    · rw [Point.warm_cleared (by rw [h]; decide)] at good
      exact good h (if_pos h)
  case line =>
    obtain ⟨cap, line⟩ := s.warmReset_line cause l
    rw [line]
    exact ⟨rfl, rfl, rfl, rfl, rfl, rfl, rfl⟩
  case fgc =>
    rw [s.warmReset_fgc cause l]
    refine ⟨rfl, rfl, rfl, rfl, rfl, rfl, rfl, rfl, rfl, rfl, fun p => ?_, rfl, rfl, rfl, rfl, rfl,
      fun m hm => ⟨m.warm, Fgc.warm_minute hm, rfl, rfl, m.warm_comps⟩, fun hm => congrArg (Option.map Minute.warm) hm⟩
    cases p with
    | comp c => cases c <;> rfl
    | o2 => rfl
    | h2o => rfl
  case caps =>
    rw [env]
    cases l <;> exact ⟨rfl, rfl, rfl, rfl⟩
end

