-- ==== Sys2Proof/Proofs/Samples.lean ====
section
/-! PROOFS. What the slots of a frame make of the point records: one sample (R45, R48), and the slots of a frame one after
another, each acting on a record of its own (R3, log 82). -/

namespace Sys2Proof.Machine

section
variable {s t u : State} {i j k : Nat} {w : Word16} {c : Byte} {p q : Point}

/-! ### Records handed over -/

/-- Records have been stored and their updates handed on, and no record's structure or limits have changed. -/
structure HandedFrame (s t : State) : Prop extends CommitFrame s t where
  settings : ∀ j, (t.point j).SameSettings (s.point j)

theorem HandedFrame.refl (s : State) : HandedFrame s s := ⟨.refl s, fun _ => .refl _⟩

theorem HandedFrame.trans (h : HandedFrame s t) (k : HandedFrame t u) : HandedFrame s u :=
  ⟨h.toCommitFrame.trans k.toCommitFrame, fun j => (k.settings j).trans (h.settings j)⟩

theorem UpdateFrame.handed (h : UpdateFrame s t) : HandedFrame s t := ⟨h.commit, fun j => (h.points j).sameSettings⟩

theorem HandedFrame.clock (h : HandedFrame s t) : t.clock = s.clock := h.update.clock

theorem HandedFrame.runTime (h : HandedFrame s t) : t.runTime = s.runTime := by rw [State.runTime, h.clock, State.runTime]

theorem HandedFrame.ring (h : HandedFrame s t) : t.ring = s.ring := h.update.ring

theorem HandedFrame.seg (h : HandedFrame s t) : t.seg = s.seg := h.update.seg

theorem HandedFrame.disp (h : HandedFrame s t) : t.disp = s.disp := h.update.disp

theorem HandedFrame.pending (h : HandedFrame s t) : t.pending = s.pending := h.update.pending

theorem HandedFrame.mail (h : HandedFrame s t) : MailAs s t := ⟨h.update.mail, h.update.owed⟩

theorem HandedFrame.kind (h : HandedFrame s t) (j : Nat) : (t.point j).kind = (s.point j).kind := (h.settings j).kind

/-- R3: the entry of a slot stands with the slot map and the kinds of the points. -/
theorem State.entry_congr (hm : t.ring.slotMap = s.ring.slotMap) (hk : ∀ j, (t.point j).kind = (s.point j).kind) (k : Nat) :
    t.entry k = s.entry k := by
  unfold State.entry
  simp only [hm, hk]

theorem HandedFrame.entry (h : HandedFrame s t) (k : Nat) : t.entry k = s.entry k :=
  State.entry_congr (congrArg Ring.slotMap h.ring) h.kind k

theorem HandedFrame.foldl {α : Type} (f : State → α → State) (hf : ∀ s x, HandedFrame s (f s x)) :
    ∀ (xs : List α) (s : State), HandedFrame s (xs.foldl f s)
  | [], s => .refl s
  | x :: xs, s => (hf s x).trans (HandedFrame.foldl f hf xs (f s x))

theorem HandedFrame.ite {b : Prop} [Decidable b] (ht : HandedFrame s t) (hu : HandedFrame s u) :
    HandedFrame s (if b then t else u) := by
  split
  · exact ht
  · exact hu

/-- R46: a record stored with its structure and limits as they were. -/
theorem State.commitPoint_handed {edges : Bool} (h : p.SameSettings (s.point i)) : HandedFrame s (s.commitPoint i p edges) := by
  refine ⟨s.commitPoint_commit i p edges, fun j => ?_⟩
  by_cases hij : i = j
  · subst hij
    by_cases hi : i < s.points.length
    · obtain ⟨_, _, owned, _⟩ := State.commitPoint_self (p := p) (edges := edges) hi
      exact (owned.sameSettings.trans (Point.latch_sameSettings ..)).trans h
    · have none : ∀ v : State, v.points.length = s.points.length → v.point i = .empty := fun v hv =>
        List.getD_eq_default _ _ (by omega)
      rw [none _ (s.commitPoint_commit i p edges).length, none s rfl]
      exact .refl _
  · exact (State.commitPoint_other hij).sameSettings

/-! ### One sample (R45, R47, R48) -/

/-- R45, R48: what a sample has made of a record of an input or request: a good one is stored as judged, a bad one by the
state it finds; the latches of a BINARY apart. -/
structure Point.Sampled (w : Word16) (c : Byte) (now : Nat) (p q : Point) : Prop where
  good : ∀ v lv k, ({ p with raw := w.toInt } : Point).judge w c = .good v lv k →
    ∃ a b, q = (({ p with raw := w.toInt } : Point).takeGood now v lv k).latch a b
  bad : ∀ r, ({ p with raw := w.toInt } : Point).judge w c = .bad r →
    ∃ flag a b, q = ({ ({ p with raw := w.toInt } : Point).takeBad now with logFlag := flag } : Point).latch a b

theorem Point.takeGood_sameSettings (p : Point) (now : Nat) (v : Int) (lv : Signals) (k : Quality) :
    (p.takeGood now v lv k).SameSettings p := by constructor <;> rfl

theorem Point.firstBad_sameSettings (p : Point) : p.firstBad.SameSettings p := by
  unfold Point.firstBad
  split <;> constructor <;> rfl

theorem Point.byPolicy_sameSettings (p : Point) (now : Nat) : (p.byPolicy now).SameSettings p := by
  unfold Point.byPolicy
  split <;> constructor <;> rfl

theorem Point.takeBad_sameSettings (p : Point) (now : Nat) : (p.takeBad now).SameSettings p := by
  have start : ({ p with goodRun := 0 } : Point).SameSettings p := by constructor <;> rfl
  unfold Point.takeBad
  dsimp only
  split
  · exact (Point.firstBad_sameSettings _).trans start
  · exact (Point.byPolicy_sameSettings _ _).trans start
  all_goals exact start

theorem Point.firstBad_stale (p : Point) : p.firstBad.input ≠ .fresh ∧ p.firstBad.goodRun = p.goodRun ∧
    p.firstBad.raw = p.raw := by
  unfold Point.firstBad
  split <;> exact ⟨by simp, rfl, rfl⟩

theorem Point.byPolicy_stale (p : Point) (now : Nat) : (p.byPolicy now).input ≠ .fresh ∧
    (p.byPolicy now).goodRun = p.goodRun ∧ (p.byPolicy now).raw = p.raw := by
  unfold Point.byPolicy
  split <;> exact ⟨by simp, rfl, rfl⟩

/-- R45, R47: after a bad sample a point is not FRESH and its count of good samples is 0. -/
theorem Point.takeBad_stale (p : Point) (now : Nat) : (p.takeBad now).input ≠ .fresh ∧ (p.takeBad now).goodRun = 0 ∧
    (p.takeBad now).raw = p.raw := by
  unfold Point.takeBad
  dsimp only
  split
  · exact Point.firstBad_stale _
  · exact Point.byPolicy_stale _ now
  all_goals next h => exact ⟨by simp [h], rfl, rfl⟩

theorem Point.logged_sameSettings (p : Point) (flag : Bool) : ({ p with logFlag := flag } : Point).SameSettings p := by
  constructor <;> rfl

theorem State.loseInput_handed {r : LossReason} {edges : Bool} (h : p.SameSettings (s.point i)) :
    HandedFrame s (s.loseInput i p r edges) := by
  unfold State.loseInput
  dsimp only
  split
  · refine (UpdateFrame.log (.refl s)).handed.trans (State.commitPoint_handed ?_)
    rw [State.log_point]
    exact (Point.logged_sameSettings p true).trans h
  · exact State.commitPoint_handed h

theorem Point.raw_sameSettings (p : Point) (r : Int) : ({ p with raw := r } : Point).SameSettings p := by
  constructor <;> rfl

theorem State.sample_handed (s : State) (i : Nat) (w : Word16) (c : Byte) : HandedFrame s (s.sample i w c) := by
  unfold State.sample
  dsimp only
  split
  · exact State.commitPoint_handed ((Point.takeGood_sameSettings ..).trans (Point.raw_sameSettings ..))
  · exact State.loseInput_handed ((Point.takeBad_sameSettings ..).trans (Point.raw_sameSettings ..))
  · exact .refl s

theorem State.loseInput_other {r : LossReason} {edges : Bool} (h : i ≠ j) :
    (s.point j).SetByOwner ((s.loseInput i p r edges).point j) := by
  unfold State.loseInput
  dsimp only
  split
  · have k := State.commitPoint_other (s := s.log .point (if p.quality = .bad then .pointBad else .pointSubstituted) i r.code)
      (p := { p with logFlag := true }) (edges := edges) h
    rwa [State.log_point] at k
  · exact State.commitPoint_other h

theorem State.sample_other (h : i ≠ j) : (s.point j).SetByOwner ((s.sample i w c).point j) := by
  unfold State.sample
  dsimp only
  split
  · exact State.commitPoint_other h
  · exact State.loseInput_other h
  · exact .refl _

/-- An input or request record is stored as it is, its latches apart: no owner sets it (R49). -/
theorem State.commitPoint_stored {edges : Bool} (h : i < s.points.length) (ho : p.kind ≠ .output) (hr : p.kind ≠ .report) :
    ∃ a b, (s.commitPoint i p edges).point i = p.latch a b := by
  obtain ⟨a, b, owned, _⟩ := State.commitPoint_self (p := p) (edges := edges) h
  exact ⟨a, b, owned.input ho hr⟩

theorem Point.judge_input {p : Point} (h : p.judge w c ≠ .untaken) : p.kind ≠ .output ∧ p.kind ≠ .report ∧ p.kind ≠ .empty := by
  unfold Point.judge at h
  cases hk : p.kind <;> simp_all

/-- A configured record stands in the point table (R42). -/
theorem State.point_lt (h : (s.point i).kind ≠ .empty) : i < s.points.length := by
  by_contra hi
  exact h (congrArg Point.kind (List.getD_eq_default s.points Point.empty (Nat.le_of_not_lt hi)))

theorem State.sample_point (s : State) (i : Nat) (w : Word16) (c : Byte) :
    (s.point i).Sampled w c s.runTime ((s.sample i w c).point i) := by
  have stands : ({ s.point i with raw := w.toInt } : Point).judge w c ≠ .untaken →
      i < s.points.length ∧ (s.point i).kind ≠ .output ∧ (s.point i).kind ≠ .report := fun h => by
    obtain ⟨output, report, configured⟩ := Point.judge_input h
    exact ⟨State.point_lt configured, output, report⟩
  refine ⟨fun v lv k h => ?_, fun r h => ?_⟩
  · obtain ⟨hi, ho, hr⟩ := stands (by rw [h]; exact nofun)
    unfold State.sample
    simp only [h]
    exact State.commitPoint_stored hi ho hr
  · obtain ⟨hi, ho, hr⟩ := stands (by rw [h]; exact nofun)
    have kind : ∀ flag, ({ ({ s.point i with raw := w.toInt } : Point).takeBad s.runTime with logFlag := flag } : Point).kind =
        (s.point i).kind := fun flag => (Point.takeBad_sameSettings _ _).kind
    unfold State.sample
    simp only [h]
    unfold State.loseInput
    dsimp only
    split
    · exact ⟨true, State.commitPoint_stored (by rwa [State.log_points]) (by rwa [kind]) (by rwa [kind])⟩
    · exact ⟨_, State.commitPoint_stored hi (by rwa [kind]) (by rwa [kind])⟩

/-- An owner's setting before or after does not come between a record and its sample. -/
theorem Point.Sampled.owned {p' q' : Point} {now : Nat} (before : p.SetByOwner p') (h : p'.Sampled w c now q)
    (after : q.SetByOwner q') : p.Sampled w c now q' := by
  have same : ∀ x : Point, x.kind = p.kind → x.judge w c ≠ .untaken → p.kind ≠ .output ∧ p.kind ≠ .report := by
    intro x hx hj
    obtain ⟨output, report, _⟩ := Point.judge_input hj
    exact ⟨hx ▸ output, hx ▸ report⟩
  refine ⟨fun v lv k hj => ?_, fun r hj => ?_⟩
  · obtain ⟨ho, hr⟩ := same { p with raw := w.toInt } rfl (by rw [hj]; exact nofun)
    rw [before.input ho hr] at h
    obtain ⟨a, b, e⟩ := h.good v lv k hj
    have hq : q.kind = p.kind := by rw [e]; rfl
    exact ⟨a, b, (after.input (by rwa [hq]) (by rwa [hq])).trans e⟩
  · obtain ⟨ho, hr⟩ := same { p with raw := w.toInt } rfl (by rw [hj]; exact nofun)
    rw [before.input ho hr] at h
    obtain ⟨flag, a, b, e⟩ := h.bad r hj
    have hq : q.kind = p.kind := by rw [e]; exact (Point.takeBad_sameSettings _ _).kind
    exact ⟨flag, a, b, (after.input (by rwa [hq]) (by rwa [hq])).trans e⟩

/-! ### The judgement of a sample, kind by kind -/

theorem Point.judge_of_request (r : Int) (h : p.kind = .request) : ({ p with raw := r } : Point).judge w c =
    if c ≠ 0 then .bad .stationCode
    else if p.low ≤ p.scaled w.toInt ∧ p.scaled w.toInt ≤ p.high then .good (p.scaled w.toInt) p.level .good
    else .good (clampInt (p.scaled w.toInt) p.low p.high) p.level .clamped := by
  have k : ({ p with raw := r } : Point).kind = .request := h
  unfold Point.judge
  rw [k]
  rfl

theorem Point.judge_of_analog (r : Int) (h : p.kind = .analog) : ({ p with raw := r } : Point).judge w c =
    if c ≠ 0 then .bad .stationCode
    else if p.low ≤ p.scaled w.toInt ∧ p.scaled w.toInt ≤ p.high then .good (p.scaled w.toInt) p.level .good
    else .bad .range := by
  have k : ({ p with raw := r } : Point).kind = .analog := h
  unfold Point.judge
  rw [k]
  rfl

theorem Point.judge_of_binary (r : Int) (h : p.kind = .binary) : ({ p with raw := r } : Point).judge w c =
    if c ≠ 0 then .bad .stationCode else .good (w ^^^ p.polarity).toInt (w ^^^ p.polarity) .good := by
  have k : ({ p with raw := r } : Point).kind = .binary := h
  unfold Point.judge
  rw [k]

/-- R45, R47: what a bad sample leaves of a record. -/
theorem Point.Sampled.of_bad {now : Nat} {r : LossReason} (h : p.Sampled w c now q)
    (hj : ({ p with raw := w.toInt } : Point).judge w c = .bad r) : q.raw = w.toInt ∧ q.input ≠ .fresh ∧ q.goodRun = 0 := by
  obtain ⟨_, _, _, rfl⟩ := h.bad r hj
  obtain ⟨input, run, raw⟩ := Point.takeBad_stale { p with raw := w.toInt } now
  exact ⟨raw, input, run⟩

/-! ### Slots one after another (log 82) -/

/-- Operations each of which acts on a cell of its own, or on none: what each makes of its cell stands at the end, and the
other cells are related by `Q` to what they were. The invariant `I` may speak of the operations still to come. -/
theorem foldl_cells {α ι β σ : Type} {cell : σ → ι → β} {Q : β → β → Prop} (refl : ∀ p, Q p p)
    (trans : ∀ p q r, Q p q → Q q r → Q p r) {f : σ → α → σ} {hit : α → Option ι} {R : α → β → β → Prop}
    {I : List α → σ → Prop} (step : ∀ s x xs, I (x :: xs) s → I xs (f s x))
    (others : ∀ s x xs j, I (x :: xs) s → hit x ≠ some j → Q (cell s j) (cell (f s x) j))
    (own : ∀ s x xs i, I (x :: xs) s → hit x = some i → R x (cell s i) (cell (f s x) i))
    (owned : ∀ x p p' q q', Q p p' → R x p' q → Q q q' → R x p q') :
    ∀ (xs : List α) (s : σ), I xs s → (xs.filterMap hit).Nodup →
      (∀ j, (∀ x ∈ xs, hit x ≠ some j) → Q (cell s j) (cell (xs.foldl f s) j)) ∧
        ∀ x ∈ xs, ∀ i, hit x = some i → R x (cell s i) (cell (xs.foldl f s) i)
  | [], _, _, _ => ⟨fun _ _ => refl _, fun _ h => nomatch h⟩
  | y :: ys, s, hs, once => by
    have rest : (ys.filterMap hit).Nodup := by
      cases hy : hit y with
      | none => rwa [List.filterMap_cons_none hy] at once
      | some i => rw [List.filterMap_cons_some hy] at once; exact (List.nodup_cons.1 once).2
    obtain ⟨left, acted⟩ := foldl_cells refl trans step others own owned ys (f s y) (step s y ys hs) rest
    refine ⟨fun j hj => ?_, fun x hx i hi => ?_⟩
    · exact trans _ _ _ (others s y ys j hs (hj y (List.mem_cons_self ..)))
        (left j fun x hx => hj x (List.mem_cons_of_mem _ hx))
    · rcases List.mem_cons.1 hx with rfl | hx
      · rw [List.filterMap_cons_some hi] at once
        have alone : ∀ z ∈ ys, hit z ≠ some i := fun z hz he =>
          (List.nodup_cons.1 once).1 (List.mem_filterMap.2 ⟨z, hz, he⟩)
        exact owned _ _ _ _ _ (refl _) (own s x ys i hs hi) (left i alone)
      · refine owned _ _ _ _ _ (others s y ys i hs fun he => ?_) (acted x hx i hi) (refl _)
        rw [List.filterMap_cons_some he] at once
        exact (List.nodup_cons.1 once).1 (List.mem_filterMap.2 ⟨x, hx, hi⟩)

theorem Point.SetByOwner.transitive (p q r : Point) (h : p.SetByOwner q) (k : q.SetByOwner r) : p.SetByOwner r := h.trans k

/-! ### No point in two slots (R3) -/

theorem pointsOnce_pairwise {m : List SlotEntry} (h : pointsOnce m = true) :
    m.Pairwise fun a b => a.direction ≠ .unused → b.direction ≠ .unused → a.point ≠ b.point := by
  have nodup : ((m.filter fun e => decide (e.direction ≠ .unused)).map (·.point)).Nodup := of_decide_eq_true h
  rw [List.Nodup, List.pairwise_map, List.pairwise_filter] at nodup
  exact nodup.imp fun h ha hb => h (decide_eq_true ha) (decide_eq_true hb)

/-- R3: a slot in use stands in the slot map. -/
theorem State.entry_used (h : (s.entry k).direction ≠ .unused) :
    ∃ hk : k < s.ring.slotMap.length, s.entry k = s.ring.slotMap[k] := by
  unfold State.entry at h ⊢
  dsimp only at h ⊢
  split at h
  · next agrees =>
    have lt : k < s.ring.slotMap.length := by
      by_contra hge
      rw [List.getD_eq_default _ _ (Nat.le_of_not_lt hge)] at h
      exact h rfl
    refine ⟨lt, ?_⟩
    rw [if_pos agrees]
    exact List.getD_eq_getElem _ _ lt
  · exact absurd rfl h

/-- R3: two slots in use name two points. -/
theorem State.entry_point_ne {k' : Nat} (h : pointsOnce s.ring.slotMap = true) (hk : k ≠ k')
    (ha : (s.entry k).direction ≠ .unused) (hb : (s.entry k').direction ≠ .unused) :
    (s.entry k).point ≠ (s.entry k').point := by
  obtain ⟨hl, ea⟩ := State.entry_used ha
  obtain ⟨hl', eb⟩ := State.entry_used hb
  have pair := List.pairwise_iff_getElem.1 (pointsOnce_pairwise h)
  rw [ea] at ha ⊢
  rw [eb] at hb ⊢
  rcases Nat.lt_or_gt_of_ne hk with hlt | hgt
  · exact pair k k' hl hl' hlt ha hb
  · exact (pair k' k hl' hl hgt hb ha).symm

/-- R3: the points that the slots of a frame name are different points. -/
theorem State.hits_nodup {hit : Slot × Nat → Option Nat} (h : pointsOnce s.ring.slotMap = true)
    (hh : ∀ x i, hit x = some i → (s.entry x.2).direction ≠ .unused ∧ (s.entry x.2).point = i) (slots : List Slot) :
    (slots.zipIdx.filterMap hit).Nodup := by
  have indices : slots.zipIdx.Pairwise fun a b => a.2 ≠ b.2 := by
    have k : (slots.zipIdx.map Prod.snd).Nodup := by
      rw [List.zipIdx_map_snd]
      exact List.nodup_range'
    exact List.pairwise_map.1 k
  rw [List.Nodup, List.pairwise_filterMap]
  refine indices.imp fun {a b} hab i hi j hj => ?_
  obtain ⟨used, rfl⟩ := hh a i hi
  obtain ⟨used', rfl⟩ := hh b j hj
  exact State.entry_point_ne h hab used used'

end

end Sys2Proof.Machine
end

