-- ==== Sys2Proof/Proofs/HandOver.lean ====
section
/-! PROOFS. What a frame hands to the management unit (R181, R182) and to the reset level (R40): the management unit does
the same whatever else has moved, and touches nothing else. -/

namespace Sys2Proof.Machine

section
variable {s t u v : State} {g : AreaSegment} {d : MailDiscard} {bytes : List Byte} {n : Nat}

/-! ### What the mailbox leaves alone -/

/-- The management unit may have moved, and the part may owe more. -/
structure MailFrame (s t : State) : Prop where
  rest : { t with mgmt := s.mgmt, owed := s.owed } = s
  owed : ∀ i ∈ s.owed, i ∈ t.owed

theorem MailFrame.refl (s : State) : MailFrame s s := ⟨rfl, fun _ h => h⟩

theorem MailFrame.trans (h : MailFrame s t) (k : MailFrame t u) : MailFrame s u where
  rest := by
    have e := k.rest
    rw [← h.rest, ← e]
  owed := fun i hi => k.owed i (h.owed i hi)

theorem MailFrame.clock (h : MailFrame s t) : t.clock = s.clock := (congrArg State.clock h.rest :)

theorem MailFrame.ring (h : MailFrame s t) : t.ring = s.ring := (congrArg State.ring h.rest :)

theorem MailFrame.seg (h : MailFrame s t) : t.seg = s.seg := (congrArg State.seg h.rest :)

theorem MailFrame.points (h : MailFrame s t) : t.points = s.points := (congrArg State.points h.rest :)

theorem MailFrame.disp (h : MailFrame s t) : t.disp = s.disp := (congrArg State.disp h.rest :)

theorem MailFrame.pending (h : MailFrame s t) : t.pending = s.pending := (congrArg State.pending h.rest :)

theorem MailFrame.set (h : MailFrame s t) (m : Mgmt) : MailFrame s { t with mgmt := m } := ⟨h.rest, h.owed⟩

theorem MailFrame.owe (h : MailFrame s t) (i : Instr) : MailFrame s (t.owe i) :=
  ⟨h.rest, fun j hj => List.mem_append_left _ (h.owed j hj)⟩

theorem MailFrame.log {src : Source} {name : EventName} {x y z : Int} (h : MailFrame s t) :
    MailFrame s (t.log src name x y z) := by
  unfold State.log
  split
  · exact h.set _
  · exact h.set _

theorem MailFrame.mailDiscard (h : MailFrame s t) : MailFrame s (t.mailDiscard d) := by
  unfold State.mailDiscard
  dsimp only
  split
  · exact h.set _
  · exact (h.set _).log

theorem MailFrame.commandComplete (h : MailFrame s t) : MailFrame s (t.commandComplete bytes) := by
  unfold State.commandComplete
  dsimp only
  split
  · exact h.set _
  · split
    · exact h.set _
    · split
      case h_4 i _ => exact (h.set _).owe i
      all_goals exact h.set _

theorem MailFrame.mailTake (h : MailFrame s t) : MailFrame s (t.mailTake bytes n g) := by
  unfold State.mailTake
  dsimp only
  split
  · exact (h.set _).mailDiscard
  · split
    · exact (h.set _).commandComplete
    · exact h.set _

theorem MailFrame.mailSegment (h : MailFrame s t) : MailFrame s (t.mailSegment g) := by
  unfold State.mailSegment
  split
  · split
    · exact h.mailTake
    · exact h.mailDiscard
  · split
    · exact h.mailDiscard.mailTake
    · exact h.mailTake
  · split
    · exact h.mailTake
    · split
      · exact h.set _
      · exact h

theorem State.mailIn_frame (s : State) (area : List Byte) : MailFrame s (s.mailIn area) := by
  unfold State.mailIn
  split
  · exact (MailFrame.refl s).mailSegment
  · exact .refl s

theorem MailFrame.oweRestart {r : Response} (h : MailFrame s t) : MailFrame s (t.oweRestart r) := by
  unfold State.oweRestart
  split
  · exact h.owe _
  · split
    · exact h.owe _
    · exact h

theorem State.mailWritten_frame (s : State) : MailFrame s s.mailWritten := by
  have h := MailFrame.refl s
  unfold State.mailWritten
  split
  · exact h
  · split
    · exact (h.set _).oweRestart
    · exact h.set _
  · exact h.set _
  · exact h.set _

theorem State.oweRestart_events {r : Response} : (s.oweRestart r).mgmt.events = s.mgmt.events :=
  congrArg Mgmt.events (s.oweRestart_mgmt r)

/-- R182: the writing of a segment logs nothing. -/
theorem State.mailWritten_events (s : State) : s.mailWritten.mgmt.events = s.mgmt.events := by
  unfold State.mailWritten
  split
  · rfl
  · split
    · exact State.oweRestart_events
    · rfl
  · rfl
  · rfl

/-! ### The management unit does the same whatever else has moved -/

theorem MailAs.refl (s : State) : MailAs s s := ⟨rfl, fun _ h => h⟩

theorem MailAs.trans (h : MailAs s t) (k : MailAs t u) : MailAs s u where
  unit := by
    have e := k.unit
    rw [← h.unit, ← e]
  owed := fun i hi => k.owed i (h.owed i hi)

/-- The unit of the one state is the other's, the event queue apart. -/
theorem MailAs.mgmt (h : MailAs s t) : ∃ e l, t.mgmt = { s.mgmt with events := e, lost := l } := by
  refine ⟨t.mgmt.events, t.mgmt.lost, ?_⟩
  rw [← h.unit]

theorem MailAs.rx (h : MailAs s t) : t.mgmt.rx = s.mgmt.rx := (congrArg Mgmt.rx h.unit :)

theorem MailAs.executing (h : MailAs s t) : t.mgmt.executing = s.mgmt.executing := (congrArg Mgmt.executing h.unit :)

theorem MailAs.discardRun (h : MailAs s t) : t.mgmt.discardRun = s.mgmt.discardRun := (congrArg Mgmt.discardRun h.unit :)

/-- The same change made to both units. -/
theorem MailAs.set {f : Mgmt → Mgmt} (h : MailAs s t)
    (hf : ∀ m : Mgmt, ∀ e l, ({ f m with events := e, lost := l } : Mgmt) = f { m with events := e, lost := l }) :
    MailAs { s with mgmt := f s.mgmt } { t with mgmt := f t.mgmt } where
  unit := by
    obtain ⟨e, l, hm⟩ := h.mgmt
    rw [hm, ← hf]
  owed := h.owed

theorem MailAs.owe (h : MailAs s t) (i : Instr) : MailAs (s.owe i) (t.owe i) :=
  ⟨h.unit, fun j hj => List.mem_append.2 ((List.mem_append.1 hj).imp_left (h.owed j))⟩

theorem MailAs.log_right {src : Source} {name : EventName} {x y z : Int} (h : MailAs s t) :
    MailAs s (t.log src name x y z) := by
  unfold State.log
  split
  · exact ⟨h.unit, h.owed⟩
  · exact ⟨h.unit, h.owed⟩

theorem MailAs.log_left {src : Source} {name : EventName} {x y z : Int} (h : MailAs s t) :
    MailAs (s.log src name x y z) t := by
  obtain ⟨e, l, hm⟩ := h.mgmt
  unfold State.log
  split
  · exact ⟨by rw [hm], h.owed⟩
  · exact ⟨by rw [hm], h.owed⟩

theorem MailAs.log {src : Source} {name : EventName} {x y z : Int} (h : MailAs s t) :
    MailAs (s.log src name x y z) (t.log src name x y z) := h.log_left.log_right

theorem MailAs.mailDiscard (h : MailAs s t) : MailAs (s.mailDiscard d) (t.mailDiscard d) := by
  have counted := h.set (f := fun m => { m.addDiscard d with discardRun := true }) (fun m e l => by cases d <;> rfl)
  unfold State.mailDiscard
  dsimp only
  rw [h.discardRun]
  split
  · exact counted
  · exact counted.log

theorem MailAs.setExecuting (h : MailAs s t) (c : Byte) :
    MailAs { s with mgmt.executing := some c } { t with mgmt.executing := some c } :=
  h.set (f := fun m => { m with executing := some c }) fun _ _ _ => rfl

theorem MailAs.setRx (h : MailAs s t) (rx : Reassembly) : MailAs { s with mgmt.rx := rx } { t with mgmt.rx := rx } :=
  h.set (f := fun m => { m with rx := rx }) fun _ _ _ => rfl

theorem MailAs.place (h : MailAs s t) (r : Response) : MailAs (s.place r) (t.place r) :=
  h.set (f := fun m => { m with response := some r, nextSegment := 0 }) fun _ _ _ => rfl

theorem MailAs.commandComplete (h : MailAs s t) : MailAs (s.commandComplete bytes) (t.commandComplete bytes) := by
  unfold State.commandComplete
  dsimp only
  rw [show t.mgmt.executing.isSome = s.mgmt.executing.isSome from congrArg Option.isSome h.executing]
  split
  · exact h.set (f := fun m => { m with busyAnswer := some _ }) fun _ _ _ => rfl
  · split
    · exact (h.setExecuting _).place _
    · split
      case h_4 i _ => exact (h.setExecuting _).owe i
      all_goals exact (h.setExecuting _).place _

theorem MailAs.mailTake (h : MailAs s t) : MailAs (s.mailTake bytes n g) (t.mailTake bytes n g) := by
  unfold State.mailTake
  dsimp only
  split
  · exact (h.setRx _).mailDiscard
  · split
    · exact MailAs.commandComplete
        (h.set (f := fun m => { m with rx := .idle, discardRun := false }) fun _ _ _ => rfl)
    · exact h.setRx _

theorem MailAs.mailSegment (h : MailAs s t) : MailAs (s.mailSegment g) (t.mailSegment g) := by
  unfold State.mailSegment
  rw [h.rx]
  split
  · split
    · exact h.mailTake
    · exact h.mailDiscard
  · split
    · exact h.mailDiscard.mailTake
    · exact h.mailTake
  · split
    · exact h.mailTake
    · split
      · exact h.setRx _
      · exact h

/-- R181: a mailbox segment is taken alike. -/
theorem MailAs.mailIn (h : MailAs s t) (area : List Byte) : MailAs (s.mailIn area) (t.mailIn area) := by
  unfold State.mailIn
  split
  · exact h.mailSegment
  · exact h

theorem MailAs.offer (h : MailAs s t) : t.mgmt.offer = s.mgmt.offer := by
  obtain ⟨e, l, hm⟩ := h.mgmt
  rw [hm]
  rfl

theorem MailAs.nextSegment (h : MailAs s t) : t.mgmt.nextSegment = s.mgmt.nextSegment :=
  (congrArg Mgmt.nextSegment h.unit :)

/-- R182: the same segment is offered. -/
theorem MailAs.mailArea (h : MailAs s t) : t.mailArea = s.mailArea := by
  unfold State.mailArea
  rw [h.offer, h.nextSegment]

theorem MailAs.oweRestart (h : MailAs s t) (r : Response) : MailAs (s.oweRestart r) (t.oweRestart r) := by
  unfold State.oweRestart
  split
  · exact h.owe _
  · split
    · exact h.owe _
    · exact h

/-- R182: and its writing leaves the same. -/
theorem MailAs.mailWritten (h : MailAs s t) : MailAs s.mailWritten t.mailWritten := by
  unfold State.mailWritten
  rw [h.offer, h.nextSegment]
  split
  · exact h
  · split
    · exact MailAs.oweRestart
        (h.set (f := fun m => { m with response := none, nextSegment := 0, executing := none }) fun _ _ _ => rfl) _
    · exact h.set (f := fun m => { m with nextSegment := s.mgmt.nextSegment + 1 }) fun _ _ _ => rfl
  · exact h.set (f := fun m => { m with abortedCommand := none }) fun _ _ _ => rfl
  · exact h.set (f := fun m => { m with busyAnswer := none }) fun _ _ _ => rfl

/-- What the management unit holds is all that counts. -/
theorem MailAs.of_eq (h : MailAs s t) (hm : u.mgmt = t.mgmt) (ho : ∀ i ∈ t.owed, i ∈ u.owed) : MailAs s u :=
  ⟨by rw [hm]; exact h.unit, fun i hi => ho i (h.owed i hi)⟩

/-! ### The reset-request flag (R40) -/

/-- R40: what the flag leaves of the segment manager. -/
def Segment.flagged (g : Segment) (flag : Bool) (now : Nat) : Segment :=
  { g with
    resetLevel := if flag then .set else .clear
    window := if flag = true ∧ g.resetLevel = .clear then (if g.window = none then some (now + 2000) else none)
      else g.window }

theorem State.resetFlag_of_still {flag : Bool} (h : ¬(flag = true ∧ s.seg.resetLevel = .clear)) :
    s.resetFlag flag = { s with seg := s.seg.flagged flag s.runTime } := by
  unfold State.resetFlag Segment.flagged
  simp only [if_neg h]

/-- R40: a request with the window closed opens it and owes a SEGMENT RESTART. -/
theorem State.resetFlag_of_closed (h : s.seg.resetLevel = .clear) (hw : s.seg.window = none) : s.resetFlag true =
    (({ s with seg := s.seg.flagged true s.runTime } : State).log .ring .ringReset 0 1).owe .segmentRestart := by
  unfold State.resetFlag Segment.flagged
  simp only [h, hw, Option.isNone_none, and_self, if_true]
  rfl

/-- R40: a request with the window open closes it and owes a WARM reset. -/
theorem State.resetFlag_of_open (h : s.seg.resetLevel = .clear) (hw : s.seg.window ≠ none) : s.resetFlag true =
    ({ s with seg := s.seg.flagged true s.runTime } : State).owe (.warmReset .ringRequest) := by
  obtain ⟨w, hw⟩ := Option.ne_none_iff_exists'.1 hw
  unfold State.resetFlag Segment.flagged
  simp only [h, hw, Option.isNone_some, Bool.false_eq_true, and_self, if_true, if_false, reduceCtorEq]

/-- R40: the flag moves the reset level, the window and the events, and what it calls for is owed. -/
theorem State.resetFlag_frame (s : State) (flag : Bool) :
    MailFrame { s with seg := s.seg.flagged flag s.runTime } (s.resetFlag flag) ∧ MailAs s (s.resetFlag flag) ∧
      (flag = true → s.seg.resetLevel = .clear → s.seg.window = none → Instr.segmentRestart ∈ (s.resetFlag flag).owed) ∧
      (flag = true → s.seg.resetLevel = .clear → s.seg.window ≠ none →
        Instr.warmReset .ringRequest ∈ (s.resetFlag flag).owed) := by
  have start := MailFrame.refl { s with seg := s.seg.flagged flag s.runTime }
  have unit : MailAs s { s with seg := s.seg.flagged flag s.runTime } := ⟨rfl, fun _ h => h⟩
  by_cases h : flag = true ∧ s.seg.resetLevel = .clear
  · obtain ⟨rfl, level⟩ := h
    by_cases hw : s.seg.window = none
    · rw [State.resetFlag_of_closed level hw]
      exact ⟨start.log.owe _, unit.log_right.of_eq rfl fun i hi => List.mem_append_left _ hi,
        fun _ _ _ => List.mem_append_right _ (List.mem_singleton_self _), fun _ _ hn => absurd hw hn⟩
    · rw [State.resetFlag_of_open level hw]
      exact ⟨start.owe _, unit.of_eq rfl fun i hi => List.mem_append_left _ hi, fun _ _ hn => absurd hn hw,
        fun _ _ _ => List.mem_append_right _ (List.mem_singleton_self _)⟩
  · rw [State.resetFlag_of_still h]
    exact ⟨start, unit, fun hf hl _ => absurd ⟨hf, hl⟩ h, fun hf hl _ => absurd ⟨hf, hl⟩ h⟩

end

end Sys2Proof.Machine
end

