-- ==== Sys2Proof/Proofs/OutboundPass.lean ====
section
/-! PROOFS. OUTBOUND_PASS of a sound cycle frame: what it hands over (R4, R5), forwarding (O18) and turning back (O19). -/

namespace Sys2Proof.Machine

section
variable {s t u v : State} {c : CycleFrame} {slots : List Slot}

/-! ### The requests (R4, R48) -/

theorem State.readRequests_handed (s : State) (slots : List Slot) : HandedFrame s (s.readRequests slots) :=
  .foldl _ (fun s _ => .ite (s.sample_handed ..) (.refl s)) _ _

/-- The record that a REQUEST slot of a frame is sampled into. -/
def State.requestHit (s : State) (p : Slot × Nat) : Option Nat :=
  if (s.entry p.2).direction = .request ∧ p.1.tag = 0xFD then some (s.entry p.2).point else none

theorem State.requestHit_some {p : Slot × Nat} {i : Nat} : s.requestHit p = some i ↔
    (s.entry p.2).direction = .request ∧ p.1.tag = 0xFD ∧ (s.entry p.2).point = i := by
  unfold State.requestHit
  split
  · next h => simp [h]
  · next h => simpa using fun a b => absurd ⟨a, b⟩ h

theorem State.mem_slots {k : Nat} {x : Slot} (h : slots[k]? = some x) : (x, k) ∈ slots.zipIdx :=
  List.mem_zipIdx_iff_getElem?.2 h

theorem State.readRequests_points (h : pointsOnce s.ring.slotMap = true) (slots : List Slot) :
    (∀ j, (∀ x ∈ slots.zipIdx, s.requestHit x ≠ some j) → (s.point j).SetByOwner ((s.readRequests slots).point j)) ∧
      ∀ x ∈ slots.zipIdx, ∀ i, s.requestHit x = some i →
        (s.point i).Sampled x.1.value x.1.quality s.runTime ((s.readRequests slots).point i) := by
  refine foldl_cells (cell := State.point) Point.SetByOwner.refl Point.SetByOwner.transitive (I := fun _ => HandedFrame s)
    (hit := s.requestHit) (R := fun x p q => p.Sampled x.1.value x.1.quality s.runTime q) (fun u x _ hu => ?_)
    (fun u x _ j hu hj => ?_) (fun u x _ i hu hi => ?_) (fun x p p' q q' hp hq hq' => hq.owned hp hq') _ s (.refl s)
    (State.hits_nodup h (fun x i hi => ?_) slots)
  · exact hu.trans (.ite (u.sample_handed ..) (.refl u))
  · dsimp only
    split
    · next hd =>
      rw [hu.entry] at hd ⊢
      exact State.sample_other fun e => hj (State.requestHit_some.2 ⟨hd.1, hd.2, e⟩)
    · exact .refl _
  · obtain ⟨direction, tag, rfl⟩ := State.requestHit_some.1 hi
    have k := u.sample_point (s.entry x.2).point x.1.value x.1.quality
    rw [hu.runTime] at k
    dsimp only
    rw [hu.entry, if_pos ⟨direction, tag⟩]
    exact k
  · obtain ⟨direction, _, rfl⟩ := State.requestHit_some.1 hi
    exact ⟨by rw [direction]; decide, rfl⟩

/-- R48: a request is taken at its value, or at the nearest limit. -/
theorem Point.Sampled.request {w : Word16} {b : Byte} {now : Nat} {p q : Point} (h : p.Sampled w b now q)
    (hk : p.kind = .request) : q.raw = w.toInt ∧
      (b = 0 → q.value = clampInt (p.scaled w.toInt) p.low p.high ∧ q.input = .fresh ∧
        q.quality = (if p.low ≤ p.scaled w.toInt ∧ p.scaled w.toInt ≤ p.high then .good else .clamped) ∧
        q.staleAt = some (now + p.staleLimit)) ∧
      (b ≠ 0 → q.input ≠ .fresh ∧ q.goodRun = 0) := by
  have judged := Point.judge_of_request (w := w) (c := b) w.toInt hk
  by_cases hb : b = 0
  · rw [if_neg (not_not.2 hb)] at judged
    by_cases hr : p.low ≤ p.scaled w.toInt ∧ p.scaled w.toInt ≤ p.high
    · rw [if_pos hr] at judged
      obtain ⟨_, _, rfl⟩ := h.good _ _ _ judged
      have inside : clampInt (p.scaled w.toInt) p.low p.high = p.scaled w.toInt := by
        unfold clampInt
        omega
      exact ⟨rfl, fun _ => ⟨inside.symm, rfl, (if_pos hr).symm, rfl⟩, fun h => absurd hb h⟩
    · rw [if_neg hr] at judged
      obtain ⟨_, _, rfl⟩ := h.good _ _ _ judged
      exact ⟨rfl, fun _ => ⟨rfl, rfl, (if_neg hr).symm, rfl⟩, fun h => absurd hb h⟩
  · rw [if_pos hb] at judged
    obtain ⟨raw, input, run⟩ := h.of_bad judged
    exact ⟨raw, fun h => absurd h hb, fun _ => ⟨input, run⟩⟩

/-- R4, R48: the requests of a frame, from a state whose records are but their owners'. -/
theorem State.readRequests_taken (once : pointsOnce v.ring.slotMap = true) (hp : ∀ j, (s.point j).SetByOwner (v.point j))
    (he : ∀ k, v.entry k = s.entry k) (hc : v.runTime = s.runTime) (ht : t.points = (v.readRequests c.slots).points) :
    RequestsTaken c s t := by
  have point : ∀ i, t.point i = (v.readRequests c.slots).point i := fun i => by rw [State.point, ht]; rfl
  obtain ⟨left, sampled⟩ := State.readRequests_points once c.slots
  refine ⟨fun k x direction kind hx tag => ?_, fun i kind alone => ?_⟩
  · have hit : v.requestHit (x, k) = some (s.entry k).point :=
      State.requestHit_some.2 ⟨by rw [he]; exact direction, tag, by rw [he]⟩
    have k := (sampled (x, k) (State.mem_slots hx) _ hit).owned (hp _) (.refl _)
    rw [hc] at k
    rw [point]
    exact k.request kind
  · have input : (s.point i).kind ≠ .output ∧ (s.point i).kind ≠ .report := by
      rw [kind]; decide
    have same := (hp i).trans (left i fun x hx hit => by
      obtain ⟨direction, tag, named⟩ := State.requestHit_some.1 hit
      rw [he] at direction named
      exact alone x.2 x.1 direction (List.mem_zipIdx_iff_getElem?.1 hx) tag named)
    rw [point]
    exact same.input input.1 input.2

/-! ### What a sound outbound frame hands over -/

theorem State.takeOutbound_eq (v : State) (c : CycleFrame) :
    v.takeOutbound c = ((v.readRequests c.slots).mailIn c.mbox).resetFlag (c.flags.getLsbD 0) := rfl

/-- R4, R5: the frame of what a sound outbound frame hands over, with the units it reaches. -/
structure OutboundTaken (c : CycleFrame) (v t : State) : Prop where
  clock   : t.clock = v.clock
  ring    : t.ring = v.ring
  disp    : t.disp = v.disp
  pending : t.pending = v.pending
  seg     : t.seg = v.seg.flagged (c.flags.getLsbD 0) v.runTime
  points  : t.points = (v.readRequests c.slots).points
  mail    : MailAs (v.mailIn c.mbox) t
  restart : c.flags.getLsbD 0 = true → v.seg.resetLevel = .clear → v.seg.window = none → Instr.segmentRestart ∈ t.owed
  reset   : c.flags.getLsbD 0 = true → v.seg.resetLevel = .clear → v.seg.window ≠ none →
    Instr.warmReset .ringRequest ∈ t.owed

theorem State.takeOutbound_taken (v : State) (c : CycleFrame) : OutboundTaken c v (v.takeOutbound c) := by
  have requests := v.readRequests_handed c.slots
  have mail := (v.readRequests c.slots).mailIn_frame c.mbox
  obtain ⟨flag, unit, restart, reset⟩ := ((v.readRequests c.slots).mailIn c.mbox).resetFlag_frame (c.flags.getLsbD 0)
  have seg := mail.seg.trans requests.seg
  have now : ((v.readRequests c.slots).mailIn c.mbox).runTime = v.runTime := by
    rw [State.runTime, mail.clock, requests.clock, State.runTime]
  have flagged := flag.seg
  have alike := (requests.mail.mailIn c.mbox).trans unit
  rw [seg] at restart reset
  rw [now] at flagged
  rw [State.takeOutbound_eq]
  exact {
    clock := flag.clock.trans (mail.clock.trans requests.clock)
    ring := flag.ring.trans (mail.ring.trans requests.ring)
    disp := flag.disp.trans (mail.disp.trans requests.disp)
    pending := flag.pending.trans (mail.pending.trans requests.pending)
    seg := flagged.trans (congrArg (fun g : Segment => g.flagged (c.flags.getLsbD 0) v.runTime) seg)
    points := flag.points.trans mail.points
    mail := alike
    restart := restart
    reset := reset }

/-- R40: the flag as the frame's state finds it. -/
theorem OutboundTaken.flag {d : State} (h : OutboundTaken c v d) (hg : v.seg = s.seg) (hc : v.runTime = s.runTime)
    (hl : t.seg.resetLevel = d.seg.resetLevel) (hw : t.seg.window = d.seg.window) (ho : ∀ i ∈ d.owed, i ∈ t.owed) :
    ResetFlagTaken (c.flags.getLsbD 0) s t := by
  have seg := h.seg
  have restart := h.restart
  have reset := h.reset
  rw [hg, hc] at seg
  rw [hg] at restart reset
  exact ⟨hl.trans (congrArg Segment.resetLevel seg :), hw.trans (congrArg Segment.window seg :),
    fun a b c => ho _ (restart a b c), fun a b c => ho _ (reset a b c)⟩

/-! ### Forwarding (R4) -/

theorem State.laneWritten_frame (s : State) : { s.laneWritten with disp := s.disp } = s := by
  unfold State.laneWritten
  split
  · rfl
  · split <;> rfl

theorem State.laneWritten_congr (h : t.disp = s.disp) : t.laneWritten.disp = s.laneWritten.disp := by
  unfold State.laneWritten
  rw [h]
  split
  · exact h
  · split <;> rfl

theorem State.laneArea_congr (h : t.disp = s.disp) : t.laneArea = s.laneArea := by
  unfold State.laneArea
  rw [h]

theorem State.assignment_congr (h : t.seg.stations = s.seg.stations) : t.assignment = s.assignment := by
  unfold State.assignment State.station
  rw [h]

theorem State.assignmentSent_frame (s : State) :
    { s.assignmentSent with seg := { s.assignmentSent.seg with stations := s.seg.stations } } = s := by
  unfold State.assignmentSent
  split <;> rfl

theorem State.assignmentSent_congr (h : t.seg.stations = s.seg.stations) :
    t.assignmentSent.seg.stations = s.assignmentSent.seg.stations := by
  unfold State.assignmentSent
  rw [State.assignment_congr h]
  split
  · exact h
  · simp only [State.setStation, State.station, h]

/-- R4: the frame that leaves Port S. -/
def State.outOf (d : State) (c : CycleFrame) (slots : List Slot) : CycleFrame :=
  { c with
    ack := d.seg.ackSet, serial := (d.assignment.map (·.2)).getD 0
    number := BitVec.ofNat 8 ((d.assignment.map (·.1)).getD 0), slots := slots, attn := emptyAttention, lane := d.laneArea }

/-- R4, R32: the part once a frame has left Port S. -/
def State.sentOn (d : State) (c : CycleFrame) (slots : List Slot) (echo : List (Nat × Word16)) : State :=
  let e := d.laneWritten.assignmentSent
  { e with
    seg.ackSet := 0
    ring := { e.ring with
      outstanding := some ⟨c.cycle, c.slots.length, e.runTime, e.clock.tenths + e.ring.returnTimeout, echo⟩
      sentS := some (d.outOf c slots).link } }

theorem State.passSouth_eq (v : State) (c : CycleFrame) :
    v.passSouth c = (v.takeOutbound c).sentOn c (v.writeOutputs c.slots) (v.echoRecords c.slots) := by
  unfold State.passSouth State.sentOn
  rfl

/-- R4, R32: sending a frame on moves the ring, the dispatch unit's queue, an assignment flag and the ack set. -/
structure SentOn (c : CycleFrame) (slots : List Slot) (echo : List (Nat × Word16)) (d t : State) : Prop where
  clock   : t.clock = d.clock
  pending : t.pending = d.pending
  points  : t.points = d.points
  mgmt    : t.mgmt = d.mgmt
  owed    : t.owed = d.owed
  disp    : t.disp = d.laneWritten.disp
  seg     : t.seg = { d.seg with ackSet := 0, stations := d.assignmentSent.seg.stations }
  ring    : t.ring = { d.ring with
    outstanding := some ⟨c.cycle, c.slots.length, d.runTime, d.clock.tenths + d.ring.returnTimeout, echo⟩
    sentS := some (d.outOf c slots).link }

theorem State.sentOn_sent (d : State) (c : CycleFrame) (slots : List Slot) (echo : List (Nat × Word16)) :
    SentOn c slots echo d (d.sentOn c slots echo) := by
  have lane := d.laneWritten_frame
  have sent := d.laneWritten.assignmentSent_frame
  have stations := State.assignmentSent_congr (s := d) (t := d.laneWritten) (congrArg (fun u : State => u.seg.stations) lane :)
  unfold State.sentOn
  generalize d.laneWritten.assignmentSent = e at sent stations ⊢
  generalize hw : d.laneWritten = w at lane sent
  have clock : e.clock = d.clock := (congrArg State.clock sent :).trans (congrArg State.clock lane :)
  have ring : e.ring = d.ring := (congrArg State.ring sent :).trans (congrArg State.ring lane :)
  exact {
    clock := clock
    pending := (congrArg State.pending sent :).trans (congrArg State.pending lane :)
    points := (congrArg State.points sent :).trans (congrArg State.points lane :)
    mgmt := (congrArg State.mgmt sent :).trans (congrArg State.mgmt lane :)
    owed := (congrArg State.owed sent :).trans (congrArg State.owed lane :)
    disp := (congrArg State.disp sent :).trans (congrArg State.disp hw.symm)
    seg := by
      have seg : { e.seg with stations := w.seg.stations } = d.seg :=
        (congrArg State.seg sent :).trans (congrArg State.seg lane :)
      rw [← seg, ← stations]
    ring := congrArg₂ (fun (k : Clock) (r : Ring) => { r with
      outstanding := some ⟨c.cycle, c.slots.length, k.tenths / 10, k.tenths + r.returnTimeout, echo⟩
      sentS := some (d.outOf c slots).link }) clock ring }

/-! ### A cycle still outstanding (R8) -/

/-- R8: what the end of a late cycle leaves alone. -/
structure LateEnded (s v : State) : Prop where
  clock   : v.clock = s.clock
  seg     : v.seg = s.seg
  disp    : v.disp = s.disp
  turb    : v.turb = s.turb
  pending : v.pending = s.pending
  slotMap : v.ring.slotMap = s.ring.slotMap
  timeout : v.ring.returnTimeout = s.ring.returnTimeout
  points  : ∀ i, (s.point i).SetByOwner (v.point i)
  mail    : MailAs s v
  forwards : v.ring.segment.Forwards

theorem State.endLate_ended (h : s.ring.segment.Forwards) : LateEnded s s.endLate := by
  cases ho : s.ring.outstanding with
  | none =>
    rw [State.endLate_of_none ho]
    exact ⟨rfl, rfl, rfl, rfl, rfl, rfl, rfl, fun _ => .refl _, .refl s, h⟩
  | some o =>
    rw [State.endLate_of_some ho]
    obtain ⟨frame, turb⟩ := State.loseCycle_frame (s := { s with ring.outstanding := none }) (cause := .late) (n := o.cycle) h
    exact ⟨frame.clock, frame.seg, frame.disp, turb, frame.pending, (congrArg Ring.slotMap frame.ring :),
      (congrArg Ring.returnTimeout frame.ring :), frame.points, ⟨frame.mail, frame.owed⟩,
      by rw [frame.ring]; exact Ring.lostOne_forwards (r := { s.ring with outstanding := none }) h⟩

theorem State.soundSouth_of_forwards (h : s.endLate.ring.segment.Forwards) : s.soundSouth c = s.endLate.passSouth c := by
  unfold State.soundSouth
  rcases h with h | h | h <;> simp only [h]

/-- R4, R5, R8: what stands once a sound frame has been forwarded. -/
theorem SentOn.forwarded {d : State} (h : SentOn c (v.writeOutputs c.slots) (v.echoRecords c.slots) d t)
    (late : LateEnded s v) (taken : OutboundTaken c v d) :
    t.ring = { v.ring with
      outstanding := some ⟨c.cycle, c.slots.length, s.runTime, s.clock.tenths + s.ring.returnTimeout,
        v.echoRecords c.slots⟩
      sentS := some (CycleFrame.link { c with
        ack := s.seg.ackSet
        serial := (s.assignment.map (·.2)).getD 0
        number := BitVec.ofNat 8 ((s.assignment.map (·.1)).getD 0)
        slots := v.writeOutputs c.slots
        attn := emptyAttention
        lane := s.laneArea }) } ∧
      t.seg = { s.seg with
        ackSet := 0, stations := s.assignmentSent.seg.stations, resetLevel := t.seg.resetLevel
        window := t.seg.window } ∧
      t.disp = s.laneWritten.disp ∧ t.clock = s.clock ∧ t.pending = s.pending ∧
      (s.Shaped → RequestsTaken c s t) ∧ MailAs (s.mailIn c.mbox) t ∧ ResetFlagTaken (c.flags.getLsbD 0) s t := by
  have now : v.runTime = s.runTime := by rw [State.runTime, late.clock, State.runTime]
  have seg : d.seg = s.seg.flagged (c.flags.getLsbD 0) s.runTime := by rw [taken.seg, late.seg, now]
  have stations : d.seg.stations = s.seg.stations := (congrArg Segment.stations seg :)
  have clock : d.clock = s.clock := taken.clock.trans late.clock
  have disp : d.disp = s.disp := taken.disp.trans late.disp
  have ring := h.ring
  have out : d.outOf c (v.writeOutputs c.slots) = { c with
      ack := s.seg.ackSet
      serial := (s.assignment.map (·.2)).getD 0
      number := BitVec.ofNat 8 ((s.assignment.map (·.1)).getD 0)
      slots := v.writeOutputs c.slots
      attn := emptyAttention
      lane := s.laneArea } := by
    unfold State.outOf
    rw [State.assignment_congr stations, State.laneArea_congr disp, seg]
    rfl
  rw [out, taken.ring, State.runTime, clock, late.timeout] at ring
  have level : t.seg.resetLevel = d.seg.resetLevel := (congrArg Segment.resetLevel h.seg :)
  have window : t.seg.window = d.seg.window := (congrArg Segment.window h.seg :)
  refine ⟨ring, ?_, h.disp.trans (State.laneWritten_congr disp), h.clock.trans clock,
    h.pending.trans (taken.pending.trans late.pending), fun hs => ?_, ?_, ?_⟩
  · have k := h.seg
    rw [seg, State.assignmentSent_congr stations] at k
    rw [level, window, seg]
    exact k
  · refine State.readRequests_taken (v := v) ?_ late.points
      (State.entry_congr late.slotMap fun j => (late.points j).kind) now (h.points.trans taken.points)
    rw [late.slotMap]
    exact hs.once
  · exact ((late.mail.mailIn c.mbox).trans taken.mail).of_eq h.mgmt (fun i hi => by rw [h.owed]; exact hi)
  · exact taken.flag late.seg now level window fun i hi => by rw [h.owed]; exact hi

end

end Sys2Proof.Machine

open Sys2Proof.Machine in
/-- Settles O18: the late cycle's end, what the frame hands over, and its sending. -/
theorem Sys2Proof.forwardsSoundFrame : Obligations.ForwardsSoundFrame := fun f c s q hl hf hd he => by
  have forwards := SegState.forwards_of_ne hd he
  have late := s.endLate_ended forwards
  refine ⟨fun ho => State.endLate_of_none ho, fun o ho => ?_, ?_⟩
  · rw [State.endLate_of_some ho]
    obtain ⟨frame, turb⟩ := State.loseCycle_frame (s := { s with ring.outstanding := none }) (cause := .late) (n := o.cycle)
      forwards
    exact ⟨frame.ring, frame.seg, frame.disp, turb, frame.clock, fun hr room =>
      State.loseCycle_logged (s := { s with ring.outstanding := none }) forwards hr room⟩
  · have next := exec_outboundPass (f := f) q
    rw [State.outbound_of_cycle hl hf, State.soundSouth_of_forwards late.forwards, State.passSouth_eq] at next
    have taken := s.endLate.takeOutbound_taken c
    have sent := (s.endLate.takeOutbound c).sentOn_sent c (s.endLate.writeOutputs c.slots) (s.endLate.echoRecords c.slots)
    generalize State.sentOn _ _ _ _ = t at sent next
    generalize s.endLate.takeOutbound c = d at taken sent
    generalize s.endLate = v at late taken sent ⊢
    exact ⟨t, next, sent.forwarded late taken⟩
end

