-- ==== Sys2Proof/Proofs/TurnedBack.lean ====
section
/-! PROOFS. What a frame that goes north carries (R10), and OUTBOUND_PASS in DOWN and ENUMERATING (O19). -/

namespace Sys2Proof.Machine

section
variable {s t u d : State} {c : CycleFrame} {slots : List Slot}

/-! ### A frame written and sent north (R10) -/

/-- R10: a frame written with reports, flags and the mailbox area. -/
def State.northOf (d : State) (c : CycleFrame) : CycleFrame :=
  { c with flags := d.inboundFlags c.flags, slots := d.writeReports c.slots, mbox := d.mailArea }

theorem State.writeReports_getElem? (d : State) (slots : List Slot) (k : Nat) : (d.writeReports slots)[k]? =
    slots[k]?.map fun x => if (d.entry k).direction = .report then
      ⟨BitVec.ofInt 16 (d.point (d.entry k).point).raw,
        if (d.point (d.entry k).point).shownQuality = .good then 0 else 1, 0xFE⟩ else x := by
  unfold State.writeReports
  rw [List.getElem?_map, List.getElem?_zipIdx, Option.map_map]
  simp only [Nat.zero_add]
  rfl

theorem State.inboundFlags_congr (hr : t.ring.segment = d.ring.segment) (hm : t.mgmt.events = d.mgmt.events) (b : Byte) :
    t.inboundFlags b = d.inboundFlags b := by
  unfold State.inboundFlags State.eventsPending
  rw [hr, hm]

/-- R10: what it carries is what its owners hold. -/
theorem State.northOf_written (he : ∀ k, d.entry k = s.entry k) (hp : t.points = d.points)
    (hr : t.ring.segment = d.ring.segment) (hm : t.mgmt.events = d.mgmt.events) : WrittenNorth c (d.northOf c) s t where
  cycle := rfl
  length := by
    show (d.writeReports c.slots).length = _
    unfold State.writeReports
    rw [List.length_map, List.length_zipIdx]
  ack := rfl
  serial := rfl
  number := rfl
  attn := rfl
  lane := rfl
  rest := rfl
  others := fun k h => by
    show (d.writeReports c.slots)[k]? = _
    rw [State.writeReports_getElem?, he]
    simp only [if_neg h, Option.map_id']
  reports := fun k hk h => by
    have point : t.point (s.entry k).point = d.point (s.entry k).point := by rw [State.point, hp]; rfl
    show (d.writeReports c.slots)[k]? = _
    rw [State.writeReports_getElem?, he, List.getElem?_eq_getElem hk, Option.map_some, if_pos h]
    rw [point]
  flags := (State.inboundFlags_congr hr hm c.flags).symm

/-- R10, R182: what the sending of a frame north moves, besides the mailbox. -/
structure SentNorth (c : CycleFrame) (d t : State) : Prop where
  frame : { t with ring := d.ring, mgmt := d.mgmt, owed := d.owed } = d
  ring  : t.ring = { d.ring with sentN := if d.ring.linkN then some (d.northOf c).link else d.ring.sentN }
  mgmt  : t.mgmt = d.mailWritten.mgmt
  owed  : t.owed = d.mailWritten.owed

theorem State.sendNorth_sent (d : State) (c : CycleFrame) : SentNorth c d (d.mailWritten.sendNorth (d.northOf c).link) := by
  have mail := d.mailWritten_frame
  rw [State.sendNorth_eq]
  generalize hw : d.mailWritten = w at mail
  have rest := congrArg (fun v : State => { v with ring := d.ring }) mail.rest
  exact {
    frame := rest
    ring := congrArg (fun r : Ring => { r with sentN := if r.linkN then some (d.northOf c).link else r.sentN }) mail.ring
    mgmt := (congrArg State.mgmt hw.symm :)
    owed := (congrArg State.owed hw.symm :) }

theorem SentNorth.clock (h : SentNorth c d t) : t.clock = d.clock := (congrArg State.clock h.frame :)

theorem SentNorth.points (h : SentNorth c d t) : t.points = d.points := (congrArg State.points h.frame :)

theorem SentNorth.seg (h : SentNorth c d t) : t.seg = d.seg := (congrArg State.seg h.frame :)

theorem SentNorth.disp (h : SentNorth c d t) : t.disp = d.disp := (congrArg State.disp h.frame :)

theorem SentNorth.pending (h : SentNorth c d t) : t.pending = d.pending := (congrArg State.pending h.frame :)

theorem SentNorth.events (h : SentNorth c d t) : t.mgmt.events = d.mgmt.events := by
  rw [h.mgmt]
  exact d.mailWritten_events

theorem SentNorth.mail (h : SentNorth c d t) (k : MailAs u d) : MailAs u.mailWritten t :=
  k.mailWritten.of_eq h.mgmt fun i hi => by rw [h.owed]; exact hi

theorem SentNorth.owes (h : SentNorth c d t) {i : Instr} (hi : i ∈ d.owed) : i ∈ t.owed := by
  rw [h.owed]
  exact d.mailWritten_frame.owed i hi

theorem SentNorth.written (h : SentNorth c d t) (he : ∀ k, d.entry k = s.entry k) : WrittenNorth c (d.northOf c) s t :=
  State.northOf_written he h.points (congrArg Ring.segment h.ring :) h.events

/-! ### ENUM frames sent (R18) -/

theorem State.sendEnum_of_offer {x : EnumCarry} (hf : s.ring.flight = none) (ho : s.seg.enum.offer = some x) :
    s.sendEnum = { s with
      seg.enum.offer := none
      ring := { s.ring with flight := some ⟨x, s.clock.tenths + s.ring.returnTimeout⟩, sentS := some x.link } } := by
  unfold State.sendEnum
  rw [hf, ho]
  rfl

theorem State.sendEnum_of_none (h : s.ring.flight ≠ none ∨ s.seg.enum.offer = none) : s.sendEnum = s := by
  unfold State.sendEnum
  split
  · next hf ho => exact absurd hf (h.resolve_right (by rw [ho]; exact nofun))
  · rfl

/-! ### Turning back (R5) -/

/-- R5, R18: what is left of a frame that is turned back, and the ENUM frame it lets go south. -/
def State.turnedOn (d : State) (c : CycleFrame) : State :=
  let x := d.mailWritten.sendNorth (d.northOf c).link
  if x.ring.segment = .enumerating then x.sendEnum else x

theorem State.turnBack_eq (s : State) (c : CycleFrame) : s.turnBack c = (s.takeOutbound c).turnedOn c := by
  unfold State.turnBack State.turnedOn
  rfl

theorem State.soundSouth_of_turned (ho : s.ring.outstanding = none)
    (h : s.ring.segment = .down ∨ s.ring.segment = .enumerating) : s.soundSouth c = s.turnBack c := by
  unfold State.soundSouth
  rw [State.endLate_of_none ho]
  rcases h with h | h <;> simp only [h]

/-- R18: what the sending of an ENUM frame leaves alone. -/
structure EnumSent (x t : State) : Prop where
  frame  : { t with ring := x.ring, seg := x.seg } = x
  seg    : { t.seg with enum := x.seg.enum } = x.seg
  segment : t.ring.segment = x.ring.segment

theorem State.sendEnum_sent (x : State) : EnumSent x x.sendEnum := by
  unfold State.sendEnum
  split <;> exact ⟨rfl, rfl, rfl⟩

theorem EnumSent.refl (x : State) : EnumSent x x := ⟨rfl, rfl, rfl⟩

theorem State.turnedOn_sent (d : State) (c : CycleFrame) : ∃ x, SentNorth c d x ∧
    d.turnedOn c = (if x.ring.segment = .enumerating then x.sendEnum else x) ∧ EnumSent x (d.turnedOn c) := by
  refine ⟨_, d.sendNorth_sent c, rfl, ?_⟩
  unfold State.turnedOn
  dsimp only
  split
  · exact State.sendEnum_sent _
  · exact .refl _

/-- R3: the slots of a frame keep their entries while it is taken. -/
theorem OutboundTaken.entry (h : OutboundTaken c s d) (k : Nat) : d.entry k = s.entry k := by
  have point : ∀ j, d.point j = (s.readRequests c.slots).point j := fun j => by rw [State.point, h.points]; rfl
  refine State.entry_congr (congrArg Ring.slotMap h.ring) (fun j => ?_) k
  rw [point]
  exact (s.readRequests_handed c.slots).kind j

/-- R5: what stands once a sound frame has been turned back, whatever ENUM frame it has let go south. -/
theorem EnumSent.turned {x : State} (h : EnumSent x t) (north : SentNorth c d x) (taken : OutboundTaken c s d) :
    WrittenNorth c (d.northOf c) s t ∧ (s.Shaped → RequestsTaken c s t) ∧ MailAs (s.mailIn c.mbox).mailWritten t ∧
      ResetFlagTaken (c.flags.getLsbD 0) s t ∧ t.seg.stations = s.seg.stations ∧ t.seg.ackSet = s.seg.ackSet ∧
      t.clock = s.clock ∧ t.disp = s.disp ∧ t.pending = s.pending := by
  have points : t.points = d.points := (congrArg State.points h.frame :).trans north.points
  have mgmt : t.mgmt = x.mgmt := (congrArg State.mgmt h.frame :)
  have owed : t.owed = x.owed := (congrArg State.owed h.frame :)
  have stations : x.seg.stations = s.seg.stations := by rw [north.seg, taken.seg]; rfl
  have ackSet : x.seg.ackSet = s.seg.ackSet := by rw [north.seg, taken.seg]; rfl
  have owes : ∀ i ∈ d.owed, i ∈ t.owed := fun i hi => by rw [owed]; exact north.owes hi
  refine ⟨State.northOf_written taken.entry points (h.segment.trans (congrArg Ring.segment north.ring :)) ?_,
    fun hs => State.readRequests_taken hs.once (fun j => .refl _) (fun _ => rfl) rfl (points.trans taken.points),
    (north.mail taken.mail).of_eq mgmt fun i hi => by rw [owed]; exact hi,
    taken.flag rfl rfl ?_ ?_ owes, (congrArg Segment.stations h.seg :).trans stations,
    (congrArg Segment.ackSet h.seg :).trans ackSet,
    (congrArg State.clock h.frame :).trans (north.clock.trans taken.clock),
    (congrArg State.disp h.frame :).trans (north.disp.trans taken.disp),
    (congrArg State.pending h.frame :).trans (north.pending.trans taken.pending)⟩
  · rw [mgmt]
    exact north.events
  · exact (congrArg Segment.resetLevel h.seg :).trans (congrArg Segment.resetLevel north.seg)
  · exact (congrArg Segment.window h.seg :).trans (congrArg Segment.window north.seg)

end

end Sys2Proof.Machine

open Sys2Proof.Machine in
/-- Settles O19: what the frame hands over, its way back north, and the ENUM frame it lets go. -/
theorem Sys2Proof.turnsBackSoundFrame : Obligations.TurnsBackSoundFrame := fun f s q => by
  refine ⟨fun hl => (exec_outboundPass q).trans (congrArg _ (State.outbound_of_linkDown hl)), fun c hl hf hs ho => ?_⟩
  have next := exec_outboundPass (f := f) q
  rw [State.outbound_of_cycle hl hf, State.soundSouth_of_turned ho hs, State.turnBack_eq] at next
  have taken := s.takeOutbound_taken c
  obtain ⟨x, north, course, sent⟩ := (s.takeOutbound c).turnedOn_sent c
  generalize State.turnedOn _ _ = t at sent next course
  generalize s.takeOutbound c = d at taken north
  have ring : x.ring = { s.ring with sentN := some (d.northOf c).link } := by
    rw [north.ring, taken.ring, if_pos hl]
  have segment : x.ring.segment = s.ring.segment := (congrArg Ring.segment ring :)
  have enum : x.seg.enum = s.seg.enum := by rw [north.seg, taken.seg]; rfl
  have flight : x.ring.flight = s.ring.flight := (congrArg Ring.flight ring :)
  have clock : x.clock = s.clock := north.clock.trans taken.clock
  obtain ⟨written, rest⟩ := sent.turned north taken
  rw [segment] at course
  refine ⟨t, d.northOf c, next, written, taken.mail.mailArea, fun hd => ?_, fun y he hn hy => ?_, fun he hn => ?_, rest⟩
  · rw [course, if_neg (by rw [hd]; decide)]
    exact ring
  · rw [course, if_pos he, State.sendEnum_of_offer (flight.trans hn) ((congrArg EnumRecord.offer enum).trans hy)]
    dsimp only
    rw [ring, clock, enum]
    exact ⟨rfl, rfl⟩
  · rw [course, if_pos he, State.sendEnum_of_none]
    · exact ⟨ring, enum⟩
    · rw [flight, enum]
      exact hn
end

