-- ==== Sys2Proof/Proofs/Presence.lean ====
section
/-! PROOFS. The station table at a taken frame: presence and silence (R36), the join wait (R32), and the numbers that hot
join looks for in it (R31). -/

namespace Sys2Proof.Machine

section
variable {s t u : State} {n m : Nat} {e : Station} {expected present : Bool} {silence : Nat}

/-! ### Changes of the station entries -/

/-- Station entries and events have moved, and nothing else. -/
structure StationsFrame (s t : State) : Prop where
  rest   : { t with seg := s.seg, mgmt := s.mgmt } = s
  seg    : { t.seg with stations := s.seg.stations } = s.seg
  length : t.seg.stations.length = s.seg.stations.length
  mail   : MailAs s t

theorem StationsFrame.refl (s : State) : StationsFrame s s := ⟨rfl, rfl, rfl, .refl s⟩

theorem StationsFrame.trans (h : StationsFrame s t) (k : StationsFrame t u) : StationsFrame s u where
  rest := by
    have e := congrArg (fun v : State => { v with seg := s.seg, mgmt := s.mgmt }) k.rest
    exact e.trans h.rest
  seg := by
    have e := congrArg (fun g : Segment => { g with stations := s.seg.stations }) k.seg
    exact e.trans h.seg
  length := k.length.trans h.length
  mail := h.mail.trans k.mail

theorem StationsFrame.setStation (h : StationsFrame s t) (n : Nat) (e : Station) : StationsFrame s (t.setStation n e) :=
  ⟨h.rest, h.seg, (List.length_set ..).trans h.length, ⟨h.mail.unit, h.mail.owed⟩⟩

theorem StationsFrame.log {src : Source} {name : EventName} {x y z : Int} (h : StationsFrame s t) :
    StationsFrame s (t.log src name x y z) := by
  have mail := h.mail.log_right (src := src) (name := name) (x := x) (y := y) (z := z)
  unfold State.log at mail ⊢
  split
  · next room => rw [if_pos room] at mail; exact ⟨h.rest, h.seg, h.length, mail⟩
  · next room => rw [if_neg room] at mail; exact ⟨h.rest, h.seg, h.length, mail⟩

theorem StationsFrame.foldl {α : Type} (f : State → α → State) (hf : ∀ s x, StationsFrame s (f s x)) :
    ∀ (xs : List α) (s : State), StationsFrame s (xs.foldl f s)
  | [], s => .refl s
  | x :: xs, s => (hf s x).trans (StationsFrame.foldl f hf xs (f s x))

theorem StationsFrame.silenceCount (h : StationsFrame s t) : t.seg.silenceCount = s.seg.silenceCount :=
  (congrArg Segment.silenceCount h.seg :)

theorem StationsFrame.ackSet (h : StationsFrame s t) : t.seg.ackSet = s.seg.ackSet := (congrArg Segment.ackSet h.seg :)

theorem StationsFrame.dropFlags (h : StationsFrame s t) : t.seg.dropFlags = s.seg.dropFlags :=
  (congrArg Segment.dropFlags h.seg :)

theorem StationsFrame.joinEnable (h : StationsFrame s t) : t.seg.joinEnable = s.seg.joinEnable :=
  (congrArg Segment.joinEnable h.seg :)

theorem StationsFrame.ring (h : StationsFrame s t) : t.ring = s.ring := (congrArg State.ring h.rest :)

theorem StationsFrame.points (h : StationsFrame s t) : t.points = s.points := (congrArg State.points h.rest :)

/-! ### Presence and the join wait, entry by entry -/

/-- R36: an entry after a taken frame in which its station is expected and present. -/
def Station.seen (e : Station) (silence : Nat) (expected present : Bool) : Station :=
  match e.state with
  | .absent => e
  | .joining => e
  | .active =>
    if expected = false then e
    else if present then { e with missed := 0 }
    else if silence ≤ e.missed + 1 then { e with missed := e.missed + 1, state := .silent }
    else { e with missed := e.missed + 1 }
  | .silent => if present then { e with missed := 0, state := .active } else e

/-- R32: an entry after the join waits have been counted. -/
def Station.waited (e : Station) (silence : Nat) : Station :=
  if e.state ≠ .joining ∨ e.due then e
  else if silence ≤ e.missed + 1 then e.release else { e with missed := e.missed + 1 }

theorem Station.waited_of_ne (h : e.state ≠ .joining) : e.waited silence = e := if_pos (.inl h)

theorem Station.waited_of_due (h : e.due = true) : e.waited silence = e := if_pos (.inr h)

/-- R32, R36: without records a taken frame is presence, then the join wait. -/
theorem Station.watched_eq (e : Station) (silence : Nat) (expected present : Bool) :
    e.watched silence expected present = (e.seen silence expected present).waited silence := by
  cases hs : e.state with
  | absent =>
    have seen : e.seen silence expected present = e := by simp [Station.seen, hs]
    rw [seen, Station.waited_of_ne (by simp [hs])]
    simp [Station.watched, hs]
  | joining =>
    have seen : e.seen silence expected present = e := by simp [Station.seen, hs]
    rw [seen]
    simp [Station.watched, Station.waited, hs]
    rfl
  | active =>
    have seen : e.seen silence expected present = e.watched silence expected present := by
      simp [Station.seen, Station.watched, hs]
    rw [← seen, Station.waited_of_ne]
    simp only [Station.seen, hs]
    repeat' split
    all_goals simp [hs]
  | silent =>
    have seen : e.seen silence expected present = e.watched silence expected present := by
      simp [Station.seen, Station.watched, hs]
    rw [← seen, Station.waited_of_ne]
    simp only [Station.seen, hs]
    split <;> simp [hs]

/-- R36: presence leaves an entry's binding and attention fields, and whether it is ABSENT or JOINING. -/
theorem Station.seen_kept (e : Station) (silence : Nat) (expected present : Bool) :
    { e.seen silence expected present with state := e.state, missed := e.missed } = e ∧
      ((e.seen silence expected present).state = .absent ↔ e.state = .absent) ∧
      ((e.seen silence expected present).state = .joining ↔ e.state = .joining) := by
  obtain ⟨_, _, state⟩ := e
  unfold Station.seen
  cases state <;> dsimp only <;> repeat' split
  all_goals simp

theorem Station.seen_of_absent (h : e.state = .absent) : e.seen silence expected present = e := by
  simp [Station.seen, h]

/-- R36: an ACTIVE station that is present stays ACTIVE. -/
theorem Station.seen_of_present (h : e.state = .active) : (e.seen silence expected true).state = .active := by
  cases expected <;> simp [Station.seen, h]

/-- R36: one entry at a taken frame. -/
theorem State.watchStation_station (h : 1 ≤ n) (hn : n ≤ s.seg.stations.length) (m : Nat) :
    (s.watchStation n expected present).station m =
      if m = n then (s.station n).seen s.seg.silenceCount expected present else s.station m := by
  have set : ∀ e : Station, (s.setStation n e).station m = if m = n then e else s.station m := fun e => by
    split
    · next hm => subst hm; exact State.setStation_station h hn
    · next hm => exact State.setStation_station_other h hm
  have same : s.station m = if m = n then s.station n else s.station m := by
    split
    · next hm => rw [hm]
    · rfl
  unfold State.watchStation Station.seen
  dsimp only
  cases hs : (s.station n).state with
  | absent => exact same
  | joining => exact same
  | active =>
    dsimp only
    by_cases hx : expected = false
    · rw [if_pos hx, if_pos hx]; exact same
    · rw [if_neg hx, if_neg hx]
      by_cases hp : present = true
      · rw [if_pos hp, if_pos hp]; exact set _
      · rw [if_neg hp, if_neg hp]
        by_cases hm : s.seg.silenceCount ≤ (s.station n).missed + 1
        · rw [if_pos hm, if_pos hm, State.log_station]; exact set _
        · rw [if_neg hm, if_neg hm]; exact set _
  | silent =>
    dsimp only
    by_cases hp : present = true
    · rw [if_pos hp, if_pos hp, State.log_station]; exact set _
    · rw [if_neg hp, if_neg hp]; exact same

theorem State.watchStation_frame (s : State) (n : Nat) (expected present : Bool) :
    StationsFrame s (s.watchStation n expected present) := by
  have h := StationsFrame.refl s
  unfold State.watchStation
  dsimp only
  split
  · exact h
  · exact h
  · split
    · exact h
    · split
      · exact h.setStation _ _
      · split
        · exact (h.setStation _ _).log
        · exact h.setStation _ _
  · split
    · exact (h.setStation _ _).log
    · exact h

/-- R32: the join wait of one entry. -/
theorem State.countJoin_station (h : 1 ≤ n) (hn : n ≤ s.seg.stations.length) (m : Nat) :
    (s.countJoin n).station m = if m = n then (s.station n).waited s.seg.silenceCount else s.station m := by
  have same : s.station m = if m = n then s.station n else s.station m := by
    split
    · next hm => rw [hm]
    · rfl
  unfold State.countJoin Station.waited
  dsimp only
  split
  · exact same
  · split
    · by_cases hm : m = n
      · subst hm
        rw [if_pos rfl]
        exact State.setStation_station h (by rwa [State.log_seg])
      · rw [if_neg hm, State.setStation_station_other h hm, State.log_station]
    · by_cases hm : m = n
      · subst hm
        rw [if_pos rfl]
        exact State.setStation_station h hn
      · rw [if_neg hm, State.setStation_station_other h hm]

theorem State.countJoin_frame (s : State) (n : Nat) : StationsFrame s (s.countJoin n) := by
  unfold State.countJoin
  dsimp only
  split
  · exact .refl s
  · split
    · exact (StationsFrame.refl s).log.setStation _ _
    · exact (StationsFrame.refl s).setStation _ _

/-! ### All entries (log 64) -/

/-- Operations on the entries of the numbers 1 to 30, one after another: each makes of its entry what it makes of it alone.
-/
theorem foldl_stations {f : State → Nat → State} {g : Nat → Station → Station} {silence : Nat}
    (frame : ∀ s n, StationsFrame s (f s n))
    (own : ∀ s n, 1 ≤ n → n ≤ 30 → s.seg.stations.length = 30 → s.seg.silenceCount = silence → ∀ m,
      (f s n).station m = if m = n then g n (s.station n) else s.station m)
    (hl : s.seg.stations.length = 30) (hs : s.seg.silenceCount = silence) (h1 : 1 ≤ n) (h30 : n ≤ 30) :
    (stationNumbers.foldl f s).station n = g n (s.station n) := by
  have upTo : ∀ k, k ≤ 30 → (∀ m, 1 ≤ m → m ≤ 30 → ((((List.range k).map (· + 1)).foldl f s).station m =
      if m ≤ k then g m (s.station m) else s.station m)) := by
    intro k
    induction k with
    | zero =>
      intro _ m h _
      rw [if_neg (by omega)]
      rfl
    | succ k ih =>
      intro hk m hm hm'
      have before := StationsFrame.foldl f frame ((List.range k).map (· + 1)) s
      rw [List.range_succ, List.map_append, List.foldl_append]
      show (f _ (k + 1)).station m = _
      rw [own _ (k + 1) (by omega) hk (before.length.trans hl) (before.silenceCount.trans hs)]
      by_cases he : m = k + 1
      · subst he
        rw [if_pos rfl, if_pos (Nat.le_refl _), ih (by omega) (k + 1) (by omega) hk, if_neg (by omega)]
      · rw [if_neg he, ih (by omega) m hm hm']
        by_cases hmk : m ≤ k
        · rw [if_pos hmk, if_pos (by omega)]
        · rw [if_neg hmk, if_neg (by omega)]
  have all := upTo 30 (Nat.le_refl _) n h1 h30
  rw [if_pos h30] at all
  exact all

theorem State.watchStations_frame (s : State) (expected present : List Nat) :
    StationsFrame s (s.watchStations expected present) := .foldl _ (fun s n => s.watchStation_frame n _ _) _ _

theorem State.countJoins_frame (s : State) : StationsFrame s s.countJoins := .foldl _ State.countJoin_frame _ _

/-- R36: every entry at a taken frame. -/
theorem State.watchStations_station (hl : s.seg.stations.length = 30) (h1 : 1 ≤ n) (h30 : n ≤ 30)
    (expected present : List Nat) : (s.watchStations expected present).station n =
      (s.station n).seen s.seg.silenceCount (expected.contains n) (present.contains n) :=
  foldl_stations (g := fun n e => e.seen s.seg.silenceCount (expected.contains n) (present.contains n))
    (fun s n => s.watchStation_frame n _ _)
    (fun u n h1 h30 hu hs m => by rw [State.watchStation_station h1 (by omega), hs]) hl rfl h1 h30

/-- R32: every join wait at a taken frame. -/
theorem State.countJoins_station (hl : s.seg.stations.length = 30) (h1 : 1 ≤ n) (h30 : n ≤ 30) :
    s.countJoins.station n = (s.station n).waited s.seg.silenceCount :=
  foldl_stations (g := fun _ e => e.waited s.seg.silenceCount) State.countJoin_frame
    (fun u n h1 h30 hu hs m => by rw [State.countJoin_station h1 (by omega), hs]) hl rfl h1 h30

/-! ### The numbers that hot join looks for (R31) -/

theorem findIdx?_congr {α : Type} {p q : α → Bool} {xs ys : List α} (h : xs.map p = ys.map q) :
    xs.findIdx? p = ys.findIdx? q := by
  have k : ∀ (p : α → Bool) (zs : List α), zs.findIdx? p = (zs.map p).findIdx? id := fun p zs => by
    rw [List.findIdx?_map]
    rfl
  rw [k, k q, h]

theorem State.stations_map_congr {β : Type} {f : Station → β} (hl : t.seg.stations.length = s.seg.stations.length)
    (h : ∀ n, 1 ≤ n → n ≤ s.seg.stations.length → f (t.station n) = f (s.station n)) :
    t.seg.stations.map f = s.seg.stations.map f := by
  refine List.ext_getElem (by simp [hl]) fun i h1 h2 => ?_
  have k := h (i + 1) (by omega) (by simpa using h2)
  rw [List.length_map] at h1 h2
  unfold State.station at k
  simp only [Nat.add_one_ne_zero, if_false, Nat.add_sub_cancel] at k
  rw [List.getD_eq_getElem _ _ h1, List.getD_eq_getElem _ _ h2] at k
  rw [List.getElem_map, List.getElem_map, k]

/-- R31: a serial is found under the same number while the entries keep their serials. -/
theorem State.numberOf_congr (hl : t.seg.stations.length = s.seg.stations.length)
    (h : ∀ n, 1 ≤ n → n ≤ s.seg.stations.length → (t.station n).serial = (s.station n).serial) (sr : Serial) :
    t.numberOf sr = s.numberOf sr := by
  unfold State.numberOf
  rw [findIdx?_congr (State.stations_map_congr (f := (·.holds sr)) hl fun n h1 h2 => ?_)]
  unfold Station.holds
  rw [h n h1 h2]

/-- R31: the lowest free number stays while the same entries are ABSENT and locked. -/
theorem State.lowestFree_congr (hl : t.seg.stations.length = s.seg.stations.length)
    (h : ∀ n, 1 ≤ n → n ≤ s.seg.stations.length → (t.station n).isFree = (s.station n).isFree) :
    t.lowestFree = s.lowestFree := by
  unfold State.lowestFree
  rw [findIdx?_congr (State.stations_map_congr (f := Station.isFree) hl h)]

theorem Station.seen_isFree (e : Station) : (e.seen silence expected present).isFree = e.isFree := by
  obtain ⟨kept, absent, _⟩ := e.seen_kept silence expected present
  have lock : (e.seen silence expected present).lock = e.lock := (congrArg Station.lock kept :)
  unfold Station.isFree
  rw [lock, decide_eq_decide.2 absent]

end

end Sys2Proof.Machine
end

