-- ==== Sys2Proof/Proofs/Flags.lean ====
section
/-! PROOFS. The flags that attention records move: the jam of a line (R75), the train fault (R123) and the calibration flags
(R100) of its flue gas unit. Nothing that a record or a change of segment state brings besides moves them. -/

namespace Sys2Proof.Machine

section
variable {a s t : State} {l k : LineId} {n : Nat} {on : Bool}

/-! ### What keeps the flags -/

/-- The flags of a flue gas unit. -/
def Fgc.flags (f : Fgc) : Bool × Six Bool × Bool × Bool := (f.trainFault, f.cal, f.calO2, f.calH2O)

/-- No jam, train fault or calibration flag has moved. -/
structure FlagsKept (s t : State) : Prop where
  jam : ∀ k, (t.line k).jam = (s.line k).jam
  fgc : ∀ k, (t.fgc k).flags = (s.fgc k).flags

theorem FlagsKept.refl (s : State) : FlagsKept s s := ⟨fun _ => rfl, fun _ => rfl⟩

theorem FlagsKept.of_eq (h : FlagsKept a s) (hl : ∀ k, t.line k = s.line k) (hf : ∀ k, t.fgc k = s.fgc k) :
    FlagsKept a t := ⟨fun k => by rw [hl]; exact h.jam k, fun k => by rw [hf]; exact h.fgc k⟩

theorem FlagsKept.ite {b : Prop} [Decidable b] (hs : FlagsKept a s) (ht : FlagsKept a t) :
    FlagsKept a (if b then s else t) := by
  split
  · exact hs
  · exact ht

theorem FlagsKept.foldl {α : Type} {a : State} (f : State → α → State) (hf : ∀ s x, FlagsKept a s → FlagsKept a (f s x)) :
    ∀ (xs : List α) (s : State), FlagsKept a s → FlagsKept a (xs.foldl f s)
  | [], _, h => h
  | x :: xs, s, h => FlagsKept.foldl f hf xs (f s x) (hf s x h)

theorem State.setLine_line_of_ne {c : Line} (h : k ≠ l) : (s.setLine l c).line k = s.line k := by
  cases l <;> cases k <;> trivial

theorem State.setFgc_fgc_of_ne {f : Fgc} (h : k ≠ l) : (s.setFgc l f).fgc k = s.fgc k := by
  cases l <;> cases k <;> trivial

theorem FlagsKept.setLine {c : Line} (h : FlagsKept a s) (hc : c.jam = (s.line l).jam) : FlagsKept a (s.setLine l c) where
  jam := fun k => by
    by_cases hk : k = l
    · subst hk
      rw [State.setLine_line, hc]
      exact h.jam k
    · rw [State.setLine_line_of_ne hk]
      exact h.jam k
  fgc := fun k => by rw [State.setLine_fgc]; exact h.fgc k

theorem FlagsKept.setFgc {f : Fgc} (h : FlagsKept a s) (hf : f.flags = (s.fgc l).flags) : FlagsKept a (s.setFgc l f) where
  jam := fun k => by rw [State.setFgc_line]; exact h.jam k
  fgc := fun k => by
    by_cases hk : k = l
    · subst hk
      rw [State.setFgc_fgc, hf]
      exact h.fgc k
    · rw [State.setFgc_fgc_of_ne hk]
      exact h.fgc k

theorem FlagsKept.setEnv {e : Envelope} (h : FlagsKept a s) : FlagsKept a { s with env := e } := ⟨h.jam, h.fgc⟩

theorem FlagsKept.log {src : Source} {name : EventName} {x y z : Int} (h : FlagsKept a s) :
    FlagsKept a (s.log src name x y z) := h.of_eq (fun _ => State.log_line ..) (fun _ => State.log_fgc ..)

theorem FlagsKept.own {r : Role} {w : Option LineId} {v : Int} (h : FlagsKept a s) : FlagsKept a (s.own r w v) :=
  h.of_eq (fun _ => State.own_line ..) (fun _ => State.own_fgc ..)

theorem FlagsKept.oweRun {c : RunCause} (h : FlagsKept a s) : FlagsKept a (s.oweRun c) :=
  h.of_eq (fun _ => State.oweRun_line ..) (fun _ => State.oweRun_fgc ..)

/-! ### Caps and dosing loops -/

theorem FlagsKept.formCap (h : FlagsKept a s) : FlagsKept a (s.formCap l) := by
  unfold State.formCap
  exact .ite h (.oweRun (.own (h.setEnv.setLine rfl)))

theorem FlagsKept.capReleaseCore {src : CapSource} (h : FlagsKept a s) : FlagsKept a (s.capReleaseCore l src) := by
  have formed := FlagsKept.formCap (l := l)
    (h.setEnv (e := { s.env with caps := s.env.caps.set l ((s.env.caps.get l).set src none) }))
  unfold State.capReleaseCore
  dsimp only
  split
  · exact h
  · generalize State.formCap _ _ = u at formed ⊢
    have released := formed.log (src := .envelope) (name := .capReleased) (x := lineNumber l) (y := src.code)
      (z := u.env.effCap.get l) |>.oweRun (c := .cap)
    exact .ite released.setEnv released

theorem FlagsKept.clearSaturated {d : DosingLoop} (h : FlagsKept a s) : FlagsKept a (s.clearSaturated l d) := by
  unfold State.clearSaturated
  exact .ite (FlagsKept.log (h.setFgc rfl)) (h.setFgc rfl)

theorem FlagsKept.stopLoop {d : DosingLoop} (h : FlagsKept a s) : FlagsKept a (s.stopLoop l d) := by
  unfold State.stopLoop
  exact .own (h.clearSaturated.setFgc rfl)

theorem FlagsKept.dropRestraint (h : FlagsKept a s) : FlagsKept a (s.dropRestraint l) := by
  unfold State.dropRestraint
  exact .ite (.log (.capReleaseCore (h.setFgc rfl))) (h.setFgc rfl)

theorem FlagsKept.judgeCounting (h : FlagsKept a s) : FlagsKept a (s.judgeCounting l) := by
  unfold State.judgeCounting
  exact .ite (.ite (h.setFgc rfl) h) (h.setFgc rfl)

theorem FlagsKept.fgcLineState (h : FlagsKept a s) : FlagsKept a (s.fgcLineState l) := by
  unfold State.fgcLineState
  exact .judgeCounting (.ite h (.dropRestraint (.foldl _ (fun _ _ h => h.stopLoop) loopsAll s h)))

/-! ### Changes of line state and hold causes -/

theorem FlagsKept.setDue (h : FlagsKept a s) : FlagsKept a (s.setDue l) := by
  unfold State.setDue
  exact .ite (h.setLine rfl) h

theorem FlagsKept.tryStroke (h : FlagsKept a s) : FlagsKept a (s.tryStroke l) := by
  unfold State.tryStroke
  exact .ite (.own (h.setLine rfl)) h

theorem FlagsKept.dropStroke (h : FlagsKept a s) : FlagsKept a (s.dropStroke l) := .own (h.setLine rfl)

theorem FlagsKept.withdraw (h : FlagsKept a s) : FlagsKept a (s.withdraw l) := by
  unfold State.withdraw
  split
  · exact h
  · exact .log h.dropStroke

theorem FlagsKept.lineOutputs {new : LineState} (h : FlagsKept a s) : FlagsKept a (s.lineOutputs l new) := by
  cases new with
  | feeding => exact h
  | feedHold => exact h
  | burnout => exact h.own
  | off => exact .own (.own h.own)
  | tripped => exact .own (.own h.own)

theorem FlagsKept.changeOnce {new : LineState} {cause : StateCause} (h : FlagsKept a s) :
    FlagsKept a (s.changeOnce l new cause) := by
  have withdrawn := FlagsKept.ite (b := new.feeds) h (h.withdraw (l := l))
  have entered := FlagsKept.log (src := lineSource l) (name := .lineState) (x := cause.code) (y := (s.line l).state.code)
    (z := new.code) (FlagsKept.own (r := .lineState) (w := some l) (v := new.code) (FlagsKept.lineOutputs (l := l) (new := new)
      (withdrawn.setLine (l := l)
        (c := (((if new.feeds then s else s.withdraw l).line l).enter new (if new.feeds then s else s.withdraw l).runTime))
        rfl)))
  have left := entered.ite (b := new.feeds) (entered.capReleaseCore (l := l) (src := .feedLimit))
  unfold State.changeOnce
  exact .ite h (.fgcLineState (.oweRun (left.ite left.capReleaseCore)))

theorem FlagsKept.toBurnout {cause : StateCause} (h : FlagsKept a s) : FlagsKept a (s.toBurnout l cause) :=
  .ite h.changeOnce h

theorem FlagsKept.changeLine {new : LineState} {cause : StateCause} (h : FlagsKept a s) :
    FlagsKept a (s.changeLine l new cause) := by
  unfold State.changeLine
  exact .ite h (.ite (.toBurnout h.changeOnce) h.changeOnce)

theorem FlagsKept.addCause {c : HoldCause} (h : FlagsKept a s) : FlagsKept a (s.addCause l c) := by
  unfold State.addCause
  exact .ite (.changeLine (.log (h.setLine rfl))) h

theorem FlagsKept.removeCause {c : HoldCause} (h : FlagsKept a s) : FlagsKept a (s.removeCause l c) := by
  unfold State.removeCause
  exact .ite (.ite (.tryStroke (.changeLine (.log (h.setLine rfl)))) (.log (h.setLine rfl))) h

theorem FlagsKept.segmentCause {b : Bool} (h : FlagsKept a s) : FlagsKept a (s.segmentCause b) := by
  have set : ∀ {s l}, FlagsKept a s → FlagsKept a (s.setCause l .segment !b) := fun h => .ite h.addCause h.removeCause
  exact set (set h)

theorem FlagsKept.setSegment {new : SegState} (h : FlagsKept a s) : FlagsKept a (s.setSegment new) := by
  unfold State.setSegment
  exact .ite h (.segmentCause (.log ⟨h.jam, h.fgc⟩))

theorem FlagsKept.judgeExhausted (h : FlagsKept a s) : FlagsKept a (s.judgeExhausted l) := by
  unfold State.judgeExhausted
  exact .ite (.ite h (.toBurnout (.log (h.setFgc rfl)))) (.ite (.log (h.setFgc rfl)) h)

theorem FlagsKept.enterAbnormal {b : Bool} (h : FlagsKept a s) : FlagsKept a (s.enterAbnormal l b) := by
  unfold State.enterAbnormal
  exact .judgeExhausted (.judgeCounting (.ite (h.setFgc rfl) (.log (h.setFgc rfl))))

/-! ### What a record makes of the flags (R39) -/

/-- The flags of one line alone have moved. -/
structure FlagsOf (l : LineId) (s t : State) : Prop where
  jam : ∀ k, k ≠ l → (t.line k).jam = (s.line k).jam
  fgc : ∀ k, k ≠ l → (t.fgc k).flags = (s.fgc k).flags

theorem FlagsOf.setLine (c : Line) : FlagsOf l s (s.setLine l c) :=
  ⟨fun k hk => by rw [State.setLine_line_of_ne hk], fun k _ => by rw [State.setLine_fgc]⟩

theorem FlagsOf.setFgc (f : Fgc) : FlagsOf l s (s.setFgc l f) :=
  ⟨fun k _ => by rw [State.setFgc_line], fun k hk => by rw [State.setFgc_fgc_of_ne hk]⟩

theorem FlagsOf.kept {u : State} (h : FlagsOf l s t) (k : FlagsKept t u) : FlagsOf l s u :=
  ⟨fun x hx => (k.jam x).trans (h.jam x hx), fun x hx => (k.fgc x).trans (h.fgc x hx)⟩

theorem FlagsOf.refl (l : LineId) (s : State) : FlagsOf l s s := ⟨fun _ _ => rfl, fun _ _ => rfl⟩

theorem FlagsOf.trans {u : State} (h : FlagsOf l s t) (k : FlagsOf l t u) : FlagsOf l s u :=
  ⟨fun x hx => (k.jam x hx).trans (h.jam x hx), fun x hx => (k.fgc x hx).trans (h.fgc x hx)⟩

/-- R75: a jam reported stands, and one cleared is gone. -/
theorem State.jamSet_flags (s : State) (l : LineId) (n : Nat) :
    ((s.jamSet l n).line l).jam = true ∧ FlagsOf l s (s.jamSet l n) := by
  unfold State.jamSet
  dsimp only
  split
  · next h => exact ⟨h, .refl l s⟩
  · have jammed : ∀ u, FlagsKept (s.setLine l { s.line l with jam := true }) u →
        (u.line l).jam = true ∧ FlagsOf l s u := fun u kept => by
      have jam := kept.jam l
      rw [State.setLine_line] at jam
      exact ⟨jam, (FlagsOf.setLine _).kept kept⟩
    apply jammed
    split
    · exact .addCause (.log (.refl _))
    · exact .addCause (.setDue (.log (.dropStroke (.log (.refl _)))))

theorem State.jamClear_flags (s : State) (l : LineId) (n : Nat) :
    ((s.jamClear l n).line l).jam = false ∧ FlagsOf l s (s.jamClear l n) := by
  unfold State.jamClear
  dsimp only
  split
  · have kept : FlagsKept (s.setLine l { s.line l with jam := false })
        (((s.setLine l { s.line l with jam := false }).log (lineSource l) .feederJamClear n).removeCause l .jam) :=
      .removeCause (.log (.refl _))
    have jam := kept.jam l
    rw [State.setLine_line] at jam
    exact ⟨jam, (FlagsOf.setLine _).kept kept⟩
  · next h => exact ⟨Bool.eq_false_iff.2 h, .refl l s⟩

/-- R123: the train fault stands as reported. -/
theorem State.trainFault_flags (s : State) (l : LineId) (n : Nat) (on : Bool) :
    ((s.trainFault l n on).fgc l).trainFault = on ∧ FlagsOf l s (s.trainFault l n on) := by
  unfold State.trainFault
  dsimp only
  split
  · next h => exact ⟨h, .refl l s⟩
  · have logged := FlagsKept.log (src := fgcSource l) (name := .trainFault) (x := n) (y := if on then 1 else 0) (z := 0)
      (.refl (s.setFgc l { s.fgc l with trainFault := on }))
    have kept := FlagsKept.ite (b := on = true) (logged.enterAbnormal (l := l) (b := true)) logged
    have flags := kept.fgc l
    rw [State.setFgc_fgc] at flags
    exact ⟨(congrArg Prod.fst flags :), (FlagsOf.setFgc _).kept kept⟩

/-! ### Calibration flags (R100) -/

theorem Fgc.calFlag_setCal (f : Fgc) (p : FgcPoint) (on : Bool) : (f.setCal p on).calFlag p = on := by
  cases p with
  | comp c => cases c <;> rfl
  | o2 => rfl
  | h2o => rfl

theorem Fgc.calFlag_setCal_of_ne (f : Fgc) {p q : FgcPoint} (h : q ≠ p) (on : Bool) : (f.setCal p on).calFlag q = f.calFlag q := by
  cases p with
  | comp c =>
    cases q with
    | comp d => cases c <;> cases d <;> first | rfl | exact absurd rfl h
    | o2 => rfl
    | h2o => rfl
  | o2 => cases q <;> first | rfl | exact absurd rfl h
  | h2o => cases q <;> first | rfl | exact absurd rfl h

theorem Fgc.calFlag_of_flags {f g : Fgc} (h : f.flags = g.flags) (p : FgcPoint) : f.calFlag p = g.calFlag p := by
  have cal : f.cal = g.cal := (congrArg (fun x => x.2.1) h :)
  have o2 : f.calO2 = g.calO2 := (congrArg (fun x => x.2.2.1) h :)
  have h2o : f.calH2O = g.calH2O := (congrArg (fun x => x.2.2.2) h :)
  cases p with
  | comp c => exact congrArg (fun x => x.get c) cal
  | o2 => exact o2
  | h2o => exact h2o

/-- R100: a calibration flag stands as asked, and the others as they stood. -/
theorem State.setCalibration_flag (s : State) (l : LineId) (p : FgcPoint) (n : Nat) (on : Bool) (q : FgcPoint) :
    ((s.setCalibration l p n on).fgc l).calFlag q = (if q = p then on else (s.fgc l).calFlag q) ∧
      FlagsOf l s (s.setCalibration l p n on) := by
  unfold State.setCalibration
  dsimp only
  split
  · next h =>
    refine ⟨?_, .refl l s⟩
    split
    · next hq => rw [hq]; exact h
    · rfl
  · refine ⟨?_, (FlagsOf.setFgc _).kept (.log (.refl _))⟩
    have touched : ∀ f : Fgc, (if on = true then f.touchMinute p else f).calFlag q = f.calFlag q := fun f => by
      split
      · exact Fgc.calFlag_of_flags (f := f.touchMinute p) (g := f) rfl q
      · rfl
    rw [State.log_fgc, State.setFgc_fgc, touched]
    split
    · next hq => rw [hq]; exact Fgc.calFlag_setCal ..
    · next hq => exact Fgc.calFlag_setCal_of_ne _ hq on

end

end Sys2Proof.Machine
end

