-- ==== Sys2Proof/Proofs/Attention.lean ====
section
/-! PROOFS. The attention records of a taken frame (R31, R33, R37 to R39): what the record of an area makes of the station
table and of the lines it is bound to. -/

namespace Sys2Proof.Machine

section
variable {s t u : State} {l : LineId} {n : Nat} {on : Bool} {c : AttentionCode} {r : Attention} {area payload : List Byte}

/-! ### Bindings (R39) -/

/-- R43: the search for a role finds the same point while the records keep their structure. -/
theorem State.findPoint_congr (hl : t.points.length = s.points.length) (h : ∀ i, (t.point i).SameSettings (s.point i))
    (q : Role) (w : Option LineId) : t.findPoint q w = s.findPoint q w := by
  unfold State.findPoint
  refine findIdx?_congr (List.ext_getElem (by simp [hl]) fun i h1 h2 => ?_)
  have k := h i
  rw [List.length_map] at h1 h2
  have e : ∀ v : State, (hv : i < v.points.length) → v.point i = v.points[i] := fun v hv => List.getD_eq_getElem _ _ hv
  rw [e t h1, e s h2] at k
  rw [List.getElem_map, List.getElem_map, k.kind, k.role, k.line]

theorem State.writtenBy_congr (h : t.ring.slotMap = s.ring.slotMap) (i n : Nat) : t.writtenBy i n = s.writtenBy i n := by
  unfold State.writtenBy
  rw [h]

/-- Bindings stand with the slot map and the structure of the points. -/
structure SameBindings (s t : State) : Prop where
  slotMap : t.ring.slotMap = s.ring.slotMap
  find    : ∀ q w, t.findPoint q w = s.findPoint q w

theorem UpdateFrame.bindings (h : UpdateFrame s t) : SameBindings s t :=
  ⟨congrArg Ring.slotMap h.ring, State.findPoint_congr h.length fun i => (h.points i).sameSettings⟩

theorem HandedFrame.bindings (h : HandedFrame s t) : SameBindings s t :=
  ⟨congrArg Ring.slotMap h.ring, State.findPoint_congr h.length h.settings⟩

theorem SameBindings.refl (s : State) : SameBindings s s := ⟨rfl, fun _ _ => rfl⟩

theorem SameBindings.trans (h : SameBindings s t) (k : SameBindings t u) : SameBindings s u :=
  ⟨k.slotMap.trans h.slotMap, fun q w => (k.find q w).trans (h.find q w)⟩

theorem SameBindings.writtenBy (h : SameBindings s t) (i n : Nat) : t.writtenBy i n = s.writtenBy i n :=
  State.writtenBy_congr h.slotMap i n

theorem SameBindings.feederBound (h : SameBindings s t) (n : Nat) (l : LineId) : t.feederBound n l = s.feederBound n l := by
  unfold State.feederBound
  rw [h.find]
  split
  · rfl
  · exact h.writtenBy _ _

theorem SameBindings.flueBound (h : SameBindings s t) (n : Nat) (l : LineId) : t.flueBound n l = s.flueBound n l := by
  unfold State.flueBound
  congr 1
  funext p
  rw [h.find]
  split
  · rfl
  · exact h.writtenBy _ _

theorem SameBindings.bound (h : SameBindings s t) (n : Nat) (c : AttentionCode) : t.bound n c = s.bound n c := by
  unfold State.bound
  cases c <;> simp only [h.feederBound, h.flueBound]

theorem State.flueBound_of_point {p : FgcPoint} {i : Nat} (hf : s.findPoint p.role (some l) = some i)
    (hw : s.writtenBy i n = true) : s.flueBound n l = true := by
  have mem : p ∈ FgcPoint.all := by
    cases p with
    | comp c => cases c <;> decide
    | o2 => decide
    | h2o => decide
  unfold State.flueBound
  refine List.any_eq_true.2 ⟨p, mem, ?_⟩
  simp only [hf, hw]

/-! ### Calibration of a station (R100) -/

/-- R100: whether a station writes a point of a line's unit. -/
def State.calibrates (s : State) (l : LineId) (n : Nat) (p : FgcPoint) : Bool :=
  match s.findPoint p.role (some l) with
  | none => false
  | some i => s.writtenBy i n

/-- R100: one point of a unit at CAL-BEGIN or CAL-END. -/
def State.calibratePoint (l : LineId) (n : Nat) (on : Bool) (s : State) (p : FgcPoint) : State :=
  match s.findPoint p.role (some l) with
  | none => s
  | some i => if s.writtenBy i n then s.setCalibration l p i on else s

theorem State.calibrate_eq (s : State) (l : LineId) (n : Nat) (on : Bool) :
    s.calibrate l n on = FgcPoint.all.foldl (State.calibratePoint l n on) s := rfl

theorem State.calibratePoint_of_bound {p : FgcPoint} (h : s.calibrates l n p = true) :
    ∃ i, s.calibratePoint l n on p = s.setCalibration l p i on := by
  unfold State.calibrates at h
  unfold State.calibratePoint
  split at h
  · cases h
  · next i hi => exact ⟨i, if_pos h⟩

theorem State.calibratePoint_of_free {p : FgcPoint} (h : s.calibrates l n p ≠ true) : s.calibratePoint l n on p = s := by
  unfold State.calibrates at h
  unfold State.calibratePoint
  split
  · rfl
  · next i hi => rw [hi] at h; exact if_neg h

theorem State.calibratePoint_frame (s : State) (l : LineId) (n : Nat) (on : Bool) (p : FgcPoint) :
    UpdateFrame s (s.calibratePoint l n on p) ∧ FlagsOf l s (s.calibratePoint l n on p) := by
  by_cases h : s.calibrates l n p = true
  · obtain ⟨i, e⟩ := State.calibratePoint_of_bound (on := on) h
    rw [e]
    exact ⟨.setCalibration (.refl s), (s.setCalibration_flag l p i on p).2⟩
  · rw [State.calibratePoint_of_free h]
    exact ⟨.refl s, .refl l s⟩

theorem SameBindings.calibrates (h : SameBindings s t) (p : FgcPoint) : t.calibrates l n p = s.calibrates l n p := by
  unfold State.calibrates
  rw [h.find]
  split
  · rfl
  · exact h.writtenBy _ _

/-- The point of a unit whose flag CAL-BEGIN or CAL-END of a station moves. -/
def State.calibrated (s : State) (l : LineId) (n : Nat) (p : FgcPoint) : Option FgcPoint :=
  if s.calibrates l n p = true then some p else none

theorem State.calibrated_some {p q : FgcPoint} : s.calibrated l n p = some q ↔ s.calibrates l n p = true ∧ p = q := by
  unfold State.calibrated
  split
  · next h => simp [h]
  · next h => simp [h]

theorem State.calibrate_flagsOf (s : State) (l : LineId) (n : Nat) (on : Bool) : FlagsOf l s (s.calibrate l n on) := by
  have all : ∀ (ps : List FgcPoint) (u : State), FlagsOf l u (ps.foldl (State.calibratePoint l n on) u) := by
    intro ps
    induction ps with
    | nil => exact .refl l
    | cons p ps ih => exact fun u => (u.calibratePoint_frame l n on p).2.trans (ih _)
  exact all _ s

/-- R100: every point of the line that the station writes stands as asked. -/
theorem State.calibrate_flag {p : FgcPoint} {i : Nat} (hf : s.findPoint p.role (some l) = some i)
    (hw : s.writtenBy i n = true) (on : Bool) : ((s.calibrate l n on).fgc l).calFlag p = on := by
  have written : s.calibrates l n p = true := by
    unfold State.calibrates
    simp only [hf, hw]
  have mem : p ∈ FgcPoint.all := by
    cases p with
    | comp c => cases c <;> decide
    | o2 => decide
    | h2o => decide
  have nodup : (FgcPoint.all.filterMap (s.calibrated l n)).Nodup := by
    rw [List.Nodup, List.pairwise_filterMap]
    have nodup : FgcPoint.all.Nodup := by decide
    refine nodup.imp fun {x y} hxy a ha b hb => ?_
    rw [← (State.calibrated_some.1 ha).2, ← (State.calibrated_some.1 hb).2]
    exact hxy
  have others : ∀ (u : State) (q : FgcPoint) (_ : List FgcPoint) (x : FgcPoint), SameBindings s u →
      s.calibrated l n q ≠ some x → (u.fgc l).calFlag x = ((u.calibratePoint l n on q).fgc l).calFlag x := by
    intro u q _ x hu hx
    by_cases hq : u.calibrates l n q = true
    · obtain ⟨i, e⟩ := State.calibratePoint_of_bound (on := on) hq
      have ne : x ≠ q := fun h => hx (State.calibrated_some.2 ⟨(hu.calibrates q).symm.trans hq, h.symm⟩)
      rw [e, (u.setCalibration_flag l q i on x).1, if_neg ne]
    · rw [State.calibratePoint_of_free hq]
  have own : ∀ (u : State) (q : FgcPoint) (_ : List FgcPoint) (x : FgcPoint), SameBindings s u →
      s.calibrated l n q = some x → ((u.calibratePoint l n on q).fgc l).calFlag x = on := by
    intro u q _ x hu hx
    obtain ⟨bound, rfl⟩ := State.calibrated_some.1 hx
    obtain ⟨i, e⟩ := State.calibratePoint_of_bound (on := on) ((hu.calibrates q).trans bound)
    rw [e, (u.setCalibration_flag l q i on q).1, if_pos rfl]
  rw [State.calibrate_eq]
  exact (foldl_cells (cell := fun (u : State) q => (u.fgc l).calFlag q) (Q := Eq) (fun _ => rfl)
    (fun _ _ _ h k => h.trans k) (R := fun _ _ y => y = on) (I := fun _ u => SameBindings s u)
    (fun u q _ hu => hu.trans (u.calibratePoint_frame l n on q).1.bindings) others own
    (fun _ _ _ _ _ _ h k => k ▸ h) FgcPoint.all s (.refl s) nodup).2 p mem p (State.calibrated_some.2 ⟨written, rfl⟩)

/-! ### An accepted record (R39) -/

/-- R39: what an accepted record of a station makes of a line it is bound to. -/
structure LineAttended (n : Nat) (c : AttentionCode) (l : LineId) (s t : State) : Prop where
  jam   : ∀ on, c = .jam on → s.feederBound n l = true → (t.line l).jam = on
  fault : ∀ on, c = .fault on → s.flueBound n l = true → (t.fgc l).trainFault = on
  cal   : ∀ on p i, c = .cal on → s.findPoint (FgcPoint.role p) (some l) = some i → s.writtenBy i n = true →
    (t.fgc l).calFlag p = on

theorem State.attendLine_attended (s : State) (n : Nat) (c : AttentionCode) (l : LineId) :
    LineAttended n c l s (s.attendLine n c l) ∧ FlagsOf l s (s.attendLine n c l) := by
  unfold State.attendLine
  cases c with
  | jam on =>
    dsimp only
    split
    · next hb =>
      cases on with
      | true =>
        obtain ⟨jam, others⟩ := s.jamSet_flags l n
        exact ⟨⟨fun _ e _ => by cases e; exact jam, nofun, nofun⟩, others⟩
      | false =>
        obtain ⟨jam, others⟩ := s.jamClear_flags l n
        exact ⟨⟨fun _ e _ => by cases e; exact jam, nofun, nofun⟩, others⟩
    · next hb => exact ⟨⟨fun _ _ h => absurd h hb, nofun, nofun⟩, .refl l s⟩
  | fault on =>
    dsimp only
    split
    · next hb =>
      obtain ⟨fault, others⟩ := s.trainFault_flags l n on
      exact ⟨⟨nofun, fun _ e _ => by cases e; exact fault, nofun⟩, others⟩
    · next hb => exact ⟨⟨nofun, fun _ _ h => absurd h hb, nofun⟩, .refl l s⟩
  | cal on =>
    dsimp only
    split
    · exact ⟨⟨nofun, nofun, fun _ p i e hf hw => by cases e; exact State.calibrate_flag hf hw on⟩,
        s.calibrate_flagsOf l n on⟩
    · next hb => exact ⟨⟨nofun, nofun, fun _ p i _ hf hw => absurd (State.flueBound_of_point hf hw) hb⟩, .refl l s⟩
  | note => exact ⟨⟨nofun, nofun, nofun⟩, .refl l s⟩

/-- A line's attended flags stand while they are not moved. -/
theorem LineAttended.kept (h : LineAttended n c l s t) (hj : (u.line l).jam = (t.line l).jam)
    (hf : (u.fgc l).flags = (t.fgc l).flags) : LineAttended n c l s u :=
  ⟨fun on e hb => hj.trans (h.jam on e hb), fun on e hb => (congrArg Prod.fst hf :).trans (h.fault on e hb),
    fun on p i e hp hw => (Fgc.calFlag_of_flags hf p).trans (h.cal on p i e hp hw)⟩

theorem LineAttended.bound (h : LineAttended n c l t u) (b : SameBindings s t) : LineAttended n c l s u :=
  ⟨fun on e hb => h.jam on e ((b.feederBound n l).trans hb), fun on e hb => h.fault on e ((b.flueBound n l).trans hb),
    fun on p i e hp hw => h.cal on p i e ((b.find _ _).trans hp) ((b.writtenBy i n).trans hw)⟩

/-- R39: both lines, line 1 first. -/
theorem State.attend_attended (s : State) (n : Nat) (c : AttentionCode) (payload : List Byte) (l : LineId) :
    LineAttended n c l s (s.attend n c payload) := by
  obtain ⟨one, _⟩ := s.attendLine_attended n c .one
  obtain ⟨two, others⟩ := (s.attendLine n c .one).attendLine_attended n c .two
  have bindings := (UpdateFrame.attendLine (l := .one) (n := n) (c := c) (.refl s)).bindings
  have both : LineAttended n c l s ((s.attendLine n c .one).attendLine n c .two) := by
    cases l with
    | one => exact one.kept (others.jam .one nofun) (others.fgc .one nofun)
    | two => exact two.bound bindings
  cases c with
  | note => exact ⟨nofun, nofun, nofun⟩
  | jam on => exact both
  | fault on => exact both
  | cal on => exact both

/-! ### One record (R37) -/

/-- What a record leaves alone: the station table, the acknowledgements and the drop flags apart, what an update leaves
alone. -/
structure RecordFrame (s t : State) : Prop where
  update : UpdateFrame { s with seg := t.seg } t
  silenceCount : t.seg.silenceCount = s.seg.silenceCount

theorem UpdateFrame.setSeg (h : UpdateFrame s t) (g : Segment) : UpdateFrame { s with seg := g } { t with seg := g } :=
  { h with seg := rfl, points := h.points }

theorem RecordFrame.refl (s : State) : RecordFrame s s := ⟨.refl s, rfl⟩

theorem RecordFrame.setSeg (h : RecordFrame s t) (g : Segment) (hg : g.silenceCount = t.seg.silenceCount) :
    RecordFrame s { t with seg := g } := ⟨h.update.setSeg g, hg.trans h.silenceCount⟩

theorem RecordFrame.updated (h : RecordFrame s t) (k : UpdateFrame t u) : RecordFrame s u where
  update := (h.update.setSeg u.seg).trans (by have e := k.setSeg u.seg; exact e)
  silenceCount := by rw [k.seg]; exact h.silenceCount

theorem RecordFrame.trans (h : RecordFrame s t) (k : RecordFrame t u) : RecordFrame s u where
  update := (h.update.setSeg u.seg).trans k.update
  silenceCount := k.silenceCount.trans h.silenceCount

theorem RecordFrame.log {src : Source} {name : EventName} {x y z : Int} (h : RecordFrame s t) :
    RecordFrame s (t.log src name x y z) := h.updated (.log (.refl t))

theorem RecordFrame.setStation (h : RecordFrame s t) (n : Nat) (e : Station) : RecordFrame s (t.setStation n e) :=
  h.setSeg { t.seg with stations := t.seg.stations.set (n - 1) e } rfl

theorem RecordFrame.setDrop (h : RecordFrame s t) (k : Nat) (on : Bool) : RecordFrame s (t.setDrop k on) :=
  h.setSeg { t.seg with dropFlags := t.seg.dropFlags.set k on } rfl

theorem RecordFrame.accept (h : RecordFrame s t) (n : Nat) : RecordFrame s (t.accept n) :=
  .setDrop (h.setSeg { t.seg with ackSet := t.seg.ackSet ||| BitVec.twoPow 32 (n - 1) } rfl) n false

theorem RecordFrame.logDrop {k : Nat} {name : EventName} {x y z : Int} (h : RecordFrame s t) :
    RecordFrame s (t.logDrop k name x y z) := by
  unfold State.logDrop
  split
  · exact h
  · exact h.log.setDrop _ _

theorem RecordFrame.joinAt {k : Nat} {sr : Serial} (h : RecordFrame s t) : RecordFrame s (t.joinAt n sr k) :=
  (h.setStation _ _).setDrop _ _

theorem RecordFrame.takeJoin {sr : Serial} (h : RecordFrame s t) : RecordFrame s (t.takeJoin sr) := by
  unfold State.takeJoin
  split
  · exact h.logDrop
  · split
    · exact h.logDrop
    · split
      · exact h.joinAt
      · split
        · exact h.joinAt
        · exact h.logDrop

theorem RecordFrame.takeJoined {k : Nat} (h : RecordFrame s t) : RecordFrame s (t.takeJoined r n k) := by
  unfold State.takeJoined
  dsimp only
  split
  · exact h.logDrop
  · exact ((h.setStation _ _).accept _).log
  · exact (h.setStation _ _).accept _
  · exact ((h.setStation _ _).accept _).log

theorem RecordFrame.takeNumbered (h : RecordFrame s t) : RecordFrame s (t.takeNumbered r n) := by
  unfold State.takeNumbered
  dsimp only
  split
  · exact h.logDrop
  · split
    · exact h.logDrop
    · split
      · exact h.logDrop
      · split
        · exact h.logDrop
        · split
          · exact (h.accept n).updated (.attend (.refl _))
          · exact h.logDrop

theorem State.takeRecord_frame (s : State) (r : Attention) : RecordFrame s (s.takeRecord r) := by
  have h := RecordFrame.refl s
  unfold State.takeRecord
  dsimp only
  split
  · exact h
  · split
    · exact h.logDrop
    · split
      · split
        · exact h.logDrop
        · split
          · exact h.logDrop
          · exact h.takeJoin
      · split
        · exact h.logDrop
        · split
          · split
            · exact h.logDrop
            · exact h.takeJoined
          · exact h.takeNumbered

theorem State.takeAttention_frame (s : State) (area : List Byte) : RecordFrame s (s.takeAttention area) := by
  unfold State.takeAttention
  generalize attentionOf area = rs
  induction rs generalizing s with
  | nil => exact .refl s
  | cons r rs ih => exact (s.takeRecord_frame r).trans (ih _)

/-! ### The area of one record (R10) -/

theorem State.takeRecord_of_empty (h : r.station = 0xFF) : s.takeRecord r = s := by
  unfold State.takeRecord
  exact if_pos h

theorem foldl_takeRecord_of_empty {rs : List Attention} (h : ∀ e ∈ rs, e.station = 0xFF) : rs.foldl State.takeRecord s = s := by
  induction rs with
  | nil => rfl
  | cons r rs ih =>
    rw [List.foldl_cons, State.takeRecord_of_empty (h r (List.mem_cons_self ..))]
    exact ih fun e he => h e (List.mem_cons_of_mem _ he)

theorem State.takeAttention_of_empty (h : ∀ e ∈ attentionOf area, e.station = 0xFF) : s.takeAttention area = s :=
  foldl_takeRecord_of_empty h

theorem State.takeAttention_of_first {rest : List Attention} (h : attentionOf area = r :: rest)
    (hr : ∀ e ∈ rest, e.station = 0xFF) : s.takeAttention area = s.takeRecord r := by
  unfold State.takeAttention
  rw [h, List.foldl_cons]
  exact foldl_takeRecord_of_empty hr

/-- R31: a JOIN of a new serial while a number is free. -/
theorem State.takeRecord_of_join (hs : r.station = 0) (hc : r.code = 1) (hl : r.length = 5) (hb : s.ring.segment ≠ .broken)
    (hj : s.seg.joinEnable = true) (hn : s.numberOf (BitVec.ofNat 48 (natOf r.payload)) = none) (hf : s.lowestFree = some n) :
    s.takeRecord r = s.joinAt n (BitVec.ofNat 48 (natOf r.payload)) 0 := by
  unfold State.takeRecord State.takeJoin
  simp [hs, hc, hl, hb, hj, hn, hf]

theorem station_ne_unused {b : Byte} (h : b.toNat ≤ 30) : b ≠ 0xFF := by
  rintro rfl
  exact absurd h (by decide)

/-- R33: a JOINED of the right length. -/
theorem State.takeRecord_of_joined (hs : r.station.toNat = n) (h1 : 1 ≤ n) (h30 : n ≤ 30) (hc : r.code = 2)
    (hl : r.length = 2) : s.takeRecord r = s.takeJoined r n (fieldNat r.payload 0 2) := by
  subst hs
  unfold State.takeRecord
  dsimp only
  rw [if_neg (station_ne_unused h30), if_neg (by omega), if_neg (by omega), if_neg (by rw [hc]; decide), if_pos hc,
    if_neg (by rw [hl]; decide)]

theorem State.takeRecord_of_numbered (hs : r.station.toNat = n) (h1 : 1 ≤ n) (h30 : n ≤ 30) (hj : r.code ≠ 1)
    (hd : r.code ≠ 2) : s.takeRecord r = s.takeNumbered r n := by
  subst hs
  unfold State.takeRecord
  dsimp only
  rw [if_neg (station_ne_unused h30), if_neg (by omega), if_neg (by omega), if_neg hj, if_neg hd]

/-- R37: a record that passes every check is accepted and acts. -/
theorem State.takeNumbered_of_accepted (ha : (s.station n).state = .active) (he : (s.station n).attention = true)
    (hl : r.length.toNat ≤ (s.station n).maxLength) (hc : attentionCode r.code = some c) (hb : s.bound n c = true) :
    s.takeNumbered r n = (s.accept n).attend n c r.payload := by
  unfold State.takeNumbered
  dsimp only
  rw [if_neg (by rw [ha]; exact nofun), if_neg (by rw [he]; decide), if_neg (by omega), hc]
  exact if_pos hb

theorem State.takeNumbered_of_absent (ha : (s.station n).state = .absent) : s.takeNumbered r n = s.drop r .notActive := by
  unfold State.takeNumbered
  exact if_pos (by rw [ha]; exact nofun)

/-! ### What a record makes of the table -/

theorem getD_set_self {α : Type} {xs : List α} {k : Nat} (h : k < xs.length) (x d : α) : (xs.set k x).getD k d = x := by
  rw [List.getD_eq_getElem _ _ (by simpa using h), List.getElem_set_self]

/-- R31: the entry of the number found is JOINING, with an assignment due. -/
theorem State.joinAt_joined {sr : Serial} {k : Nat} (h1 : 1 ≤ n) (hn : n ≤ s.seg.stations.length)
    (hd : s.seg.dropFlags.length = 31) : (s.joinAt n sr k).station n = (s.station n).join sr k true ∧
      (s.joinAt n sr k).seg.ackSet = s.seg.ackSet ∧ (s.joinAt n sr k).seg.dropFlags.getD 0 false = false :=
  ⟨State.setStation_station h1 hn, rfl, getD_set_self (by show 0 < s.seg.dropFlags.length; omega) _ _⟩

/-- R33: the entry of a JOINED is ACTIVE with its kind code, and the record is acknowledged. -/
theorem State.takeJoined_joined {k : Nat} (h1 : 1 ≤ n) (hn : n ≤ s.seg.stations.length)
    (h : (s.station n).state ≠ .absent) : ((s.takeJoined r n k).station n).state = .active ∧
      ((s.takeJoined r n k).station n).kindCode = k ∧
      ((s.takeJoined r n k).station n).serial = (s.station n).serial ∧
      (s.takeJoined r n k).seg.ackSet = s.seg.ackSet ||| BitVec.twoPow 32 (n - 1) ∧
      ((s.station n).state = .joining →
        ((s.takeJoined r n k).station n).missed = 0 ∧ ((s.takeJoined r n k).station n).due = false) := by
  have stored : ∀ e : Station, ((s.setStation n e).accept n).station n = e := fun e => State.setStation_station h1 hn
  unfold State.takeJoined
  dsimp only
  cases hs : (s.station n).state with
  | absent => exact absurd hs h
  | joining =>
    dsimp only
    rw [State.log_station, stored, State.log_seg]
    exact ⟨rfl, rfl, rfl, rfl, fun _ => ⟨rfl, rfl⟩⟩
  | active =>
    dsimp only
    rw [stored]
    exact ⟨rfl, rfl, rfl, rfl, nofun⟩
  | silent =>
    dsimp only
    rw [State.log_station, stored, State.log_seg]
    exact ⟨rfl, rfl, rfl, rfl, nofun⟩

/-- R38: the drop flag of a number stands after a drop, and the table stays. -/
theorem State.drop_dropped {why : DropReason} (hs : r.station.toNat = n) (h30 : n ≤ 30) (hd : s.seg.dropFlags.length = 31) :
    (s.drop r why).seg.stations = s.seg.stations ∧ (s.drop r why).seg.ackSet = s.seg.ackSet ∧
      (s.drop r why).seg.dropFlags.getD n false = true := by
  have index : dropIndex r.station.toNat = n := by
    unfold dropIndex
    rw [hs, if_pos h30]
  unfold State.drop State.logDrop
  rw [index]
  by_cases h : s.seg.dropFlags.getD n false = true
  · rw [if_pos h]
    exact ⟨rfl, rfl, h⟩
  · rw [if_neg h]
    unfold State.setDrop
    rw [State.log_seg]
    exact ⟨rfl, rfl, getD_set_self (by omega) _ _⟩

end

end Sys2Proof.Machine
end

