-- ==== Sys2Proof/Proofs/AttentionArea.lean ====
section
/-! PROOFS. Presence, the records and the join wait of a taken frame together (R31 to R33, R36 to R39). -/

namespace Sys2Proof.Machine

section
variable {s t u w : State} {n : Nat} {c : CycleFrame}

/-- A taken frame's presence has been noted, and nothing else of the segment manager and the bindings has moved. -/
structure Watched (c : CycleFrame) (s w : State) : Prop where
  length   : s.seg.stations.length = 30
  same     : w.seg.stations.length = s.seg.stations.length
  drops    : s.seg.dropFlags.length = 31
  seg      : { w.seg with stations := s.seg.stations } = s.seg
  station  : ∀ n, 1 ≤ n → n ≤ 30 → w.station n = (s.station n).seen s.seg.silenceCount
    (decide (n ∈ s.expectedIn c.slots)) (decide (n ∈ s.presentIn c.slots))
  bindings : SameBindings s w
  segment  : w.ring.segment = s.ring.segment

/-- The records and the join wait are over: the segment manager stands so, and no flag of a line has moved since. -/
structure Attended (c : CycleFrame) (w t : State) : Prop where
  seg   : t.seg = (w.takeAttention c.attn).countJoins.seg
  flags : FlagsKept (w.takeAttention c.attn) t

theorem Watched.kept (h : Watched c s w) (h1 : 1 ≤ n) (h30 : n ≤ 30) :
    { w.station n with state := (s.station n).state, missed := (s.station n).missed } = s.station n ∧
      ((w.station n).state = .absent ↔ (s.station n).state = .absent) ∧
      ((w.station n).state = .joining ↔ (s.station n).state = .joining) := by
  rw [h.station n h1 h30]
  exact Station.seen_kept ..

/-- R32: the entry of a number once the join waits have been counted. -/
theorem Attended.station (h : Attended c w t) (k : (w.takeAttention c.attn).seg.stations.length = 30) (h1 : 1 ≤ n)
    (h30 : n ≤ 30) : t.station n = ((w.takeAttention c.attn).station n).waited (w.takeAttention c.attn).seg.silenceCount := by
  rw [State.station_congr (congrArg Segment.stations h.seg)]
  exact State.countJoins_station k h1 h30

theorem Attended.ackSet (h : Attended c w t) : t.seg.ackSet = (w.takeAttention c.attn).seg.ackSet := by
  rw [h.seg]
  exact (State.countJoins_frame _).ackSet

theorem Attended.dropFlags (h : Attended c w t) : t.seg.dropFlags = (w.takeAttention c.attn).seg.dropFlags := by
  rw [h.seg]
  exact (State.countJoins_frame _).dropFlags

theorem Watched.ackSet (h : Watched c s w) : w.seg.ackSet = s.seg.ackSet := (congrArg Segment.ackSet h.seg :)

theorem Watched.dropFlags (h : Watched c s w) : w.seg.dropFlags = s.seg.dropFlags := (congrArg Segment.dropFlags h.seg :)

theorem Watched.entries (h : Watched c s w) : w.seg.stations.length = 30 := h.same.trans h.length

theorem Watched.flagCount (h : Watched c s w) : w.seg.dropFlags.length = 31 := by
  rw [h.dropFlags]
  exact h.drops

section
variable {r : Attention} {rest : List Attention}

/-- R31: what a JOIN looks for is as it was before the frame. -/
theorem Watched.lookups (h : Watched c s w) (sr : Serial) : w.numberOf sr = s.numberOf sr ∧ w.lowestFree = s.lowestFree := by
  refine ⟨State.numberOf_congr h.same (fun m h1 h2 => ?_) sr, State.lowestFree_congr h.same fun m h1 h2 => ?_⟩
  · exact (congrArg Station.serial (h.kept h1 (h2.trans_eq h.length)).1 :)
  · rw [h.station m h1 (h2.trans_eq h.length)]
    exact Station.seen_isFree _

theorem State.lowestFree_absent (h : s.lowestFree = some n) : n ≤ s.seg.stations.length ∧ (s.station n).state = .absent := by
  obtain ⟨k, hk, rfl⟩ := Option.map_eq_some_iff.1 h
  obtain ⟨hlt, free, _⟩ := List.findIdx?_eq_some_iff_getElem.1 hk
  have entry : s.station (k + 1) = s.seg.stations[k] := by
    unfold State.station
    rw [if_neg (Nat.succ_ne_zero k), Nat.add_sub_cancel]
    exact List.getD_eq_getElem _ _ hlt
  rw [entry]
  unfold Station.isFree at free
  exact ⟨hlt, of_decide_eq_true (Bool.and_eq_true_iff.1 free).1⟩

theorem Attended.join (h : Attended c w t) (k : (w.takeAttention c.attn).seg.stations.length = 30) (hw : Watched c s w)
    (hr : attentionOf c.attn = r :: rest) (he : ∀ e ∈ rest, e.station = 0xFF) (hs : r.station = 0) (hc : r.code = 1)
    (hl : r.length = 5) (hb : s.ring.segment ≠ .broken) (hj : s.seg.joinEnable = true)
    (hn : s.numberOf (BitVec.ofNat 48 (natOf r.payload)) = none) (hf : s.lowestFree = some n) :
    t.station n = { s.station n with
      serial := some (BitVec.ofNat 48 (natOf r.payload)), kindCode := 0, state := .joining, missed := 0, due := true } ∧
      t.seg.ackSet = s.seg.ackSet ∧ t.seg.dropFlags.getD 0 false = false := by
  obtain ⟨unknown, free⟩ := hw.lookups (BitVec.ofNat 48 (natOf r.payload))
  obtain ⟨hlt, absent⟩ := State.lowestFree_absent hf
  have h1 := State.lowestFree_pos hf
  have h30 : n ≤ 30 := hlt.trans_eq hw.length
  have attended : w.takeAttention c.attn = w.joinAt n (BitVec.ofNat 48 (natOf r.payload)) 0 :=
    (State.takeAttention_of_first hr he).trans (State.takeRecord_of_join hs hc hl (by rw [hw.segment]; exact hb)
      ((congrArg Segment.joinEnable hw.seg :).trans hj) (unknown.trans hn) (free.trans hf))
  obtain ⟨entry, ackSet, drop⟩ := State.joinAt_joined (s := w) (sr := BitVec.ofNat 48 (natOf r.payload)) (k := 0) h1
    (h30.trans_eq hw.entries.symm) hw.flagCount
  have final := h.station k h1 h30
  rw [attended, entry, Station.waited_of_due rfl, hw.station n h1 h30, Station.seen_of_absent absent] at final
  refine ⟨final, ?_, ?_⟩
  · rw [h.ackSet, attended, ackSet, hw.ackSet]
  · rw [h.dropFlags, attended]
    exact drop

theorem Attended.joined (h : Attended c w t) (k : (w.takeAttention c.attn).seg.stations.length = 30) (hw : Watched c s w)
    (hr : attentionOf c.attn = r :: rest) (he : ∀ e ∈ rest, e.station = 0xFF) (hs : r.station.toNat = n) (h1 : 1 ≤ n)
    (h30 : n ≤ 30) (hc : r.code = 2) (hl : r.length = 2) (ha : (s.station n).state ≠ .absent) :
    (t.station n).state = .active ∧ (t.station n).kindCode = fieldNat r.payload 0 2 ∧
      (t.station n).serial = (s.station n).serial ∧ t.seg.ackSet = s.seg.ackSet ||| BitVec.twoPow 32 (n - 1) ∧
      ((s.station n).state = .joining → (t.station n).missed = 0 ∧ (t.station n).due = false) := by
  obtain ⟨kept, absent, joining⟩ := hw.kept h1 h30
  have attended : w.takeAttention c.attn = w.takeJoined r n (fieldNat r.payload 0 2) :=
    (State.takeAttention_of_first hr he).trans (State.takeRecord_of_joined hs h1 h30 hc hl)
  obtain ⟨state, kind, serial, ackSet, fresh⟩ := State.takeJoined_joined (s := w) (r := r) (k := fieldNat r.payload 0 2) h1
    (h30.trans_eq hw.entries.symm) (mt absent.1 ha)
  have final := h.station k h1 h30
  rw [attended, Station.waited_of_ne (by rw [state]; exact nofun)] at final
  have acks := h.ackSet
  rw [attended, ackSet, hw.ackSet] at acks
  rw [final]
  exact ⟨state, kind, serial.trans (congrArg Station.serial kept :), acks, fun hj => fresh (joining.2 hj)⟩

theorem Attended.accepted {a : AttentionCode} (h : Attended c w t) (hw : Watched c s w)
    (hr : attentionOf c.attn = r :: rest) (he : ∀ e ∈ rest, e.station = 0xFF) (hs : r.station.toNat = n) (h1 : 1 ≤ n)
    (h30 : n ≤ 30) (hp : n ∈ s.presentIn c.slots) (ha : (s.station n).state = .active)
    (hat : (s.station n).attention = true) (hl : r.length.toNat ≤ (s.station n).maxLength) (hj : r.code ≠ 1)
    (hd : r.code ≠ 2) (hc : attentionCode r.code = some a) (hb : s.bound n a = true) :
    t.seg.ackSet = s.seg.ackSet ||| BitVec.twoPow 32 (n - 1) ∧ t.seg.dropFlags.getD n false = false ∧
      LineAttended n a .one s t ∧ LineAttended n a .two s t := by
  obtain ⟨kept, _, _⟩ := hw.kept h1 h30
  have active : (w.station n).state = .active := by
    rw [hw.station n h1 h30, decide_eq_true hp]
    exact Station.seen_of_present ha
  have attended : w.takeAttention c.attn = (w.accept n).attend n a r.payload :=
    (State.takeAttention_of_first hr he).trans ((State.takeRecord_of_numbered hs h1 h30 hj hd).trans
      (State.takeNumbered_of_accepted active ((congrArg Station.attention kept :).trans hat)
        (hl.trans_eq (congrArg Station.maxLength kept :).symm) hc ((hw.bindings.bound n a).trans hb)))
  have seg : ((w.accept n).attend n a r.payload).seg = (w.accept n).seg :=
    (UpdateFrame.attend (c := a) (n := n) (p := r.payload) (.refl (w.accept n))).seg
  have acks := h.ackSet
  have drops := h.dropFlags
  have flags := h.flags
  rw [attended, seg] at acks drops
  rw [attended] at flags
  have line : ∀ l, LineAttended n a l s t := fun l =>
    (((w.accept n).attend_attended n a r.payload l).kept (flags.jam l) (flags.fgc l)).bound
      (hw.bindings.trans ⟨rfl, fun _ _ => rfl⟩)
  refine ⟨acks.trans (congrArg (· ||| BitVec.twoPow 32 (n - 1)) hw.ackSet), ?_, line .one, line .two⟩
  rw [drops]
  exact getD_set_self ((Nat.lt_succ_of_le h30).trans_eq hw.flagCount.symm) _ _

theorem Attended.dropped (h : Attended c w t) (k : (w.takeAttention c.attn).seg.stations.length = 30) (hw : Watched c s w)
    (hr : attentionOf c.attn = r :: rest) (he : ∀ e ∈ rest, e.station = 0xFF) (hs : r.station.toNat = n) (h1 : 1 ≤ n)
    (h30 : n ≤ 30) (hj : r.code ≠ 1) (hd : r.code ≠ 2) (ha : (s.station n).state = .absent) :
    t.station n = s.station n ∧ t.seg.ackSet = s.seg.ackSet ∧ t.seg.dropFlags.getD n false = true := by
  have entry : w.station n = s.station n := by
    rw [hw.station n h1 h30]
    exact Station.seen_of_absent ha
  have attended : w.takeAttention c.attn = w.drop r .notActive :=
    (State.takeAttention_of_first hr he).trans ((State.takeRecord_of_numbered hs h1 h30 hj hd).trans
      (State.takeNumbered_of_absent (by rw [entry]; exact ha)))
  obtain ⟨stations, ackSet, flag⟩ := State.drop_dropped (s := w) (why := .notActive) hs h30 hw.flagCount
  have final := h.station k h1 h30
  rw [attended, State.station_congr stations, entry, Station.waited_of_ne (by rw [ha]; exact nofun)] at final
  refine ⟨final, ?_, ?_⟩
  · rw [h.ackSet, attended, ackSet, hw.ackSet]
  · rw [h.dropFlags, attended]
    exact flag

theorem Attended.watched (h : Attended c w t) (hw : Watched c s w) (he : ∀ e ∈ attentionOf c.attn, e.station = 0xFF) :
    t.seg.ackSet = s.seg.ackSet ∧ t.seg.dropFlags = s.seg.dropFlags ∧ ∀ n, 1 ≤ n → n ≤ 30 →
      t.station n = (s.station n).watched s.seg.silenceCount (decide (n ∈ s.expectedIn c.slots))
        (decide (n ∈ s.presentIn c.slots)) := by
  have attended : w.takeAttention c.attn = w := State.takeAttention_of_empty he
  have silence : w.seg.silenceCount = s.seg.silenceCount := (congrArg Segment.silenceCount hw.seg :)
  refine ⟨?_, ?_, fun n h1 h30 => ?_⟩
  · rw [h.ackSet, attended, hw.ackSet]
  · rw [h.dropFlags, attended, hw.dropFlags]
  · rw [h.station (by rw [attended]; exact hw.entries) h1 h30, attended, hw.station n h1 h30, silence]
    exact (Station.watched_eq ..).symm

end

/-- R31 to R33, R36 to R39: the attention area of a taken frame. -/
theorem Attended.taken (h : Attended c w t) (k : (w.takeAttention c.attn).seg.stations.length = 30) (hw : Watched c s w) :
    AttentionTaken c s t where
  join := fun _ _ _ hr he hs hc hl hb hj hn hf => h.join k hw hr he hs hc hl hb hj hn hf
  joined := fun _ _ _ hr he hs h1 h30 hc hl ha => h.joined k hw hr he hs h1 h30 hc hl ha
  accepted := fun _ _ _ _ hr he hs h1 h30 hp ha hat hl hj hd hc hb => by
    obtain ⟨acks, drops, one, two⟩ := h.accepted hw hr he hs h1 h30 hp ha hat hl hj hd hc hb
    have line : ∀ l, LineAttended _ _ l s t := fun l => by
      cases l
      · exact one
      · exact two
    exact ⟨acks, drops, fun on l e hf => (line l).jam on e hf, fun on l e hf => (line l).fault on e hf,
      fun on l p i e hp hw => (line l).cal on p i e hp hw⟩
  dropped := fun _ _ _ hr he hs h1 h30 hj hd ha => h.dropped k hw hr he hs h1 h30 hj hd ha
  watched := fun he => h.watched hw he

end

end Sys2Proof.Machine
end

