-- ==== Sys2Proof/Proofs/TakenSlots.lean ====
section
/-! PROOFS. The slots of a taken frame: its INPUT slots sampled or flagged as collisions (R11), and its OUTPUT slots compared
with their echo records (R13). -/

namespace Sys2Proof.Machine

section
variable {s t u v : State} {slots : List Slot} {c : CycleFrame} {k : Nat} {e : SlotEntry} {x : Slot}

/-! ### What the blocks leave alone while a frame is taken -/

/-- Between the closing of the cycle and the frame's way north: of the ring the collision flags, the echo counts and the
counters move; no point changes its structure; and what updates leave alone stays. -/
structure PassFrame (s t : State) : Prop where
  clock    : t.clock = s.clock
  disp     : t.disp = s.disp
  pending  : t.pending = s.pending
  mail     : MailAs s t
  ring     : { t.ring with
    collisions := s.ring.collisions, echoCounts := s.ring.echoCounts, counters := s.ring.counters } = s.ring
  length   : t.points.length = s.points.length
  settings : ∀ j, (t.point j).SameSettings (s.point j)

theorem PassFrame.refl (s : State) : PassFrame s s := ⟨rfl, rfl, rfl, .refl s, rfl, rfl, fun _ => .refl _⟩

theorem PassFrame.trans (h : PassFrame s t) (k : PassFrame t u) : PassFrame s u where
  clock := k.clock.trans h.clock
  disp := k.disp.trans h.disp
  pending := k.pending.trans h.pending
  mail := h.mail.trans k.mail
  ring := (congrArg (fun r : Ring => { r with
    collisions := s.ring.collisions, echoCounts := s.ring.echoCounts, counters := s.ring.counters }) k.ring).trans h.ring
  length := k.length.trans h.length
  settings := fun j => (k.settings j).trans (h.settings j)

theorem HandedFrame.pass (h : HandedFrame s t) : PassFrame s t :=
  ⟨h.clock, h.disp, h.pending, h.mail, by rw [h.ring], h.length, h.settings⟩

theorem StationsFrame.pass (h : StationsFrame s t) : PassFrame s t where
  clock := (congrArg State.clock h.rest :)
  disp := (congrArg State.disp h.rest :)
  pending := (congrArg State.pending h.rest :)
  mail := h.mail
  ring := by rw [h.ring]
  length := by rw [h.points]
  settings := fun j => by rw [State.point, h.points]; exact .refl _

theorem RecordFrame.pass (h : RecordFrame s t) : PassFrame s t where
  clock := h.update.clock
  disp := h.update.disp
  pending := h.update.pending
  mail := ⟨h.update.mail, h.update.owed⟩
  ring := by rw [h.update.ring]
  length := h.update.length
  settings := fun j => (h.update.points j).sameSettings

/-- The collision flags, the echo counts and the counters may move. -/
theorem PassFrame.setRing {r : Ring} (h : PassFrame s t) (hr : { r with
    collisions := s.ring.collisions, echoCounts := s.ring.echoCounts, counters := s.ring.counters } = s.ring) :
    PassFrame s { t with ring := r } := { h with ring := hr, settings := h.settings, mail := ⟨h.mail.unit, h.mail.owed⟩ }

theorem PassFrame.foldl {α : Type} (f : State → α → State) (hf : ∀ s x, PassFrame s (f s x)) :
    ∀ (xs : List α) (s : State), PassFrame s (xs.foldl f s)
  | [], s => .refl s
  | x :: xs, s => (hf s x).trans (PassFrame.foldl f hf xs (f s x))

theorem PassFrame.slotMap (h : PassFrame s t) : t.ring.slotMap = s.ring.slotMap := (congrArg Ring.slotMap h.ring :)

theorem PassFrame.kind (h : PassFrame s t) (j : Nat) : (t.point j).kind = (s.point j).kind := (h.settings j).kind

theorem PassFrame.bindings (h : PassFrame s t) : SameBindings s t :=
  ⟨h.slotMap, State.findPoint_congr h.length h.settings⟩

theorem PassFrame.entry (h : PassFrame s t) (k : Nat) : t.entry k = s.entry k := State.entry_congr h.slotMap h.kind k

theorem PassFrame.runTime (h : PassFrame s t) : t.runTime = s.runTime := by rw [State.runTime, h.clock, State.runTime]

/-- A count wrapped once for each member of a list that a test picks out. -/
theorem repeat_filter_append {α : Type} (f : Nat → Nat) (p : α → Bool) (xs : List α) (x : α) (a : Nat) :
    Nat.repeat f ((xs ++ [x]).filter p).length a =
      if p x then f (Nat.repeat f (xs.filter p).length a) else Nat.repeat f (xs.filter p).length a := by
  rw [List.filter_append, List.length_append]
  cases h : p x <;> simp [h, Nat.repeat]

/-! ### INPUT slots (R11) -/

/-- R11: the slot bears the tag of a station that is not expected in it. -/
def SlotEntry.collided (e : SlotEntry) (x : Slot) : Bool := decide (x.tag.toNat ≠ e.writer ∧ x.tag ≠ 0)

/-- R11: the ring after an INPUT slot. -/
def Ring.inputTaken (r : Ring) (k : Nat) (b : Bool) : Ring :=
  { r with
    collisions := r.collisions.set k b
    counters := { r.counters with collisions := if b then wrap32 r.counters.collisions else r.counters.collisions } }

theorem State.takeInput_of_tag (h : x.tag.toNat = e.writer) : s.takeInput k e x =
    ({ s with ring := s.ring.inputTaken k false } : State).sample e.point x.value x.quality := if_pos h

theorem State.takeInput_of_silent (h : x.tag.toNat ≠ e.writer) (h0 : x.tag = 0) : s.takeInput k e x =
    { s with ring := s.ring.inputTaken k false } := by
  unfold State.takeInput
  rw [if_neg h, if_pos h0]
  rfl

/-- R11: a collision is counted, and the first of a run logged. -/
theorem State.takeInput_of_collision (h : x.tag.toNat ≠ e.writer) (h0 : x.tag ≠ 0) : ∃ m : Mgmt,
    s.takeInput k e x = { s with ring := s.ring.inputTaken k true, mgmt := m } ∧
      MailAs s { s with ring := s.ring.inputTaken k true, mgmt := m } := by
  unfold State.takeInput
  rw [if_neg h, if_neg h0]
  dsimp only
  split
  · exact ⟨s.mgmt, rfl, ⟨rfl, fun _ h => h⟩⟩
  · unfold State.log
    split
    · exact ⟨_, rfl, ⟨rfl, fun _ h => h⟩⟩
    · exact ⟨_, rfl, ⟨rfl, fun _ h => h⟩⟩

/-- R11: what one INPUT slot of a taken frame makes of the part. -/
structure InputTaken (k : Nat) (e : SlotEntry) (x : Slot) (s t : State) : Prop where
  pass   : PassFrame s t
  ring   : t.ring = s.ring.inputTaken k (e.collided x)
  seg    : t.seg = s.seg
  own    : x.tag.toNat = e.writer → (s.point e.point).Sampled x.value x.quality s.runTime (t.point e.point)
  others : ∀ j, (x.tag.toNat = e.writer → e.point ≠ j) → (s.point j).SetByOwner (t.point j)

theorem State.takeInput_taken (s : State) (k : Nat) (e : SlotEntry) (x : Slot) : InputTaken k e x s (s.takeInput k e x) := by
  have closed : PassFrame s { s with ring := s.ring.inputTaken k (e.collided x) } := (PassFrame.refl s).setRing rfl
  by_cases h : x.tag.toNat = e.writer
  · have flag : e.collided x = false := decide_eq_false fun hc => hc.1 h
    rw [flag] at closed
    rw [State.takeInput_of_tag h]
    have sampled := State.sample_handed { s with ring := s.ring.inputTaken k false } e.point x.value x.quality
    have own := State.sample_point { s with ring := s.ring.inputTaken k false } e.point x.value x.quality
    exact ⟨closed.trans sampled.pass, by rw [flag]; exact sampled.ring, sampled.seg, fun _ => own,
      fun j hj => State.sample_other (s := { s with ring := s.ring.inputTaken k false }) (hj h)⟩
  · by_cases h0 : x.tag = 0
    · have flag : e.collided x = false := decide_eq_false fun hc => hc.2 h0
      rw [flag] at closed
      rw [State.takeInput_of_silent h h0]
      exact ⟨closed, by rw [flag], rfl, fun e => absurd e h, fun _ _ => .refl _⟩
    · have flag : e.collided x = true := decide_eq_true ⟨h, h0⟩
      obtain ⟨m, eq, mail⟩ := State.takeInput_of_collision (s := s) (k := k) h h0
      rw [flag] at closed
      rw [eq]
      exact ⟨{ closed with mail := mail, settings := closed.settings }, by rw [flag], rfl, fun e => absurd e h,
        fun _ _ => .refl _⟩

/-- R11: one slot of a taken frame, where it is an INPUT slot. -/
def State.takeSlot (s : State) (p : Slot × Nat) : State :=
  if (s.entry p.2).direction = .input then s.takeInput p.2 (s.entry p.2) p.1 else s

theorem State.takeInputs_eq (s : State) (slots : List Slot) : s.takeInputs slots = slots.zipIdx.foldl State.takeSlot s := rfl

theorem State.takeSlot_of_input {p : Slot × Nat} (h : (s.entry p.2).direction = .input) :
    s.takeSlot p = s.takeInput p.2 (s.entry p.2) p.1 := if_pos h

theorem State.takeSlot_of_other {p : Slot × Nat} (h : (s.entry p.2).direction ≠ .input) : s.takeSlot p = s := if_neg h

theorem State.takeSlot_pass (s : State) (p : Slot × Nat) : PassFrame s (s.takeSlot p) ∧ (s.takeSlot p).seg = s.seg ∧
    (s.takeSlot p).ring.collisions.length = s.ring.collisions.length := by
  by_cases h : (s.entry p.2).direction = .input
  · rw [State.takeSlot_of_input h]
    have taken := s.takeInput_taken p.2 (s.entry p.2) p.1
    exact ⟨taken.pass, taken.seg, by rw [taken.ring]; exact List.length_set ..⟩
  · rw [State.takeSlot_of_other h]
    exact ⟨.refl s, rfl, rfl⟩

theorem State.takeInputs_pass (s : State) (slots : List Slot) : PassFrame s (s.takeInputs slots) :=
  .foldl _ (fun s p => (s.takeSlot_pass p).1) _ _

theorem State.takeInputs_seg (s : State) (slots : List Slot) : (s.takeInputs slots).seg = s.seg := by
  rw [State.takeInputs_eq]
  generalize slots.zipIdx = ps
  induction ps generalizing s with
  | nil => rfl
  | cons p ps ih => exact (ih _).trans (s.takeSlot_pass p).2.1

theorem State.collides_eq (s : State) (k : Nat) (x : Slot) :
    s.collides k x = (decide ((s.entry k).direction = .input) && (s.entry k).collided x) := by
  unfold State.collides SlotEntry.collided
  rw [Bool.decide_and]

/-- R11: every collision of the frame is counted. -/
theorem State.takeInputs_ring (s : State) (slots : List Slot) : (s.takeInputs slots).ring = { s.ring with
    collisions := (s.takeInputs slots).ring.collisions
    counters := { s.ring.counters with
      collisions := Nat.repeat wrap32 (slots.zipIdx.filter fun p => s.collides p.2 p.1).length
        s.ring.counters.collisions } } := by
  rw [State.takeInputs_eq]
  generalize slots.zipIdx = ps
  induction ps using List.reverseRecOn with
  | nil => rfl
  | append_singleton ps p ih =>
    have before : PassFrame s (ps.foldl State.takeSlot s) := .foldl _ (fun s p => (s.takeSlot_pass p).1) _ _
    rw [List.foldl_append, List.foldl_cons, List.foldl_nil, repeat_filter_append, State.collides_eq, ← before.entry]
    generalize ps.foldl State.takeSlot s = u at ih ⊢
    by_cases h : (u.entry p.2).direction = .input
    · rw [State.takeSlot_of_input h, (u.takeInput_taken p.2 (u.entry p.2) p.1).ring, ih]
      simp only [decide_eq_true h, Bool.true_and]
      rfl
    · rw [State.takeSlot_of_other h, decide_eq_false h]
      exact ih

/-- Every number of a list of slots comes once. -/
theorem index_hits_nodup {hit : Slot × Nat → Option Nat} (h : ∀ p k, hit p = some k → p.2 = k) (slots : List Slot) :
    (slots.zipIdx.filterMap hit).Nodup := by
  have indices : slots.zipIdx.Pairwise fun a b => a.2 ≠ b.2 := by
    have k : (slots.zipIdx.map Prod.snd).Nodup := by
      rw [List.zipIdx_map_snd]
      exact List.nodup_range'
    exact List.pairwise_map.1 k
  rw [List.Nodup, List.pairwise_filterMap]
  refine indices.imp fun {a b} hab i hi j hj => ?_
  rw [← h a i hi, ← h b j hj]
  exact hab

/-- The slot whose collision flag an INPUT slot of a frame moves. -/
def State.flagHit (s : State) (p : Slot × Nat) : Option Nat :=
  if (s.entry p.2).direction = .input then some p.2 else none

theorem State.flagHit_some {p : Slot × Nat} : s.flagHit p = some k ↔ (s.entry p.2).direction = .input ∧ p.2 = k := by
  unfold State.flagHit
  split
  · next h => simp [h]
  · next h => simp [h]

theorem getD_set_of_ne {α : Type} {xs : List α} {i j : Nat} (h : i ≠ j) (a d : α) : (xs.set i a).getD j d = xs.getD j d := by
  rw [List.getD_eq_getElem?_getD, List.getElem?_set_ne h, ← List.getD_eq_getElem?_getD]

/-- R11: the collision flags after a frame. -/
theorem State.takeInputs_flags (s : State) (slots : List Slot) :
    (∀ k, (∀ p ∈ slots.zipIdx, s.flagHit p ≠ some k) →
      s.ring.collisions.getD k false = (s.takeInputs slots).ring.collisions.getD k false) ∧
      ∀ p ∈ slots.zipIdx, ∀ k, s.flagHit p = some k → k < s.ring.collisions.length →
        (s.takeInputs slots).ring.collisions.getD k false = s.collides k p.1 := by
  have others : ∀ (u : State) (p : Slot × Nat) (_ : List (Slot × Nat)) (j : Nat),
      PassFrame s u ∧ u.ring.collisions.length = s.ring.collisions.length → s.flagHit p ≠ some j →
        u.ring.collisions.getD j false = (u.takeSlot p).ring.collisions.getD j false := by
    rintro u p _ j ⟨hu, _⟩ hj
    by_cases h : (u.entry p.2).direction = .input
    · have ne : p.2 ≠ j := fun e => hj (State.flagHit_some.2 ⟨by rw [← hu.entry]; exact h, e⟩)
      rw [State.takeSlot_of_input h, (u.takeInput_taken p.2 (u.entry p.2) p.1).ring]
      exact (getD_set_of_ne ne _ _).symm
    · rw [State.takeSlot_of_other h]
  have own : ∀ (u : State) (p : Slot × Nat) (_ : List (Slot × Nat)) (j : Nat),
      PassFrame s u ∧ u.ring.collisions.length = s.ring.collisions.length → s.flagHit p = some j →
        j < s.ring.collisions.length → (u.takeSlot p).ring.collisions.getD j false = s.collides j p.1 := by
    rintro u p _ j ⟨hu, hl⟩ hj hlt
    obtain ⟨direction, rfl⟩ := State.flagHit_some.1 hj
    have h : (u.entry p.2).direction = .input := by rw [hu.entry]; exact direction
    rw [State.takeSlot_of_input h, (u.takeInput_taken p.2 (u.entry p.2) p.1).ring, State.collides_eq,
      decide_eq_true direction, hu.entry]
    exact getD_set_self (hlt.trans_eq hl.symm) _ _
  exact foldl_cells (cell := fun (u : State) k => u.ring.collisions.getD k false) (Q := Eq) (fun _ => rfl)
    (fun _ _ _ h k => h.trans k) (R := fun p _ b => ∀ k, s.flagHit p = some k → k < s.ring.collisions.length → b = s.collides k p.1)
    (I := fun _ u => PassFrame s u ∧ u.ring.collisions.length = s.ring.collisions.length)
    (fun u p _ hu => ⟨hu.1.trans (u.takeSlot_pass p).1, (u.takeSlot_pass p).2.2.trans hu.2⟩) others
    (fun u p ps j hu hj k hk => by
      cases hk.symm.trans hj
      exact own u p ps j hu hj)
    (fun _ _ _ _ _ _ h k => k ▸ h) slots.zipIdx s ⟨.refl s, rfl⟩
    (index_hits_nodup (fun p k h => (State.flagHit_some.1 h).2) slots)
      |>.imp id fun acted p hp k hk => acted p hp k hk k hk

/-- The record that an INPUT slot of a frame is sampled into. -/
def State.inputHit (s : State) (p : Slot × Nat) : Option Nat :=
  if (s.entry p.2).direction = .input ∧ p.1.tag.toNat = (s.entry p.2).writer then some (s.entry p.2).point else none

theorem State.inputHit_some {p : Slot × Nat} {i : Nat} : s.inputHit p = some i ↔
    (s.entry p.2).direction = .input ∧ p.1.tag.toNat = (s.entry p.2).writer ∧ (s.entry p.2).point = i := by
  unfold State.inputHit
  split
  · next h => simp [h]
  · next h => simpa using fun a b => absurd ⟨a, b⟩ h

/-- R11: the records of a frame's INPUT slots. -/
theorem State.takeInputs_points (h : pointsOnce s.ring.slotMap = true) (slots : List Slot) :
    (∀ j, (∀ p ∈ slots.zipIdx, s.inputHit p ≠ some j) → (s.point j).SetByOwner ((s.takeInputs slots).point j)) ∧
      ∀ p ∈ slots.zipIdx, ∀ i, s.inputHit p = some i →
        (s.point i).Sampled p.1.value p.1.quality s.runTime ((s.takeInputs slots).point i) := by
  have others : ∀ (u : State) (p : Slot × Nat) (_ : List (Slot × Nat)) (j : Nat), PassFrame s u →
      s.inputHit p ≠ some j → (u.point j).SetByOwner ((u.takeSlot p).point j) := by
    intro u p _ j hu hj
    by_cases h : (u.entry p.2).direction = .input
    · rw [State.takeSlot_of_input h]
      refine (u.takeInput_taken p.2 (u.entry p.2) p.1).others j fun tag e => hj (State.inputHit_some.2 ?_)
      rw [hu.entry] at h tag e
      exact ⟨h, tag, e⟩
    · rw [State.takeSlot_of_other h]
      exact .refl _
  have own : ∀ (u : State) (p : Slot × Nat) (_ : List (Slot × Nat)) (i : Nat), PassFrame s u →
      s.inputHit p = some i → (u.point i).Sampled p.1.value p.1.quality s.runTime ((u.takeSlot p).point i) := by
    intro u p _ i hu hi
    obtain ⟨direction, tag, rfl⟩ := State.inputHit_some.1 hi
    rw [← hu.entry] at direction tag ⊢
    rw [State.takeSlot_of_input direction, ← hu.runTime]
    exact (u.takeInput_taken p.2 (u.entry p.2) p.1).own tag
  have owned : ∀ (x : Slot × Nat) (p p' q q' : Point), p.SetByOwner p' →
      p'.Sampled x.1.value x.1.quality s.runTime q → q.SetByOwner q' → p.Sampled x.1.value x.1.quality s.runTime q' :=
    fun _ _ _ _ _ before sampled after => sampled.owned before after
  refine foldl_cells (cell := State.point) Point.SetByOwner.refl Point.SetByOwner.transitive (I := fun _ => PassFrame s)
    (R := fun x p q => p.Sampled x.1.value x.1.quality s.runTime q) (fun u p _ hu => hu.trans (u.takeSlot_pass p).1) others own
    owned slots.zipIdx s (.refl s) (State.hits_nodup h (fun p i hi => ?_) slots)
  obtain ⟨direction, _, named⟩ := State.inputHit_some.1 hi
  exact ⟨by rw [direction]; decide, named⟩

/-- R45, R51: what a sample makes of an ANALOG or BINARY record. -/
theorem Point.Sampled.input {w : Word16} {b : Byte} {now : Nat} {p q : Point} (h : p.Sampled w b now q)
    (hk : p.kind = .analog ∨ p.kind = .binary) : q.raw = w.toInt ∧
      (p.kind = .binary → b = 0 → q.level = w ^^^ p.polarity ∧ q.quality = .good ∧ q.input = .fresh) ∧
      (p.kind = .analog → b = 0 → p.low ≤ p.scaled w.toInt → p.scaled w.toInt ≤ p.high →
        q.value = p.scaled w.toInt ∧ q.quality = .good ∧ q.input = .fresh) ∧
      (b ≠ 0 ∨ (p.kind = .analog ∧ ¬(p.low ≤ p.scaled w.toInt ∧ p.scaled w.toInt ≤ p.high)) →
        q.input ≠ .fresh ∧ q.goodRun = 0) := by
  rcases hk with hk | hk
  · have ne : p.kind ≠ .binary := by rw [hk]; decide
    have judged := Point.judge_of_analog (w := w) (c := b) w.toInt hk
    by_cases hb : b = 0
    · rw [if_neg (not_not.2 hb)] at judged
      by_cases hr : p.low ≤ p.scaled w.toInt ∧ p.scaled w.toInt ≤ p.high
      · rw [if_pos hr] at judged
        obtain ⟨_, _, rfl⟩ := h.good _ _ _ judged
        exact ⟨rfl, fun e => absurd e ne, fun _ _ _ _ => ⟨rfl, rfl, rfl⟩,
          fun e => e.elim (absurd hb) fun e => absurd hr e.2⟩
      · rw [if_neg hr] at judged
        obtain ⟨raw, input, run⟩ := h.of_bad judged
        exact ⟨raw, fun e => absurd e ne, fun _ _ hl hh => absurd ⟨hl, hh⟩ hr, fun _ => ⟨input, run⟩⟩
    · rw [if_pos hb] at judged
      obtain ⟨raw, input, run⟩ := h.of_bad judged
      exact ⟨raw, fun _ e => absurd e hb, fun _ e => absurd e hb, fun _ => ⟨input, run⟩⟩
  · have ne : p.kind ≠ .analog := by rw [hk]; decide
    have judged := Point.judge_of_binary (w := w) (c := b) w.toInt hk
    by_cases hb : b = 0
    · rw [if_neg (not_not.2 hb)] at judged
      obtain ⟨_, _, rfl⟩ := h.good _ _ _ judged
      exact ⟨rfl, fun _ _ => ⟨rfl, rfl, rfl⟩, fun e => absurd e ne, fun e => e.elim (absurd hb) fun e => absurd e.1 ne⟩
    · rw [if_pos hb] at judged
      obtain ⟨raw, input, run⟩ := h.of_bad judged
      exact ⟨raw, fun _ e => absurd e hb, fun _ e => absurd e hb, fun _ => ⟨input, run⟩⟩

/-- R11: the INPUT slots of a frame, as a later state shows them that has left the records of inputs alone. -/
theorem State.takeInputs_taken (hs : s.Shaped)
    (hp : ∀ i, (s.point i).kind = .analog ∨ (s.point i).kind = .binary → t.point i = (s.takeInputs c.slots).point i)
    (hc : t.ring.collisions = (s.takeInputs c.slots).ring.collisions) : InputsTaken c s t := by
  obtain ⟨left, sampled⟩ := State.takeInputs_points hs.once c.slots
  obtain ⟨still, flagged⟩ := s.takeInputs_flags c.slots
  exact {
    sampled := fun k x direction hx tag kind => by
      have hit : s.inputHit (x, k) = some (s.entry k).point := State.inputHit_some.2 ⟨direction, tag, rfl⟩
      rw [hp _ kind]
      exact (sampled (x, k) (State.mem_slots hx) _ hit).input kind
    others := fun i kind alone _ => by
      have input : (s.point i).kind ≠ .output ∧ (s.point i).kind ≠ .report := by
        rcases kind with kind | kind <;> rw [kind] <;> decide
      rw [hp i kind]
      refine (left i fun p hp hit => ?_).input input.1 input.2
      obtain ⟨direction, tag, named⟩ := State.inputHit_some.1 hit
      exact alone p.2 p.1 direction (List.mem_zipIdx_iff_getElem?.1 hp) tag named
    flags := fun k x direction hx => by
      have lt : k < s.ring.collisions.length := by
        rw [hs.collisions, ← hs.slots]
        exact (State.entry_used (by rw [direction]; decide)).1
      rw [hc]
      exact flagged (x, k) (State.mem_slots hx) k (State.flagHit_some.2 ⟨direction, rfl⟩) lt
    rest := fun k hk => by
      rw [hc]
      refine (still k fun p hp hit => ?_).symm
      obtain ⟨direction, rfl⟩ := State.flagHit_some.1 hit
      obtain ⟨hlt, _⟩ := List.getElem?_eq_some_iff.1 (List.mem_zipIdx_iff_getElem?.1 hp)
      exact hk.elim (absurd direction) (Nat.not_le.2 hlt) }

end

end Sys2Proof.Machine
end

