-- ==== Sys2Proof/Proofs/EchoRecords.lean ====
section
/-! PROOFS. The echo monitor at a taken frame (R13): its counts, the degraded flags of the points it watches, and what it
leaves alone. -/

namespace Sys2Proof.Machine

section
variable {s t u v : State} {slots : List Slot} {c : CycleFrame} {k i j : Nat} {x : Slot} {w : Word16} {on : Bool}

/-! ### The degraded flag (R50) -/

theorem Point.degraded_sameSettings (p : Point) (on : Bool) : ({ p with degraded := on } : Point).SameSettings p := by
  constructor <;> rfl

theorem State.setDegraded_handed (s : State) (i : Nat) (on : Bool) : HandedFrame s (s.setDegraded i on) := by
  unfold State.setDegraded
  dsimp only
  split
  · exact .refl s
  · exact State.commitPoint_handed (Point.degraded_sameSettings ..)

theorem State.setDegraded_point (h : i < s.points.length) : ((s.setDegraded i on).point i).degraded = on := by
  unfold State.setDegraded
  dsimp only
  split
  · next hd => exact hd
  · obtain ⟨_, _, owned, _⟩ := State.commitPoint_self (s := s) (p := { s.point i with degraded := on }) (edges := true) h
    exact owned.degraded

theorem State.setDegraded_other (h : i ≠ j) : (s.point j).SetByOwner ((s.setDegraded i on).point j) := by
  unfold State.setDegraded
  dsimp only
  split
  · exact .refl _
  · exact State.commitPoint_other h

/-! ### One echo record -/

/-- R13: the ring after an echo record has been compared. -/
def Ring.echoTaken (r : Ring) (k : Nat) (same : Bool) : Ring :=
  { r with
    echoCounts := r.echoCounts.set k (if same then 0 else min 3 (r.echoCounts.getD k 0 + 1))
    counters := { r.counters with
      echoMismatches := if same then r.counters.echoMismatches else wrap32 r.counters.echoMismatches } }

/-- R13: the degraded flag after an echo record has been compared. -/
def echoDegraded (count : Nat) (degraded same : Bool) : Bool := if same then false else decide (count = 2) || degraded

/-- R13: what the comparison of one echo record makes of the part. -/
structure EchoTaken (k point : Nat) (x : Slot) (w : Word16) (s t : State) : Prop where
  pass     : PassFrame s t
  ring     : t.ring = s.ring.echoTaken k (echoMatches x w)
  seg      : t.seg = s.seg
  degraded : point < s.points.length → (t.point point).degraded =
    echoDegraded (s.ring.echoCounts.getD k 0) (s.point point).degraded (echoMatches x w)
  others   : ∀ j, point ≠ j → (s.point j).SetByOwner (t.point j)

theorem State.checkEcho_of_match (h : echoMatches x w = true) :
    s.checkEcho k i x w = ({ s with ring := s.ring.echoTaken k true } : State).setDegraded i false :=
  if_pos (of_decide_eq_true h)

theorem State.checkEcho_of_miss (h : echoMatches x w = false) : s.checkEcho k i x w =
    if s.ring.echoCounts.getD k 0 = 2 then
      (({ s with ring := s.ring.echoTaken k false } : State).setDegraded i true).log .ring .echoMismatch k x.value.toNat
        x.tag.toNat
    else { s with ring := s.ring.echoTaken k false } := by
  unfold State.checkEcho
  exact if_neg (of_decide_eq_false h)

theorem State.checkEcho_taken (s : State) (k i : Nat) (x : Slot) (w : Word16) : EchoTaken k i x w s (s.checkEcho k i x w) := by
  have closed : ∀ b, PassFrame s { s with ring := s.ring.echoTaken k b } := fun b => (PassFrame.refl s).setRing rfl
  cases h : echoMatches x w with
  | true =>
    have handed := State.setDegraded_handed { s with ring := s.ring.echoTaken k true } i false
    rw [State.checkEcho_of_match h]
    exact ⟨(closed true).trans handed.pass, by rw [h]; exact handed.ring, handed.seg,
      fun hi => by rw [h]; exact State.setDegraded_point hi, fun j hj => State.setDegraded_other (s := { s with ring := s.ring.echoTaken k true }) hj⟩
  | false =>
    rw [State.checkEcho_of_miss h]
    by_cases hn : s.ring.echoCounts.getD k 0 = 2
    · have handed := State.setDegraded_handed { s with ring := s.ring.echoTaken k false } i true
      have logged := handed.trans
        (UpdateFrame.log (src := .ring) (n := .echoMismatch) (x := k) (y := x.value.toNat) (z := x.tag.toNat) (.refl _)).handed
      rw [if_pos hn]
      refine ⟨(closed false).trans logged.pass, by rw [h]; exact logged.ring, logged.seg, fun hi => ?_, fun j hj => ?_⟩
      · rw [State.log_point, State.setDegraded_point (s := { s with ring := s.ring.echoTaken k false }) hi, h]
        unfold echoDegraded
        simp only [Bool.false_eq_true, if_false, decide_eq_true hn, Bool.true_or]
      · rw [State.log_point]
        exact State.setDegraded_other (s := { s with ring := s.ring.echoTaken k false }) hj
    · rw [if_neg hn]
      refine ⟨closed false, by rw [h], rfl, fun _ => ?_, fun _ _ => .refl _⟩
      rw [h]
      unfold echoDegraded
      simp only [Bool.false_eq_true, if_false, decide_eq_false hn, Bool.false_or]
      rfl

/-! ### The echo records of a cycle -/

/-- R13: one echo record, judged on the slot map as it stands (log 54). -/
def State.checkRecord (slots : List Slot) (s : State) (p : Nat × Word16) : State :=
  match slots[p.1]? with
  | some x => if (s.entry p.1).direction = .output then s.checkEcho p.1 (s.entry p.1).point x p.2 else s
  | none => s

theorem State.checkEchoes_eq (s : State) (slots : List Slot) (echo : List (Nat × Word16)) :
    s.checkEchoes slots echo = echo.foldl (State.checkRecord slots) s := rfl

theorem State.checkRecord_of_output {p : Nat × Word16} (hx : slots[p.1]? = some x)
    (h : (s.entry p.1).direction = .output) : s.checkRecord slots p = s.checkEcho p.1 (s.entry p.1).point x p.2 := by
  unfold State.checkRecord
  rw [hx]
  exact if_pos h

theorem State.checkRecord_of_other {p : Nat × Word16} (h : slots[p.1]? = none ∨ (s.entry p.1).direction ≠ .output) :
    s.checkRecord slots p = s := by
  unfold State.checkRecord
  split
  · next x hx => exact if_neg (h.resolve_left (by rw [hx]; exact nofun))
  · rfl

/-- R13: an echo record is compared with an OUTPUT slot of the frame, or not at all. -/
theorem State.checkRecord_cases (s : State) (slots : List Slot) (p : Nat × Word16) :
    (∃ x, slots[p.1]? = some x ∧ (s.entry p.1).direction = .output ∧
      EchoTaken p.1 (s.entry p.1).point x p.2 s (s.checkRecord slots p)) ∨
      ((slots[p.1]? = none ∨ (s.entry p.1).direction ≠ .output) ∧ s.checkRecord slots p = s) := by
  by_cases h : (s.entry p.1).direction = .output
  · cases hx : slots[p.1]? with
    | some x =>
      rw [State.checkRecord_of_output hx h]
      exact .inl ⟨x, rfl, h, s.checkEcho_taken ..⟩
    | none => exact .inr ⟨.inl rfl, State.checkRecord_of_other (.inl hx)⟩
  · exact .inr ⟨.inr h, State.checkRecord_of_other (.inr h)⟩

theorem kindAgrees_output {q : PointKind} (h : kindAgrees .output q = true) : q = .output := by
  cases q
  case output => rfl
  all_goals cases h

/-- An OUTPUT slot names an OUTPUT (R3). -/
theorem State.entry_output (h : (s.entry k).direction = .output) : (s.point (s.entry k).point).kind = .output := by
  unfold State.entry at h ⊢
  dsimp only at h ⊢
  split at h
  · next agrees =>
    rw [if_pos agrees]
    rw [h] at agrees
    exact kindAgrees_output agrees
  · cases h

/-- The echo monitor leaves every record alone that is no OUTPUT, but for its owner. -/
structure EchoFrame (s t : State) : Prop where
  pass   : PassFrame s t
  seg    : t.seg = s.seg
  counts : t.ring.echoCounts.length = s.ring.echoCounts.length
  flags  : t.ring.collisions = s.ring.collisions
  points : ∀ j, (s.point j).kind ≠ .output → (s.point j).SetByOwner (t.point j)

theorem EchoFrame.refl (s : State) : EchoFrame s s := ⟨.refl s, rfl, rfl, rfl, fun _ _ => .refl _⟩

theorem EchoFrame.trans (h : EchoFrame s t) (k : EchoFrame t u) : EchoFrame s u :=
  ⟨h.pass.trans k.pass, k.seg.trans h.seg, k.counts.trans h.counts, k.flags.trans h.flags,
    fun j hj => (h.points j hj).trans (k.points j (by rw [h.pass.kind]; exact hj))⟩

theorem State.checkRecord_frame (s : State) (slots : List Slot) (p : Nat × Word16) : EchoFrame s (s.checkRecord slots p) := by
  rcases s.checkRecord_cases slots p with ⟨x, _, output, taken⟩ | ⟨_, e⟩
  · refine ⟨taken.pass, taken.seg, by rw [taken.ring]; exact List.length_set .., by rw [taken.ring]; rfl, fun j hj => ?_⟩
    exact taken.others j fun e => hj (by rw [← e]; exact State.entry_output output)
  · rw [e]
    exact .refl s

theorem State.checkRecords_frame (slots : List Slot) : ∀ (echo : List (Nat × Word16)) (s : State),
    EchoFrame s (echo.foldl (State.checkRecord slots) s)
  | [], s => .refl s
  | p :: echo, s => (s.checkRecord_frame slots p).trans (State.checkRecords_frame slots echo _)

theorem State.checkEchoes_frame (s : State) (slots : List Slot) (echo : List (Nat × Word16)) :
    EchoFrame s (s.checkEchoes slots echo) := State.checkRecords_frame slots echo s

theorem State.echoMissed_of_output {p : Nat × Word16} (hx : c.slots[p.1]? = some x) (h : (s.entry p.1).direction = .output) :
    s.echoMissed c p = !echoMatches x p.2 := by
  unfold State.echoMissed
  rw [hx]
  exact congrArg (· && _) (decide_eq_true h)

theorem State.echoMissed_of_other {p : Nat × Word16} (h : c.slots[p.1]? = none ∨ (s.entry p.1).direction ≠ .output) :
    s.echoMissed c p = false := by
  unfold State.echoMissed
  split
  · rfl
  · next x hx => exact congrArg (· && _) (decide_eq_false (h.resolve_left (by rw [hx]; exact nofun)))

/-- R13: every miss of the cycle is counted. -/
theorem State.checkEchoes_ring (s : State) (c : CycleFrame) (echo : List (Nat × Word16)) :
    (s.checkEchoes c.slots echo).ring = { s.ring with
      echoCounts := (s.checkEchoes c.slots echo).ring.echoCounts
      counters := { s.ring.counters with
        echoMismatches := Nat.repeat wrap32 (echo.filter fun p => s.echoMissed c p).length
          s.ring.counters.echoMismatches } } := by
  rw [State.checkEchoes_eq]
  induction echo using List.reverseRecOn with
  | nil => rfl
  | append_singleton ps p ih =>
    have before := (State.checkRecords_frame c.slots ps s).pass
    rw [List.foldl_append, List.foldl_cons, List.foldl_nil, repeat_filter_append]
    generalize ps.foldl (State.checkRecord c.slots) s = u at ih before ⊢
    rcases u.checkRecord_cases c.slots p with ⟨x, hx, output, taken⟩ | ⟨other, e⟩
    · rw [before.entry] at output
      rw [State.echoMissed_of_output hx output, taken.ring, ih]
      cases echoMatches x p.2 <;> rfl
    · rw [before.entry] at other
      rw [State.echoMissed_of_other other, e]
      exact ih

/-! ### The counts and the degraded flags -/

/-- What the echo monitor holds of a slot: its count, and the degraded flag of the point of an OUTPUT slot, by the entries
of `s`. -/
def State.echoCell (s u : State) (k : Nat) : Nat × Bool :=
  (u.ring.echoCounts.getD k 0,
    if (s.entry k).direction = .output then (u.point (s.entry k).point).degraded else false)

/-- The slot that an echo record of a cycle is compared with. -/
def State.echoHit (s : State) (slots : List Slot) (p : Nat × Word16) : Option Nat :=
  if (s.entry p.1).direction = .output ∧ slots[p.1]?.isSome = true then some p.1 else none

theorem State.echoHit_some {p : Nat × Word16} : s.echoHit slots p = some k ↔
    (s.entry p.1).direction = .output ∧ slots[p.1]?.isSome = true ∧ p.1 = k := by
  unfold State.echoHit
  split
  · next h => simp [h]
  · next h => exact ⟨nofun, fun ⟨a, b, _⟩ => absurd ⟨a, b⟩ h⟩

/-- R13: a slot's count and degraded flag after its echo record has been compared. -/
def EchoJudged (slots : List Slot) (p : Nat × Word16) (a b : Nat × Bool) : Prop :=
  ∀ x, slots[p.1]? = some x →
    b = (if echoMatches x p.2 then 0 else min 3 (a.1 + 1), echoDegraded a.1 a.2 (echoMatches x p.2))

theorem State.checkEchoes_cells (hs : s.Shaped) (slots : List Slot) {echo : List (Nat × Word16)}
    (he : (echo.map (·.1)).Nodup) :
    (∀ k, (∀ p ∈ echo, s.echoHit slots p ≠ some k) → s.echoCell s k = s.echoCell (s.checkEchoes slots echo) k) ∧
      ∀ p ∈ echo, ∀ k, s.echoHit slots p = some k →
        EchoJudged slots p (s.echoCell s k) (s.echoCell (s.checkEchoes slots echo) k) := by
  have others : ∀ (u : State) (p : Nat × Word16) (_ : List (Nat × Word16)) (j : Nat), EchoFrame s u →
      s.echoHit slots p ≠ some j → s.echoCell u j = s.echoCell (u.checkRecord slots p) j := by
    intro u p _ j hu hj
    rcases u.checkRecord_cases slots p with ⟨x, hx, output, taken⟩ | ⟨_, e⟩
    · rw [hu.pass.entry] at output taken
      have ne : p.1 ≠ j := fun e => hj (State.echoHit_some.2 ⟨output, by rw [hx]; rfl, e⟩)
      unfold State.echoCell
      rw [taken.ring]
      refine Prod.ext (getD_set_of_ne ne _ _).symm ?_
      dsimp only
      split
      · next hd =>
        have apart := State.entry_point_ne hs.once ne (by rw [output]; decide) (by rw [hd]; decide)
        exact (taken.others _ apart).degraded.symm
      · rfl
    · rw [e]
  have own : ∀ (u : State) (p : Nat × Word16) (_ : List (Nat × Word16)) (j : Nat), EchoFrame s u →
      s.echoHit slots p = some j → EchoJudged slots p (s.echoCell u j) (s.echoCell (u.checkRecord slots p) j) := by
    intro u p _ j hu hj x hx
    obtain ⟨output, _, rfl⟩ := State.echoHit_some.1 hj
    have taken := u.checkEcho_taken p.1 (s.entry p.1).point x p.2
    rw [← hu.pass.entry] at taken
    rw [← State.checkRecord_of_output hx (by rw [hu.pass.entry]; exact output), hu.pass.entry] at taken
    have lt : p.1 < u.ring.echoCounts.length := by
      rw [hu.counts, hs.echoes, ← hs.slots]
      exact (State.entry_used (by rw [output]; decide)).1
    have inside : (s.entry p.1).point < u.points.length := by
      rw [hu.pass.length]
      exact State.point_lt (by rw [State.entry_output output]; decide)
    unfold State.echoCell
    rw [if_pos output, if_pos output, taken.degraded inside, taken.ring]
    exact Prod.ext (getD_set_self lt _ _) rfl
  refine foldl_cells (cell := s.echoCell) (Q := Eq) (fun _ => rfl) (fun _ _ _ h k => h.trans k) (R := EchoJudged slots)
    (I := fun _ u => EchoFrame s u) (fun u p _ hu => hu.trans (u.checkRecord_frame slots p)) others own
    (fun _ _ _ _ _ before judged after => before ▸ after ▸ judged) echo s (.refl s) ?_
  rw [List.Nodup, List.pairwise_filterMap]
  refine (List.pairwise_map.1 he).imp fun {a b} hab i hi j hj => ?_
  obtain ⟨_, _, rfl⟩ := State.echoHit_some.1 hi
  obtain ⟨_, _, rfl⟩ := State.echoHit_some.1 hj
  exact hab

/-- R13: the OUTPUT slots of a frame, as a later state shows them that has left the counts and the degraded flags alone. -/
theorem State.checkEchoes_judged {o : Outstanding} (hs : s.Shaped) (he : (o.echo.map (·.1)).Nodup)
    (hc : t.ring.echoCounts = (s.checkEchoes c.slots o.echo).ring.echoCounts)
    (hd : ∀ i, (t.point i).degraded = ((s.checkEchoes c.slots o.echo).point i).degraded) : EchoesJudged o c s t := by
  obtain ⟨still, judged⟩ := State.checkEchoes_cells hs c.slots he
  exact {
    judged := fun k w x mem output hx => by
      have k' := judged (k, w) mem k (State.echoHit_some.2 ⟨output, by rw [hx]; rfl, rfl⟩) x hx
      unfold State.echoCell at k'
      rw [if_pos output, if_pos output, ← hc, ← hd] at k'
      have count := congrArg Prod.fst k'
      have flag := congrArg Prod.snd k'
      refine ⟨fun h => ?_, fun h => ?_⟩
      · rw [h] at count flag
        exact ⟨count, flag⟩
      · rw [h] at count flag
        exact ⟨count, flag⟩
    others := fun k hk => by
      rw [hc]
      refine (congrArg Prod.fst (still k fun p hp hit => ?_)).symm
      obtain ⟨output, _, rfl⟩ := State.echoHit_some.1 hit
      exact hk.elim (fun absent => absent p.2 hp) (absurd output) }

end

end Sys2Proof.Machine
end

