-- ==== Sys2Proof/Proofs/TakenCount.lean ====
section
/-! PROOFS. What ends the taking of a frame: its lane segment handed on (R165), and the cycle counted (R14). -/

namespace Sys2Proof.Machine

section
variable {s t u v : State} {g : AreaSegment} {bytes : List Byte} {d : Discard}

/-! ### The lane (R165) -/

/-- The dispatch unit and the events may have moved, and the part may owe more. -/
structure LaneFrame (s t : State) : Prop where
  rest : { t with disp := s.disp, mgmt := s.mgmt, owed := s.owed } = s
  mail : MailAs s t

theorem LaneFrame.refl (s : State) : LaneFrame s s := ⟨rfl, .refl s⟩

theorem LaneFrame.ring (h : LaneFrame s t) : t.ring = s.ring := (congrArg State.ring h.rest :)

theorem LaneFrame.setDisp (h : LaneFrame s t) (x : Dispatch) : LaneFrame s { t with disp := x } :=
  ⟨h.rest, ⟨h.mail.unit, h.mail.owed⟩⟩

theorem LaneFrame.owe (h : LaneFrame s t) (i : Instr) : LaneFrame s (t.owe i) :=
  ⟨h.rest, ⟨h.mail.unit, fun j hj => List.mem_append_left _ (h.mail.owed j hj)⟩⟩

theorem LaneFrame.log {src : Source} {name : EventName} {x y z : Int} (h : LaneFrame s t) :
    LaneFrame s (t.log src name x y z) := by
  have mail := h.mail.log_right (src := src) (name := name) (x := x) (y := y) (z := z)
  unfold State.log at mail ⊢
  split
  · next room => rw [if_pos room] at mail; exact ⟨h.rest, mail⟩
  · next room => rw [if_neg room] at mail; exact ⟨h.rest, mail⟩

theorem LaneFrame.laneDiscard (h : LaneFrame s t) : LaneFrame s (t.laneDiscard d) := by
  unfold State.laneDiscard
  dsimp only
  split
  · exact h.setDisp _
  · exact (h.setDisp _).log

theorem LaneFrame.laneMessage (h : LaneFrame s t) : LaneFrame s (t.laneMessage bytes) := by
  unfold State.laneMessage
  split
  · exact h.laneDiscard
  · exact h.laneDiscard
  · exact (h.setDisp _).owe _

theorem LaneFrame.laneTake (h : LaneFrame s t) : LaneFrame s (t.laneTake bytes g) := by
  unfold State.laneTake
  dsimp only
  split
  · exact (h.setDisp _).laneDiscard
  · split
    · exact ((h.setDisp _).setDisp _).laneMessage
    · exact h.setDisp _

theorem LaneFrame.laneFirst (h : LaneFrame s t) : LaneFrame s (t.laneFirst g) := by
  unfold State.laneFirst
  split
  · exact h.laneTake
  · exact (h.setDisp _).laneDiscard

theorem LaneFrame.laneSegment (h : LaneFrame s t) : LaneFrame s (t.laneSegment g) := by
  unfold State.laneSegment
  split
  · split
    · exact h.laneFirst
    · exact h.laneDiscard
  · split
    · exact h.laneDiscard.laneFirst
    · split
      · exact h.laneTake
      · exact (h.setDisp _).laneDiscard
  · split
    · exact h.laneFirst
    · split
      · exact h.setDisp _
      · exact h

theorem State.laneIn_frame (s : State) (area : List Byte) : LaneFrame s (s.laneIn area) := by
  unfold State.laneIn
  split
  · exact (LaneFrame.refl s).laneSegment
  · exact .refl s

/-- The dispatch unit of the one state is the other's, and what the one owes the other owes. -/
structure LaneAs (s t : State) : Prop where
  disp : t.disp = s.disp
  owed : ∀ i ∈ s.owed, i ∈ t.owed

theorem LaneAs.set (h : LaneAs s t) (f : Dispatch → Dispatch) :
    LaneAs { s with disp := f s.disp } { t with disp := f t.disp } := ⟨congrArg f h.disp, h.owed⟩

theorem LaneAs.owe (h : LaneAs s t) (i : Instr) : LaneAs (s.owe i) (t.owe i) :=
  ⟨h.disp, fun j hj => List.mem_append.2 ((List.mem_append.1 hj).imp_left (h.owed j))⟩

theorem LaneAs.log {src : Source} {name : EventName} {x y z : Int} (h : LaneAs s t) :
    LaneAs (s.log src name x y z) (t.log src name x y z) :=
  ⟨by rw [State.log_disp, State.log_disp]; exact h.disp, by rw [State.log_owed, State.log_owed]; exact h.owed⟩

theorem LaneAs.setRx (h : LaneAs s t) (x : Reassembly) : LaneAs { s with disp.rx := x } { t with disp.rx := x } :=
  h.set fun y => { y with rx := x }

theorem LaneAs.laneDiscard (h : LaneAs s t) : LaneAs (s.laneDiscard d) (t.laneDiscard d) := by
  have counted := h.set fun y => { y with discards := y.discards.add d, discardRun := true }
  unfold State.laneDiscard
  dsimp only
  rw [show t.disp.discardRun = s.disp.discardRun from congrArg Dispatch.discardRun h.disp]
  split
  · exact counted
  · exact counted.log

theorem LaneAs.laneMessage (h : LaneAs s t) : LaneAs (s.laneMessage bytes) (t.laneMessage bytes) := by
  unfold State.laneMessage
  split
  · exact h.laneDiscard
  · exact h.laneDiscard
  · exact LaneAs.owe (h.set fun y => { y with discardRun := false }) _

theorem LaneAs.laneTake (h : LaneAs s t) : LaneAs (s.laneTake bytes g) (t.laneTake bytes g) := by
  unfold State.laneTake
  dsimp only
  split
  · exact (h.setRx _).laneDiscard
  · split
    · exact LaneAs.laneMessage (h.set fun y => { y with rx := .idle, unitUsed := y.page.unit, poolUsed := y.page.pool })
    · exact h.setRx _

theorem LaneAs.laneFirst (h : LaneAs s t) : LaneAs (s.laneFirst g) (t.laneFirst g) := by
  unfold State.laneFirst
  split
  · exact h.laneTake
  · exact (h.setRx _).laneDiscard

theorem LaneAs.laneSegment (h : LaneAs s t) : LaneAs (s.laneSegment g) (t.laneSegment g) := by
  unfold State.laneSegment
  rw [show t.disp.rx = s.disp.rx from congrArg Dispatch.rx h.disp]
  split
  · split
    · exact h.laneFirst
    · exact h.laneDiscard
  · split
    · exact h.laneDiscard.laneFirst
    · split
      · exact h.laneTake
      · exact (h.setRx _).laneDiscard
  · split
    · exact h.laneFirst
    · split
      · exact h.setRx _
      · exact h

/-- R165: a lane segment is taken alike. -/
theorem LaneAs.laneIn (h : LaneAs s t) (area : List Byte) : LaneAs (s.laneIn area) (t.laneIn area) := by
  unfold State.laneIn
  split
  · exact h.laneSegment
  · exact h

/-! ### A taken cycle counted (R14) -/

/-- R14: the ring after a taken cycle. -/
def Ring.takenOne (r : Ring) : Ring :=
  { r with
    counters := { r.counters with taken := wrap32 r.counters.taken }
    lossRun := false, mismatchRun := false, takenInRow := r.takenInRow + 1, lostInRow := 0
    segment := if r.segment = .broken ∧ 10 ≤ r.takenInRow + 1 then r.brokenFrom.segment else r.segment }

theorem State.countTaken_of_working (h : ¬(s.ring.segment = .broken ∧ 10 ≤ s.ring.takenInRow + 1)) :
    s.countTaken = { s with ring := s.ring.takenOne } := by
  have one : s.ring.takenOne = { s.ring with
      counters := { s.ring.counters with taken := wrap32 s.ring.counters.taken }
      lossRun := false, mismatchRun := false, takenInRow := s.ring.takenInRow + 1, lostInRow := 0 } := by
    unfold Ring.takenOne
    rw [if_neg h]
  rw [one]
  exact if_neg h

theorem State.countTaken_of_back (h : s.ring.segment = .broken ∧ 10 ≤ s.ring.takenInRow + 1) :
    s.countTaken = ({ s with ring := { s.ring.takenOne with segment := s.ring.segment } } : State).setSegment
      s.ring.brokenFrom.segment := if_pos h

/-- R14, R66: the count moves the ring, and a return from BROKEN what it brings to the lines. -/
theorem State.countTaken_frame (s : State) : UpdateFrame { s with ring := s.ring.takenOne } s.countTaken ∧
    FlagsKept s s.countTaken := by
  by_cases h : s.ring.segment = .broken ∧ 10 ≤ s.ring.takenInRow + 1
  · have one : s.ring.takenOne = { s.ring.takenOne with segment := s.ring.brokenFrom.segment } := by
      unfold Ring.takenOne
      rw [if_pos h]
    have changed := State.setSegment_frame { s with ring := { s.ring.takenOne with segment := s.ring.segment } }
      s.ring.brokenFrom.segment
    rw [State.countTaken_of_back h, one]
    exact ⟨changed, .setSegment ⟨fun _ => rfl, fun _ => rfl⟩⟩
  · rw [State.countTaken_of_working h]
    exact ⟨.refl _, ⟨fun _ => rfl, fun _ => rfl⟩⟩

end

end Sys2Proof.Machine
end

