-- ==== Sys2Proof/Proofs/InboundPass.lean ====
section
/-! PROOFS. INBOUND_PASS of a frame of the outstanding cycle (R9, R10): its stages one after another, what each leaves to the
next, and the frame's course as a whole (O21). -/

namespace Sys2Proof.Machine

section
variable {s t d b : State} {o : Outstanding} {c : CycleFrame} {k : Nat}

/-! ### The stages -/

/-- R10, R11: the part once the INPUT slots have been taken. -/
def State.slotsTaken (s : State) (c : CycleFrame) : State :=
  ({ s with ring.outstanding := none } : State).takeInputs c.slots

/-- R36: once presence has been noted. -/
def State.presenceTaken (s : State) (c : CycleFrame) : State :=
  (s.slotsTaken c).watchStations (s.expectedIn c.slots) (s.presentIn c.slots)

/-- R13: once the echo records have been compared. -/
def State.echoesTaken (s : State) (o : Outstanding) (c : CycleFrame) : State :=
  (s.presenceTaken c).checkEchoes c.slots o.echo

/-- R32, R37: once the attention records and the join waits are over. -/
def State.blocksTaken (s : State) (o : Outstanding) (c : CycleFrame) : State :=
  ((s.echoesTaken o c).takeAttention c.attn).countJoins

/-- R14, R165: once the lane segment has been handed on and the cycle counted. -/
def State.cycleTaken (s : State) (o : Outstanding) (c : CycleFrame) : State :=
  ((s.blocksTaken o c).laneIn c.lane).countTaken

theorem State.takeCycle_eq (s : State) (o : Outstanding) (c : CycleFrame) :
    s.takeCycle o c = (s.cycleTaken o c).mailWritten.sendNorth ((s.cycleTaken o c).northOf c).link := by
  unfold State.takeCycle State.cycleTaken State.blocksTaken State.northOf
  rfl

theorem State.soundNorth_of_taken {f : LinkFrame} (ho : s.ring.outstanding = some o) (hc : c.cycle = o.cycle)
    (hl : c.slots.length = o.slots) : s.soundNorth f c = s.takeCycle o c := by
  unfold State.soundNorth
  rw [ho]
  exact if_pos ⟨hc, hl⟩

/-! ### What the blocks leave alone -/

theorem State.slotsTaken_pass (s : State) (c : CycleFrame) :
    PassFrame { s with ring.outstanding := none } (s.slotsTaken c) := State.takeInputs_pass _ c.slots

theorem State.presenceTaken_frame (s : State) (c : CycleFrame) : StationsFrame (s.slotsTaken c) (s.presenceTaken c) :=
  State.watchStations_frame ..

theorem State.presenceTaken_pass (s : State) (c : CycleFrame) :
    PassFrame { s with ring.outstanding := none } (s.presenceTaken c) :=
  (s.slotsTaken_pass c).trans (s.presenceTaken_frame c).pass

theorem State.echoesTaken_frame (s : State) (o : Outstanding) (c : CycleFrame) :
    EchoFrame (s.presenceTaken c) (s.echoesTaken o c) := State.checkEchoes_frame ..

theorem State.echoesTaken_pass (s : State) (o : Outstanding) (c : CycleFrame) :
    PassFrame { s with ring.outstanding := none } (s.echoesTaken o c) :=
  (s.presenceTaken_pass c).trans (s.echoesTaken_frame o c).pass

theorem State.blocksTaken_pass (s : State) (o : Outstanding) (c : CycleFrame) :
    PassFrame { s with ring.outstanding := none } (s.blocksTaken o c) :=
  ((s.echoesTaken_pass o c).trans (State.takeAttention_frame ..).pass).trans (State.countJoins_frame _).pass

theorem State.presenceTaken_entry (s : State) (c : CycleFrame) (k : Nat) : (s.presenceTaken c).entry k = s.entry k :=
  (s.presenceTaken_pass c).entry k

theorem State.echoMissed_congr (h : ∀ k, t.entry k = s.entry k) (c : CycleFrame) (p : Nat × Word16) :
    t.echoMissed c p = s.echoMissed c p := by
  unfold State.echoMissed
  rw [h]

/-- R11, R13: the ring once the blocks are done with the frame. -/
theorem State.blocksTaken_ring (s : State) (o : Outstanding) (c : CycleFrame) : (s.blocksTaken o c).ring = { s.ring with
    outstanding := none, echoCounts := (s.echoesTaken o c).ring.echoCounts, collisions := (s.slotsTaken c).ring.collisions
    counters := { s.ring.counters with
      collisions := Nat.repeat wrap32 (c.slots.zipIdx.filter fun p => s.collides p.2 p.1).length s.ring.counters.collisions
      echoMismatches := Nat.repeat wrap32 (o.echo.filter fun p => s.echoMissed c p).length
        s.ring.counters.echoMismatches } } := by
  have attended : (s.blocksTaken o c).ring = (s.echoesTaken o c).ring :=
    (State.countJoins_frame _).ring.trans (State.takeAttention_frame (s.echoesTaken o c) c.attn).update.ring
  have missed : (fun p => (s.presenceTaken c).echoMissed c p) = fun p => s.echoMissed c p :=
    funext fun p => State.echoMissed_congr (s.presenceTaken_entry c) c p
  have echoes := State.checkEchoes_ring (s.presenceTaken c) c o.echo
  have inputs : (s.slotsTaken c).ring = _ := State.takeInputs_ring { s with ring.outstanding := none } c.slots
  rw [missed, (s.presenceTaken_frame c).ring, inputs] at echoes
  exact attended.trans echoes

/-! ### The count -/

/-- What the lane segment and the count make of the part: of the ring the count alone. -/
structure Counted (c : CycleFrame) (b d : State) : Prop where
  ring    : d.ring = b.ring.takenOne
  seg     : d.seg = b.seg
  clock   : d.clock = b.clock
  pending : d.pending = b.pending
  disp    : d.disp = (b.laneIn c.lane).disp
  owed    : ∀ i ∈ (b.laneIn c.lane).owed, i ∈ d.owed
  mail    : MailAs b d
  points  : ∀ j, (b.point j).SetByOwner (d.point j)
  flags   : FlagsKept b d

theorem State.laneIn_countTaken (b : State) (c : CycleFrame) : Counted c b (b.laneIn c.lane).countTaken := by
  have lane := b.laneIn_frame c.lane
  obtain ⟨count, flags⟩ := (b.laneIn c.lane).countTaken_frame
  generalize hu : b.laneIn c.lane = u at lane count flags ⊢
  have ring : u.ring = b.ring := (congrArg State.ring lane.rest :)
  have points : u.points = b.points := (congrArg State.points lane.rest :)
  have lines : ∀ k, u.line k = b.line k := fun k => (congrArg (State.line · k) lane.rest :)
  have fgcs : ∀ k, u.fgc k = b.fgc k := fun k => (congrArg (State.fgc · k) lane.rest :)
  exact {
    ring := count.ring.trans (congrArg Ring.takenOne ring)
    seg := count.seg.trans (congrArg State.seg lane.rest :)
    clock := count.clock.trans (congrArg State.clock lane.rest :)
    pending := count.pending.trans (congrArg State.pending lane.rest :)
    disp := by rw [hu]; exact count.disp
    owed := by rw [hu]; exact count.owed
    mail := lane.mail.trans ⟨count.mail, count.owed⟩
    points := fun j => by
      have own := count.points j
      rw [State.point, show ({ u with ring := u.ring.takenOne } : State).points = b.points from points] at own
      exact own
    flags := ⟨fun k => (flags.jam k).trans (congrArg Line.jam (lines k)), fun k => (flags.fgc k).trans (congrArg Fgc.flags (fgcs k))⟩ }

theorem State.cycleTaken_counted (s : State) (o : Outstanding) (c : CycleFrame) :
    Counted c (s.blocksTaken o c) (s.cycleTaken o c) := State.laneIn_countTaken ..

theorem Counted.entry (h : Counted c b d) (k : Nat) : d.entry k = b.entry k :=
  State.entry_congr (congrArg Ring.slotMap h.ring :) (fun j => (h.points j).kind) k

theorem State.cycleTaken_entry (s : State) (o : Outstanding) (c : CycleFrame) (k : Nat) :
    (s.cycleTaken o c).entry k = s.entry k :=
  ((s.cycleTaken_counted o c).entry k).trans ((s.blocksTaken_pass o c).entry k)

/-! ### What later stages leave of a record -/

theorem Counted.attended_points {w : State} {a : List Byte} (h : Counted c (w.takeAttention a).countJoins d) (j : Nat) :
    (w.point j).SetByOwner (d.point j) := by
  have records := (w.takeAttention_frame a).update.points j
  have joins := (w.takeAttention a).countJoins_frame.points
  have counted := h.points j
  generalize w.takeAttention a = v at records joins counted
  rw [State.point, joins] at counted
  exact Point.SetByOwner.trans records counted

theorem State.cycleTaken_points (s : State) (o : Outstanding) (c : CycleFrame) (j : Nat) :
    ((s.echoesTaken o c).point j).SetByOwner ((s.cycleTaken o c).point j) := (s.cycleTaken_counted o c).attended_points j

theorem State.presenceTaken_point (s : State) (c : CycleFrame) (j : Nat) :
    (s.presenceTaken c).point j = (s.slotsTaken c).point j := by
  rw [State.point, (s.presenceTaken_frame c).points]
  rfl

/-- R11: an input keeps what its sample has made of it. -/
theorem State.cycleTaken_input {i : Nat} (hk : (s.point i).kind = .analog ∨ (s.point i).kind = .binary) :
    (s.cycleTaken o c).point i = (s.slotsTaken c).point i := by
  have kind : ((s.slotsTaken c).point i).kind = (s.point i).kind := (s.slotsTaken_pass c).kind i
  have input : ((s.slotsTaken c).point i).kind ≠ .output ∧ ((s.slotsTaken c).point i).kind ≠ .report := by
    rw [kind]
    rcases hk with hk | hk <;> rw [hk] <;> decide
  have echoes := (s.echoesTaken_frame o c).points i
  rw [s.presenceTaken_point] at echoes
  exact ((echoes input.1).trans (s.cycleTaken_points o c i)).input input.1 input.2

/-- R11: the point of an OUTPUT slot is no INPUT slot's. -/
theorem State.slotsTaken_output (hs : s.Shaped) (h : (s.entry k).direction = .output) (c : CycleFrame) :
    (s.point (s.entry k).point).SetByOwner ((s.slotsTaken c).point (s.entry k).point) := by
  refine (State.takeInputs_points (s := { s with ring.outstanding := none }) hs.once c.slots).1 _ fun p _ hit => ?_
  obtain ⟨direction, _, named⟩ := State.inputHit_some.1 hit
  change (s.entry p.2).direction = .input at direction
  by_cases e : p.2 = k
  · rw [e, h] at direction
    cases direction
  · exact State.entry_point_ne hs.once e (by rw [direction]; decide) (by rw [h]; decide) named

/-! ### The areas of the frame -/

theorem State.cycleTaken_seg (s : State) (o : Outstanding) (c : CycleFrame) :
    (s.cycleTaken o c).seg = ((s.echoesTaken o c).takeAttention c.attn).countJoins.seg := (s.cycleTaken_counted o c).seg

/-- R36: presence as the frame shows it, whatever its slots have brought. -/
theorem State.echoesTaken_watched (hs : s.Shaped) (o : Outstanding) (c : CycleFrame) : Watched c s (s.echoesTaken o c) := by
  have slots : (s.slotsTaken c).seg = s.seg := State.takeInputs_seg _ _
  have presence := s.presenceTaken_frame c
  have seg : (s.echoesTaken o c).seg = (s.presenceTaken c).seg := (s.echoesTaken_frame o c).seg
  have pass := s.echoesTaken_pass o c
  have bindings := pass.bindings
  exact {
    length := hs.stations
    same := by rw [seg, presence.length, slots]
    drops := hs.drops
    seg := by rw [seg, ← slots]; exact presence.seg
    station := fun n h1 h30 => by
      have watched := State.watchStations_station (s := s.slotsTaken c) (n := n) (by rw [slots]; exact hs.stations) h1 h30
        (s.expectedIn c.slots) (s.presentIn c.slots)
      rw [State.station_congr (congrArg Segment.stations slots), slots, List.contains_eq_mem, List.contains_eq_mem] at watched
      exact (State.station_congr (congrArg Segment.stations seg) n).trans watched
    bindings := ⟨bindings.slotMap, bindings.find⟩
    segment := (congrArg Ring.segment pass.ring :) }

theorem FlagsKept.trans {u : State} (h : FlagsKept s t) (k : FlagsKept t u) : FlagsKept s u :=
  ⟨fun l => (k.jam l).trans (h.jam l), fun l => (k.fgc l).trans (h.fgc l)⟩

theorem StationsFrame.flags (h : StationsFrame s t) : FlagsKept s t :=
  (FlagsKept.refl s).of_eq (fun l => (congrArg (State.line · l) h.rest :)) fun l => (congrArg (State.fgc · l) h.rest :)

theorem SentNorth.flags (h : SentNorth c d t) : FlagsKept d t :=
  (FlagsKept.refl d).of_eq (fun l => (congrArg (State.line · l) h.frame :)) fun l => (congrArg (State.fgc · l) h.frame :)

section
variable (north : SentNorth c (s.cycleTaken o c) t)
include north

/-- R10 to R14: the ring once the frame has gone north. -/
theorem SentNorth.takenRing : t.ring = { s.ring with
    outstanding := none, lostInRow := 0, takenInRow := s.ring.takenInRow + 1, lossRun := false, mismatchRun := false
    echoCounts := (s.echoesTaken o c).ring.echoCounts, collisions := (s.slotsTaken c).ring.collisions
    segment := if s.ring.segment = .broken ∧ 10 ≤ s.ring.takenInRow + 1 then s.ring.brokenFrom.segment else s.ring.segment
    counters := { s.ring.counters with
      taken := wrap32 s.ring.counters.taken
      collisions := Nat.repeat wrap32 (c.slots.zipIdx.filter fun p => s.collides p.2 p.1).length s.ring.counters.collisions
      echoMismatches := Nat.repeat wrap32 (o.echo.filter fun p => s.echoMissed c p).length
        s.ring.counters.echoMismatches }
    sentN := if s.ring.linkN then some ((s.cycleTaken o c).northOf c).link else s.ring.sentN } := by
  rw [north.ring, (s.cycleTaken_counted o c).ring, s.blocksTaken_ring]
  rfl

theorem SentNorth.takenPoint (j : Nat) : t.point j = (s.cycleTaken o c).point j := by
  rw [State.point, north.points]
  rfl

/-- R11: the INPUT slots of the frame. -/
theorem SentNorth.inputsTaken (hs : s.Shaped) : InputsTaken c s t := by
  have taken := State.takeInputs_taken (s := { s with ring.outstanding := none }) (t := t) (c := c) hs.emptied
    (fun i hk => (north.takenPoint i).trans (State.cycleTaken_input hk)) (congrArg Ring.collisions north.takenRing :)
  exact ⟨taken.sampled, taken.others, taken.flags, taken.rest⟩

/-- R13: the OUTPUT slots of the frame. -/
theorem SentNorth.echoesJudged (hs : s.Shaped) (ho : s.ring.outstanding = some o) : EchoesJudged o c s t := by
  have counts : (s.presenceTaken c).ring.echoCounts = s.ring.echoCounts := by
    rw [(s.presenceTaken_frame c).ring]
    exact (congrArg Ring.echoCounts (State.takeInputs_ring { s with ring.outstanding := none } c.slots) :)
  have shaped : (s.presenceTaken c).Shaped :=
    (State.Shaped.foldl _ (fun _ _ h => .ite h.takeInput h) _ _ hs.emptied).watchStations
  have taken := State.checkEchoes_judged (t := t) (c := c) shaped (hs.echo o ho) (congrArg Ring.echoCounts north.takenRing :)
    fun i => (congrArg Point.degraded (north.takenPoint i)).trans (s.cycleTaken_points o c i).degraded
  exact {
    judged := fun k w x hm hd hx => by
      have before : ((s.presenceTaken c).point (s.entry k).point).degraded = (s.point (s.entry k).point).degraded := by
        rw [s.presenceTaken_point]
        exact (State.slotsTaken_output hs hd c).degraded
      have judged := taken.judged k w x hm (by rw [s.presenceTaken_entry]; exact hd) hx
      rw [s.presenceTaken_entry, counts] at judged
      dsimp only at judged ⊢
      rw [before] at judged
      exact judged
    others := fun k hk => by
      rw [taken.others k (by rw [s.presenceTaken_entry]; exact hk), counts] }

/-- R31 to R33, R36 to R39: the attention area of the frame. -/
theorem SentNorth.attentionTaken (hs : s.Shaped) : AttentionTaken c s t := by
  have watched := State.echoesTaken_watched hs o c
  have shaped : (s.echoesTaken o c).Shaped := .checkEchoes
    (State.Shaped.foldl _ (fun _ _ h => .ite h.takeInput h) _ _ hs.emptied).watchStations
  have counted := s.cycleTaken_counted o c
  have joins := State.countJoins_frame ((s.echoesTaken o c).takeAttention c.attn)
  have attended : Attended c (s.echoesTaken o c) t := {
    seg := north.seg.trans (s.cycleTaken_seg o c)
    flags := (joins.flags.trans counted.flags).trans north.flags }
  exact attended.taken shaped.takeAttention.stations watched

end

/-! ### The plant -/

/-- Lines, flue gas units, allocator and turbine. -/
def State.plant (s : State) := (s.lines, s.fgcs, s.env, s.turb)

theorem State.plant_parts (h : t.plant = s.plant) :
    t.lines = s.lines ∧ t.fgcs = s.fgcs ∧ t.env = s.env ∧ t.turb = s.turb :=
  ⟨(congrArg (·.1) h :), (congrArg (·.2.1) h :), (congrArg (·.2.2.1) h :), (congrArg (·.2.2.2) h :)⟩

theorem StationsFrame.plant (h : StationsFrame s t) : t.plant = s.plant := (congrArg State.plant h.rest :)

theorem LaneFrame.plant (h : LaneFrame s t) : t.plant = s.plant := (congrArg State.plant h.rest :)

/-- R14: while nothing is BROKEN the count brings nothing to the plant. -/
theorem State.countTaken_plant (h : s.ring.segment ≠ .broken) : s.countTaken.plant = s.plant := by
  rw [State.countTaken_of_working fun b => h b.1]
  rfl

theorem SentNorth.plant (h : SentNorth c d t) : t.plant = d.plant := (congrArg State.plant h.frame :)

theorem State.checkEchoes_nil (s : State) (slots : List Slot) : s.checkEchoes slots [] = s := rfl

theorem State.attended_plant {area : List Byte} (he : ∀ e ∈ attentionOf area, e.station = 0xFF) :
    (s.takeAttention area).countJoins.plant = s.plant := by
  rw [State.takeAttention_of_empty he]
  exact s.countJoins_frame.plant

/-- Where no echo, record or return from BROKEN brings more, the plant is as the samples have left it. -/
theorem State.cycleTaken_plant (he : ∀ e ∈ attentionOf c.attn, e.station = 0xFF) (ho : o.echo = [])
    (hb : s.ring.segment ≠ .broken) : (s.cycleTaken o c).plant = (s.slotsTaken c).plant := by
  have echoes : (s.echoesTaken o c).plant = (s.presenceTaken c).plant := by
    unfold State.echoesTaken
    rw [ho, State.checkEchoes_nil]
  have records : (s.blocksTaken o c).plant = (s.echoesTaken o c).plant := State.attended_plant he
  have lane := (s.blocksTaken o c).laneIn_frame c.lane
  have working : ((s.blocksTaken o c).laneIn c.lane).ring.segment ≠ .broken := by
    rw [lane.ring, s.blocksTaken_ring]
    exact hb
  calc (s.cycleTaken o c).plant = ((s.blocksTaken o c).laneIn c.lane).plant := State.countTaken_plant working
    _ = (s.blocksTaken o c).plant := lane.plant
    _ = (s.echoesTaken o c).plant := records
    _ = (s.presenceTaken c).plant := echoes
    _ = (s.slotsTaken c).plant := (s.presenceTaken_frame c).plant

end

end Sys2Proof.Machine

open Sys2Proof.Machine in
/-- Settles O21: the frame's stages one after another, and its way north. -/
theorem Sys2Proof.takesMatchingCycle : Obligations.TakesMatchingCycle := fun f c o s q hl hf ho hc hn => by
  have next := exec_inboundPass (f := f) q
  rw [State.inbound_of_cycle hl hf, State.soundNorth_of_taken ho hc hn, State.takeCycle_eq] at next
  have north := (s.cycleTaken o c).sendNorth_sent c
  generalize State.sendNorth _ _ = t at north next
  have counted := s.cycleTaken_counted o c
  have pass := s.blocksTaken_pass o c
  have mail : MailAs s (s.cycleTaken o c) := ⟨(pass.mail.trans counted.mail).unit, (pass.mail.trans counted.mail).owed⟩
  have lane : LaneAs (s.laneIn c.lane) ((s.blocksTaken o c).laneIn c.lane) := 
    (⟨pass.disp, pass.mail.owed⟩ : LaneAs s (s.blocksTaken o c)).laneIn c.lane
  have ring := north.takenRing
  have echoes : t.ring.echoCounts = _ := congrArg Ring.echoCounts ring
  have flags : t.ring.collisions = _ := congrArg Ring.collisions ring
  refine ⟨t, (s.cycleTaken o c).northOf c, next, ?_, north.written (s.cycleTaken_entry o c), mail.mailArea, north.mail mail,
    fun hs => ⟨north.inputsTaken hs, north.echoesJudged hs ho, north.attentionTaken hs⟩, fun he hx hb => ?_,
    north.disp.trans (counted.disp.trans lane.disp), fun i hi => north.owes (counted.owed i (lane.owed i hi)),
    north.clock.trans (counted.clock.trans pass.clock), north.pending.trans (counted.pending.trans pass.pending)⟩
  · rw [echoes, flags]
    exact ring
  · have plant := (SentNorth.plant north).trans (State.cycleTaken_plant he hx hb)
    exact State.plant_parts plant
end

