-- ==== Sys2Proof/Proofs/StationNumbers.lean ====
section
/-! PROOFS. RENUMBER and LOCK-NUMBER (R34, R35): the checks of each command and what becomes of the entries (O25). -/

namespace Sys2Proof.Machine

section
variable {s t : State} {old new n b : Byte} {e : Station}

/-! ### The commands in execution -/

theorem exec_renumber (h : s.Free) : exec (.renumber old new) s = .next ((s.during .renumber).cmdRenumber old new) :=
  commandForm_of_free (.renumber old new) .renumber (fun s => s.cmdRenumber old new) s h

theorem exec_lockNumberSet (h : s.Free) : exec (.lockNumberSet n) s = .next ((s.during .lockNumber).cmdLockSet n) :=
  commandForm_of_free (.lockNumberSet n) .lockNumber (fun s => s.cmdLockSet n) s h

theorem exec_lockNumberClear (h : s.Free) : exec (.lockNumberClear n) s = .next ((s.during .lockNumber).cmdLockClear n) :=
  commandForm_of_free (.lockNumberClear n) .lockNumber (fun s => s.cmdLockClear n) s h

/-! ### Numbers and entries -/

theorem isNumber_iff : isNumber n = true ↔ 1 ≤ n.toNat ∧ n.toNat ≤ 30 := decide_eq_true_iff

theorem isNumber_eq_false_iff : isNumber n = false ↔ ¬(1 ≤ n.toNat ∧ n.toNat ≤ 30) := decide_eq_false_iff_not

/-- R23: while its lock is clear an entry is free just when it is ABSENT. -/
theorem Station.isFree_eq_false_iff (h : e.lock = false) : e.isFree = false ↔ e.state ≠ .absent := by
  simp [Station.isFree, h]

/-- R35, log 30: what freeing makes of an entry. -/
theorem Station.freed_eq (e : Station) : e.freed =
    { e with state := .absent, lock := false, serial := none, kindCode := 0, missed := 0, due := false } := rfl

theorem Station.freed_of_absent (h : e.state = .absent) :
    e.freed = { e with lock := false, serial := none, kindCode := 0, missed := 0, due := false } := by
  rw [Station.freed_eq, ← h]

/-- R188: which events the queue holds after one more hangs on the queue and the clock alone. -/
theorem State.log_events_congr (hq : t.mgmt.events = s.mgmt.events) (hc : t.clock = s.clock) (a : Source) (k : EventName)
    (x y z : Int) : (t.log a k x y z).mgmt.events = (s.log a k x y z).mgmt.events := by
  simp only [State.log_mgmt, State.runTime, hq, hc]
  split <;> rfl

/-! ### RENUMBER (R34) -/

/-- R34: the entries once a number has been changed. -/
def State.renumbered (s : State) (old new : Nat) : State :=
  (s.setStation new ((s.station new).join ((s.station old).serial.getD 0) (s.station old).kindCode true)).setStation old
    (s.station old).freed

/-- R34: the part once a change of number has been logged and answered. -/
def State.renumberedDone (s : State) (old new : Nat) : State :=
  ((s.renumbered old new).log .station .stationRenumbered new old).answer .renumber .done

theorem State.cmdRenumber_of_ne (h : s.ring.segment ≠ .config) : s.cmdRenumber old new = s.answer .renumber .badState :=
  if_pos h

theorem State.cmdRenumber_of_outside (h : s.ring.segment = .config)
    (hn : ¬((1 ≤ old.toNat ∧ old.toNat ≤ 30) ∧ (1 ≤ new.toNat ∧ new.toNat ≤ 30))) :
    s.cmdRenumber old new = s.answer .renumber .badIndex := by
  have outside : isNumber old = false ∨ isNumber new = false := by
    rw [isNumber_eq_false_iff, isNumber_eq_false_iff]
    exact not_and_or.1 hn
  exact (if_neg (not_not.2 h)).trans (if_pos outside)

/-- R34: the checks that follow those of the segment state and of the numbers, in their order. -/
theorem State.cmdRenumber_of_numbers (h : s.ring.segment = .config) (ho : 1 ≤ old.toNat ∧ old.toNat ≤ 30)
    (hn : 1 ≤ new.toNat ∧ new.toNat ≤ 30) : s.cmdRenumber old new =
      if old = new then s.answer .renumber .badValue
      else if (s.station old.toNat).lock then s.answer .renumber .locked
      else if (s.station old.toNat).state ≠ .active then s.answer .renumber .badState
      else if (s.station new.toNat).lock then s.answer .renumber .locked
      else if (s.station new.toNat).isFree = false then s.answer .renumber .badState
      else s.renumberedDone old.toNat new.toNat := by
  have inside : ¬(isNumber old = false ∨ isNumber new = false) := by
    simp [isNumber_iff.2 ho, isNumber_iff.2 hn]
  exact (if_neg (not_not.2 h)).trans (if_neg inside)

section
variable {i j m : Nat}

theorem State.renumberedDone_station (m : Nat) : (s.renumberedDone i j).station m = (s.renumbered i j).station m :=
  State.log_station ..

/-- R34: the new entry joins with the old one's serial and kind code. -/
theorem State.renumberedDone_new (h : i ≠ j) (hi : 1 ≤ i) (hj : 1 ≤ j) (hl : j ≤ s.seg.stations.length) :
    (s.renumberedDone i j).station j = (s.station j).join ((s.station i).serial.getD 0) (s.station i).kindCode true :=
  calc (s.renumberedDone i j).station j = (s.renumbered i j).station j := State.renumberedDone_station j
    _ = _ := State.setStation_station_other hi h.symm
    _ = _ := State.setStation_station hj hl

/-- R34: the old entry is freed. -/
theorem State.renumberedDone_old (hi : 1 ≤ i) (hl : i ≤ s.seg.stations.length) :
    (s.renumberedDone i j).station i = (s.station i).freed :=
  (State.renumberedDone_station i).trans (State.setStation_station hi (hl.trans_eq (List.length_set ..).symm))

theorem State.renumberedDone_other (hi : 1 ≤ i) (hj : 1 ≤ j) (hmi : m ≠ i) (hmj : m ≠ j) :
    (s.renumberedDone i j).station m = s.station m :=
  calc (s.renumberedDone i j).station m = (s.renumbered i j).station m := State.renumberedDone_station m
    _ = _ := State.setStation_station_other hi hmi
    _ = _ := State.setStation_station_other hj hmj

theorem State.renumberedDone_events (s : State) (c : CommandCode) (i j : Nat) :
    ((s.during c).renumberedDone i j).mgmt.events = (s.log .station .stationRenumbered j i).mgmt.events :=
  State.log_events_congr (s := s) (t := (s.during c).renumbered i j) rfl rfl .station .stationRenumbered j i 0

/-- R34: a change of number in execution touches the entries and the management unit alone. -/
theorem State.renumberedDone_rest (s : State) (c : CommandCode) (i j : Nat) :
    { (s.during c).renumberedDone i j with seg.stations := s.seg.stations, mgmt := s.mgmt } = s := by
  unfold State.renumberedDone State.log
  split <;> rfl

end

/-! ### LOCK-NUMBER (R35) -/

theorem State.cmdLock_of_outside (h : ¬(1 ≤ n.toNat ∧ n.toNat ≤ 30)) :
    s.cmdLockSet n = s.answer .lockNumber .badIndex ∧ s.cmdLockClear n = s.answer .lockNumber .badIndex :=
  ⟨if_pos (isNumber_eq_false_iff.2 h), if_pos (isNumber_eq_false_iff.2 h)⟩

section
variable (h : 1 ≤ n.toNat ∧ n.toNat ≤ 30)
include h

theorem State.cmdLockSet_of_number : s.cmdLockSet n =
    if (s.station n.toNat).serial.isNone then s.answer .lockNumber .badState
    else (s.setStation n.toNat { s.station n.toNat with lock := true }).answer .lockNumber .done :=
  if_neg (by simp [isNumber_iff.2 h])

theorem State.cmdLockSet_of_unbound (hb : (s.station n.toNat).serial = none) :
    s.cmdLockSet n = s.answer .lockNumber .badState :=
  (State.cmdLockSet_of_number h).trans (if_pos (Option.isNone_iff_eq_none.2 hb))

theorem State.cmdLockSet_of_bound (hb : (s.station n.toNat).serial ≠ none) :
    s.cmdLockSet n = (s.setStation n.toNat { s.station n.toNat with lock := true }).answer .lockNumber .done :=
  (State.cmdLockSet_of_number h).trans (if_neg (Option.isNone_iff_eq_none.not.2 hb))

theorem State.cmdLockClear_of_number : s.cmdLockClear n =
    (s.setStation n.toNat (if (s.station n.toNat).state = .absent then (s.station n.toNat).freed
      else { s.station n.toNat with lock := false })).answer .lockNumber .done :=
  if_neg (by simp [isNumber_iff.2 h])

theorem State.cmdLockClear_of_absent (ha : (s.station n.toNat).state = .absent) : s.cmdLockClear n =
    (s.setStation n.toNat { s.station n.toNat with
      lock := false, serial := none, kindCode := 0, missed := 0, due := false }).answer .lockNumber .done := by
  rw [State.cmdLockClear_of_number h, if_pos ha, Station.freed_of_absent ha]

theorem State.cmdLockClear_of_present (ha : (s.station n.toNat).state ≠ .absent) : s.cmdLockClear n =
    (s.setStation n.toNat { s.station n.toNat with lock := false }).answer .lockNumber .done := by
  rw [State.cmdLockClear_of_number h, if_neg ha]

end

/-- R35, log 61: an action byte outside the two is refused once the number has passed. -/
theorem parseLock_of_other (hn : 1 ≤ n.toNat ∧ n.toNat ≤ 30) (h0 : b ≠ 0) (h1 : b ≠ 1) :
    parseLock [n, b] = .refuse .badValue := by
  unfold parseLock
  split
  · next h => exact absurd (BitVec.eq_of_toNat_eq h) h0
  · next h => exact absurd (BitVec.eq_of_toNat_eq h) h1
  · exact if_pos (isNumber_iff.2 hn)

end

end Sys2Proof.Machine

open Sys2Proof.Machine in
/-- Settles O25, by the checks of each command in their order. -/
theorem Sys2Proof.stationNumberCommands : Obligations.StationNumberCommands := by
  refine ⟨fun old new s q => ?_, fun n s q => ?_, fun n b h1 h30 h0 hb => parseLock_of_other ⟨h1, h30⟩ h0 hb⟩
  · intro d a b inRange
    have renumber : exec (.renumber old new) s = .next (d.cmdRenumber old new) := exec_renumber q
    refine ⟨fun hc => renumber.trans (congrArg _ (State.cmdRenumber_of_ne hc)),
      fun hc hn => renumber.trans (congrArg _ (State.cmdRenumber_of_outside hc hn)), fun hc ho hn => ?_⟩
    have checks := renumber.trans (congrArg _ (State.cmdRenumber_of_numbers (s := d) hc ho hn))
    have oldEntry : d.station old.toNat = a := rfl
    have newEntry : d.station new.toNat = b := rfl
    rw [oldEntry, newEntry] at checks
    refine ⟨fun e => ?_, fun e la => ?_, fun e la sa => ?_, fun e la sa lb => ?_, fun e la sa lb sb => ?_,
      fun sr e la sa serial lb sb hl => ?_⟩
    · rw [checks, if_pos e]
    · simp [checks, e, la]
    · simp [checks, e, la, sa]
    · simp [checks, e, la, sa, lb]
    · simp [checks, e, la, sa, lb, (Station.isFree_eq_false_iff lb).2 sb]
    · have free : ¬b.isFree = false := (Station.isFree_eq_false_iff lb).not.2 (not_not.2 sb)
      have distinct : old.toNat ≠ new.toNat := fun h => e (BitVec.eq_of_toNat_eq h)
      have moved : exec (.renumber old new) s = .next (d.renumberedDone old.toNat new.toNat) := by
        simpa [e, la, sa, lb, free] using checks
      have freed := State.renumberedDone_old (s := d) (j := new.toNat) ho.1 (ho.2.trans hl.ge)
      have joined := State.renumberedDone_new (s := d) distinct ho.1 hn.1 (hn.2.trans hl.ge)
      rw [oldEntry, newEntry, serial] at joined
      exact ⟨_, moved, joined, congrArg Station.state freed, congrArg Station.serial freed, congrArg Station.lock freed,
        fun m hmo hmn => State.renumberedDone_other ho.1 hn.1 hmo hmn, State.answered ..,
        State.renumberedDone_events .., State.renumberedDone_rest s ..⟩
  · intro d e
    have lockSet : exec (.lockNumberSet n) s = .next (d.cmdLockSet n) := exec_lockNumberSet q
    have lockClear : exec (.lockNumberClear n) s = .next (d.cmdLockClear n) := exec_lockNumberClear q
    refine ⟨fun h => ?_, fun h1 h30 => ?_⟩
    · obtain ⟨setRefused, clearRefused⟩ := State.cmdLock_of_outside (s := d) h
      exact ⟨lockSet.trans (congrArg _ setRefused), lockClear.trans (congrArg _ clearRefused)⟩
    · exact ⟨fun h => lockSet.trans (congrArg _ (State.cmdLockSet_of_unbound ⟨h1, h30⟩ h)),
        fun h => lockSet.trans (congrArg _ (State.cmdLockSet_of_bound ⟨h1, h30⟩ h)),
        fun h => lockClear.trans (congrArg _ (State.cmdLockClear_of_absent ⟨h1, h30⟩ h)),
        fun h => lockClear.trans (congrArg _ (State.cmdLockClear_of_present ⟨h1, h30⟩ h))⟩
end

