-- ==== Sys2Proof/Proofs/RolePoints.lean ====
section
/-! PROOFS. Which points the operations of a line leave alone, role by role (R43, R49): a value once shown stays shown, and
a role's input reads as before, through every operation whose owners set other roles. -/

namespace Sys2Proof.Machine

section
variable {a s t : State} {l : LineId} {q r : Role} {m w : Option LineId} {v : Int}

/-! ### The points of a role -/

/-- The points of a role are as they were: the records that stand for it and what they hold. -/
structure RoleKept (q : Role) (s t : State) : Prop where
  find  : ∀ m, t.findPoint q m = s.findPoint q m
  point : ∀ m i, s.findPoint q m = some i → t.point i = s.point i

theorem RoleKept.refl (q : Role) (s : State) : RoleKept q s s := ⟨fun _ => rfl, fun _ _ _ => rfl⟩

theorem RoleKept.of_points (h : RoleKept q a s) (hp : t.points = s.points) : RoleKept q a t := by
  have find : ∀ m, t.findPoint q m = s.findPoint q m := fun m => by simp only [State.findPoint, hp]
  have point : ∀ i, t.point i = s.point i := fun i => by simp only [State.point, hp]
  exact ⟨fun m => (find m).trans (h.find m), fun m i hi => (point i).trans (h.point m i hi)⟩

theorem RoleKept.ite {b : Prop} [Decidable b] (hs : RoleKept q a s) (ht : RoleKept q a t) :
    RoleKept q a (if b then s else t) := by
  split
  · exact hs
  · exact ht

theorem RoleKept.foldl {α : Type} (f : State → α → State) (hf : ∀ s x, RoleKept q a s → RoleKept q a (f s x)) :
    ∀ (xs : List α) (s : State), RoleKept q a s → RoleKept q a (xs.foldl f s)
  | [], _, h => h
  | x :: xs, s, h => RoleKept.foldl f hf xs (f s x) (hf s x h)

/-- R43: the point found for a role is a record of the table with that role. -/
theorem State.findPoint_role {i : Nat} (h : s.findPoint r m = some i) : i < s.points.length ∧ (s.point i).role = r := by
  obtain ⟨hlt, found, _⟩ := List.findIdx?_eq_some_iff_getElem.1 h
  have role : s.points[i].role = r := (of_decide_eq_true found).2.1
  exact ⟨hlt, (congrArg Point.role (List.getD_eq_getElem _ _ hlt)).trans role⟩

/-- R43: an owner leaves the points of every other role alone. -/
theorem RoleKept.own (h : RoleKept q a s) (hq : q ≠ r) : RoleKept q a (s.own r w v) := by
  refine ⟨fun m => (State.own_findPoint ..).trans (h.find m), fun m j hj => ?_⟩
  have other : (s.own r w v).point j = s.point j := by
    rcases s.own_cases r w v with e | ⟨i, hi, _, e⟩
    · rw [e]
    · have apart : i ≠ j := by
        rintro rfl
        have roles := (s.findPoint_role ((h.find m).trans hj)).2.symm.trans (s.findPoint_role hi).2
        exact hq roles
      rw [e, State.setPoint_point_other _ _ _ _ apart]
  exact other.trans (h.point m j hj)

/-! ### Values shown and inputs read -/

/-- R49: an owner's OUTPUT or REPORT shows the value set. -/
theorem State.own_shows (s : State) (hr : r.kind = .output ∨ r.kind = .report) : (s.own r w v).Shows r w v := by
  intro i hi hk
  rw [State.own_findPoint] at hi
  rw [State.own_point_kind] at hk
  have owned : (s.point i).kind = .output ∨ (s.point i).kind = .report := hk ▸ hr
  have set : s.own r w v = s.setPoint i ((s.point i).own v) := by
    unfold State.own
    rw [hi]
    exact if_pos owned
  rw [set, s.setPoint_point i _ (s.findPoint_role hi).1, Point.own_value]

theorem RoleKept.shows (h : RoleKept q s t) (hs : s.Shows q m v) : t.Shows q m v := fun i hi hk => by
  have hi := (h.find m).symm.trans hi
  rw [h.point m i hi] at hk ⊢
  exact hs i hi hk

theorem RoleKept.read (h : RoleKept q s t) (ok : Quality → Bool) (m : Option LineId) : t.read ok q m = s.read ok q m := by
  unfold State.read
  rw [h.find]
  split
  · rfl
  · next i hi => rw [h.point m i hi]

theorem RoleKept.readLevel (h : RoleKept q s t) (ok : Quality → Bool) (m : Option LineId) :
    t.readLevel ok q m = s.readLevel ok q m := by
  unfold State.readLevel
  rw [h.find]
  split
  · rfl
  · next i hi => rw [h.point m i hi]

/-- R72: HOME is read from FEEDER_STATUS alone. -/
theorem RoleKept.homeHigh (h : RoleKept .feederStatus s t) (l : LineId) : t.homeHigh l = s.homeHigh l := by
  unfold State.homeHigh
  rw [h.readLevel]

/-! ### The plain updates -/

theorem RoleKept.setLine {c : Line} (h : RoleKept q a s) : RoleKept q a (s.setLine l c) := h.of_points rfl

theorem RoleKept.setFgc {f : Fgc} (h : RoleKept q a s) : RoleKept q a (s.setFgc l f) := h.of_points rfl

theorem RoleKept.setEnv {e : Envelope} (h : RoleKept q a s) : RoleKept q a { s with env := e } := h.of_points rfl

theorem RoleKept.log {src : Source} {n : EventName} {x y z : Int} (h : RoleKept q a s) :
    RoleKept q a (s.log src n x y z) := h.of_points (State.log_points ..)

theorem RoleKept.oweRun {c : RunCause} (h : RoleKept q a s) : RoleKept q a (s.oweRun c) :=
  h.of_points (State.oweRun_points ..)

/-! ### Caps and dosing loops -/

section
variable (hq : q ≠ .effectiveCap)
include hq

theorem RoleKept.formCap (h : RoleKept q a s) : RoleKept q a (s.formCap l) := by
  unfold State.formCap
  exact .ite h (.oweRun (.own (.setLine h.setEnv) hq))

theorem RoleKept.capSetCore {src : CapSource} (h : RoleKept q a s) : RoleKept q a (s.capSetCore l src v) := by
  unfold State.capSetCore
  exact .ite h (.oweRun (.formCap hq (.log h.setEnv)))

theorem RoleKept.capReleaseCore {src : CapSource} (h : RoleKept q a s) : RoleKept q a (s.capReleaseCore l src) := by
  have formed := RoleKept.formCap (l := l) hq
    (h.setEnv (e := { s.env with caps := s.env.caps.set l ((s.env.caps.get l).set src none) }))
  unfold State.capReleaseCore
  exact .ite h (.ite (RoleKept.setEnv (.oweRun (.log formed))) (.oweRun (.log formed)))

theorem RoleKept.dropRestraint (h : RoleKept q a s) : RoleKept q a (s.dropRestraint l) := by
  unfold State.dropRestraint
  exact .ite (.log (.capReleaseCore hq h.setFgc)) h.setFgc

end

theorem RoleKept.clearSaturated {d : DosingLoop} (h : RoleKept q a s) : RoleKept q a (s.clearSaturated l d) := by
  unfold State.clearSaturated
  exact .ite h.setFgc.log h.setFgc

theorem RoleKept.judgeSaturation {d : DosingLoop} (h : RoleKept q a s) : RoleKept q a (s.judgeSaturation l d) := by
  unfold State.judgeSaturation
  exact .ite (.ite h.setFgc h) h.clearSaturated

theorem RoleKept.runLoops {g : Trigger} (h : RoleKept q a s) (hq : ∀ d, q ≠ loopRole d) : RoleKept q a (s.runLoops l g) := by
  refine .foldl _ (fun s d h => ?_) loopsAll s h
  exact .ite (.judgeSaturation (h.setFgc.own (hq d))) h

theorem RoleKept.stopLoop {d : DosingLoop} (h : RoleKept q a s) (hq : q ≠ loopRole d) : RoleKept q a (s.stopLoop l d) := by
  unfold State.stopLoop
  exact .own h.clearSaturated.setFgc hq

theorem RoleKept.judgeCounting (h : RoleKept q a s) : RoleKept q a (s.judgeCounting l) := by
  unfold State.judgeCounting
  exact .ite (.ite h.setFgc h) h.setFgc

theorem RoleKept.fgcLineState (h : RoleKept q a s)
    (hq : (s.line l).state.operates = false → q ≠ .effectiveCap ∧ ∀ d, q ≠ loopRole d) :
    RoleKept q a (s.fgcLineState l) := by
  unfold State.fgcLineState
  refine .judgeCounting ?_
  split
  · exact h
  · next stopped =>
    obtain ⟨cap, loops⟩ := hq (Bool.eq_false_iff.2 stopped)
    exact .dropRestraint cap (.foldl _ (fun _ d h => h.stopLoop (loops d)) loopsAll s h)

/-! ### Strokes -/

theorem RoleKept.setDue (h : RoleKept q a s) : RoleKept q a (s.setDue l) := by
  unfold State.setDue
  exact .ite h.setLine h

section
variable (hq : q ≠ .feederCommand)
include hq

theorem RoleKept.tryStroke (h : RoleKept q a s) : RoleKept q a (s.tryStroke l) := by
  unfold State.tryStroke
  exact .ite (h.setLine.own hq) h

theorem RoleKept.dropStroke (h : RoleKept q a s) : RoleKept q a (s.dropStroke l) := h.setLine.own hq

theorem RoleKept.withdraw (h : RoleKept q a s) : RoleKept q a (s.withdraw l) := by
  unfold State.withdraw
  split
  · exact h
  · exact (h.dropStroke hq).log

end

end

end Sys2Proof.Machine
end

