-- ==== Sys2Proof/Proofs/LineStateChange.lean ====
section
/-! PROOFS. One change of line state (R60) in its two parts: the line as it enters the new state, with its outputs, and the
hand-over to the allocator and the flue gas unit. What each part sets, and what it leaves alone. -/

namespace Sys2Proof.Machine

section
variable {a s t : State} {l : LineId} {q : Role} {m : Option LineId} {v : Int} {new : LineState} {cause : StateCause}
  {src : CapSource} {c d e : Line} {k : HoldCause}

/-! ### The effective cap at the line controller (R92) -/

/-- The line controller but for its effective cap and D_eff. -/
def Line.CapMoved (c d : Line) : Prop := { d with cap := c.cap, dEff := c.dEff } = c

theorem Line.CapMoved.refl (c : Line) : c.CapMoved c := rfl

theorem Line.CapMoved.trans (h : c.CapMoved d) (k : d.CapMoved e) : c.CapMoved e := by
  unfold Line.CapMoved at *
  rw [← h, ← k]

theorem Line.CapMoved.exists (h : c.CapMoved d) : ∃ x y, d = { c with cap := x, dEff := y } :=
  ⟨d.cap, d.dEff, by rw [← (h : { d with cap := c.cap, dEff := c.dEff } = c)]⟩

theorem State.formCap_line (s : State) (l : LineId) : (s.line l).CapMoved ((s.formCap l).line l) := by
  unfold State.formCap
  dsimp only
  split
  · exact .refl _
  · rw [State.oweRun_line, State.own_line, State.setLine_line]
    rfl

@[simp] theorem State.formCap_fgcs (s : State) (l : LineId) : (s.formCap l).fgcs = s.fgcs := by
  unfold State.formCap
  dsimp only
  split
  · rfl
  · rw [State.oweRun_fgcs, State.own_fgcs, State.setLine_fgcs]

@[simp] theorem State.formCap_caps (s : State) (l : LineId) : (s.formCap l).env.caps = s.env.caps := by
  unfold State.formCap
  dsimp only
  split
  · rfl
  · rw [State.oweRun_env, State.own_env, State.setLine_env]

/-! ### A cap entry set or released (R133) -/

theorem CapList.set_get_self (x : CapList) (src : CapSource) (h : x.get src = none) : x.set src none = x := by
  cases src <;> (unfold CapList.get at h; unfold CapList.set; rw [← h])

/-- R133: the part with another entry of a source. -/
def State.withCap (s : State) (l : LineId) (src : CapSource) (e : Option CapEntry) : State :=
  { s with env.caps := s.env.caps.set l ((s.env.caps.get l).set src e) }

theorem State.withCap_line (s : State) (l : LineId) (src : CapSource) (e : Option CapEntry) (k : LineId) :
    (s.withCap l src e).line k = s.line k := rfl

theorem State.withCap_caps (s : State) (l : LineId) (src : CapSource) (e : Option CapEntry) :
    (s.withCap l src e).env.caps.get l = (s.env.caps.get l).set src e := Two.get_set ..

/-- R133: a cap entry set, and what follows from the new list. -/
theorem State.capSetCore_cases (s : State) (l : LineId) (src : CapSource) (v : Int) :
    (s.capOf l src = some (clampInt v 0 2000).toNat ∧ s.capSetCore l src v = s) ∨
      s.capSetCore l src v = (((s.withCap l src (some ⟨(clampInt v 0 2000).toNat, s.runTime⟩)).log .envelope .capRaised
        (lineNumber l) src.code (clampInt v 0 2000).toNat).formCap l).oweRun .cap := by
  unfold State.capSetCore
  dsimp only
  split
  · next stands => exact .inl ⟨stands, rfl⟩
  · exact .inr rfl

/-- R133: the part once an entry has left its list and the effective cap is formed anew. -/
def State.capDropped (s : State) (l : LineId) (src : CapSource) : State := (s.withCap l src none).formCap l

/-- R133, R145: a cap entry released, logged, with the release timer stopped where no BYPASS entry is left. -/
theorem State.capReleaseCore_cases (s : State) (l : LineId) (src : CapSource) :
    (s.capOf l src = none ∧ s.capReleaseCore l src = s) ∨
      ∃ at_, s.capReleaseCore l src = { ((s.capDropped l src).log .envelope .capReleased (lineNumber l) src.code
        ((s.capDropped l src).env.effCap.get l)).oweRun .cap with env.releaseAt := at_ } := by
  unfold State.capReleaseCore
  dsimp only
  split
  · next absent => exact .inl ⟨absent, rfl⟩
  · split
    · exact .inr ⟨_, rfl⟩
    · exact .inr ⟨_, rfl⟩

theorem State.capReleaseCore_line (s : State) (l : LineId) (src : CapSource) :
    (s.line l).CapMoved ((s.capReleaseCore l src).line l) := by
  rcases s.capReleaseCore_cases l src with ⟨_, h⟩ | ⟨_, h⟩
  · rw [h]
    exact .refl _
  · have same : (s.capReleaseCore l src).line l = (s.capDropped l src).line l := by
      rw [h]
      exact (State.oweRun_line ..).trans (State.log_line ..)
    rw [same]
    exact (s.withCap l src none).formCap_line l

@[simp] theorem State.capReleaseCore_fgcs (s : State) (l : LineId) (src : CapSource) :
    (s.capReleaseCore l src).fgcs = s.fgcs := by
  rcases s.capReleaseCore_cases l src with ⟨_, h⟩ | ⟨_, h⟩
  · rw [h]
  · rw [h]
    exact (State.oweRun_fgcs ..).trans ((State.log_fgcs ..).trans (State.formCap_fgcs ..))

@[simp] theorem State.capReleaseCore_fgc (s : State) (l : LineId) (src : CapSource) (k : LineId) :
    (s.capReleaseCore l src).fgc k = s.fgc k := by simp [State.fgc]

/-- R133: the entry is gone and the others stand. -/
theorem State.capReleaseCore_caps (s : State) (l : LineId) (src : CapSource) :
    (s.capReleaseCore l src).env.caps.get l = (s.env.caps.get l).set src none := by
  rcases s.capReleaseCore_cases l src with ⟨absent, h⟩ | ⟨_, h⟩
  · rw [h, CapList.set_get_self _ _ (Option.map_eq_none_iff.1 absent)]
  · have caps : (s.capReleaseCore l src).env.caps = (s.withCap l src none).env.caps := by
      rw [h]
      simp [State.capDropped]
    rw [caps, State.withCap_caps]

/-! ### Strokes withdrawn (R76) -/

/-- R76: the line controller with no stroke in flight. -/
def Line.withdrawn (c : Line) : Line :=
  if c.stroke = none then c else { c with stroke := none, strokeAt := none, aborted := wrap32 c.aborted }

theorem Line.withdrawn_of_none (h : c.stroke = none) : c.withdrawn = c := if_pos h

theorem Line.withdrawn_of_some {x : Stroke} (h : c.stroke = some x) :
    c.withdrawn = { c with stroke := none, strokeAt := none, aborted := wrap32 c.aborted } := if_neg (by simp [h])

@[simp] theorem Line.withdrawn_stroke (c : Line) : c.withdrawn.stroke = none := by
  unfold Line.withdrawn
  split
  · assumption
  · rfl

/-- R76: a withdrawal touches the stroke, its timeout and the count of aborts. -/
theorem Line.withdrawn_rest (c : Line) :
    { c.withdrawn with stroke := c.stroke, strokeAt := c.strokeAt, aborted := c.aborted } = c := by
  unfold Line.withdrawn
  split <;> rfl

@[simp] theorem Line.withdrawn_page (c : Line) : c.withdrawn.page = c.page :=
  (congrArg Line.page c.withdrawn_rest :)

theorem State.withdraw_of_none (h : (s.line l).stroke = none) : s.withdraw l = s := by
  unfold State.withdraw
  rw [h]

theorem State.withdraw_of_some {x : Stroke} (h : (s.line l).stroke = some x) :
    s.withdraw l = (s.dropStroke l).log (lineSource l) .strokeAborted 0 x.number 2 := by
  unfold State.withdraw
  rw [h]

theorem State.dropStroke_line (s : State) (l : LineId) : (s.dropStroke l).line l =
    { s.line l with stroke := none, strokeAt := none, aborted := wrap32 (s.line l).aborted } :=
  (State.own_line ..).trans (State.setLine_line ..)

theorem State.withdraw_line (s : State) (l : LineId) : (s.withdraw l).line l = (s.line l).withdrawn := by
  cases h : (s.line l).stroke with
  | none => rw [State.withdraw_of_none h, Line.withdrawn_of_none h]
  | some x => rw [State.withdraw_of_some h, State.log_line, State.dropStroke_line, Line.withdrawn_of_some h]

@[simp] theorem State.withdraw_fgcs (s : State) (l : LineId) : (s.withdraw l).fgcs = s.fgcs := by
  unfold State.withdraw
  split <;> simp [State.dropStroke]

@[simp] theorem State.withdraw_runTime (s : State) (l : LineId) : (s.withdraw l).runTime = s.runTime :=
  congrArg (·.tenths / 10) (LineEvent.withdraw l s).clock

/-- R76: a withdrawal logs one event at most. -/
theorem State.withdraw_events_length (s : State) (l : LineId) :
    (s.withdraw l).mgmt.events.length ≤ s.mgmt.events.length + 1 := by
  unfold State.withdraw
  split
  · exact Nat.le_succ _
  · next x _ =>
    obtain ⟨rest, events, short⟩ := (s.dropStroke l).log_events_mono (lineSource l) .strokeAborted 0 x.number 2
    have before : (s.dropStroke l).mgmt = s.mgmt := State.own_mgmt ..
    rw [events, List.length_append, before]
    exact Nat.add_le_add_left short _

theorem State.withdraw_shows {x : Stroke} (h : (s.line l).stroke = some x) :
    (s.withdraw l).Shows .feederCommand (some l) 0 := by
  rw [State.withdraw_of_some h]
  exact (RoleKept.refl _ _).log.shows (State.own_shows _ (.inl rfl))

/-! ### The line enters the new state: strokes, timers, outputs and LINE_STATE (R60) -/

/-- R60, R76: the line controller of a line that enters a state. -/
def Line.changed (c : Line) (new : LineState) (now : Nat) : Line :=
  (if new.feeds then c else c.withdrawn).enter new now

/-- R60: the first three effects of a change of line state, and LINE_STATE. -/
def State.entered (s : State) (l : LineId) (new : LineState) : State :=
  let u := if new.feeds then s else s.withdraw l
  ((u.setLine l ((u.line l).enter new u.runTime)).lineOutputs l new).own .lineState (some l) new.code

@[simp] theorem State.lineOutputs_line (s : State) (l : LineId) (new : LineState) (k : LineId) :
    (s.lineOutputs l new).line k = s.line k := by cases new <;> simp [State.lineOutputs]

@[simp] theorem State.lineOutputs_fgcs (s : State) (l : LineId) (new : LineState) :
    (s.lineOutputs l new).fgcs = s.fgcs := by cases new <;> simp [State.lineOutputs]

@[simp] theorem State.lineOutputs_mgmt (s : State) (l : LineId) (new : LineState) :
    (s.lineOutputs l new).mgmt = s.mgmt := by cases new <;> simp [State.lineOutputs]

theorem State.entered_line (s : State) (l : LineId) (new : LineState) :
    (s.entered l new).line l = (s.line l).changed new s.runTime := by
  unfold State.entered Line.changed
  dsimp only
  rw [State.own_line, State.lineOutputs_line, State.setLine_line]
  split
  · rfl
  · rw [State.withdraw_line, State.withdraw_runTime]

theorem State.entered_fgcs (s : State) (l : LineId) (new : LineState) : (s.entered l new).fgcs = s.fgcs := by
  unfold State.entered
  dsimp only
  split <;> simp

theorem State.entered_events_length (s : State) (l : LineId) (new : LineState) :
    (s.entered l new).mgmt.events.length ≤ s.mgmt.events.length + 1 := by
  unfold State.entered
  dsimp only
  split
  · simp
  · simpa using s.withdraw_events_length l

/-- R60, R78, R79: the outputs that a line entering the state sets beside LINE_STATE. -/
def outputRoles : LineState → List Role
  | .feeding | .feedHold => []
  | .burnout => [.grateSpeed]
  | .off | .tripped => [.grateSpeed, .primaryAir, .secondaryAir]

theorem RoleKept.lineOutputs (h : RoleKept q a s) (hq : q ∉ outputRoles new) : RoleKept q a (s.lineOutputs l new) := by
  have apart : ∀ r ∈ outputRoles new, q ≠ r := fun r hr e => hq (e ▸ hr)
  cases new with
  | feeding => exact h
  | feedHold => exact h
  | burnout => exact h.own (apart _ (by decide))
  | off => exact ((h.own (apart _ (by decide))).own (apart _ (by decide))).own (apart _ (by decide))
  | tripped => exact ((h.own (apart _ (by decide))).own (apart _ (by decide))).own (apart _ (by decide))

theorem RoleKept.entered (h : RoleKept q a s) (hs : q ≠ .lineState) (hq : q ∉ outputRoles new)
    (hw : q = .feederCommand → (s.line l).stroke = none) : RoleKept q a (s.entered l new) := by
  have withdrawn : RoleKept q a (s.withdraw l) := by
    by_cases feeder : q = .feederCommand
    · rw [State.withdraw_of_none (hw feeder)]
      exact h
    · exact h.withdraw feeder
  unfold State.entered
  exact .own (.lineOutputs (.setLine (h.ite withdrawn)) hq) hs

theorem State.entered_shows_lineState (s : State) (l : LineId) (new : LineState) :
    (s.entered l new).Shows .lineState (some l) new.code := State.own_shows _ (.inr rfl)

/-- R78: a line in BURNOUT has its grate at 300. -/
theorem State.entered_shows_burnout (s : State) (l : LineId) :
    (s.entered l .burnout).Shows .grateSpeed (some l) 300 :=
  ((RoleKept.refl _ _).own (by decide)).shows (State.own_shows _ (.inl rfl))

/-- R78, R79: a line in OFF or TRIPPED has its grate and its air at 0. -/
theorem State.entered_shows_stopped (s : State) (l : LineId) (h : new.operates = false) :
    (s.entered l new).Shows .grateSpeed (some l) 0 ∧ (s.entered l new).Shows .primaryAir (some l) 0 ∧
      (s.entered l new).Shows .secondaryAir (some l) 0 := by
  have outputs : ∀ u : State,
      let x := (((u.own .grateSpeed (some l) 0).own .primaryAir (some l) 0).own .secondaryAir (some l) 0).own .lineState
        (some l) new.code
      x.Shows .grateSpeed (some l) 0 ∧ x.Shows .primaryAir (some l) 0 ∧ x.Shows .secondaryAir (some l) 0 := fun u =>
    ⟨((((RoleKept.refl _ _).own (by decide)).own (by decide)).own (by decide)).shows (State.own_shows _ (.inl rfl)),
      (((RoleKept.refl _ _).own (by decide)).own (by decide)).shows (State.own_shows _ (.inl rfl)),
      ((RoleKept.refl _ _).own (by decide)).shows (State.own_shows _ (.inl rfl))⟩
  cases new with
  | off => exact outputs _
  | tripped => exact outputs _
  | feeding => cases h
  | feedHold => cases h
  | burnout => cases h

/-- R76: a stroke withdrawn leaves FEEDER_COMMAND at 0. -/
theorem State.entered_shows_feeder {x : Stroke} (h : (s.line l).stroke = some x) (hn : new.feeds = false) :
    (s.entered l new).Shows .feederCommand (some l) 0 := by
  have withdrawn : (s.withdraw l).Shows .feederCommand (some l) 0 := State.withdraw_shows h
  cases new with
  | feeding => cases hn
  | feedHold => cases hn
  | burnout => exact (((RoleKept.refl _ _).setLine.own (by decide)).own (by decide)).shows withdrawn
  | off =>
    exact (((((RoleKept.refl _ _).setLine.own (by decide)).own (by decide)).own (by decide)).own (by decide)).shows withdrawn
  | tripped =>
    exact (((((RoleKept.refl _ _).setLine.own (by decide)).own (by decide)).own (by decide)).own (by decide)).shows withdrawn

/-! ### The dosing loops and the restraint of a line that stops (R110, R122, R126) -/

@[simp] theorem Three.get_set {α : Type} (x : Three α) (d : DosingLoop) (y : α) : (x.set d y).get d = y := by cases d <;> rfl

theorem Three.get_set_of_ne {α : Type} (x : Three α) {d e : DosingLoop} (h : e ≠ d) (y : α) :
    (x.set d y).get e = x.get e := by
  cases d <;> cases e <;> first | rfl | exact absurd rfl h

@[simp] theorem State.clearSaturated_fgc (s : State) (l : LineId) (d : DosingLoop) : (s.clearSaturated l d).fgc l =
    { s.fgc l with
      loops := (s.fgc l).loops.set d { (s.fgc l).loops.get d with saturated := false, satAt := none }
      minute := (s.fgc l).minute.map fun m => { m with satAll := m.satAll.set d false } } := by
  unfold State.clearSaturated
  dsimp only
  split
  · rw [State.log_fgc, State.setFgc_fgc]
  · rw [State.setFgc_fgc]

@[simp] theorem State.clearSaturated_env (s : State) (l : LineId) (d : DosingLoop) : (s.clearSaturated l d).env = s.env := by
  unfold State.clearSaturated
  dsimp only
  split
  · rw [State.log_env, State.setFgc_env]
  · rw [State.setFgc_env]

@[simp] theorem State.clearSaturated_lines (s : State) (l : LineId) (d : DosingLoop) :
    (s.clearSaturated l d).lines = s.lines := by
  unfold State.clearSaturated
  dsimp only
  split
  · rw [State.log_lines, State.setFgc_lines]
  · rw [State.setFgc_lines]

/-- R110: a loop at rest. -/
def Loop.stopped (x : Loop) : Loop := { x with output := 0, trim := 0, satAt := none, saturated := false }

theorem State.stopLoop_fgc (s : State) (l : LineId) (d : DosingLoop) : (s.stopLoop l d).fgc l =
    { s.fgc l with
      loops := (s.fgc l).loops.set d ((s.fgc l).loops.get d).stopped
      minute := (s.fgc l).minute.map fun m => { m with satAll := m.satAll.set d false } } := by
  unfold State.stopLoop
  dsimp only
  rw [State.own_fgc, State.setFgc_fgc, State.clearSaturated_fgc, Three.get_set]
  cases d <;> rfl

@[simp] theorem State.stopLoop_env (s : State) (l : LineId) (d : DosingLoop) : (s.stopLoop l d).env = s.env := by
  simp [State.stopLoop]

@[simp] theorem State.stopLoop_lines (s : State) (l : LineId) (d : DosingLoop) : (s.stopLoop l d).lines = s.lines := by
  simp [State.stopLoop]

theorem State.stopLoop_shows (s : State) (l : LineId) (d : DosingLoop) : (s.stopLoop l d).Shows (loopRole d) (some l) 0 :=
  State.own_shows _ (.inl (by cases d <;> rfl))

/-- R110: the loops of a line that is OFF or TRIPPED are stopped one after another. -/
def State.stopLoops (s : State) (l : LineId) : State := loopsAll.foldl (init := s) fun s d => s.stopLoop l d

theorem State.stopLoops_eq (s : State) (l : LineId) :
    s.stopLoops l = ((s.stopLoop l .urea).stopLoop l .lime).stopLoop l .carbon := rfl

@[simp] theorem State.stopLoops_env (s : State) (l : LineId) : (s.stopLoops l).env = s.env := by
  simp [State.stopLoops_eq]

@[simp] theorem State.stopLoops_lines (s : State) (l : LineId) : (s.stopLoops l).lines = s.lines := by
  simp [State.stopLoops_eq]

/-- R110: every loop is at rest, and of the unit only the minute's marks of saturation have moved beside. -/
theorem State.stopLoops_fgc (s : State) (l : LineId) :
    (∀ d, ((s.stopLoops l).fgc l).loops.get d = ((s.fgc l).loops.get d).stopped) ∧
    { (s.stopLoops l).fgc l with loops := (s.fgc l).loops, minute := (s.fgc l).minute } = s.fgc l := by
  rw [State.stopLoops_eq, State.stopLoop_fgc, State.stopLoop_fgc, State.stopLoop_fgc]
  exact ⟨fun d => by cases d <;> rfl, rfl⟩

theorem State.stopLoops_shows (s : State) (l : LineId) (d : DosingLoop) :
    (s.stopLoops l).Shows (loopRole d) (some l) 0 := by
  rw [State.stopLoops_eq]
  cases d with
  | urea =>
    exact (((RoleKept.refl _ _).stopLoop (by decide)).stopLoop (by decide)).shows (s.stopLoop_shows l .urea)
  | lime => exact ((RoleKept.refl _ _).stopLoop (by decide)).shows (State.stopLoop_shows _ l .lime)
  | carbon => exact State.stopLoop_shows _ l .carbon

theorem State.dropRestraint_cases (s : State) (l : LineId) :
    ((s.fgc l).capAsked = none ∧ s.dropRestraint l = s.setFgc l { s.fgc l with capAsked := none, lowCloses := 0 }) ∨
      ((s.fgc l).capAsked ≠ none ∧ s.dropRestraint l =
        ((s.setFgc l { s.fgc l with capAsked := none, lowCloses := 0 }).capReleaseCore l .emission).log (fgcSource l)
          .restraintReleased 0 1) := by
  unfold State.dropRestraint
  cases h : (s.fgc l).capAsked with
  | none => exact .inl ⟨rfl, rfl⟩
  | some x => exact .inr ⟨nofun, rfl⟩

/-- R122: no cap stands asked for. -/
theorem State.dropRestraint_fgc (s : State) (l : LineId) :
    (s.dropRestraint l).fgc l = { s.fgc l with capAsked := none, lowCloses := 0 } := by
  rcases s.dropRestraint_cases l with ⟨_, h⟩ | ⟨_, h⟩
  · rw [h, State.setFgc_fgc]
  · rw [h, State.log_fgc, State.capReleaseCore_fgc, State.setFgc_fgc]

theorem State.dropRestraint_line (s : State) (l : LineId) : (s.line l).CapMoved ((s.dropRestraint l).line l) := by
  rcases s.dropRestraint_cases l with ⟨_, h⟩ | ⟨_, h⟩
  · rw [h, State.setFgc_line]
    exact .refl _
  · rw [h, State.log_line]
    exact State.capReleaseCore_line (s.setFgc l { s.fgc l with capAsked := none, lowCloses := 0 }) l .emission

/-- R122: a standing EMISSION cap goes, and no other entry. -/
theorem State.dropRestraint_caps (s : State) (l : LineId) : (s.dropRestraint l).env.caps.get l =
    if (s.fgc l).capAsked = none then s.env.caps.get l else (s.env.caps.get l).set .emission none := by
  rcases s.dropRestraint_cases l with ⟨asked, h⟩ | ⟨asked, h⟩
  · rw [h, if_pos asked]
    rfl
  · rw [h, if_neg asked, State.log_env, State.capReleaseCore_caps]
    rfl

/-- R126: the abnormal-second timer alone is judged. -/
theorem State.judgeCounting_eq (s : State) (l : LineId) :
    ∃ at_, s.judgeCounting l = s.setFgc l { s.fgc l with secondAt := at_ } := by
  unfold State.judgeCounting
  dsimp only
  split
  · split
    · exact ⟨_, rfl⟩
    · refine ⟨(s.fgc l).secondAt, ?_⟩
      show s = { s with fgcs := s.fgcs.set l (s.fgcs.get l) }
      rw [Two.set_get]
  · exact ⟨_, rfl⟩

@[simp] theorem State.judgeCounting_line (s : State) (l : LineId) : (s.judgeCounting l).line l = s.line l := by
  obtain ⟨_, h⟩ := s.judgeCounting_eq l
  rw [h, State.setFgc_line]

@[simp] theorem State.judgeCounting_env (s : State) (l : LineId) : (s.judgeCounting l).env = s.env := by
  obtain ⟨_, h⟩ := s.judgeCounting_eq l
  rw [h, State.setFgc_env]

theorem State.judgeCounting_fgc (s : State) (l : LineId) :
    { (s.judgeCounting l).fgc l with secondAt := (s.fgc l).secondAt } = s.fgc l := by
  obtain ⟨_, h⟩ := s.judgeCounting_eq l
  rw [h, State.setFgc_fgc]

theorem State.fgcLineState_of_operates (h : (s.line l).state.operates = true) : s.fgcLineState l = s.judgeCounting l := by
  unfold State.fgcLineState
  rw [if_pos h]

theorem State.fgcLineState_of_stopped (h : (s.line l).state.operates = false) :
    s.fgcLineState l = ((s.stopLoops l).dropRestraint l).judgeCounting l := by
  unfold State.fgcLineState
  rw [if_neg (by simp [h])]
  rfl

theorem State.fgcLineState_line (s : State) (l : LineId) : (s.line l).CapMoved ((s.fgcLineState l).line l) := by
  cases h : (s.line l).state.operates with
  | true =>
    rw [State.fgcLineState_of_operates h, State.judgeCounting_line]
    exact .refl _
  | false =>
    have stopped := (s.stopLoops l).dropRestraint_line l
    rw [State.line, State.stopLoops_lines] at stopped
    rw [State.fgcLineState_of_stopped h, State.judgeCounting_line]
    exact stopped

/-- R126, R127: the record of abnormal operation is no part of what a change of line state brings. -/
theorem State.fgcLineState_abn (s : State) (l : LineId) : ((s.fgcLineState l).fgc l).abn = (s.fgc l).abn := by
  have counted : ∀ u : State, ((u.judgeCounting l).fgc l).abn = (u.fgc l).abn := fun u =>
    (congrArg Fgc.abn (u.judgeCounting_fgc l) :)
  cases h : (s.line l).state.operates with
  | true => rw [State.fgcLineState_of_operates h, counted]
  | false =>
    rw [State.fgcLineState_of_stopped h, counted, State.dropRestraint_fgc]
    exact (congrArg Fgc.abn (s.stopLoops_fgc l).2 :)

/-! ### The hand-over of a change of line state (R60, R80, R133, R137) -/

/-- R80, R133: the caps that a line leaves behind when it stops feeding, and when it stops. -/
def State.capsLeft (s : State) (l : LineId) (new : LineState) : State :=
  let u := if new.feeds then s else s.capReleaseCore l .feedLimit
  if new.operates then u else u.capReleaseCore l .bypass

/-- R60: the hand-over to the allocator and to the flue gas unit. -/
def State.handedOver (s : State) (l : LineId) (new : LineState) : State :=
  ((s.capsLeft l new).oweRun .line).fgcLineState l

theorem State.changeOnce_of_eq (h : (s.line l).state = new) : s.changeOnce l new cause = s := if_pos h

/-- R60: a change of line state, the event between its two parts. -/
theorem State.changeOnce_of_ne (h : (s.line l).state ≠ new) : s.changeOnce l new cause =
    ((s.entered l new).log (lineSource l) .lineState cause.code (s.line l).state.code new.code).handedOver l new :=
  if_neg h

theorem State.capsLeft_line (s : State) (l : LineId) (new : LineState) :
    (s.line l).CapMoved ((s.capsLeft l new).line l) := by
  have left : (s.line l).CapMoved ((if new.feeds then s else s.capReleaseCore l .feedLimit).line l) := by
    split
    · exact .refl _
    · exact s.capReleaseCore_line l .feedLimit
  unfold State.capsLeft
  dsimp only
  generalize (if new.feeds = true then s else s.capReleaseCore l .feedLimit) = u at left ⊢
  split
  · exact left
  · exact left.trans (u.capReleaseCore_line l .bypass)

@[simp] theorem State.capsLeft_fgc (s : State) (l : LineId) (new : LineState) (k : LineId) :
    (s.capsLeft l new).fgc k = s.fgc k := by
  unfold State.capsLeft
  dsimp only
  split <;> split <;> simp

theorem State.handedOver_line (s : State) (l : LineId) (new : LineState) :
    (s.line l).CapMoved ((s.handedOver l new).line l) := by
  have left := s.capsLeft_line l new
  rw [← State.oweRun_line (s.capsLeft l new) .line] at left
  exact left.trans (((s.capsLeft l new).oweRun .line).fgcLineState_line l)

theorem State.handedOver_abn (s : State) (l : LineId) (new : LineState) :
    ((s.handedOver l new).fgc l).abn = (s.fgc l).abn := by
  unfold State.handedOver
  rw [State.fgcLineState_abn, State.oweRun_fgc, State.capsLeft_fgc]

theorem UpdateFrame.handedOver (h : UpdateFrame a s) : UpdateFrame a (s.handedOver l new) := by
  have left := h.ite (b := new.feeds) (h.capReleaseCore (l := l) (src := .feedLimit))
  exact .fgcLineState (.oweRun (left.ite left.capReleaseCore))

/-- R137: the hand-over to the allocator makes a run due. -/
theorem State.handedOver_owed (s : State) (l : LineId) (new : LineState) :
    Instr.allocationRun .line ∈ (s.handedOver l new).owed := by
  refine (UpdateFrame.refl ((s.capsLeft l new).oweRun .line)).fgcLineState.owed _ ?_
  simp [State.oweRun]

/-- The points that the hand-over of a change of line state may set. -/
def handRoles : LineState → List Role
  | .feeding | .feedHold => []
  | .burnout => [.effectiveCap]
  | .off | .tripped => [.effectiveCap, .ureaDose, .limeDose, .carbonDose]

theorem RoleKept.capsLeft (h : RoleKept q a s) (hq : q ∉ handRoles new) : RoleKept q a (s.capsLeft l new) := by
  have apart : ∀ r ∈ handRoles new, q ≠ r := fun r hr e => hq (e ▸ hr)
  unfold State.capsLeft
  cases new with
  | feeding => exact h
  | feedHold => exact h
  | burnout => exact h.capReleaseCore (apart _ (by decide))
  | off => exact (h.capReleaseCore (apart _ (by decide))).capReleaseCore (apart _ (by decide))
  | tripped => exact (h.capReleaseCore (apart _ (by decide))).capReleaseCore (apart _ (by decide))

theorem RoleKept.handedOver (h : RoleKept q a s) (hs : (s.line l).state = new) (hq : q ∉ handRoles new) :
    RoleKept q a (s.handedOver l new) := by
  refine .fgcLineState (.oweRun (h.capsLeft hq)) fun stopped => ?_
  have state : (((s.capsLeft l new).oweRun .line).line l).state = new := by
    rw [State.oweRun_line]
    exact (congrArg Line.state (s.capsLeft_line l new) :).trans hs
  rw [state] at stopped
  have apart : ∀ r ∈ handRoles new, q ≠ r := fun r hr e => hq (e ▸ hr)
  cases new with
  | off => exact ⟨apart _ (by decide), fun d => apart _ (by cases d <;> decide)⟩
  | tripped => exact ⟨apart _ (by decide), fun d => apart _ (by cases d <;> decide)⟩
  | feeding => cases stopped
  | feedHold => cases stopped
  | burnout => cases stopped

section
variable (hs : (s.line l).state = new) (hn : new.operates = false)
include hs hn

/-- R60, R110, R122, R133: the hand-over of a line that stops. -/
theorem State.handedOver_of_stopped : s.handedOver l new =
    ((((s.capsLeft l new).oweRun .line).stopLoops l).dropRestraint l).judgeCounting l := by
  refine State.fgcLineState_of_stopped ?_
  rw [State.oweRun_line]
  exact (congrArg (fun c : Line => c.state.operates) (s.capsLeft_line l new) :).trans (hs ▸ hn)

/-- R110, R122: the loops are at rest, and no cap stands asked for. -/
theorem State.handedOver_fgc_of_stopped :
    (∀ d, ((s.handedOver l new).fgc l).loops.get d = ((s.fgc l).loops.get d).stopped) ∧
      ((s.handedOver l new).fgc l).capAsked = none := by
  rw [State.handedOver_of_stopped hs hn]
  have counted := State.judgeCounting_fgc ((((s.capsLeft l new).oweRun .line).stopLoops l).dropRestraint l) l
  rw [State.dropRestraint_fgc] at counted
  have rest := (((s.capsLeft l new).oweRun .line).stopLoops_fgc l).1
  rw [State.oweRun_fgc, State.capsLeft_fgc] at rest
  have loops := congrArg Fgc.loops counted
  have asked := congrArg Fgc.capAsked counted
  exact ⟨fun d => (congrArg (·.get d) loops :).trans (rest d), asked⟩

/-- R122, R133: the BYPASS cap is gone, and a standing EMISSION cap with it. -/
theorem State.handedOver_caps_of_stopped : ((s.handedOver l new).env.caps.get l).bypass = none ∧
    ((s.fgc l).capAsked ≠ none → ((s.handedOver l new).env.caps.get l).emission = none) := by
  have left : (s.capsLeft l new).env.caps.get l = ((s.env.caps.get l).set .feedLimit none).set .bypass none := by
    cases new with
    | off => exact (State.capReleaseCore_caps ..).trans (congrArg (·.set .bypass none) (State.capReleaseCore_caps ..))
    | tripped => exact (State.capReleaseCore_caps ..).trans (congrArg (·.set .bypass none) (State.capReleaseCore_caps ..))
    | feeding => cases hn
    | feedHold => cases hn
    | burnout => cases hn
  have asked := congrArg Fgc.capAsked (((s.capsLeft l new).oweRun .line).stopLoops_fgc l).2
  rw [State.oweRun_fgc, State.capsLeft_fgc] at asked
  rw [State.handedOver_of_stopped hs hn, State.judgeCounting_env, State.dropRestraint_caps, State.stopLoops_env,
    State.oweRun_env, left]
  split
  · next none => exact ⟨rfl, fun some => absurd (asked.symm.trans none) some⟩
  · exact ⟨rfl, fun _ => rfl⟩

theorem State.handedOver_shows_of_stopped (d : DosingLoop) : (s.handedOver l new).Shows (loopRole d) (some l) 0 := by
  rw [State.handedOver_of_stopped hs hn]
  have apart : loopRole d ≠ .effectiveCap := by cases d <;> decide
  exact ((RoleKept.refl _ _).dropRestraint apart).judgeCounting.shows (State.stopLoops_shows _ l d)

end

/-! ### A change of line state as a whole -/

theorem State.changeOnce_line (h : (s.line l).state ≠ new) :
    ((s.line l).changed new s.runTime).CapMoved ((s.changeOnce l new cause).line l) := by
  have handed := State.handedOver_line
    ((s.entered l new).log (lineSource l) .lineState cause.code (s.line l).state.code new.code) l new
  rw [State.log_line, State.entered_line] at handed
  rw [State.changeOnce_of_ne h]
  exact handed

theorem State.changeOnce_state (h : (s.line l).state ≠ new) : ((s.changeOnce l new cause).line l).state = new :=
  (congrArg Line.state (State.changeOnce_line h) :)

theorem State.changeOnce_abn (s : State) (l : LineId) (new : LineState) (cause : StateCause) :
    ((s.changeOnce l new cause).fgc l).abn = (s.fgc l).abn := by
  by_cases h : (s.line l).state = new
  · rw [State.changeOnce_of_eq h]
  · rw [State.changeOnce_of_ne h, State.handedOver_abn, State.log_fgc, State.fgc, State.entered_fgcs]
    rfl

theorem State.changeOnce_runTime (s : State) (l : LineId) (new : LineState) (cause : StateCause) :
    (s.changeOnce l new cause).runTime = s.runTime :=
  congrArg (·.tenths / 10) (LineEvent.changeOnce l s new cause).clock

theorem State.changeOnce_owed (h : (s.line l).state ≠ new) :
    Instr.allocationRun .line ∈ (s.changeOnce l new cause).owed := by
  rw [State.changeOnce_of_ne h]
  exact State.handedOver_owed ..

/-- R60: what the line shows on entering the state it shows once the change is over. -/
theorem State.changeOnce_shows (h : (s.line l).state ≠ new) (hq : q ∉ handRoles new)
    (shown : (s.entered l new).Shows q m v) : (s.changeOnce l new cause).Shows q m v := by
  rw [State.changeOnce_of_ne h]
  refine ((RoleKept.refl q (s.entered l new)).log.handedOver ?_ hq).shows shown
  rw [State.log_line, State.entered_line]
  rfl

theorem State.changeOnce_shows_lineState (h : (s.line l).state ≠ new) :
    (s.changeOnce l new cause).Shows .lineState (some l) new.code :=
  State.changeOnce_shows h (by cases new <;> decide) (s.entered_shows_lineState l new)

theorem RoleKept.changeOnce (h : RoleKept q a s) (hs : q ≠ .lineState) (ho : q ∉ outputRoles new)
    (hq : q ∉ handRoles new) (hw : q = .feederCommand → (s.line l).stroke = none) :
    RoleKept q a (s.changeOnce l new cause) := by
  by_cases e : (s.line l).state = new
  · rw [State.changeOnce_of_eq e]
    exact h
  · rw [State.changeOnce_of_ne e]
    refine (h.entered hs ho hw).log.handedOver ?_ hq
    rw [State.log_line, State.entered_line]
    rfl

/-- R188: events in the queue stay there through what an update brings. -/
theorem State.Logged.kept {src : Source} {name : EventName} {x y z : Int} (h : s.Logged src name x y z)
    (k : UpdateFrame s t) : t.Logged src name x y z := by
  obtain ⟨e, he, fields⟩ := h
  exact ⟨e, k.events e he, fields⟩

/-- R60: with room in the queue the change is logged. -/
theorem State.changeOnce_logged (h : (s.line l).state ≠ new) (room : s.mgmt.events.length < 63) :
    (s.changeOnce l new cause).Logged (lineSource l) .lineState cause.code (s.line l).state.code new.code := by
  have short := s.entered_events_length l new
  rw [State.changeOnce_of_ne h]
  exact (State.logged_of_room _ _ _ _ _ _ (by omega)).kept (UpdateFrame.refl _).handedOver

/-! ### Requests for a change of line state (R60, R68, R127) -/

theorem State.toBurnout_of_feeds (h : (s.line l).state.feeds = true) :
    s.toBurnout l cause = s.changeOnce l .burnout cause := if_pos h

theorem State.toBurnout_of_idle (h : (s.line l).state.feeds = false) : s.toBurnout l cause = s := by
  unfold State.toBurnout
  rw [if_neg (by simp [h])]

theorem LineState.ne_of_feeds {x : LineState} (h : x.feeds = true) (hn : new.feeds = false) : x ≠ new := by
  rintro rfl
  rw [h] at hn
  cases hn

/-- R60: into a state that feeds nothing a line goes by one change. -/
theorem State.changeLine_of_idle (h : (s.line l).state ≠ new) (hn : new.feeds = false) :
    s.changeLine l new cause = s.changeOnce l new cause := by
  unfold State.changeLine
  rw [if_neg h]
  exact if_neg (by simp [hn])

/-- R127: while no exhausted condition holds, one change is all. -/
theorem State.changeLine_of_sound (h : (s.line l).state ≠ new) (he : (s.fgc l).abn.exhausted = false) :
    s.changeLine l new cause = s.changeOnce l new cause := by
  unfold State.changeLine
  rw [if_neg h]
  exact if_neg (by simp [State.changeOnce_abn, he])

/-- R127: a request for a state ends in that state, or a request to feed in BURNOUT. -/
theorem State.changeLine_cases (s : State) (l : LineId) (new : LineState) (cause : StateCause) :
    s.changeLine l new cause = s ∨ s.changeLine l new cause = s.changeOnce l new cause ∨
      s.changeLine l new cause = (s.changeOnce l new cause).toBurnout l .forcedStop := by
  unfold State.changeLine
  dsimp only
  split
  · exact .inl rfl
  · split
    · exact .inr (.inr rfl)
    · exact .inr (.inl rfl)

/-! ### Strokes started (R72) -/

/-- R72: the line controller once its next stroke has started. -/
def Line.stroked (c : Line) (now : Nat) : Line :=
  { c with
    lastNumber := nextStroke c.lastNumber
    stroke := some ⟨nextStroke c.lastNumber, now, .out⟩
    strokeAt := some (now + 1000 * c.page.strokeTimeout)
    due := .none }

/-- R72: what lets a stroke start. -/
def State.strokeReady (s : State) (l : LineId) : Prop :=
  (s.line l).isDue s.runTime = true ∧ (s.line l).state = .feeding ∧ (s.line l).permissive = true ∧
    s.homeHigh l = true ∧ (s.line l).stroke = none

theorem State.tryStroke_of_ready (h : s.strokeReady l) : s.tryStroke l =
    (s.setLine l ((s.line l).stroked s.runTime)).own .feederCommand (some l) (nextStroke (s.line l).lastNumber) := if_pos h

theorem State.tryStroke_of_not (h : ¬s.strokeReady l) : s.tryStroke l = s := if_neg h

theorem State.tryStroke_line_of_ready (h : s.strokeReady l) :
    (s.tryStroke l).line l = (s.line l).stroked s.runTime := by
  rw [State.tryStroke_of_ready h, State.own_line, State.setLine_line]

theorem State.tryStroke_shows (h : s.strokeReady l) :
    (s.tryStroke l).Shows .feederCommand (some l) (nextStroke (s.line l).lastNumber) := by
  rw [State.tryStroke_of_ready h]
  exact State.own_shows _ (.inl rfl)

/-- The line controller but for its stroke, its number and its due time. -/
def Line.StrokeMoved (c d : Line) : Prop :=
  { d with lastNumber := c.lastNumber, stroke := c.stroke, strokeAt := c.strokeAt, due := c.due } = c

theorem Line.StrokeMoved.exists (h : c.StrokeMoved d) :
    ∃ n x w u, d = { c with lastNumber := n, stroke := x, strokeAt := w, due := u } :=
  ⟨d.lastNumber, d.stroke, d.strokeAt, d.due, by
    rw [← (h : { d with lastNumber := c.lastNumber, stroke := c.stroke, strokeAt := c.strokeAt, due := c.due } = c)]⟩

theorem State.tryStroke_line (s : State) (l : LineId) : (s.line l).StrokeMoved ((s.tryStroke l).line l) := by
  by_cases h : s.strokeReady l
  · rw [State.tryStroke_line_of_ready h]
    rfl
  · rw [State.tryStroke_of_not h]
    rfl

theorem State.tryStroke_owed (s : State) (l : LineId) : (s.tryStroke l).owed = s.owed := by
  by_cases h : s.strokeReady l
  · rw [State.tryStroke_of_ready h]
    simp
  · rw [State.tryStroke_of_not h]

theorem State.tryStroke_fgcs (s : State) (l : LineId) : (s.tryStroke l).fgcs = s.fgcs := by
  by_cases h : s.strokeReady l
  · rw [State.tryStroke_of_ready h]
    simp
  · rw [State.tryStroke_of_not h]

theorem State.tryStroke_env (s : State) (l : LineId) : (s.tryStroke l).env = s.env := by
  by_cases h : s.strokeReady l
  · rw [State.tryStroke_of_ready h]
    simp
  · rw [State.tryStroke_of_not h]

theorem State.tryStroke_mgmt (s : State) (l : LineId) : (s.tryStroke l).mgmt = s.mgmt := by
  by_cases h : s.strokeReady l
  · rw [State.tryStroke_of_ready h]
    simp
  · rw [State.tryStroke_of_not h]

end

end Sys2Proof.Machine
end

