-- ==== Sys2Proof/Proofs/LineControl.lean ====
section
/-! PROOFS. The four actions of LINE-CONTROL: START (O30), STOP (O31), RESUME (O32) and RESET-TRIP (O33). -/

namespace Sys2Proof.Machine

section
variable {s t : State} {l : LineId} {b : Byte} {c d : Line} {k : HoldCause}

/-! ### The commands in execution -/

theorem exec_start (h : s.Free) : exec (.start b) s = .next ((s.during .lineControl).cmdStart b) :=
  commandForm_of_free (.start b) .lineControl (fun s => s.cmdStart b) s h

theorem exec_stop (h : s.Free) : exec (.stop b) s = .next ((s.during .lineControl).cmdStop b) :=
  commandForm_of_free (.stop b) .lineControl (fun s => s.cmdStop b) s h

theorem exec_resume (h : s.Free) : exec (.resume b) s = .next ((s.during .lineControl).cmdResume b) :=
  commandForm_of_free (.resume b) .lineControl (fun s => s.cmdResume b) s h

theorem exec_resetTrip (h : s.Free) : exec (.resetTrip b) s = .next ((s.during .lineControl).cmdResetTrip b) :=
  commandForm_of_free (.resetTrip b) .lineControl (fun s => s.cmdResetTrip b) s h

/-! ### START (R62) -/

/-- R62: what the checks of START leave standing. -/
theorem State.startCheck_passed (h : s.startCheck l = none) : ((s.line l).state = .off ∨ (s.line l).state = .burnout) ∧
    (s.line l).permissive = true ∧ (s.fgc l).abn.exhausted = false := by
  unfold State.startCheck at h
  dsimp only at h
  split at h
  · cases h
  · next state =>
    split at h
    · cases h
    · split at h
      · cases h
      · split at h
        · cases h
        · next permissive =>
          split at h
          · cases h
          · next exhausted =>
            exact ⟨by simpa [or_iff_not_imp_left] using state, by simpa using permissive, by simpa using exhausted⟩

/-- R62, R95: the part prepared for the change to FEEDING. -/
def State.prepared (s : State) (l : LineId) : State :=
  let u := s.setLine l ((s.line l).prepareStart s.runTime s.clock.plant)
  u.own .lhvUsed (some l) (u.line l).lhvUsed

theorem State.startLine_eq (s : State) (l : LineId) :
    s.startLine l = ((s.prepared l).changeLine l .feeding .start).tryStroke l := rfl

theorem State.prepared_line (s : State) (l : LineId) :
    (s.prepared l).line l = (s.line l).prepareStart s.runTime s.clock.plant :=
  (State.own_line ..).trans (State.setLine_line ..)

theorem State.prepared_runTime (s : State) (l : LineId) : (s.prepared l).runTime = s.runTime :=
  (State.own_runTime ..).trans (State.setLine_runTime ..)

theorem LineEvent.startLine (l : LineId) (s : State) : LineEvent l s (s.startLine l) := by
  have prepared : LineEvent l s (s.prepared l) := .trans (.setLine (by rfl)) (.own l _ _ _ _)
  rw [State.startLine_eq]
  exact prepared.trans (.trans (.changeLine l _ _ _) (.tryStroke l _))

section
variable (h : s.startCheck l = none)
include h

/-- R62: with every check passed the line goes to FEEDING by one change. -/
theorem State.prepared_changeLine :
    (s.prepared l).changeLine l .feeding .start = (s.prepared l).changeOnce l .feeding .start ∧
      ((s.prepared l).line l).state ≠ .feeding := by
  obtain ⟨state, -, exhausted⟩ := State.startCheck_passed h
  have elsewhere : ((s.prepared l).line l).state ≠ .feeding := by
    rw [State.prepared_line]
    show (s.line l).state ≠ .feeding
    rcases state with e | e <;> rw [e] <;> decide
  refine ⟨State.changeLine_of_sound elsewhere ?_, elsewhere⟩
  rw [State.prepared, State.own_fgc, State.setLine_fgc]
  exact exhausted

/-- R62: the line controller on entering FEEDING, before its first stroke. -/
theorem State.startLine_changed :
    (((s.line l).prepareStart s.runTime s.clock.plant).enter .feeding s.runTime).CapMoved
      (((s.prepared l).changeLine l .feeding .start).line l) := by
  obtain ⟨once, elsewhere⟩ := State.prepared_changeLine h
  have changed := State.changeOnce_line (cause := .start) elsewhere
  rw [State.prepared_line, State.prepared_runTime] at changed
  rw [once]
  exact changed

/-- R62, R72: with HOME high the first stroke starts. -/
theorem State.startLine_stroke (home : s.homeHigh l = true) (idle : (s.line l).stroke = none) :
    ((s.startLine l).line l).stroke = some ⟨nextStroke (s.line l).lastNumber, s.runTime, .out⟩ := by
  obtain ⟨once, -⟩ := State.prepared_changeLine h
  obtain ⟨-, permissive, -⟩ := State.startCheck_passed h
  obtain ⟨x, y, line⟩ := (State.startLine_changed h).exists
  have signals : RoleKept .feederStatus s ((s.prepared l).changeLine l .feeding .start) := by
    rw [once]
    exact ((RoleKept.refl _ s).setLine.own (by decide)).changeOnce (by decide) (by decide) (by decide) nofun
  have time : ((s.prepared l).changeLine l .feeding .start).runTime = s.runTime := by
    rw [once, State.changeOnce_runTime, State.prepared_runTime]
  have ready : ((s.prepared l).changeLine l .feeding .start).strokeReady l := by
    unfold State.strokeReady
    rw [line, signals.homeHigh]
    exact ⟨rfl, rfl, permissive, home, idle⟩
  rw [State.startLine_eq, State.tryStroke_line_of_ready ready, line, time]
  rfl

theorem State.startLine_shows : (s.startLine l).Shows .lineState (some l) 1 := by
  obtain ⟨once, elsewhere⟩ := State.prepared_changeLine h
  rw [State.startLine_eq, once]
  exact ((RoleKept.refl _ _).tryStroke (by decide)).shows (State.changeOnce_shows_lineState elsewhere)

theorem State.startLine_owed : Instr.allocationRun .line ∈ (s.startLine l).owed := by
  obtain ⟨once, elsewhere⟩ := State.prepared_changeLine h
  rw [State.startLine_eq, once, State.tryStroke_owed]
  exact State.changeOnce_owed elsewhere

end

theorem State.cmdStart_of_line (hb : lineOf b = some l) (h : s.startCheck l = none) :
    s.cmdStart b = (s.startLine l).answer .lineControl .done := by
  unfold State.cmdStart
  simp only [hb, h]

theorem State.cmdStart_of_refused {data : List Byte} (hb : lineOf b = some l) (h : s.startCheck l = some data) :
    s.cmdStart b = s.answer .lineControl .badState data := by
  unfold State.cmdStart
  simp only [hb, h]

/-! ### STOP (R63) -/

theorem State.cmdStop_of_tripped (hb : lineOf b = some l) (h : (s.line l).state = .tripped) :
    s.cmdStop b = s.answer .lineControl .badState [1] := by
  unfold State.cmdStop
  simp only [hb]
  exact if_pos h

theorem State.cmdStop_of_line (hb : lineOf b = some l) (h : (s.line l).state ≠ .tripped) :
    s.cmdStop b = (s.toBurnout l .stop).answer .lineControl .done := by
  unfold State.cmdStop
  simp only [hb]
  exact if_neg h

/-! ### RESUME (R64, R66) -/

/-- R66: a line whose cause has been removed and logged. -/
def State.causeGone (s : State) (l : LineId) (k : HoldCause) : State :=
  (s.setLine l { s.line l with causes := (s.line l).causes.filter fun x => decide (x ≠ k) }).log (lineSource l)
    .holdCause k.code 0

theorem State.causeGone_line (s : State) (l : LineId) (k : HoldCause) : (s.causeGone l k).line l =
    { s.line l with causes := (s.line l).causes.filter fun x => decide (x ≠ k) } :=
  (State.log_line ..).trans (State.setLine_line ..)

section
variable (hf : (s.line l).state.feeds = true) (hk : k ∈ (s.line l).causes)
include hf hk

theorem State.removeCause_of_last (h : ((s.line l).causes.filter fun x => decide (x ≠ k)) = []) :
    s.removeCause l k = ((s.causeGone l k).changeLine l .feeding .holdCleared).tryStroke l := by
  unfold State.removeCause
  dsimp only
  rw [if_pos ⟨hf, hk⟩, if_pos h]
  rfl

theorem State.removeCause_of_more (h : ((s.line l).causes.filter fun x => decide (x ≠ k)) ≠ []) :
    s.removeCause l k = s.causeGone l k := by
  unfold State.removeCause
  dsimp only
  rw [if_pos ⟨hf, hk⟩, if_neg h]
  rfl

end

/-- R66: a held line whose last cause goes is FEEDING again, before its next stroke. -/
theorem State.causeGone_changed (held : (s.line l).state = .feedHold) (he : (s.fgc l).abn.exhausted = false) :
    ({ s.line l with causes := (s.line l).causes.filter fun x => decide (x ≠ k) }.enter .feeding s.runTime).CapMoved
        (((s.causeGone l k).changeLine l .feeding .holdCleared).line l) ∧
      ((s.causeGone l k).changeLine l .feeding .holdCleared).runTime = s.runTime ∧
      RoleKept .feederStatus s ((s.causeGone l k).changeLine l .feeding .holdCleared) := by
  have elsewhere : ((s.causeGone l k).line l).state ≠ .feeding := by
    rw [State.causeGone_line]
    show (s.line l).state ≠ .feeding
    rw [held]
    decide
  have sound : ((s.causeGone l k).fgc l).abn.exhausted = false := by
    rw [State.causeGone, State.log_fgc, State.setLine_fgc]
    exact he
  have time : (s.causeGone l k).runTime = s.runTime := (State.log_runTime ..).trans (State.setLine_runTime ..)
  have changed := State.changeOnce_line (cause := .holdCleared) elsewhere
  rw [State.causeGone_line, time] at changed
  rw [State.changeLine_of_sound elsewhere sound]
  exact ⟨changed, (State.changeOnce_runTime ..).trans time,
    (RoleKept.refl _ s).setLine.log.changeOnce (by decide) (by decide) (by decide) nofun⟩

theorem State.cmdResume_of_held (hb : lineOf b = some l) (h : (s.line l).state = .feedHold)
    (hk : .strokeTimeout ∈ (s.line l).causes) :
    s.cmdResume b = (s.removeCause l .strokeTimeout).answer .lineControl .done := by
  unfold State.cmdResume
  simp only [hb, h]
  exact if_pos hk

theorem State.cmdResume_of_other (hb : lineOf b = some l) (h : (s.line l).state = .feedHold)
    (hk : .strokeTimeout ∉ (s.line l).causes) : s.cmdResume b = s.answer .lineControl .badState [8] := by
  unfold State.cmdResume
  simp only [hb, h]
  exact if_neg hk

theorem State.cmdResume_of_feeding (hb : lineOf b = some l) (h : (s.line l).state = .feeding) :
    s.cmdResume b = s.answer .lineControl .done := by
  unfold State.cmdResume
  simp only [hb, h]

theorem State.cmdResume_of_idle (hb : lineOf b = some l) (h : (s.line l).state.feeds = false) :
    s.cmdResume b = s.answer .lineControl .badState [1] := by
  unfold State.cmdResume
  simp only [hb]
  cases state : (s.line l).state with
  | off => rfl
  | burnout => rfl
  | tripped => rfl
  | feeding => rw [state] at h; cases h
  | feedHold => rw [state] at h; cases h

/-! ### RESET-TRIP (R65) -/

theorem State.cmdResetTrip_of_other (hb : lineOf b = some l) (h : (s.line l).state ≠ .tripped) :
    s.cmdResetTrip b = s.answer .lineControl .badState [1] := by
  unfold State.cmdResetTrip
  simp only [hb]
  exact if_pos h

theorem State.cmdResetTrip_of_low (hb : lineOf b = some l) (h : (s.line l).state = .tripped)
    (low : s.tripSignalsHigh l = false) : s.cmdResetTrip b = s.answer .lineControl .badState [7] := by
  unfold State.cmdResetTrip
  simp only [hb]
  exact (if_neg (not_not.2 h)).trans (if_pos low)

/-- R65: a tripped line goes to OFF by one change, and its trip record is emptied. -/
theorem State.cmdResetTrip_of_tripped (hb : lineOf b = some l) (h : (s.line l).state = .tripped)
    (high : s.tripSignalsHigh l = true) : s.cmdResetTrip b =
      ((s.changeOnce l .off .resetTrip).setLine l { (s.changeOnce l .off .resetTrip).line l with trip := none }).answer
        .lineControl .done := by
  have once : s.changeLine l .off .resetTrip = s.changeOnce l .off .resetTrip :=
    State.changeLine_of_idle (by rw [h]; decide) rfl
  unfold State.cmdResetTrip
  simp only [hb]
  rw [if_neg (not_not.2 h), if_neg (by simp [high]), once]

/-! ### A line byte outside 1 and 2 -/

theorem State.cmdLine_of_none (hb : lineOf b = none) : s.cmdStart b = s.answer .lineControl .badIndex ∧
    s.cmdStop b = s.answer .lineControl .badIndex ∧ s.cmdResume b = s.answer .lineControl .badIndex ∧
      s.cmdResetTrip b = s.answer .lineControl .badIndex := by
  unfold State.cmdStart State.cmdStop State.cmdResume State.cmdResetTrip
  simp only [hb, and_self]

end

end Sys2Proof.Machine

open Sys2Proof.Machine in
/-- Settles O30: the line prepared, its change to FEEDING, and its first stroke. -/
theorem Sys2Proof.startEntersFeeding : Obligations.StartEntersFeeding := fun b l s q hb => by
  intro c
  refine ⟨fun passed => ?_, fun data refused => ?_⟩
  · have passed : (s.during .lineControl).startCheck l = none := passed
    have started := (exec_start (b := b) q).trans (congrArg _ (State.cmdStart_of_line hb passed))
    have stroke := State.startLine_stroke passed
    have changed := State.startLine_changed passed
    have moved := State.tryStroke_line (((s.during .lineControl).prepared l).changeLine l .feeding .start) l
    rw [← State.startLine_eq] at moved
    obtain ⟨n, x, w, u, line⟩ := moved.exists
    obtain ⟨cap, dEff, fed⟩ := changed.exists
    rw [fed] at line
    refine ⟨_, started, .trans (.startLine l _) (.answer l _ _ _ _), State.answered .., ?_⟩
    rw [State.answer_line]
    refine ⟨?_, ?_, ?_, ?_, ?_, ?_, ?_, ?_, ?_, ?_, ?_, ?_, stroke, State.startLine_shows passed,
      State.startLine_owed passed⟩
    all_goals
      rw [line]
      rfl
  · exact (exec_start q).trans (congrArg _ (State.cmdStart_of_refused hb (s := s.during .lineControl) refused))

open Sys2Proof.Machine in
/-- Settles O31, state by state. -/
theorem Sys2Proof.stopSendsToBurnout : Obligations.StopSendsToBurnout := fun b l s q hb => by
  intro c
  have ends : ∀ u, (s.during .lineControl).cmdStop b = u → exec (.stop b) s = .next u := fun u e => e ▸ exec_stop q
  refine ⟨fun state => ?_, fun state => ?_, fun state => ends _ (State.cmdStop_of_tripped hb state)⟩
  · have feeds : ((s.during .lineControl).line l).state.feeds = true := by
      rcases state with e | e <;> exact (congrArg LineState.feeds e :)
    have elsewhere := LineState.ne_of_feeds (new := .burnout) feeds rfl
    have stopped := State.cmdStop_of_line hb (LineState.ne_of_feeds feeds rfl)
    rw [State.toBurnout_of_feeds feeds] at stopped
    obtain ⟨x, y, line⟩ := (State.changeOnce_line (cause := .stop) elsewhere).exists
    refine ⟨_, ends _ stopped, .trans (.changeOnce l _ _ _) (.answer l _ _ _ _), State.answered .., ?_⟩
    rw [State.answer_line, line]
    refine ⟨rfl, c.withdrawn_stroke, rfl, ?_, fun k hk => ⟨?_, ?_⟩, ?_, State.changeOnce_shows_lineState elsewhere,
      fun room => ?_⟩
    · exact congrArg (fun p : LinePage => some (s.runTime + 60000 * p.burnoutTime)) c.withdrawn_page
    · exact congrArg Line.aborted (Line.withdrawn_of_some hk)
    · exact State.changeOnce_shows elsewhere (by decide) (State.entered_shows_feeder hk rfl)
    · exact State.changeOnce_shows elsewhere (by decide) (State.entered_shows_burnout _ l)
    · exact State.changeOnce_logged (cause := .stop) elsewhere (Nat.lt_of_lt_of_le room (by decide))
  · have idle : ((s.during .lineControl).line l).state.feeds = false := by
      rcases state with e | e <;> exact (congrArg LineState.feeds e :)
    have running : ((s.during .lineControl).line l).state ≠ .tripped := by
      rcases state with e | e <;> exact ne_of_eq_of_ne e (by decide)
    have stopped := State.cmdStop_of_line hb running
    rw [State.toBurnout_of_idle idle] at stopped
    exact ends _ stopped

open Sys2Proof.Machine in
/-- Settles O32, state by state; of a held line, by whether another cause stands. -/
theorem Sys2Proof.resumeRemovesStrokeTimeout : Obligations.ResumeRemovesStrokeTimeout := fun b l s q hb => by
  intro c d
  have ends : ∀ u, d.cmdResume b = u → exec (.resume b) s = .next u := fun u e => e ▸ exec_resume q
  refine ⟨fun held cause sound => ?_, fun held other => ends _ (State.cmdResume_of_other hb held other),
    fun feeding => ends _ (State.cmdResume_of_feeding hb feeding), fun idle => ends _ (State.cmdResume_of_idle hb ?_)⟩
  · have resumed : d.cmdResume b = _ := State.cmdResume_of_held hb held cause
    have feeds : (d.line l).state.feeds = true := (congrArg LineState.feeds held :)
    refine ⟨_, ends _ resumed, .trans (.removeCause l d _) (.answer l _ _ _ _), State.answered .., ?_⟩
    rw [State.answer_line]
    by_cases last : (c.causes.filter fun x => decide (x ≠ .strokeTimeout)) = []
    · obtain ⟨changed, time, signals⟩ := State.causeGone_changed (s := d) (k := .strokeTimeout) held sound
      have moved := State.tryStroke_line ((d.causeGone l .strokeTimeout).changeLine l .feeding .holdCleared) l
      rw [State.removeCause_of_last feeds cause last]
      obtain ⟨cap, dEff, fed⟩ := changed.exists
      obtain ⟨n, x, w, u, line⟩ := moved.exists
      rw [fed] at line
      refine ⟨?_, fun _ => ?_, fun more => absurd ?_ more, fun _ due permissive home idle => ?_⟩
      · rw [line]
        exact last.symm
      · rw [line]
        rfl
      · rw [line]
        rfl
      · have ready : ((d.causeGone l .strokeTimeout).changeLine l .feeding .holdCleared).strokeReady l := by
          unfold State.strokeReady
          rw [fed, time, signals.homeHigh]
          exact ⟨due, rfl, permissive, home, idle⟩
        rw [State.tryStroke_line_of_ready ready, fed, time]
        rfl
    · rw [State.removeCause_of_more feeds cause last, State.causeGone_line]
      exact ⟨rfl, fun none => absurd none last, fun _ => held, fun none => absurd none last⟩
  · rcases idle with e | e | e <;> exact (congrArg LineState.feeds e :)

open Sys2Proof.Machine in
/-- Settles O33: the checks of RESET-TRIP in their order, and the line byte of each action. -/
theorem Sys2Proof.resetTripReturnsToOff : Obligations.ResetTripReturnsToOff := fun b s q => by
  intro d
  have ends : ∀ u, d.cmdResetTrip b = u → exec (.resetTrip b) s = .next u := fun u e => e ▸ exec_resetTrip q
  refine ⟨fun l hb => ⟨fun tripped high => ?_, fun tripped low => ends _ (State.cmdResetTrip_of_low hb tripped low),
    fun other => ends _ (State.cmdResetTrip_of_other hb other)⟩, fun hb => ?_⟩
  · have elsewhere : (d.line l).state ≠ .off := ne_of_eq_of_ne tripped (by decide)
    have reset := State.cmdResetTrip_of_tripped (s := d) hb tripped high
    refine ⟨_, ends _ reset, .trans (.trans (.changeOnce l d _ _) (.setLine (by rfl))) (.answer l _ _ _ _),
      State.answered .., ?_⟩
    rw [State.answer_line, State.setLine_line]
    exact ⟨State.changeOnce_state elsewhere, rfl, State.changeOnce_shows_lineState elsewhere⟩
  · obtain ⟨start, stop, resume, resetTrip⟩ := State.cmdLine_of_none (s := d) hb
    exact ⟨(exec_start q).trans (congrArg _ start), (exec_stop q).trans (congrArg _ stop),
      (exec_resume q).trans (congrArg _ resume), ends _ resetTrip⟩
end

