-- ==== Sys2Proof/Proofs/LineTimers.lean ====
section
/-! PROOFS. The timers of a line and of its strokes: permissive delay (R70), hold limit (R67), burnout time (R68), stroke
timeout (R74) and due time (R71, R72) (O37). -/

namespace Sys2Proof.Machine

section
variable {a s : State} {l : LineId} {q : Role} {c d e : Line} {k : HoldCause} {new : LineState} {cause : StateCause}
  {w : Nat}

/-! ### The events of the timers -/

theorem exec_permissiveDelayExpiry (q : s.Quiet) : exec (.permissiveDelayExpiry l) s = .next (s.permissiveDelay l) :=
  eventForm_of_quiet (fun s => s.permissiveDelay l) s q

theorem exec_lineHoldExpiry (q : s.Quiet) : exec (.lineHoldExpiry l) s = .next (s.lineHoldExpiry l) :=
  eventForm_of_quiet (fun s => s.lineHoldExpiry l) s q

theorem exec_burnoutEnd (q : s.Quiet) : exec (.burnoutEnd l) s = .next (s.burnoutEnd l) :=
  eventForm_of_quiet (fun s => s.burnoutEnd l) s q

theorem exec_strokeTimeout (q : s.Quiet) : exec (.strokeTimeout l) s = .next (s.strokeTimeout l) :=
  eventForm_of_quiet (fun s => s.strokeTimeout l) s q

theorem exec_dueTimeReached (q : s.Quiet) : exec (.dueTimeReached l) s = .next (s.dueTimeReached l) :=
  eventForm_of_quiet (fun s => s.dueTimeReached l) s q

/-! ### Hold causes (R66) -/

/-- What a request for a change of line state leaves of the line controller: the permissive, the completed strokes, and
with no stroke in flight the aborted ones. -/
structure Line.RequestMoved (c d : Line) : Prop where
  permissive : d.permissive = c.permissive
  permAt     : d.permAt = c.permAt
  completed  : d.completed = c.completed
  stroke     : c.stroke = none → d.stroke = none
  strokeAt   : c.stroke = none → d.strokeAt = c.strokeAt
  aborted    : c.stroke = none → d.aborted = c.aborted

theorem Line.RequestMoved.refl (c : Line) : c.RequestMoved c := ⟨rfl, rfl, rfl, id, fun _ => rfl, fun _ => rfl⟩

theorem Line.RequestMoved.trans (h : c.RequestMoved d) (k : d.RequestMoved e) : c.RequestMoved e where
  permissive := k.permissive.trans h.permissive
  permAt := k.permAt.trans h.permAt
  completed := k.completed.trans h.completed
  stroke := fun idle => k.stroke (h.stroke idle)
  strokeAt := fun idle => (k.strokeAt (h.stroke idle)).trans (h.strokeAt idle)
  aborted := fun idle => (k.aborted (h.stroke idle)).trans (h.aborted idle)

theorem Line.changed_request (c : Line) (new : LineState) (now : Nat) : c.RequestMoved (c.changed new now) := by
  have withdrawn : c.RequestMoved c.withdrawn := by
    unfold Line.withdrawn
    split
    · exact .refl c
    · next flying => exact ⟨rfl, rfl, rfl, fun _ => rfl, fun idle => absurd idle flying, fun idle => absurd idle flying⟩
  refine .trans (d := if new.feeds then c else c.withdrawn) ?_ ⟨rfl, rfl, rfl, id, fun _ => rfl, fun _ => rfl⟩
  split
  · exact .refl c
  · exact withdrawn

theorem State.changeOnce_request (s : State) (l : LineId) (new : LineState) (cause : StateCause) :
    (s.line l).RequestMoved ((s.changeOnce l new cause).line l) := by
  by_cases h : (s.line l).state = new
  · rw [State.changeOnce_of_eq h]
    exact .refl _
  · obtain ⟨x, y, line⟩ := (State.changeOnce_line (cause := cause) h).exists
    rw [line]
    exact ((s.line l).changed_request new s.runTime).trans ⟨rfl, rfl, rfl, id, fun _ => rfl, fun _ => rfl⟩

theorem State.toBurnout_request (s : State) (l : LineId) (cause : StateCause) :
    (s.line l).RequestMoved ((s.toBurnout l cause).line l) := by
  unfold State.toBurnout
  split
  · exact s.changeOnce_request l .burnout cause
  · exact .refl _

theorem State.changeLine_request (s : State) (l : LineId) (new : LineState) (cause : StateCause) :
    (s.line l).RequestMoved ((s.changeLine l new cause).line l) := by
  have once := s.changeOnce_request l new cause
  rcases s.changeLine_cases l new cause with h | h | h
  · rw [h]
    exact .refl _
  · rw [h]
    exact once
  · rw [h]
    exact once.trans (State.toBurnout_request _ l .forcedStop)

/-- R66: a cause added and logged, before the line's state follows. -/
def State.causeAdded (s : State) (l : LineId) (k : HoldCause) : State :=
  (s.setLine l { s.line l with causes := (s.line l).causes ++ [k] }).log (lineSource l) .holdCause k.code 1

theorem State.causeAdded_line (s : State) (l : LineId) (k : HoldCause) :
    (s.causeAdded l k).line l = { s.line l with causes := (s.line l).causes ++ [k] } :=
  (State.log_line ..).trans (State.setLine_line ..)

theorem State.addCause_cases (s : State) (l : LineId) (k : HoldCause) :
    s.addCause l k = s ∨ s.addCause l k = (s.causeAdded l k).changeLine l .feedHold .holdSet := by
  unfold State.addCause
  dsimp only
  split
  · exact .inr rfl
  · exact .inl rfl

theorem State.addCause_request (s : State) (l : LineId) (k : HoldCause) :
    (s.line l).RequestMoved ((s.addCause l k).line l) := by
  rcases s.addCause_cases l k with h | h
  · rw [h]
    exact .refl _
  · have added : (s.line l).RequestMoved ((s.causeAdded l k).line l) := by
      rw [State.causeAdded_line]
      exact ⟨rfl, rfl, rfl, id, fun _ => rfl, fun _ => rfl⟩
    rw [h]
    exact added.trans (State.changeLine_request _ l .feedHold .holdSet)

/-- R66, R67: the first cause takes a line from FEEDING to FEED-HOLD. -/
theorem State.addCause_first (feeding : (s.line l).state = .feeding) (first : (s.line l).causes = [])
    (sound : (s.fgc l).abn.exhausted = false) :
    ({ s.line l with causes := [k] }.enter .feedHold s.runTime).CapMoved ((s.addCause l k).line l) := by
  have added : s.addCause l k = (s.causeAdded l k).changeLine l .feedHold .holdSet := by
    unfold State.addCause
    exact if_pos ⟨by rw [feeding]; rfl, by simp [first]⟩
  have line : (s.causeAdded l k).line l = { s.line l with causes := [k] } := by
    rw [State.causeAdded_line, first]
    rfl
  have elsewhere : ((s.causeAdded l k).line l).state ≠ .feedHold := by
    rw [line]
    exact ne_of_eq_of_ne feeding (by decide)
  have time : (s.causeAdded l k).runTime = s.runTime := (State.log_runTime ..).trans (State.setLine_runTime ..)
  have unit : (s.causeAdded l k).fgc l = s.fgc l := (State.log_fgc ..).trans (State.setLine_fgc ..)
  have changed := State.changeOnce_line (cause := .holdSet) elsewhere
  rw [line, time] at changed
  rw [added, State.changeLine_of_sound elsewhere (by rw [unit]; exact sound)]
  exact changed

/-- R50, R66: an idle feeder's command stays as it is while a cause is added. -/
theorem RoleKept.addCause (h : RoleKept .feederCommand a s) (idle : (s.line l).stroke = none) :
    RoleKept .feederCommand a (s.addCause l k) := by
  rcases s.addCause_cases l k with e | e
  · rw [e]
    exact h
  · have idle : ((s.causeAdded l k).line l).stroke = none := by
      rw [State.causeAdded_line]
      exact idle
    have once : RoleKept .feederCommand a ((s.causeAdded l k).changeOnce l .feedHold .holdSet) :=
      h.setLine.log.changeOnce (by decide) (by decide) (by decide) fun _ => idle
    have still := (State.changeOnce_request (s.causeAdded l k) l .feedHold .holdSet).stroke idle
    rw [e]
    rcases (s.causeAdded l k).changeLine_cases l .feedHold .holdSet with e | e | e
    · rw [e]
      exact h.setLine.log
    · rw [e]
      exact once
    · rw [e]
      exact .ite (once.changeOnce (by decide) (by decide) (by decide) fun _ => still) once

/-! ### The permissive (R70) -/

/-- R70: the line controller's permissive is LOST. -/
def State.permissiveGone (s : State) (l : LineId) : State :=
  s.setLine l { s.line l with permissive := false, permAt := none }

/-- R70: the loss logged, before the hold cause follows. -/
def State.permissiveLost (s : State) (l : LineId) : State :=
  (s.permissiveGone l).log (lineSource l) .permissiveLost 0 (s.furnaceTemp l)

theorem State.permissiveLost_line (s : State) (l : LineId) :
    (s.permissiveLost l).line l = { s.line l with permissive := false, permAt := none } :=
  (State.log_line ..).trans (State.setLine_line ..)

theorem State.permissiveLost_runTime (s : State) (l : LineId) : (s.permissiveLost l).runTime = s.runTime :=
  (State.log_runTime ..).trans (State.setLine_runTime ..)

theorem State.permissiveLost_fgc (s : State) (l : LineId) : (s.permissiveLost l).fgc l = s.fgc l :=
  (State.log_fgc ..).trans (State.setLine_fgc ..)

section
variable (h : (s.line l).permAt = some w) (held : (s.line l).permissive = true)
include h held

theorem State.permissiveDelay_of_held : s.permissiveDelay l =
    if (s.line l).state.feeds then ((s.reach w).permissiveLost l).addCause l .permissive
    else (s.reach w).permissiveGone l := by
  have differs : ¬((s.reach w).line l).permissive = false := by
    rw [State.reach_line, held]
    decide
  unfold State.permissiveDelay
  rw [h]
  dsimp only
  unfold State.setPermissive
  rw [if_neg differs, State.reach_line]
  rfl

/-- R70: at the end of the delay the permissive is LOST, whatever the state of the line. -/
theorem State.permissiveDelay_lost :
    ((s.permissiveDelay l).line l).permissive = false ∧ ((s.permissiveDelay l).line l).permAt = none := by
  rw [State.permissiveDelay_of_held h held]
  split
  · have moved := ((s.reach w).permissiveLost l).addCause_request l .permissive
    rw [State.permissiveLost_line] at moved
    exact ⟨moved.permissive, moved.permAt⟩
  · rw [State.permissiveGone, State.setLine_line]
    exact ⟨rfl, rfl⟩

/-- R66, R70: the loss holds a FEEDING line. -/
theorem State.permissiveDelay_holds (feeding : (s.line l).state = .feeding) (first : (s.line l).causes = [])
    (sound : (s.fgc l).abn.exhausted = false) :
    ({ s.line l with permissive := false, permAt := none, causes := [.permissive] }.enter .feedHold
      (s.reach w).runTime).CapMoved ((s.permissiveDelay l).line l) := by
  have line := (s.reach w).permissiveLost_line l
  rw [State.reach_line] at line
  have added := State.addCause_first (s := (s.reach w).permissiveLost l) (l := l) (k := .permissive)
    (by rw [line]; exact feeding) (by rw [line]; exact first)
    (by rw [State.permissiveLost_fgc, State.reach_fgc]; exact sound)
  rw [line, State.permissiveLost_runTime] at added
  rw [State.permissiveDelay_of_held h held, if_pos (by rw [feeding]; rfl)]
  exact added

end

/-! ### Hold limit and burnout time (R67, R68) -/

/-- R67: the end of the hold limit logged, before the line leaves. -/
def State.holdExpired (s : State) (l : LineId) : State :=
  s.log (lineSource l) .holdExpired 0 (causeBits (s.line l).causes)

section
variable (h : (s.line l).holdAt = some w) (held : (s.line l).state = .feedHold)
include h held

theorem State.lineHoldExpiry_of_held : s.lineHoldExpiry l = ((s.reach w).holdExpired l).changeOnce l .burnout .holdLimit := by
  unfold State.lineHoldExpiry
  rw [h]
  refine State.toBurnout_of_feeds ?_
  rw [State.log_line, State.reach_line, held]
  rfl

/-- R67: a held line goes to BURNOUT. -/
theorem State.lineHoldExpiry_line :
    ((s.line l).changed .burnout (s.reach w).runTime).CapMoved ((s.lineHoldExpiry l).line l) := by
  have line : ((s.reach w).holdExpired l).line l = s.line l := (State.log_line ..).trans (State.reach_line ..)
  have time : ((s.reach w).holdExpired l).runTime = (s.reach w).runTime := State.log_runTime ..
  have elsewhere : (((s.reach w).holdExpired l).line l).state ≠ .burnout := by
    rw [line]
    exact ne_of_eq_of_ne held (by decide)
  have changed := State.changeOnce_line (cause := .holdLimit) elsewhere
  rw [line, time] at changed
  rw [State.lineHoldExpiry_of_held h held]
  exact changed

end

theorem State.burnoutEnd_of_burning (h : (s.line l).burnoutAt = some w) (burning : (s.line l).state = .burnout) :
    s.burnoutEnd l = (s.reach w).changeOnce l .off .burnoutEnd ∧ ((s.reach w).line l).state ≠ .off := by
  have elsewhere : ((s.reach w).line l).state ≠ .off := by
    rw [State.reach_line]
    exact ne_of_eq_of_ne burning (by decide)
  refine ⟨?_, elsewhere⟩
  unfold State.burnoutEnd
  rw [h]
  exact State.changeLine_of_idle elsewhere rfl

/-- R60: the line stands in the new state, its flue gas unit as it was, when the change is logged. -/
theorem State.changeLogged_line (s : State) (l : LineId) (new : LineState) (cause : StateCause) :
    (((s.entered l new).log (lineSource l) .lineState cause.code (s.line l).state.code new.code).line l).state = new ∧
      ((s.entered l new).log (lineSource l) .lineState cause.code (s.line l).state.code new.code).fgc l = s.fgc l := by
  rw [State.log_line, State.entered_line, State.log_fgc, State.fgc, State.entered_fgcs]
  exact ⟨rfl, rfl⟩

section
variable (h : (s.line l).state ≠ new) (hn : new.operates = false)
include h hn

/-- R110, R122: the loops of a line that stops are at rest, and show it; no cap stands asked for. -/
theorem State.changeOnce_fgc_of_stopped :
    (∀ d, ((s.changeOnce l new cause).fgc l).loops.get d = ((s.fgc l).loops.get d).stopped ∧
        (s.changeOnce l new cause).Shows (loopRole d) (some l) 0) ∧
      ((s.changeOnce l new cause).fgc l).capAsked = none := by
  obtain ⟨state, unit⟩ := s.changeLogged_line l new cause
  obtain ⟨loops, asked⟩ := State.handedOver_fgc_of_stopped state hn
  rw [unit] at loops
  rw [State.changeOnce_of_ne h]
  exact ⟨fun d => ⟨loops d, State.handedOver_shows_of_stopped state hn d⟩, asked⟩

/-- R122, R133: a line that stops leaves no BYPASS cap, and no EMISSION cap that was asked for. -/
theorem State.changeOnce_caps_of_stopped : ((s.changeOnce l new cause).env.caps.get l).bypass = none ∧
    ((s.fgc l).capAsked ≠ none → ((s.changeOnce l new cause).env.caps.get l).emission = none) := by
  obtain ⟨state, unit⟩ := s.changeLogged_line l new cause
  have caps := State.handedOver_caps_of_stopped state hn
  rw [unit] at caps
  rw [State.changeOnce_of_ne h]
  exact caps

/-- R78, R79: grate and air of a line that stops are at 0. -/
theorem State.changeOnce_shows_stopped : (s.changeOnce l new cause).Shows .grateSpeed (some l) 0 ∧
    (s.changeOnce l new cause).Shows .primaryAir (some l) 0 ∧ (s.changeOnce l new cause).Shows .secondaryAir (some l) 0 := by
  obtain ⟨grate, primary, secondary⟩ := s.entered_shows_stopped l hn
  exact ⟨State.changeOnce_shows h (by cases new <;> decide) grate,
    State.changeOnce_shows h (by cases new <;> decide) primary, State.changeOnce_shows h (by cases new <;> decide) secondary⟩

end

/-! ### Stroke timeout and due time (R71, R72, R74) -/

theorem State.setDue_of_idle (h : (s.line l).stroke = none) : s.setDue l =
    s.setLine l { s.line l with due := (s.line l).due.replace (s.line l).nextDue s.runTime } := if_pos h

theorem State.setDue_of_flying (h : (s.line l).stroke ≠ none) : s.setDue l = s := if_neg h

theorem State.setLine_self (s : State) (l : LineId) : s.setLine l (s.line l) = s := by
  unfold State.setLine State.line
  rw [Two.set_get]

/-- R71: the due time alone is set. -/
theorem State.setDue_eq (s : State) (l : LineId) : ∃ due, s.setDue l = s.setLine l { s.line l with due := due } := by
  by_cases h : (s.line l).stroke = none
  · exact ⟨_, State.setDue_of_idle h⟩
  · exact ⟨(s.line l).due, (State.setDue_of_flying h).trans (s.setLine_self l).symm⟩

@[simp] theorem State.setDue_fgcs (s : State) (l : LineId) : (s.setDue l).fgcs = s.fgcs := by
  obtain ⟨_, h⟩ := s.setDue_eq l
  rw [h, State.setLine_fgcs]

@[simp] theorem State.setDue_env (s : State) (l : LineId) : (s.setDue l).env = s.env := by
  obtain ⟨_, h⟩ := s.setDue_eq l
  rw [h, State.setLine_env]

@[simp] theorem State.setDue_runTime (s : State) (l : LineId) : (s.setDue l).runTime = s.runTime := by
  obtain ⟨_, h⟩ := s.setDue_eq l
  rw [h, State.setLine_runTime]

/-- R74: a stroke aborted at its timeout, before the cause is added. -/
def State.strokeAborted (s : State) (l : LineId) (k : Stroke) : State :=
  ((s.dropStroke l).log (lineSource l) .strokeTimeout 0 k.number k.phase.code).setDue l

theorem State.strokeTimeout_of_flying {k : Stroke} (h : (s.line l).strokeAt = some w) (hk : (s.line l).stroke = some k) :
    s.strokeTimeout l = ((s.reach w).strokeAborted l k).addCause l .strokeTimeout := by
  unfold State.strokeTimeout
  rw [h, hk]
  rfl

/-- R74: the line controller once its stroke is aborted: no mass is counted, no stroke completed. -/
theorem State.strokeAborted_line (s : State) (l : LineId) (k : Stroke) : ∃ due, (s.strokeAborted l k).line l =
    { s.line l with stroke := none, strokeAt := none, aborted := wrap32 (s.line l).aborted, due := due } := by
  obtain ⟨due, h⟩ := State.setDue_eq ((s.dropStroke l).log (lineSource l) .strokeTimeout 0 k.number k.phase.code) l
  exact ⟨due, by rw [State.strokeAborted, h, State.setLine_line, State.log_line, State.dropStroke_line]⟩

theorem State.strokeAborted_fgc (s : State) (l : LineId) (k : Stroke) : (s.strokeAborted l k).fgc l = s.fgc l := by
  simp [State.strokeAborted, State.dropStroke, State.fgc]

theorem State.strokeAborted_shows (s : State) (l : LineId) (k : Stroke) :
    (s.strokeAborted l k).Shows .feederCommand (some l) 0 :=
  (RoleKept.refl _ (s.dropStroke l)).log.setDue.shows (State.own_shows _ (.inl rfl))

/-- R66, R74: the timeout holds a FEEDING line. -/
theorem State.strokeAborted_holds (k : Stroke) (feeding : (s.line l).state = .feeding) (first : (s.line l).causes = [])
    (sound : (s.fgc l).abn.exhausted = false) : (((s.strokeAborted l k).addCause l .strokeTimeout).line l).state = .feedHold ∧
      (((s.strokeAborted l k).addCause l .strokeTimeout).line l).causes = [.strokeTimeout] ∧
      (((s.strokeAborted l k).addCause l .strokeTimeout).line l).entry = (s.line l).entry := by
  obtain ⟨due, line⟩ := s.strokeAborted_line l k
  have added := State.addCause_first (s := s.strokeAborted l k) (l := l) (k := .strokeTimeout)
    (by rw [line]; exact feeding) (by rw [line]; exact first) (by rw [State.strokeAborted_fgc]; exact sound)
  obtain ⟨x, y, held⟩ := added.exists
  rw [held, line]
  exact ⟨rfl, rfl, rfl⟩

theorem LineEvent.strokeAborted (l : LineId) (s : State) (k : Stroke) : LineEvent l s (s.strokeAborted l k) :=
  .trans (.dropStroke l s) (.trans (.log l _ _ _ _ _ _) (.setDue l _))

theorem State.dueTimeReached_of_at (h : (s.line l).due = .at_ w) : s.dueTimeReached l = (s.reach w).tryStroke l := by
  unfold State.dueTimeReached
  rw [h]

/-- R71: a due time has come once run time has come to it. -/
theorem State.isDue_reach (h : (s.line l).due = .at_ w) : ((s.reach w).line l).isDue (s.reach w).runTime = true := by
  rw [State.reach_line, Line.isDue, h]
  exact decide_eq_true ((le_max_right _ _).trans_eq (s.reach_runTime w).symm)

end

end Sys2Proof.Machine

open Sys2Proof.Machine in
/-- Settles O37, timer by timer. -/
theorem Sys2Proof.lineAndStrokeTimers : Obligations.LineAndStrokeTimers := fun l s q => by
  intro c
  refine ⟨fun w at_ held => ?_, fun w at_ held => ?_, fun w at_ burning => ?_, fun w k at_ flying => ?_,
    fun w due => ⟨fun feeding held home idle => ?_, fun blocked => ?_⟩⟩
  · obtain ⟨lost, stopped⟩ := State.permissiveDelay_lost at_ held
    have event : LineEvent l (s.reach w) (s.permissiveDelay l) := by
      unfold State.permissiveDelay
      rw [at_]
      exact .setPermissive l _ _ _
    refine ⟨_, exec_permissiveDelayExpiry q, event, lost, stopped, fun feeding first sound => ?_⟩
    obtain ⟨x, y, line⟩ := (State.permissiveDelay_holds at_ held feeding first sound).exists
    rw [line]
    exact ⟨rfl, rfl, rfl⟩
  · obtain ⟨x, y, line⟩ := (State.lineHoldExpiry_line at_ held).exists
    have ended := State.lineHoldExpiry_of_held at_ held
    refine ⟨_, exec_lineHoldExpiry q, ?_, ?_⟩
    · rw [ended]
      exact .trans (.log l _ _ _ _ _ _) (.changeOnce l _ _ _)
    · rw [line]
      refine ⟨rfl, rfl, rfl, c.withdrawn_stroke, ?_, fun room => ?_⟩
      · exact congrArg (fun p : LinePage => some ((s.reach w).runTime + 60000 * p.burnoutTime)) c.withdrawn_page
      · rw [ended]
        exact (State.logged_of_room (s.reach w) _ _ _ _ _ (Nat.lt_of_lt_of_le room (by decide))).kept
          (UpdateFrame.refl _).changeOnce
  · obtain ⟨ended, elsewhere⟩ := State.burnoutEnd_of_burning at_ burning
    obtain ⟨x, y, line⟩ := (State.changeOnce_line (cause := .burnoutEnd) elsewhere).exists
    obtain ⟨loops, asked⟩ := State.changeOnce_fgc_of_stopped (cause := .burnoutEnd) elsewhere rfl
    obtain ⟨bypass, emission⟩ := State.changeOnce_caps_of_stopped (cause := .burnoutEnd) elsewhere rfl
    obtain ⟨grate, primary, secondary⟩ := State.changeOnce_shows_stopped (cause := .burnoutEnd) elsewhere rfl
    refine ⟨_, (exec_burnoutEnd q).trans (congrArg _ ended), .changeOnce l _ _ _, ?_⟩
    rw [line]
    exact ⟨rfl, rfl, rfl, rfl, State.changeOnce_shows_lineState elsewhere, grate, primary, secondary, asked, emission,
      bypass, loops⟩
  · have ended := State.strokeTimeout_of_flying at_ flying
    obtain ⟨due, line⟩ := (s.reach w).strokeAborted_line l k
    have idle := congrArg Line.stroke line
    have moved := ((s.reach w).strokeAborted l k).addCause_request l .strokeTimeout
    exact ⟨_, (exec_strokeTimeout q).trans (congrArg _ ended), .trans (.strokeAborted l _ k) (.addCause l _ _),
      moved.stroke idle, (moved.strokeAt idle).trans (congrArg Line.strokeAt line),
      (moved.aborted idle).trans (congrArg Line.aborted line), moved.completed.trans (congrArg Line.completed line :),
      ((RoleKept.refl _ _).addCause idle).shows (State.strokeAborted_shows _ l k),
      State.strokeAborted_holds (s := s.reach w) k⟩
  · have ready : (s.reach w).strokeReady l :=
      ⟨State.isDue_reach due, feeding, held, home, idle⟩
    have ended := State.dueTimeReached_of_at due
    refine ⟨_, (exec_dueTimeReached q).trans (congrArg _ ended), .tryStroke l _, State.tryStroke_line_of_ready ready,
      State.tryStroke_shows ready, State.tryStroke_fgcs .., State.tryStroke_env .., State.tryStroke_mgmt ..⟩
  · have still : ¬(s.reach w).strokeReady l := fun ⟨_, feeding, held, home, idle⟩ => by
      rcases blocked with h | h | h | h
      · exact h feeding
      · exact Bool.false_ne_true (h.symm.trans held)
      · exact Bool.false_ne_true (h.symm.trans home)
      · exact h idle
    exact (exec_dueTimeReached q).trans
      (congrArg _ ((State.dueTimeReached_of_at due).trans (State.tryStroke_of_not still)))
end

