-- ==== Sys2Proof/Proofs/ControlPeriod.lean ====
section
/-! PROOFS. CONTROL_PERIOD (O36): the stages (R85, R86, R92 to R94), grate and air (R78, R79), feed saturation (R80), due
time and stroke (R71, R72) and the loops that follow the control period (R105), one after another. -/

namespace Sys2Proof.Machine

section
variable {a s t u : State} {l : LineId} {q : Role} {c d : Line} {steam : Option Int} {g : Trigger}

/-! ### The stages (R85, R86, R92 to R94) -/

/-- R84: the stages of a control period at the line controller. -/
def Line.staged (c : Line) (steam : Option Int) : Line := ((c.stageAB steam).stageF steam).stageGHI

/-- R85, R86, R92 to R94: the stages set the results of the period, the burn entry, the trim and D_eff alone. -/
theorem Line.staged_rest (c : Line) (steam : Option Int) : { c.staged steam with
    qIn := c.qIn, entry := c.entry, trim := c.trim, dEff := c.dEff, qReq := c.qReq, mReq := c.mReq, unclamped := c.unclamped
    interval := c.interval } = c := by
  unfold Line.staged Line.stageGHI
  dsimp only
  cases steam with
  | none => split <;> rfl
  | some f => split <;> rfl

/-- R94: stages G, H and I leave Q_in, the burn entry, the trim and D_eff as they are. -/
theorem Line.stageGHI_before (c : Line) : c.stageGHI.qIn = c.qIn ∧ c.stageGHI.entry = c.entry ∧ c.stageGHI.trim = c.trim ∧
    c.stageGHI.dEff = c.dEff := by
  unfold Line.stageGHI
  dsimp only
  split <;> exact ⟨rfl, rfl, rfl, rfl⟩

/-- R85, R86: Q_in and the burn entry with STEAM_FLOW usable. -/
theorem Line.staged_of_steam (c : Line) (f : Int) :
    (c.staged (some f)).qIn = (clampInt f 0 2000).toNat * c.page.enthalpy / 36 * 1000 / c.page.efficiency ∧
      (c.staged (some f)).entry = c.entry.map fun e =>
        { e with heat := e.heat + (c.staged (some f)).qIn * c.page.period / 1000, periods := e.periods + 1 } := by
  obtain ⟨qIn, entry, -, -⟩ := ((c.stageAB (some f)).stageF (some f)).stageGHI_before
  unfold Line.staged
  rw [qIn, entry]
  exact ⟨rfl, rfl⟩

/-- R86, R92: Q_in, the trim and the burn entry without it. -/
theorem Line.staged_of_none (c : Line) : (c.staged none).qIn = c.qIn ∧ (c.staged none).trim = c.trim ∧
    (c.staged none).entry = c.entry.map fun e => { e with gap := true } := by
  obtain ⟨qIn, entry, trim, -⟩ := ((c.stageAB none).stageF none).stageGHI_before
  unfold Line.staged
  rw [qIn, entry, trim]
  exact ⟨rfl, rfl, rfl⟩

/-- R92: D_eff is at most the effective cap. -/
theorem Line.staged_dEff_le (c : Line) (steam : Option Int) : (c.staged steam).dEff ≤ (c.staged steam).cap := by
  obtain ⟨-, -, -, dEff⟩ := ((c.stageAB steam).stageF steam).stageGHI_before
  have cap : (c.staged steam).cap = c.cap := (congrArg Line.cap (c.staged_rest steam) :)
  have le : ((c.stageAB steam).stageF steam).dEff ≤ (c.stageAB steam).cap := by
    unfold Line.stageF
    dsimp only [clampInt]
    omega
  have same : (c.stageAB steam).cap = c.cap := by cases steam <;> rfl
  rw [cap, ← same]
  exact dEff.trans_le le

/-- R77: the stages do not look at the period under way. -/
theorem Line.staged_period (c : Line) (steam : Option Int) (at_ : Option Nat) (ran : Bool) :
    { c with periodAt := at_, ranPeriod := ran }.staged steam = { c.staged steam with periodAt := at_, ranPeriod := ran } := by
  have last : ∀ d : Line, { d with periodAt := at_, ranPeriod := ran }.stageGHI =
      { d.stageGHI with periodAt := at_, ranPeriod := ran } := fun d => by
    by_cases idle : thermal d.page d.dEff * 3600 / d.lhvUsed = 0
    · have plain : d.stageGHI = _ := if_pos idle
      rw [plain]
      exact if_pos idle
    · have plain : d.stageGHI = _ := if_neg idle
      rw [plain]
      exact if_neg idle
  cases steam with
  | none => exact last ((c.stageAB none).stageF none)
  | some f => exact last ((c.stageAB (some f)).stageF (some f))

/-- The results that a control period shows: Q_in, the trim, Q_req, m_req, the intervals, the mark of a period run and the
O2 trim. -/
def Line.results (c : Line) := (c.qIn, c.trim, c.qReq, c.mReq, c.unclamped, c.interval, c.ranPeriod, c.o2Trim)

/-- R77, R84: the part once the stages have run, with GRATE_SPEED set. -/
def State.periodStaged (s : State) (l : LineId) : State :=
  let steam := s.read Quality.lineOk .steamFlow (some l)
  let c := s.line l
  let u := s.setLine l ({ c with periodAt := some (s.runTime + c.page.period), ranPeriod := true }.staged steam)
  u.own .grateSpeed (some l) (grateSpeed (u.line l).page (u.line l).mReq)

theorem State.periodStaged_line (s : State) (l : LineId) : (s.periodStaged l).line l =
    { (s.line l).staged (s.read Quality.lineOk .steamFlow (some l)) with
      periodAt := some (s.runTime + (s.line l).page.period), ranPeriod := true } :=
  (State.own_line ..).trans ((State.setLine_line ..).trans (Line.staged_period ..))

/-- R78: the grate follows the mass flow of the period. -/
theorem State.periodStaged_shows (s : State) (l : LineId) : (s.periodStaged l).Shows .grateSpeed (some l)
    (grateSpeed (s.line l).page ((s.line l).staged (s.read Quality.lineOk .steamFlow (some l))).mReq) := by
  have line := s.periodStaged_line l
  rw [State.periodStaged, State.own_line] at line
  have page : ((s.line l).staged (s.read Quality.lineOk .steamFlow (some l))).page = (s.line l).page :=
    (congrArg Line.page (Line.staged_rest ..) :)
  unfold State.periodStaged
  dsimp only
  rw [line, page]
  exact State.own_shows _ (.inl rfl)

theorem State.periodStaged_blocks (s : State) (l : LineId) : (s.periodStaged l).fgcs = s.fgcs ∧
    (s.periodStaged l).env = s.env ∧ (s.periodStaged l).runTime = s.runTime := by
  unfold State.periodStaged
  exact ⟨by simp, by simp, by simp⟩

theorem RoleKept.periodStaged (h : RoleKept q a s) (hq : q ≠ .grateSpeed) : RoleKept q a (s.periodStaged l) :=
  h.setLine.own hq

/-! ### The air (R79) -/

theorem State.setAir_line (s : State) (l : LineId) : (s.setAir l).line l = { s.line l with
    o2Trim := o2TrimNext (s.line l).page (s.line l).o2Trim (s.read Quality.lineOk .o2Furnace (some l)) } :=
  (State.own_line ..).trans ((State.own_line ..).trans (State.setLine_line ..))

theorem State.setAir_shows (s : State) (l : LineId) :
    let c := (s.setAir l).line l
    let total := totalAir c.page c.qReq c.o2Trim
    let primary := (total * c.page.split).tdiv 1000
    (s.setAir l).Shows .primaryAir (some l) primary ∧ (s.setAir l).Shows .secondaryAir (some l) (total - primary) := by
  rw [State.setAir_line]
  exact ⟨((RoleKept.refl _ _).own (by decide)).shows (State.own_shows _ (.inl rfl)), State.own_shows _ (.inl rfl)⟩

theorem State.setAir_blocks (s : State) (l : LineId) : (s.setAir l).fgcs = s.fgcs ∧ (s.setAir l).env = s.env ∧
    (s.setAir l).runTime = s.runTime := by
  unfold State.setAir
  exact ⟨by simp, by simp, by simp⟩

theorem RoleKept.setAir (h : RoleKept q a s) (hp : q ≠ .primaryAir) (hs : q ≠ .secondaryAir) :
    RoleKept q a (s.setAir l) := (h.setLine.own hp).own hs

/-! ### Caps that feed saturation sets and releases (R80, R133, R135) -/

/-- R92: the line controller under another effective cap. -/
def Line.capped (c : Line) (x : Nat) : Line := { c with cap := x, dEff := min c.dEff x }

theorem Line.capped_self (h : c.dEff ≤ c.cap) : c.capped c.cap = c := by
  unfold Line.capped
  rw [min_eq_left h]

@[simp] theorem CapList.get_set (x : CapList) (src : CapSource) (e : Option CapEntry) : (x.set src e).get src = e := by
  cases src <;> rfl

section
variable {src : CapSource} {v : Int} (h : (s.line l).dEff ≤ (s.line l).cap)
include h

/-- R92: while D_eff is at most the effective cap, it is lowered with the cap. -/
theorem State.formCap_capped : ∃ x, (s.formCap l).line l = (s.line l).capped x := by
  unfold State.formCap
  dsimp only
  split
  · exact ⟨_, (Line.capped_self h).symm⟩
  · exact ⟨_, (State.oweRun_line ..).trans ((State.own_line ..).trans (State.setLine_line ..))⟩

theorem State.capSetCore_capped : ∃ x, (s.capSetCore l src v).line l = (s.line l).capped x := by
  rcases s.capSetCore_cases l src v with ⟨_, e⟩ | e
  · exact ⟨_, by rw [e, Line.capped_self h]⟩
  · have line := State.log_line (s.withCap l src (some ⟨(clampInt v 0 2000).toNat, s.runTime⟩)) .envelope .capRaised
      (lineNumber l) src.code (clampInt v 0 2000).toNat l
    obtain ⟨x, formed⟩ := State.formCap_capped (line ▸ h)
    exact ⟨x, by rw [e, State.oweRun_line, formed, line, State.withCap_line]⟩

theorem State.capReleaseCore_capped : ∃ x, (s.capReleaseCore l src).line l = (s.line l).capped x := by
  rcases s.capReleaseCore_cases l src with ⟨_, e⟩ | ⟨_, e⟩
  · exact ⟨_, by rw [e, Line.capped_self h]⟩
  · obtain ⟨x, formed⟩ := State.formCap_capped (s := s.withCap l src none) h
    rw [e]
    exact ⟨x, (State.oweRun_line ..).trans ((State.log_line ..).trans formed)⟩

end

/-- R133: the entry set holds the value asked for, clamped. -/
theorem State.capSetCore_capOf (s : State) (l : LineId) (src : CapSource) (v : Int) :
    (s.capSetCore l src v).capOf l src = some (clampInt v 0 2000).toNat := by
  rcases s.capSetCore_cases l src v with ⟨stands, e⟩ | e
  · rw [e, stands]
  · rw [e, State.capOf, State.oweRun_env, State.formCap_caps, State.log_env, State.withCap_caps, CapList.get_set]
    rfl

theorem State.capReleaseCore_capOf (s : State) (l : LineId) (src : CapSource) :
    (s.capReleaseCore l src).capOf l src = none := by
  rw [State.capOf, State.capReleaseCore_caps, CapList.get_set]
  rfl

theorem State.capSetCore_fgcs (s : State) (l : LineId) (src : CapSource) (v : Int) :
    (s.capSetCore l src v).fgcs = s.fgcs := by
  rcases s.capSetCore_cases l src v with ⟨_, e⟩ | e
  · rw [e]
  · rw [e, State.oweRun_fgcs, State.formCap_fgcs, State.log_fgcs]
    rfl

/-- R135: a cap set may send the line to BURNOUT, and does nothing more. -/
theorem State.capSet_cases (s : State) (l : LineId) (src : CapSource) (v : Int) :
    s.capSet l src v = s.capSetCore l src v ∨ s.capSet l src v = (s.capSetCore l src v).toBurnout l .belowFloor := by
  unfold State.capSet State.judgeFloor
  dsimp only
  split
  · exact .inl rfl
  · split
    · exact .inr rfl
    · exact .inl rfl

theorem State.capRelease_cases (s : State) (l : LineId) (src : CapSource) : s.capRelease l src = s.capReleaseCore l src ∨
    s.capRelease l src = (s.capReleaseCore l src).toBurnout l .belowFloor := by
  unfold State.capRelease State.judgeFloor
  dsimp only
  split
  · exact .inl rfl
  · split
    · exact .inr rfl
    · exact .inl rfl

/-! ### Feed saturation (R80) -/

/-- R80: the FEED-LIMIT cap once the low count has come to 3. -/
def limitRaised (steam : Option Int) (stands : Option Nat) : Option Nat :=
  match steam with
  | none => stands
  | some f => if stands.all (fun v => decide (f < (v : Int))) then some (clampInt f 0 2000).toNat else stands

/-- R80: the counts and the FEED-LIMIT cap that a control period leaves. -/
def Line.feedVerdict (c : Line) (steam : Option Int) (stands : Option Nat) : Nat × Nat × Option Nat :=
  if c.state = .feeding then
    if c.saturationCounts.1 = 3 then (0, 0, limitRaised steam stands)
    else if c.saturationCounts.2 = 3 ∧ stands.isSome then (0, 0, none)
    else (c.saturationCounts.1, c.saturationCounts.2, stands)
  else (c.lowCount, c.highCount, stands)

/-- R80: the part once feed saturation has been judged, before the floor of the cap is (R135). -/
structure FeedJudged (l : LineId) (s u : State) (verdict : Nat × Nat × Option Nat) : Prop where
  line    : ∃ x, u.line l = { (s.line l).capped x with lowCount := verdict.1, highCount := verdict.2.1 }
  limit   : u.capOf l .feedLimit = verdict.2.2
  fgcs    : u.fgcs = s.fgcs
  runTime : u.runTime = s.runTime
  roles   : ∀ q, q ≠ .effectiveCap → RoleKept q s u

section
variable {v : Int} {low high : Nat} (h : (s.line l).dEff ≤ (s.line l).cap)
include h

theorem FeedJudged.counted : FeedJudged l s (s.setLine l { s.line l with lowCount := low, highCount := high })
    (low, high, s.capOf l .feedLimit) where
  line := ⟨(s.line l).cap, by rw [State.setLine_line, Line.capped_self h]⟩
  limit := rfl
  fgcs := rfl
  runTime := rfl
  roles := fun q _ => (RoleKept.refl q s).setLine

theorem FeedJudged.raised : FeedJudged l s
    ((s.setLine l { s.line l with lowCount := low, highCount := high }).capSetCore l .feedLimit v)
    (low, high, some (clampInt v 0 2000).toNat) where
  line := by
    obtain ⟨x, line⟩ := State.capSetCore_capped (src := .feedLimit) (v := v)
      (s := s.setLine l { s.line l with lowCount := low, highCount := high }) (l := l) (by rw [State.setLine_line]; exact h)
    exact ⟨x, by rw [line, State.setLine_line]; rfl⟩
  limit := State.capSetCore_capOf ..
  fgcs := State.capSetCore_fgcs ..
  runTime := congrArg (·.tenths / 10) (LineEvent.capSetCore l _ .feedLimit v).clock
  roles := fun q hq => (RoleKept.refl q s).setLine.capSetCore hq

theorem FeedJudged.lifted : FeedJudged l s
    ((s.setLine l { s.line l with lowCount := low, highCount := high }).capReleaseCore l .feedLimit) (low, high, none) where
  line := by
    obtain ⟨x, line⟩ := State.capReleaseCore_capped (src := .feedLimit)
      (s := s.setLine l { s.line l with lowCount := low, highCount := high }) (l := l) (by rw [State.setLine_line]; exact h)
    exact ⟨x, by rw [line, State.setLine_line]; rfl⟩
  limit := State.capReleaseCore_capOf ..
  fgcs := State.capReleaseCore_fgcs ..
  runTime := congrArg (·.tenths / 10) (LineEvent.capReleaseCore l _ .feedLimit).clock
  roles := fun q hq => (RoleKept.refl q s).setLine.capReleaseCore hq

/-- R80: a cap at STEAM_FLOW, where none stands or the one that stands is above it. -/
theorem State.raiseFeedLimit_judged : ∃ u, FeedJudged l s u
      (low, high, limitRaised (s.read Quality.lineOk .steamFlow (some l)) (s.capOf l .feedLimit)) ∧
    ((s.setLine l { s.line l with lowCount := low, highCount := high }).raiseFeedLimit l = u ∨
      (s.setLine l { s.line l with lowCount := low, highCount := high }).raiseFeedLimit l = u.toBurnout l .belowFloor) := by
  have reads : (s.setLine l { s.line l with lowCount := low, highCount := high }).read Quality.lineOk .steamFlow (some l) =
      s.read Quality.lineOk .steamFlow (some l) := rfl
  have stands : (s.setLine l { s.line l with lowCount := low, highCount := high }).capOf l .feedLimit =
      s.capOf l .feedLimit := rfl
  unfold State.raiseFeedLimit limitRaised
  rw [reads, stands]
  cases s.read Quality.lineOk .steamFlow (some l) with
  | none => exact ⟨_, .counted h, .inl rfl⟩
  | some f =>
    cases limit : s.capOf l .feedLimit with
    | none => exact ⟨_, .raised h, State.capSet_cases ..⟩
    | some v =>
      by_cases above : f < (v : Int)
      · have all : (some v).all (fun v => decide (f < (v : Int))) = true := decide_eq_true above
        dsimp only
        rw [if_pos above, if_pos all]
        exact ⟨_, .raised h, State.capSet_cases ..⟩
      · have all : ¬(some v).all (fun v => decide (f < (v : Int))) = true :=
          (decide_eq_true_iff (p := f < (v : Int))).not.2 above
        dsimp only
        rw [if_neg above, if_neg all, ← limit]
        exact ⟨_, .counted h, .inl rfl⟩

/-- R80, R135: feed saturation judged, and the line sent to BURNOUT where its cap comes below the floor. -/
theorem State.feedSaturation_judged : ∃ u, FeedJudged l s u
      ((s.line l).feedVerdict (s.read Quality.lineOk .steamFlow (some l)) (s.capOf l .feedLimit)) ∧
    (s.feedSaturation l = u ∨ s.feedSaturation l = u.toBurnout l .belowFloor) := by
  unfold State.feedSaturation Line.feedVerdict
  dsimp only
  split
  · split
    · exact State.raiseFeedLimit_judged h
    · split
      · exact ⟨_, .lifted h, State.capRelease_cases ..⟩
      · exact ⟨_, .counted h, .inl rfl⟩
  · have same : s.setLine l { s.line l with lowCount := (s.line l).lowCount, highCount := (s.line l).highCount } = s :=
      s.setLine_self l
    have counted := FeedJudged.counted (low := (s.line l).lowCount) (high := (s.line l).highCount) h
    rw [same] at counted
    exact ⟨s, counted, .inl rfl⟩

end

/-- R80: what the verdict is in FEEDING with the low count at 3, with the high count at 3 and a cap standing, and without
either; and out of FEEDING. -/
theorem Line.feedVerdict_cases (c : Line) (steam : Option Int) (stands : Option Nat) :
    (c.state = .feeding → c.saturationCounts.1 = 3 → c.feedVerdict steam stands = (0, 0, limitRaised steam stands)) ∧
      (c.state = .feeding → c.saturationCounts.1 ≠ 3 → c.saturationCounts.2 = 3 → stands ≠ none →
        c.feedVerdict steam stands = (0, 0, none)) ∧
      (c.state = .feeding → c.saturationCounts.1 ≠ 3 → c.saturationCounts.2 ≠ 3 ∨ stands = none →
        c.feedVerdict steam stands = (c.saturationCounts.1, c.saturationCounts.2, stands)) ∧
      (c.state ≠ .feeding → c.feedVerdict steam stands = (c.lowCount, c.highCount, stands)) := by
  unfold Line.feedVerdict
  refine ⟨fun feeding low => ?_, fun feeding low high stand => ?_, fun feeding low other => ?_, fun idle => if_neg idle⟩
  · rw [if_pos feeding, if_pos low]
  · rw [if_pos feeding, if_neg low, if_pos ⟨high, Option.isSome_iff_ne_none.2 stand⟩]
  · have not : ¬(c.saturationCounts.2 = 3 ∧ stands.isSome = true) := fun ⟨high, stand⟩ =>
      other.elim (· high) (Option.isSome_iff_ne_none.1 stand)
    rw [if_pos feeding, if_neg low, if_neg not]

/-- R80: the low and the high count of a period. -/
theorem Line.saturationCounts_eq (c : Line) : c.saturationCounts =
    (if c.mReq = 0 ∨ c.page.iMin * 11 / 10 ≤ c.unclamped then 0
      else if c.unclamped < c.page.iMin then min 3 (c.lowCount + 1) else 0,
    if c.mReq = 0 ∨ c.page.iMin * 11 / 10 ≤ c.unclamped then min 3 (c.highCount + 1) else 0) := by
  unfold Line.saturationCounts
  split
  · rfl
  · split <;> rfl

/-! ### A line sent to BURNOUT by its floor (R135) -/

theorem State.toBurnout_cases (s : State) (l : LineId) (cause : StateCause) : s.toBurnout l cause = s ∨
    ((s.line l).state.feeds = true ∧ s.toBurnout l cause = s.changeOnce l .burnout cause) := by
  cases h : (s.line l).state.feeds with
  | true => exact .inr ⟨rfl, State.toBurnout_of_feeds h⟩
  | false => exact .inl (State.toBurnout_of_idle h)

section
variable (h : (s.line l).dEff ≤ (s.line l).cap)
include h

/-- R80, R135: a line that feed saturation leaves in its state has only been judged. -/
theorem State.feedSaturation_stays : ∃ u, FeedJudged l s u
      ((s.line l).feedVerdict (s.read Quality.lineOk .steamFlow (some l)) (s.capOf l .feedLimit)) ∧
    (((s.feedSaturation l).line l).state = (s.line l).state → s.feedSaturation l = u) := by
  obtain ⟨u, judged, ends⟩ := State.feedSaturation_judged h
  refine ⟨u, judged, fun stays => ?_⟩
  rcases ends with e | e
  · exact e
  · rcases u.toBurnout_cases l .belowFloor with idle | ⟨feeds, burning⟩
    · exact e.trans idle
    · obtain ⟨x, line⟩ := judged.line
      have before : (u.line l).state = (s.line l).state := (congrArg Line.state line :)
      have after : (u.line l).state = .burnout := by
        rw [before, ← stays, e, burning, State.changeOnce_state (LineState.ne_of_feeds feeds rfl)]
      exact absurd after (LineState.ne_of_feeds feeds rfl)

/-- R85, R92 to R94: a line sent to BURNOUT keeps the results of its period. -/
theorem State.feedSaturation_results : ((s.feedSaturation l).line l).results = (s.line l).results := by
  obtain ⟨u, judged, ends⟩ := State.feedSaturation_judged h
  obtain ⟨x, line⟩ := judged.line
  have kept : (u.line l).results = (s.line l).results := (congrArg Line.results line :)
  rcases ends with e | e
  · rw [e, kept]
  · rw [e]
    rcases u.toBurnout_cases l .belowFloor with idle | ⟨feeds, burning⟩
    · rw [idle, kept]
    · have changed := State.changeOnce_line (cause := .belowFloor) (LineState.ne_of_feeds (new := .burnout) feeds rfl)
      have results : ((u.changeOnce l .burnout .belowFloor).line l).results = (u.line l).withdrawn.results :=
        (congrArg Line.results changed :)
      have withdrawn : (u.line l).withdrawn.results = (u.line l).results :=
        (congrArg Line.results (u.line l).withdrawn_rest :)
      rw [burning, results, withdrawn, kept]

/-- R78, R80: the points that feed saturation may set are the cap and those of a line that enters BURNOUT. -/
theorem RoleKept.feedSaturation (hc : q ≠ .effectiveCap) (hs : q ≠ .lineState) (hg : q ≠ .grateSpeed)
    (hf : q ≠ .feederCommand) : RoleKept q s (s.feedSaturation l) := by
  obtain ⟨u, judged, ends⟩ := State.feedSaturation_judged h
  have kept := judged.roles q hc
  rcases ends with e | e
  · rw [e]
    exact kept
  · rw [e]
    exact .ite (kept.changeOnce hs (by simp [outputRoles, hg]) (by simp [handRoles, hc]) fun e => absurd e hf) kept

end

/-! ### Due time and stroke (R71, R72, R94) -/

theorem Line.isDue_iff (c : Line) (now : Nat) :
    c.isDue now = true ↔ c.due = .atOnce ∨ ∃ x, c.due = .at_ x ∧ x ≤ now := by
  unfold Line.isDue
  cases c.due with
  | none => simp
  | atOnce => simp
  | at_ x => simp

/-- R71: the next due time once a control period has run. -/
theorem Line.nextDue_of_ran (h : c.ranPeriod = true) :
    c.nextDue = if c.mReq = 0 then .none else c.lastDone.elim .atOnce fun x => .at_ (x + c.interval) := by
  unfold Line.nextDue
  by_cases idle : c.mReq = 0
  · rw [if_pos ⟨h, idle⟩, if_pos idle]
  · rw [if_neg fun both => idle both.2, if_neg idle]
    cases c.lastDone with
    | none => rfl
    | some x => exact if_pos h

/-- R71, R72: due time and stroke touch the stroke, its timeout, its number and the due time alone. -/
theorem State.dueStroke_line (s : State) (l : LineId) :
    (s.line l).StrokeMoved (((s.setDue l).tryStroke l).line l) := by
  obtain ⟨due, set⟩ := s.setDue_eq l
  have moved := (s.setDue l).tryStroke_line l
  rw [set, State.setLine_line] at moved
  unfold Line.StrokeMoved at moved ⊢
  rw [set]
  exact (congrArg (fun c : Line => { c with due := (s.line l).due }) moved :)

/-- R71, R72: while a stroke is in flight no due time is set and no stroke starts. -/
theorem State.dueStroke_of_flying (h : (s.line l).stroke ≠ none) : (s.setDue l).tryStroke l = s := by
  rw [State.setDue_of_flying h]
  exact State.tryStroke_of_not fun ⟨_, _, _, _, idle⟩ => h idle

section
variable (h : (s.line l).stroke = none)
include h

theorem State.strokeReady_setDue : (s.setDue l).strokeReady l ↔
    (((s.line l).due.replace (s.line l).nextDue s.runTime = .atOnce ∨
      ∃ x, (s.line l).due.replace (s.line l).nextDue s.runTime = .at_ x ∧ x ≤ s.runTime) ∧
    (s.line l).state = .feeding ∧ (s.line l).permissive = true ∧ s.homeHigh l = true) := by
  have signals : (s.setDue l).homeHigh l = s.homeHigh l := (RoleKept.refl _ s).setDue.homeHigh l
  unfold State.strokeReady
  rw [signals, State.setDue_runTime, State.setDue_of_idle h, State.setLine_line, Line.isDue_iff]
  exact ⟨fun ⟨due, state, held, home, _⟩ => ⟨due, state, held, home⟩,
    fun ⟨due, state, held, home⟩ => ⟨due, state, held, home, h⟩⟩

/-- R72: a stroke that may start starts. -/
theorem State.dueStroke_of_ready (ready : (s.setDue l).strokeReady l) :
    (((s.setDue l).tryStroke l).line l).stroke = some ⟨nextStroke (s.line l).lastNumber, s.runTime, .out⟩ ∧
      (((s.setDue l).tryStroke l).line l).due = .none ∧
      (((s.setDue l).tryStroke l).line l).strokeAt = some (s.runTime + 1000 * (s.line l).page.strokeTimeout) ∧
      ((s.setDue l).tryStroke l).Shows .feederCommand (some l) (nextStroke (s.line l).lastNumber) := by
  have line : (s.setDue l).line l = { s.line l with due := (s.line l).due.replace (s.line l).nextDue s.runTime } := by
    rw [State.setDue_of_idle h, State.setLine_line]
  have shown := State.tryStroke_shows ready
  rw [State.tryStroke_line_of_ready ready, State.setDue_runTime, line]
  rw [line] at shown
  exact ⟨rfl, rfl, rfl, shown⟩

/-- R71, R94: otherwise the due time is set. -/
theorem State.dueStroke_of_not (still : ¬(s.setDue l).strokeReady l) :
    (((s.setDue l).tryStroke l).line l).stroke = none ∧
      (((s.setDue l).tryStroke l).line l).due = (s.line l).due.replace (s.line l).nextDue s.runTime := by
  rw [State.tryStroke_of_not still, State.setDue_of_idle h, State.setLine_line]
  exact ⟨h, rfl⟩

end

/-! ### The loops of a trigger (R105 to R109) -/

@[simp] theorem Three.set_get {α : Type} (x : Three α) (d : DosingLoop) : x.set d (x.get d) = x := by cases d <;> rfl

theorem Three.set_set {α : Type} (x : Three α) (d : DosingLoop) (y z : α) : (x.set d y).set d z = x.set d z := by
  cases d <;> rfl

/-- R109: a loop once its saturation has been judged. -/
def Loop.judged (x : Loop) (p : LoopPage) (now : Nat) : Loop :=
  if x.output = p.outputMax then
    if x.satAt = none ∧ x.saturated = false then { x with satAt := some (now + 1000 * p.satTime) } else x
  else { x with saturated := false, satAt := none }

/-- R109: the judgement touches the loop, and of the unit the minute's marks beside. -/
theorem State.judgeSaturation_fgc (s : State) (l : LineId) (d : DosingLoop) : ∃ m, (s.judgeSaturation l d).fgc l =
    { s.fgc l with
      loops := (s.fgc l).loops.set d (((s.fgc l).loops.get d).judged ((s.fgc l).dosing.get d) s.runTime), minute := m } := by
  unfold State.judgeSaturation Loop.judged
  dsimp only
  split
  · split
    · exact ⟨_, State.setFgc_fgc ..⟩
    · exact ⟨(s.fgc l).minute, by rw [Three.set_get]⟩
  · exact ⟨_, State.clearSaturated_fgc ..⟩

/-- R105: base, trim and output of a loop's run. -/
def Loop.driven (x : Loop) (p : LoopPage) (d : DosingLoop) (base : Nat) (input : Option Nat) : Loop :=
  { x with base := base, trim := loopTrim p x.trim input, output := loopOutput p d base (loopTrim p x.trim input) }

/-- R105 to R109: a loop after a run of its unit. -/
def Fgc.loopRun (f : Fgc) (d : DosingLoop) (qIn mReq now : Nat) : Loop :=
  ((f.loops.get d).driven (f.dosing.get d) d (loopBase d (f.dosing.get d).ratio qIn mReq) (trimInput now f d)).judged
    (f.dosing.get d) now

theorem State.runLoop_fgc (s : State) (l : LineId) (d : DosingLoop) : ∃ m, (s.runLoop l d).fgc l =
    { s.fgc l with
      loops := (s.fgc l).loops.set d ((s.fgc l).loopRun d (s.line l).qIn (s.line l).mReq s.runTime), minute := m } := by
  unfold State.runLoop
  dsimp only
  generalize setv : State.own _ _ _ _ = v
  have unit : v.fgc l = { s.fgc l with loops := (s.fgc l).loops.set d (((s.fgc l).loops.get d).driven
      ((s.fgc l).dosing.get d) d (loopBase d ((s.fgc l).dosing.get d).ratio (s.line l).qIn (s.line l).mReq)
        (trimInput s.runTime (s.fgc l) d)) } := by
    rw [← setv, State.own_fgc, State.setFgc_fgc]
    rfl
  have time : v.runTime = s.runTime := by
    rw [← setv, State.own_runTime, State.setFgc_runTime]
  obtain ⟨m, judged⟩ := v.judgeSaturation_fgc l d
  refine ⟨m, judged.trans ?_⟩
  rw [unit, time, Three.get_set, Three.set_set]
  rfl

@[simp] theorem State.judgeSaturation_lines (s : State) (l : LineId) (d : DosingLoop) :
    (s.judgeSaturation l d).lines = s.lines := by
  unfold State.judgeSaturation
  dsimp only
  split
  · split
    · exact State.setFgc_lines ..
    · rfl
  · exact State.clearSaturated_lines ..

@[simp] theorem State.judgeSaturation_env (s : State) (l : LineId) (d : DosingLoop) :
    (s.judgeSaturation l d).env = s.env := by
  unfold State.judgeSaturation
  dsimp only
  split
  · split
    · exact State.setFgc_env ..
    · rfl
  · exact State.clearSaturated_env ..

@[simp] theorem State.runLoop_lines (s : State) (l : LineId) (d : DosingLoop) : (s.runLoop l d).lines = s.lines := by
  simp [State.runLoop]

@[simp] theorem State.runLoop_env (s : State) (l : LineId) (d : DosingLoop) : (s.runLoop l d).env = s.env := by
  simp [State.runLoop]

/-- R105: a loop that the trigger runs, or one that it leaves. -/
def State.triggered (s : State) (l : LineId) (g : Trigger) (d : DosingLoop) : State :=
  if ((s.fgc l).dosing.get d).trigger = g ∧ triggerComes g (s.line l).state then s.runLoop l d else s

theorem State.runLoops_eq (s : State) (l : LineId) (g : Trigger) :
    s.runLoops l g = ((s.triggered l g .urea).triggered l g .lime).triggered l g .carbon := rfl

@[simp] theorem State.triggered_lines (s : State) (l : LineId) (g : Trigger) (d : DosingLoop) :
    (s.triggered l g d).lines = s.lines := by
  unfold State.triggered
  split
  · exact State.runLoop_lines ..
  · rfl

@[simp] theorem State.triggered_env (s : State) (l : LineId) (g : Trigger) (d : DosingLoop) :
    (s.triggered l g d).env = s.env := by
  unfold State.triggered
  split
  · exact State.runLoop_env ..
  · rfl

@[simp] theorem State.triggered_runTime (s : State) (l : LineId) (g : Trigger) (d : DosingLoop) :
    (s.triggered l g d).runTime = s.runTime := by
  unfold State.triggered
  split
  · exact congrArg (·.tenths / 10) (LineEvent.runLoop l s d).clock
  · rfl

@[simp] theorem State.triggered_line (s : State) (l : LineId) (g : Trigger) (d : DosingLoop) :
    (s.triggered l g d).line l = s.line l := by simp [State.line]

/-- R105: a loop after the trigger's event. -/
def State.loopAfter (s : State) (l : LineId) (g : Trigger) (d : DosingLoop) : Loop :=
  if ((s.fgc l).dosing.get d).trigger = g ∧ triggerComes g (s.line l).state then
    (s.fgc l).loopRun d (s.line l).qIn (s.line l).mReq s.runTime
  else (s.fgc l).loops.get d

/-- R105: the loop alone, and the minute's marks. -/
theorem State.triggered_fgc (s : State) (l : LineId) (g : Trigger) (d : DosingLoop) : ∃ m, (s.triggered l g d).fgc l =
    { s.fgc l with loops := (s.fgc l).loops.set d (s.loopAfter l g d), minute := m } := by
  unfold State.triggered State.loopAfter
  split
  · exact s.runLoop_fgc l d
  · exact ⟨(s.fgc l).minute, by rw [Three.set_get]⟩

theorem State.triggered_loops (s : State) (l : LineId) (g : Trigger) (d : DosingLoop) :
    ((s.triggered l g d).fgc l).loops.get d = s.loopAfter l g d := by
  obtain ⟨_, unit⟩ := s.triggered_fgc l g d
  rw [unit]
  exact Three.get_set ..

section
variable {d e : DosingLoop} (h : d ≠ e)
include h

/-- R105: a loop does not look at the others. -/
theorem State.triggered_loops_other (s : State) (l : LineId) (g : Trigger) :
    ((s.triggered l g e).fgc l).loops.get d = (s.fgc l).loops.get d := by
  obtain ⟨_, unit⟩ := s.triggered_fgc l g e
  rw [unit]
  exact Three.get_set_of_ne _ h _

theorem State.triggered_loopAfter (s : State) (l : LineId) (g : Trigger) :
    (s.triggered l g e).loopAfter l g d = s.loopAfter l g d := by
  obtain ⟨m, unit⟩ := s.triggered_fgc l g e
  have loop := State.triggered_loops_other h s l g
  have run : ((s.triggered l g e).fgc l).loopRun d (s.line l).qIn (s.line l).mReq s.runTime =
      (s.fgc l).loopRun d (s.line l).qIn (s.line l).mReq s.runTime := by
    have input : trimInput s.runTime ((s.triggered l g e).fgc l) d = trimInput s.runTime (s.fgc l) d := by
      rw [unit]
      cases d <;> rfl
    have dosing : ((s.triggered l g e).fgc l).dosing = (s.fgc l).dosing := (congrArg Fgc.dosing unit :)
    unfold Fgc.loopRun
    rw [loop, input, dosing]
  have dosing : ((s.triggered l g e).fgc l).dosing = (s.fgc l).dosing := (congrArg Fgc.dosing unit :)
  unfold State.loopAfter
  rw [State.triggered_line, State.triggered_runTime, run, loop, dosing]

end

@[simp] theorem State.runLoops_line (s : State) (l : LineId) (g : Trigger) : (s.runLoops l g).line l = s.line l := by
  simp [State.runLoops_eq, State.line]

@[simp] theorem State.runLoops_env (s : State) (l : LineId) (g : Trigger) : (s.runLoops l g).env = s.env := by
  simp [State.runLoops_eq]

/-- R105: each loop of the trigger has run once, on the unit as it was before. -/
theorem State.runLoops_loops (s : State) (l : LineId) (g : Trigger) (d : DosingLoop) :
    ((s.runLoops l g).fgc l).loops.get d = s.loopAfter l g d := by
  rw [State.runLoops_eq]
  cases d with
  | urea =>
    rw [State.triggered_loops_other (by decide), State.triggered_loops_other (by decide), State.triggered_loops]
  | lime => rw [State.triggered_loops_other (by decide), State.triggered_loops, State.triggered_loopAfter (by decide)]
  | carbon =>
    rw [State.triggered_loops, State.triggered_loopAfter (by decide), State.triggered_loopAfter (by decide)]

/-! ### The control period as a whole (R77, R84) -/

/-- R77: the line controller once the stages and the air of a control period are done. -/
def State.periodLine (s : State) (l : LineId) : Line :=
  { (s.line l).staged (s.read Quality.lineOk .steamFlow (some l)) with
    periodAt := some (s.runTime + (s.line l).page.period)
    ranPeriod := true
    o2Trim := o2TrimNext (s.line l).page (s.line l).o2Trim (s.read Quality.lineOk .o2Furnace (some l)) }

/-- R77: what of the line controller the stages and the air leave as it was. -/
theorem State.periodLine_rest (s : State) (l : LineId) : { s.periodLine l with
    qIn := (s.line l).qIn, entry := (s.line l).entry, trim := (s.line l).trim, dEff := (s.line l).dEff
    qReq := (s.line l).qReq, mReq := (s.line l).mReq, unclamped := (s.line l).unclamped, interval := (s.line l).interval
    periodAt := (s.line l).periodAt, ranPeriod := (s.line l).ranPeriod, o2Trim := (s.line l).o2Trim } = s.line l :=
  (congrArg (fun c : Line => { c with
    periodAt := (s.line l).periodAt, ranPeriod := (s.line l).ranPeriod, o2Trim := (s.line l).o2Trim })
    ((s.line l).staged_rest (s.read Quality.lineOk .steamFlow (some l))) :)

/-- R77, R84: the part before feed saturation is judged. -/
def State.periodAired (s : State) (l : LineId) : State := (s.periodStaged l).setAir l

theorem State.periodAired_line (s : State) (l : LineId) : (s.periodAired l).line l = s.periodLine l := by
  have page : ((s.line l).staged (s.read Quality.lineOk .steamFlow (some l))).page = (s.line l).page :=
    (congrArg Line.page (Line.staged_rest ..) :)
  have trim : ((s.line l).staged (s.read Quality.lineOk .steamFlow (some l))).o2Trim = (s.line l).o2Trim :=
    (congrArg Line.o2Trim (Line.staged_rest ..) :)
  have reads := (RoleKept.refl .o2Furnace s).periodStaged (l := l) (by decide) |>.read Quality.lineOk (some l)
  have next : o2TrimNext ((s.line l).staged (s.read Quality.lineOk .steamFlow (some l))).page
      ((s.line l).staged (s.read Quality.lineOk .steamFlow (some l))).o2Trim (s.read Quality.lineOk .o2Furnace (some l)) =
        (s.periodLine l).o2Trim := by
    rw [page, trim]
    rfl
  rw [State.periodAired, State.setAir_line, State.periodStaged_line, reads]
  exact congrArg (fun x : Int => { s.periodLine l with o2Trim := x }) next

theorem State.periodAired_blocks (s : State) (l : LineId) : (s.periodAired l).fgcs = s.fgcs ∧
    (s.periodAired l).env = s.env ∧ (s.periodAired l).runTime = s.runTime := by
  obtain ⟨fgcs, env, time⟩ := s.periodStaged_blocks l
  obtain ⟨fgcs', env', time'⟩ := (s.periodStaged l).setAir_blocks l
  exact ⟨fgcs'.trans fgcs, env'.trans env, time'.trans time⟩

/-- R78, R79: the stages and the air set grate and air alone. -/
theorem RoleKept.periodAired (hg : q ≠ .grateSpeed) (hp : q ≠ .primaryAir) (hs : q ≠ .secondaryAir) :
    RoleKept q s (s.periodAired l) := ((RoleKept.refl q s).periodStaged hg).setAir hp hs

theorem State.periodAired_dEff_le (s : State) (l : LineId) :
    ((s.periodAired l).line l).dEff ≤ ((s.periodAired l).line l).cap := by
  rw [State.periodAired_line]
  exact (s.line l).staged_dEff_le _

/-- R80: the verdict of a period on feed saturation. -/
def State.periodVerdict (s : State) (l : LineId) : Nat × Nat × Option Nat :=
  (s.periodLine l).feedVerdict (s.read Quality.lineOk .steamFlow (some l)) (s.capOf l .feedLimit)

theorem State.periodVerdict_eq (s : State) (l : LineId) : ((s.periodAired l).line l).feedVerdict
    ((s.periodAired l).read Quality.lineOk .steamFlow (some l)) ((s.periodAired l).capOf l .feedLimit) =
      s.periodVerdict l := by
  have reads := (RoleKept.periodAired (q := .steamFlow) (s := s) (l := l) (by decide) (by decide) (by decide)).read
    Quality.lineOk (some l)
  have caps : (s.periodAired l).capOf l .feedLimit = s.capOf l .feedLimit := by
    rw [State.capOf, (s.periodAired_blocks l).2.1]
    rfl
  rw [State.periodAired_line, reads, caps]
  rfl

/-- R71, R72, R105: due time, stroke and loops, once feed saturation has been judged. -/
def State.periodEnded (u : State) (l : LineId) : State := ((u.setDue l).tryStroke l).runLoops l .controlPeriod

theorem State.runPeriod_ended (s : State) (l : LineId) :
    s.runPeriod l = ((s.periodAired l).feedSaturation l).periodEnded l := rfl

theorem State.periodEnded_line (u : State) (l : LineId) : (u.line l).StrokeMoved ((u.periodEnded l).line l) := by
  rw [State.periodEnded, State.runLoops_line]
  exact u.dueStroke_line l

theorem RoleKept.periodEnded (h : RoleKept q a u) (hf : q ≠ .feederCommand) (hl : ∀ d, q ≠ loopRole d) :
    RoleKept q a (u.periodEnded l) := (h.setDue.tryStroke hf).runLoops hl

/-- R85, R92 to R94: the results of the period stand, wherever the line has gone. -/
theorem State.runPeriod_results (s : State) (l : LineId) : ((s.runPeriod l).line l).results = (s.periodLine l).results := by
  have judged := State.feedSaturation_results (s.periodAired_dEff_le l)
  have ended : ((s.runPeriod l).line l).results = (((s.periodAired l).feedSaturation l).line l).results :=
    (congrArg Line.results (State.periodEnded_line ((s.periodAired l).feedSaturation l) l) :)
  rw [ended, judged, State.periodAired_line]

/-- R79: the air of the period is shown, wherever the line has gone. -/
theorem State.runPeriod_shows_air (s : State) (l : LineId) :
    let c := s.periodLine l
    let total := totalAir c.page c.qReq c.o2Trim
    let primary := (total * c.page.split).tdiv 1000
    (s.runPeriod l).Shows .primaryAir (some l) primary ∧ (s.runPeriod l).Shows .secondaryAir (some l) (total - primary) := by
  have shown := (s.periodStaged l).setAir_shows l
  rw [← State.periodAired, State.periodAired_line] at shown
  obtain ⟨primary, secondary⟩ := shown
  have le := s.periodAired_dEff_le l
  exact ⟨((RoleKept.feedSaturation le (by decide) (by decide) (by decide) (by decide)).periodEnded (by decide)
      (fun d => by cases d <;> decide)).shows primary,
    ((RoleKept.feedSaturation le (by decide) (by decide) (by decide) (by decide)).periodEnded (by decide)
      (fun d => by cases d <;> decide)).shows secondary⟩

/-- R80, R135: a period that leaves the line in its state ends with feed saturation judged. -/
theorem State.runPeriod_stays (stays : ((s.runPeriod l).line l).state = (s.line l).state) :
    ∃ u, FeedJudged l (s.periodAired l) u (s.periodVerdict l) ∧ s.runPeriod l = u.periodEnded l := by
  obtain ⟨u, judged, same⟩ := State.feedSaturation_stays (s.periodAired_dEff_le l)
  rw [State.periodVerdict_eq] at judged
  have ended : ((s.runPeriod l).line l).state = (((s.periodAired l).feedSaturation l).line l).state :=
    (congrArg Line.state (State.periodEnded_line ((s.periodAired l).feedSaturation l) l) :)
  have start : ((s.periodAired l).line l).state = (s.line l).state := by
    rw [State.periodAired_line]
    exact (congrArg Line.state (s.periodLine_rest l) :)
  refine ⟨u, judged, ?_⟩
  rw [State.runPeriod_ended, same ((ended.symm.trans stays).trans start.symm)]

section
variable {verdict : Nat × Nat × Option Nat} (judged : FeedJudged l (s.periodAired l) u verdict)
include judged

/-- R77, R80: the line controller of a line that stays in its state, but for its stroke and due time. -/
theorem FeedJudged.ended_line : ∃ x, ({ (s.periodLine l).capped x with
    lowCount := verdict.1, highCount := verdict.2.1 } : Line).StrokeMoved ((u.periodEnded l).line l) := by
  obtain ⟨x, line⟩ := judged.line
  have moved := u.periodEnded_line l
  rw [line, State.periodAired_line] at moved
  exact ⟨x, moved⟩

theorem FeedJudged.ended_limit : (u.periodEnded l).capOf l .feedLimit = verdict.2.2 := by
  rw [← judged.limit, State.capOf, State.periodEnded, State.runLoops_env, State.tryStroke_env, State.setDue_env]
  rfl

/-- R78: the grate of the period is shown. -/
theorem FeedJudged.ended_grate : (u.periodEnded l).Shows .grateSpeed (some l)
    (grateSpeed (s.line l).page ((s.line l).staged (s.read Quality.lineOk .steamFlow (some l))).mReq) := by
  have aired := ((RoleKept.refl _ (s.periodStaged l)).setAir (l := l) (by decide) (by decide)).shows (s.periodStaged_shows l)
  exact ((judged.roles .grateSpeed (by decide)).periodEnded (by decide) fun d => by cases d <;> decide).shows aired

theorem FeedJudged.homeHigh : u.homeHigh l = s.homeHigh l :=
  ((judged.roles .feederStatus (by decide)).homeHigh l).trans
    ((RoleKept.periodAired (by decide) (by decide) (by decide)).homeHigh l)

theorem FeedJudged.time : u.runTime = s.runTime := judged.runTime.trans (s.periodAired_blocks l).2.2

/-- R80: the counts and the FEED-LIMIT cap are those of the verdict. -/
theorem FeedJudged.ended_verdict : (((u.periodEnded l).line l).lowCount, ((u.periodEnded l).line l).highCount,
    (u.periodEnded l).capOf l .feedLimit) = verdict := by
  obtain ⟨x, moved⟩ := judged.ended_line
  have low : ((u.periodEnded l).line l).lowCount = verdict.1 := (congrArg Line.lowCount moved :)
  have high : ((u.periodEnded l).line l).highCount = verdict.2.1 := (congrArg Line.highCount moved :)
  rw [low, high, judged.ended_limit]

/-- What the stages, the air and feed saturation leave of the line controller for due time and stroke. -/
theorem FeedJudged.stroke_line : (u.line l).stroke = (s.line l).stroke ∧ (u.line l).due = (s.line l).due ∧
    (u.line l).nextDue = (s.periodLine l).nextDue ∧ (u.line l).state = (s.line l).state ∧
    (u.line l).permissive = (s.line l).permissive ∧ (u.line l).lastNumber = (s.line l).lastNumber ∧
    (u.line l).page = (s.line l).page := by
  obtain ⟨x, line⟩ := judged.line
  rw [State.periodAired_line] at line
  rw [line]
  have rest := s.periodLine_rest l
  exact ⟨(congrArg Line.stroke rest :), (congrArg Line.due rest :), rfl, (congrArg Line.state rest :),
    (congrArg Line.permissive rest :), (congrArg Line.lastNumber rest :), (congrArg Line.page rest :)⟩

/-- R71: a stroke in flight stays, and the due time with it. -/
theorem FeedJudged.ended_flying {k : Stroke} (h : (s.line l).stroke = some k) :
    ((u.periodEnded l).line l).stroke = some k ∧ ((u.periodEnded l).line l).due = (s.line l).due := by
  obtain ⟨stroke, due, -⟩ := judged.stroke_line
  have flying : (u.line l).stroke = some k := stroke.trans h
  rw [State.periodEnded, State.runLoops_line, State.dueStroke_of_flying (by rw [flying]; nofun)]
  exact ⟨flying, due⟩

/-- R72: what lets a stroke start at the end of a control period. -/
theorem FeedJudged.strokeReady (h : (s.line l).stroke = none) : (u.setDue l).strokeReady l ↔
    (((s.line l).due.replace (s.periodLine l).nextDue s.runTime = .atOnce ∨
      ∃ x, (s.line l).due.replace (s.periodLine l).nextDue s.runTime = .at_ x ∧ x ≤ s.runTime) ∧
    (s.line l).state = .feeding ∧ (s.line l).permissive = true ∧ s.homeHigh l = true) := by
  obtain ⟨stroke, due, next, state, permissive, -, -⟩ := judged.stroke_line
  have ready := State.strokeReady_setDue (stroke.trans h)
  rw [due, next, judged.time, state, permissive, judged.homeHigh] at ready
  exact ready

/-- R72: the stroke that starts at the end of a control period. -/
theorem FeedJudged.ended_started (h : (s.line l).stroke = none) (ready : (u.setDue l).strokeReady l) :
    ((u.periodEnded l).line l).stroke = some ⟨nextStroke (s.line l).lastNumber, s.runTime, .out⟩ ∧
      ((u.periodEnded l).line l).due = .none ∧
      ((u.periodEnded l).line l).strokeAt = some (s.runTime + 1000 * (s.line l).page.strokeTimeout) ∧
      (u.periodEnded l).Shows .feederCommand (some l) (nextStroke (s.line l).lastNumber) := by
  obtain ⟨stroke, -, -, -, -, number, page⟩ := judged.stroke_line
  obtain ⟨started, due, timeout, shown⟩ := State.dueStroke_of_ready (stroke.trans h) ready
  rw [number, judged.time] at started
  rw [page, judged.time] at timeout
  rw [number] at shown
  have loops : RoleKept .feederCommand ((u.setDue l).tryStroke l) (u.periodEnded l) :=
    (RoleKept.refl _ _).runLoops fun d => by cases d <;> decide
  rw [State.periodEnded, State.runLoops_line]
  exact ⟨started, due, timeout, loops.shows shown⟩

/-- R71, R94: the due time that a control period sets where no stroke starts. -/
theorem FeedJudged.ended_waiting (h : (s.line l).stroke = none) (still : ¬(u.setDue l).strokeReady l) :
    ((u.periodEnded l).line l).stroke = none ∧
      ((u.periodEnded l).line l).due = (s.line l).due.replace (s.periodLine l).nextDue s.runTime := by
  obtain ⟨stroke, due, next, -⟩ := judged.stroke_line
  have set := State.dueStroke_of_not (stroke.trans h) still
  rw [due, next, judged.time] at set
  rw [State.periodEnded, State.runLoops_line]
  exact set

/-- R105: the loops of the trigger have run on the results of the period. -/
theorem FeedJudged.ended_loops (d : DosingLoop) : ((u.periodEnded l).fgc l).loops.get d =
    if ((s.fgc l).dosing.get d).trigger = .controlPeriod ∧ ((u.periodEnded l).line l).state.feeds = true then
      (((s.setLine l ((u.periodEnded l).line l)).runLoop l d).fgc l).loops.get d
    else (s.fgc l).loops.get d := by
  have unit : ((u.setDue l).tryStroke l).fgc l = s.fgc l := by
    rw [State.fgc, State.tryStroke_fgcs, State.setDue_fgcs, judged.fgcs, (s.periodAired_blocks l).1]
    rfl
  have time : ((u.setDue l).tryStroke l).runTime = s.runTime :=
    (congrArg (·.tenths / 10) (LineEvent.tryStroke l (u.setDue l)).clock).trans ((u.setDue_runTime l).trans judged.time)
  have line : (u.periodEnded l).line l = ((u.setDue l).tryStroke l).line l := State.runLoops_line ..
  obtain ⟨_, run⟩ := (s.setLine l ((u.periodEnded l).line l)).runLoop_fgc l d
  rw [run, State.setLine_fgc, State.setLine_line, State.setLine_runTime, Three.get_set, State.periodEnded,
    State.runLoops_loops, ← State.periodEnded, State.loopAfter, unit, time, line]
  rfl

end

theorem exec_controlPeriod (q : s.Quiet) : exec (.controlPeriod l) s = .next (s.controlPeriod l) :=
  eventForm_of_quiet (fun s => s.controlPeriod l) s q

theorem State.controlPeriod_of_none (h : (s.line l).periodAt = none) : s.controlPeriod l = s := by
  unfold State.controlPeriod
  rw [h]

theorem State.controlPeriod_of_some {w : Nat} (h : (s.line l).periodAt = some w) :
    s.controlPeriod l = (s.reach w).runPeriod l := by
  unfold State.controlPeriod
  rw [h]

end

end Sys2Proof.Machine

open Sys2Proof.Machine in
/-- Settles O36: the results and the air of the period in every course, and for a line that stays in its state the grate,
feed saturation, due time and stroke, and the loops. -/
theorem Sys2Proof.controlPeriodRuns : Obligations.ControlPeriodRuns := fun l s q => by
  refine ⟨fun w period => ?_, fun idle => (exec_controlPeriod q).trans (congrArg _ (State.controlPeriod_of_none idle))⟩
  intro old pg now steam c
  have ran := (exec_controlPeriod q).trans (congrArg _ (State.controlPeriod_of_some period))
  have rest := (s.reach w).periodLine_rest l
  have page : ((s.reach w).periodLine l).page = pg := (congrArg Line.page rest :)
  have air := (s.reach w).runPeriod_shows_air l
  dsimp only at air
  rw [page] at air
  have results := (s.reach w).runPeriod_results l
  simp only [Line.results, Prod.mk.injEq] at results
  obtain ⟨qIn, trim, qReq, mReq, unclamped, interval, ranPeriod, o2Trim⟩ := results
  refine ⟨_, ran, .runPeriod l _, qIn, trim, qReq, mReq, unclamped, interval, ranPeriod, fun f flow => ?_, fun dry => ?_,
    o2Trim, ?_, fun stays => ?_⟩
  · have staged : c = old.staged (some f) := congrArg old.staged flow
    rw [staged]
    exact (old.staged_of_steam f).1
  · have staged : c = old.staged none := congrArg old.staged dry
    rw [staged]
    exact ⟨old.staged_of_none.1, old.staged_of_none.2.1⟩
  · rw [o2Trim]
    exact air
  · obtain ⟨u, judged, ended⟩ := State.runPeriod_stays stays
    have stays : ((u.periodEnded l).line l).state = old.state := ended ▸ stays
    rw [ended]
    obtain ⟨x, moved⟩ := judged.ended_line
    obtain ⟨n, k, at_, d, line⟩ := moved.exists
    have entry : ((u.periodEnded l).line l).entry = c.entry := (congrArg Line.entry line :)
    refine ⟨(congrArg Line.periodAt line :), judged.ended_grate, ?_, fun f flow => ?_, fun dry => ?_, ?_,
      fun k flying => judged.ended_flying flying, fun idle => ?_, fun d => ?_⟩
    · rw [line]
      rfl
    · have staged : c = old.staged (some f) := congrArg old.staged flow
      rw [entry, staged]
      exact (old.staged_of_steam f).2
    · have staged : c = old.staged none := congrArg old.staged dry
      rw [entry, staged]
      exact old.staged_of_none.2.2
    · intro sparse low high stands limit
      have lowCount : ((s.reach w).periodLine l).lowCount = old.lowCount := (congrArg Line.lowCount rest :)
      have highCount : ((s.reach w).periodLine l).highCount = old.highCount := (congrArg Line.highCount rest :)
      have counts : ((s.reach w).periodLine l).saturationCounts = (low, high) := by
        rw [Line.saturationCounts_eq, page, lowCount, highCount]
        rfl
      have state : ((s.reach w).periodLine l).state = old.state := (congrArg Line.state rest :)
      have verdict : (((u.periodEnded l).line l).lowCount, ((u.periodEnded l).line l).highCount, limit) =
          ((s.reach w).periodLine l).feedVerdict steam stands := judged.ended_verdict
      have clauses := ((s.reach w).periodLine l).feedVerdict_cases steam stands
      rw [counts, state, lowCount, highCount, ← verdict] at clauses
      simp only [Prod.mk.injEq] at clauses
      obtain ⟨raised, lifted, counted, idle⟩ := clauses
      refine ⟨fun feeding three => ?_, lifted, counted, idle⟩
      obtain ⟨lowCount, highCount, standing⟩ := raised feeding three
      exact ⟨lowCount, highCount, fun dry => standing.trans (congrArg (limitRaised · stands) dry),
        fun f flow => standing.trans (congrArg (limitRaised · stands) flow)⟩
    · intro next due starts
      have lastDone : ((s.reach w).periodLine l).lastDone = old.lastDone := (congrArg Line.lastDone rest :)
      have set : ((s.reach w).periodLine l).nextDue = next := by
        rw [Line.nextDue_of_ran rfl, lastDone]
        show _ = ite _ _ _
        cases old.lastDone with
        | none => rfl
        | some x => rfl
      have ready := judged.strokeReady idle
      rw [set] at ready
      have waiting := judged.ended_waiting idle
      rw [set] at waiting
      exact ⟨fun start => judged.ended_started idle (ready.2 start),
        fun still => waiting fun start => still (ready.1 start)⟩
    · have loops := judged.ended_loops d
      rw [stays] at loops
      exact loops
end

