-- ==== Sys2Proof/Proofs/HeatingValue.lean ====
section
/-! PROOFS. The heating value (chapter 5): stages G and H (O35), the override (O34) and the close of a burn minute (O39). -/

namespace Sys2Proof.Machine

section
variable {s : State} {l : LineId} {b : Byte} {e : BurnEntry} {value : Word16}

/-! ### Stages G and H (R93) -/

/-- R93: Q_req is the heat of D_eff, and m_req the mass whose heat it is. -/
theorem Line.stageGHI_flow (c : Line) : c.stageGHI.qReq = thermal c.page c.dEff ∧
    c.stageGHI.mReq = c.stageGHI.qReq * 3600 / c.lhvUsed := by
  unfold Line.stageGHI
  dsimp only
  split
  · next idle => exact ⟨rfl, idle.symm⟩
  · exact ⟨rfl, rfl⟩

@[simp] theorem thermal_zero (p : LinePage) : thermal p 0 = 0 := by simp [thermal]

/-- R93: the heat of a steam flow at its bounds: 2,000 × 3,500 at an efficiency of 500. -/
theorem thermal_le {p : LinePage} {f : Nat} (flow : f ≤ 2000) (enthalpy : p.enthalpy ≤ 3500)
    (efficiency : 500 ≤ p.efficiency) : thermal p f ≤ 388888 := by
  have heat : f * p.enthalpy ≤ 2000 * 3500 := Nat.mul_le_mul flow enthalpy
  have power : f * p.enthalpy / 36 * 1000 ≤ 194444000 := by omega
  exact Nat.div_le_div power efficiency (by decide)

/-! ### The override (R91) -/

theorem exec_setOverrideOn (h : s.Free) :
    exec (.setOverrideOn b value) s = .next ((s.during .setOverride).cmdOverrideOn b value) :=
  commandForm_of_free (.setOverrideOn b value) .setOverride (fun s => s.cmdOverrideOn b value) s h

theorem exec_setOverrideOff (h : s.Free) :
    exec (.setOverrideOff b) s = .next ((s.during .setOverride).cmdOverrideOff b) :=
  commandForm_of_free (.setOverrideOff b) .setOverride (fun s => s.cmdOverrideOff b) s h

/-- R91: the part once the override has changed and the change is logged. -/
def State.overridden (s : State) (l : LineId) (on : Bool) (v : Nat) : State :=
  let u := s.setLine l { s.line l with override := on, lhvOvr := v }
  u.log (lineSource l) .lhvOverride (if on then 1 else 0) (u.line l).lhvUsed

/-- R91: an override that stands already is left; a changed one is logged, and LHV_USED follows LHV_used. -/
theorem State.setOverride_cases (s : State) (l : LineId) (on : Bool) (v : Nat) :
    (s.setOverride l on v = s ∧ { s.line l with override := on, lhvOvr := v } = s.line l) ∨
      s.setOverride l on v = s.overridden l on v ∨
      s.setOverride l on v = (s.overridden l on v).own .lhvUsed (some l) ((s.overridden l on v).line l).lhvUsed := by
  by_cases stands : (s.line l).override = on ∧ (s.line l).lhvOvr = v
  · exact .inl ⟨if_pos stands, by rw [← stands.1, ← stands.2]⟩
  · have changed : s.setOverride l on v = _ := if_neg stands
    rw [changed]
    exact .inr (ite_eq_or_eq ..)

/-- R91: the override lies over the estimate of its line, and nothing else of the lines, the flue gas units, the caps and
the steps owed has moved. -/
theorem State.setOverride_blocks (s : State) (l : LineId) (on : Bool) (v : Nat) :
    (s.setOverride l on v).lines = s.lines.set l { s.line l with override := on, lhvOvr := v } ∧
      (s.setOverride l on v).fgcs = s.fgcs ∧ (s.setOverride l on v).env = s.env ∧
      (s.setOverride l on v).owed = s.owed := by
  rcases s.setOverride_cases l on v with ⟨left, stands⟩ | logged | shown
  · rw [left, stands]
    exact ⟨(Two.set_get s.lines l).symm, rfl, rfl, rfl⟩
  · rw [logged]
    simp [State.overridden, State.setLine]
  · rw [shown]
    simp [State.overridden, State.setLine]

theorem State.cmdOverrideOn_of_line (hb : lineOf b = some l) : s.cmdOverrideOn b value =
    (s.setOverride l true (clampNat value.toNat 2000 30000)).answer .setOverride
      (if clampNat value.toNat 2000 30000 = value.toNat then .done else .doneClamped) := by
  unfold State.cmdOverrideOn
  rw [hb]

theorem State.cmdOverrideOff_of_line (hb : lineOf b = some l) :
    s.cmdOverrideOff b = (s.setOverride l false (s.line l).lhvOvr).answer .setOverride .done := by
  unfold State.cmdOverrideOff
  rw [hb]

theorem State.cmdOverride_of_none (hb : lineOf b = none) :
    s.cmdOverrideOn b value = s.answer .setOverride .badIndex ∧ s.cmdOverrideOff b = s.answer .setOverride .badIndex := by
  unfold State.cmdOverrideOn State.cmdOverrideOff
  rw [hb]
  exact ⟨rfl, rfl⟩

/-! ### The burn minute (R87 to R90) -/

theorem exec_burnMinuteClose (h : s.Quiet) : exec (.burnMinuteClose l) s = .next (s.burnMinuteClose l) :=
  eventForm_of_quiet (fun s => s.burnMinuteClose l) s h

/-- R88: the record once an entry has closed into it. -/
def Line.burnRecord (c : Line) (e : BurnEntry) : List BurnEntry :=
  (e :: c.record).take (c.page.heatWindow + c.page.massLag)

/-- R89, R90: the estimate at the close of an entry, moved by the filter or held. -/
def Line.nextEstimate (c : Line) (e : BurnEntry) : Nat :=
  match rawEstimate c.page (c.burnRecord e) with
  | .ok raw => filtered c.page c.lhvEst raw
  | .error _ => c.lhvEst

/-- R89: the close of an entry holds the estimate. -/
def Line.holdsEstimate (c : Line) (e : BurnEntry) : Bool :=
  match rawEstimate c.page (c.burnRecord e) with
  | .ok _ => false
  | .error _ => true

/-- R88 to R90: the line controller once an entry has closed. -/
def Line.burnClosed (c : Line) (e : BurnEntry) : Line :=
  { c with
    record := c.burnRecord e, entry := some .fresh, lhvEst := c.nextEstimate e, heldRun := c.holdsEstimate e }

/-- R88 to R90: an entry closes at its line controller; LHV-HELD may be logged, and LHV_USED is set. -/
theorem State.closeBurnMinute_cases (s : State) (l : LineId) (e : BurnEntry) :
    ∃ u, (u = s.setLine l ((s.line l).burnClosed e) ∨
        ∃ reason, u = (s.setLine l ((s.line l).burnClosed e)).log (lineSource l) .lhvHeld reason (s.line l).lhvEst) ∧
      s.closeBurnMinute l e = u.own .lhvUsed (some l) (u.line l).lhvUsed := by
  refine ⟨_, ?_, rfl⟩
  unfold Line.burnClosed Line.nextEstimate Line.holdsEstimate Line.burnRecord
  dsimp only
  cases rawEstimate (s.line l).page
    ((e :: (s.line l).record).take ((s.line l).page.heatWindow + (s.line l).page.massLag)) with
  | ok raw => exact .inl rfl
  | error reason =>
    dsimp only
    split
    · exact .inl rfl
    · exact .inr ⟨reason, rfl⟩

/-- R87 to R90: the entry closes at a line controller with its next close set: what that sets, and what it leaves. -/
structure BurnClosed (l : LineId) (e : BurnEntry) (c : Line) (s t : State) : Prop where
  event : LineEvent l s t
  line  : t.line l = c.burnClosed e
  shows : t.Shows .lhvUsed (some l) (t.line l).lhvUsed
  fgcs  : t.fgcs = s.fgcs
  env   : t.env = s.env
  owed  : t.owed = s.owed

theorem State.closeBurnMinute_closed (e : BurnEntry) {c : Line} (page : c.page = (s.line l).page) :
    BurnClosed l e c s ((s.setLine l c).closeBurnMinute l e) := by
  obtain ⟨u, closed, shown⟩ := (s.setLine l c).closeBurnMinute_cases l e
  have event : LineEvent l s ((s.setLine l c).setLine l (c.burnClosed e)) :=
    .trans (.setLine page) (.setLine (congrArg Line.page (State.setLine_line s l c).symm :))
  rw [State.setLine_line] at closed
  rw [shown]
  have shows : (u.own .lhvUsed (some l) (u.line l).lhvUsed).Shows .lhvUsed (some l)
      ((u.own .lhvUsed (some l) (u.line l).lhvUsed).line l).lhvUsed := by
    rw [State.own_line]
    exact State.own_shows u (.inr rfl)
  rcases closed with rfl | ⟨reason, rfl⟩
  · exact ⟨event.trans (.own l _ _ _ _), by simp, shows, by simp, by simp, by simp⟩
  · exact ⟨event.trans (.trans (.log l _ _ _ _ _ _) (.own l _ _ _ _)), by simp, shows, by simp, by simp, by simp⟩

/-- R87: with plant time set the entry closes at its boundary, and the next boundary is a minute on. -/
theorem State.burnMinuteClose_of_boundary {p : Nat} (entry : (s.line l).entry = some e)
    (boundary : (s.line l).burnAt = some p) : s.burnMinuteClose l =
      ((s.reachPlant p).setLine l { s.line l with burnAt := some (p + 60000) }).closeBurnMinute l e := by
  unfold State.burnMinuteClose
  simp only [entry, boundary, State.reachPlant_line]

/-- R87: without it the entry closes at the minute timer, which starts again. -/
theorem State.burnMinuteClose_of_timer {w : Nat} (entry : (s.line l).entry = some e) (boundary : (s.line l).burnAt = none)
    (timer : (s.line l).burnTimer = some w) : s.burnMinuteClose l =
      ((s.reach w).setLine l { s.line l with burnTimer := some ((s.reach w).runTime + 60000) }).closeBurnMinute l e := by
  unfold State.burnMinuteClose
  simp only [entry, boundary, timer, State.reach_line]

end

end Sys2Proof.Machine

open Sys2Proof.Machine in
/-- Settles O35: the arithmetic of stages G and H, and its bounds. -/
theorem Sys2Proof.requiredMassFlow : Obligations.RequiredMassFlow := fun c => by
  intro t
  obtain ⟨heat, mass⟩ := c.stageGHI_flow
  refine ⟨heat, mass, fun idle => ?_, fun flow enthalpy efficiency => ?_, fun used => ?_⟩
  · have none : t.qReq = 0 := by rw [heat, idle, thermal_zero]
    exact ⟨none, by rw [mass, none, Nat.zero_mul, Nat.zero_div]⟩
  · have bound : t.qReq ≤ 388888 := heat.trans_le (thermal_le flow enthalpy efficiency)
    refine ⟨bound, fun value => mass.trans_le ?_⟩
    exact Nat.div_le_div (Nat.mul_le_mul_right 3600 bound) value (by decide)
  · rw [mass]
    exact Nat.div_eq_zero_iff_lt used

open Sys2Proof.Machine in
/-- Settles O34: ON and OFF as one change of the override, and the line byte outside 1 and 2. -/
theorem Sys2Proof.overrideLaysHeatingValue : Obligations.OverrideLaysHeatingValue := fun b value s q => by
  intro d v
  refine ⟨fun l hb => ⟨?_, ?_⟩, fun hb => ?_⟩
  · obtain ⟨lines, fgcs, env, owed⟩ := d.setOverride_blocks l true v
    exact ⟨_, (exec_setOverrideOn q).trans (congrArg _ (State.cmdOverrideOn_of_line hb)), lines, State.answered ..,
      .trans (.setOverride l d _ _) (.answer l _ _ _ _), fgcs, env, owed⟩
  · obtain ⟨lines, fgcs, env, owed⟩ := d.setOverride_blocks l false (d.line l).lhvOvr
    exact ⟨_, (exec_setOverrideOff q).trans (congrArg _ (State.cmdOverrideOff_of_line hb)), lines, State.answered ..,
      .trans (.setOverride l d _ _) (.answer l _ _ _ _), fgcs, env, owed⟩
  · obtain ⟨on, off⟩ := State.cmdOverride_of_none (s := d) (value := value) hb
    exact ⟨(exec_setOverrideOn q).trans (congrArg _ on), (exec_setOverrideOff q).trans (congrArg _ off)⟩

open Sys2Proof.Machine in
/-- Settles O39: the close of the entry in both clock modes, each with its next close. -/
theorem Sys2Proof.burnMinuteCloses : Obligations.BurnMinuteCloses := fun l e s q entry => by
  intro c record lhv held
  refine ⟨fun p boundary => ?_, fun w boundary timer => ?_⟩
  · have closed : BurnClosed l e { c with burnAt := some (p + 60000) } (s.reachPlant p) (s.burnMinuteClose l) :=
      State.burnMinuteClose_of_boundary entry boundary ▸ State.closeBurnMinute_closed e (by rw [State.reachPlant_line])
    exact ⟨_, exec_burnMinuteClose q, closed.event, closed.line, closed.shows,
      closed.fgcs.trans (State.reachPlant_fgcs ..), closed.env.trans (State.reachPlant_env ..),
      closed.owed.trans (State.reachPlant_owed ..)⟩
  · have closed : BurnClosed l e { c with burnTimer := some ((s.reach w).runTime + 60000) } (s.reach w)
        (s.burnMinuteClose l) :=
      State.burnMinuteClose_of_timer entry boundary timer ▸ State.closeBurnMinute_closed e (by rw [State.reach_line])
    exact ⟨_, exec_burnMinuteClose q, closed.event, closed.line, closed.shows,
      closed.fgcs.trans (State.reach_fgcs ..), closed.env.trans (State.reach_env ..),
      closed.owed.trans (State.reach_owed ..)⟩
end

