-- ==== Sys2Proof/Proofs/UnitSetTime.lean ====
section
/-! PROOFS. SET-TIME at a line controller (R87) and at its flue gas unit (R103, R116), and what a flue gas unit brings to its
line (R124 to R127). -/

namespace Sys2Proof.Machine

section
variable {a s t u : State} {l : LineId} {p n : Nat} {c : Line}

/-! ### The burn entry (R87) -/

/-- R87: the line controller at a SET-TIME to `p`. -/
def Line.timeSet (c : Line) (p : Nat) : Line :=
  if c.entry.isSome = false ∨ c.burnAt.any (fun b => sameMinute b p) = true then c
  else { c with burnTimer := none, burnAt := some (minuteFrom p) }

theorem Line.timeSet_state (c : Line) (p : Nat) : (c.timeSet p).state = c.state := by
  unfold Line.timeSet
  split <;> rfl

/-- R87: an entry whose boundary ends the minute that the new time lies in keeps it. -/
theorem Line.timeSet_of_within {q : Nat} (boundary : c.burnAt = some q) (upTo : q ≤ p + 60000) (ahead : p < q) :
    c.timeSet p = c := if_pos (.inr (by simp [boundary, sameMinute, upTo, ahead]))

/-- R87: any other entry closes at the next minute boundary of the new time. -/
theorem Line.timeSet_of_beyond (entry : c.entry.isSome = true)
    (beyond : ∀ q, c.burnAt = some q → p + 60000 < q ∨ q ≤ p) :
    c.timeSet p = { c with burnTimer := none, burnAt := some (minuteFrom p) } := by
  refine if_neg (not_or.2 ⟨by simp [entry], fun within => ?_⟩)
  obtain ⟨q, boundary, same⟩ := (Option.any_eq_true ..).1 within
  have apart := beyond q boundary
  simp only [sameMinute, decide_eq_true_eq] at same
  omega

theorem State.burnSetTime_eq (s : State) (l : LineId) (p : Nat) :
    s.burnSetTime l p = s.setLine l ((s.line l).timeSet p) := by
  unfold State.burnSetTime Line.timeSet
  dsimp only
  split
  · cases l <;> rfl
  · rfl

/-! ### What a flue gas unit brings to its line (R124 to R127) -/

/-- A step of a flue gas unit: it stays within its line, whose controller it leaves alone, but for a request that stops a
feeding line. -/
structure UnitEvent (l : LineId) (s t : State) : Prop extends LineEvent l s t where
  line : t.line l = s.line l ∨ (s.line l).state.feeds = true ∧ (t.line l).state = .burnout

theorem UnitEvent.refl (l : LineId) (s : State) : UnitEvent l s s := ⟨.refl l s, .inl rfl⟩

theorem UnitEvent.trans (h : UnitEvent l s t) (k : UnitEvent l t u) : UnitEvent l s u := by
  refine ⟨h.toLineEvent.trans k.toLineEvent, ?_⟩
  rcases k.line with same | ⟨feeds, burnt⟩
  · rw [same]
    exact h.line
  · rcases h.line with same | ⟨-, idle⟩
    · exact .inr ⟨same ▸ feeds, burnt⟩
    · rw [idle] at feeds
      cases feeds

/-- A step that leaves the line controllers alone. -/
theorem LineEvent.unit (h : LineEvent l s t) (same : t.line l = s.line l) : UnitEvent l s t := ⟨h, .inl same⟩

theorem UnitEvent.ite {d : Prop} [Decidable d] (hs : UnitEvent l a s) (ht : UnitEvent l a t) :
    UnitEvent l a (if d then s else t) := by
  split
  · exact hs
  · exact ht

theorem UnitEvent.foldl {α : Type} (f : State → α → State) (hf : ∀ s z, UnitEvent l a s → UnitEvent l a (f s z)) :
    ∀ (zs : List α) (s : State), UnitEvent l a s → UnitEvent l a (zs.foldl f s)
  | [], _, h => h
  | z :: zs, s, h => UnitEvent.foldl f hf zs (f s z) (hf s z h)

theorem UnitEvent.setFgc {f : Fgc} (h : UnitEvent l a s) (hp : f.page = (s.fgc l).page)
    (hd : f.dosing = (s.fgc l).dosing) : UnitEvent l a (s.setFgc l f) :=
  h.trans ((LineEvent.setFgc hp hd).unit (State.setFgc_line ..))

theorem UnitEvent.log {src : Source} {name : EventName} {x y z : Int} (h : UnitEvent l a s) :
    UnitEvent l a (s.log src name x y z) := h.trans ((LineEvent.log l s src name x y z).unit (State.log_line ..))

theorem UnitEvent.own {r : Role} {w : Option LineId} {v : Int} (h : UnitEvent l a s) : UnitEvent l a (s.own r w v) :=
  h.trans ((LineEvent.own l s r w v).unit (State.own_line ..))

theorem UnitEvent.judgeCounting (h : UnitEvent l a s) : UnitEvent l a (s.judgeCounting l) := by
  unfold State.judgeCounting
  exact .ite (.ite (h.setFgc rfl rfl) h) (h.setFgc rfl rfl)

/-- R68: only a feeding line is sent to BURNOUT. -/
theorem UnitEvent.toBurnout {cause : StateCause} (h : UnitEvent l a s) : UnitEvent l a (s.toBurnout l cause) := by
  refine h.trans ⟨.toBurnout l s cause, ?_⟩
  rcases s.toBurnout_cases l cause with idle | ⟨feeds, burning⟩
  · exact .inl (by rw [idle])
  · exact .inr ⟨feeds, burning ▸ State.changeOnce_state (LineState.ne_of_feeds feeds rfl)⟩

theorem UnitEvent.judgeExhausted (h : UnitEvent l a s) : UnitEvent l a (s.judgeExhausted l) := by
  unfold State.judgeExhausted
  exact .ite (.ite h (.toBurnout (.log (h.setFgc rfl rfl)))) (.ite (.log (h.setFgc rfl rfl)) h)

theorem UnitEvent.enterAbnormal {e : Bool} (h : UnitEvent l a s) : UnitEvent l a (s.enterAbnormal l e) := by
  unfold State.enterAbnormal
  exact .judgeExhausted (.judgeCounting (.ite (h.setFgc rfl rfl) (.log (h.setFgc rfl rfl))))

theorem UnitEvent.endAbnormal (h : UnitEvent l a s) : UnitEvent l a (s.endAbnormal l) := by
  unfold State.endAbnormal
  exact .judgeExhausted (h.log.setFgc (by rw [State.log_fgc]) (by rw [State.log_fgc]))

theorem UnitEvent.judgeHalf {r : HalfRecord} (h : UnitEvent l a s) : UnitEvent l a (s.judgeHalf l r) :=
  .ite h.enterAbnormal (.ite h.endAbnormal h)

theorem UnitEvent.reportHalf {r : HalfRecord} {m : Component} (h : UnitEvent l a s) :
    UnitEvent l a (s.reportHalf l r m) := by
  unfold State.reportHalf
  split
  · exact h.own
  · exact h

/-- R115: a half-hour closes. -/
theorem UnitEvent.closeHalf {hh : HalfHour} {m : ClosingMark} (h : UnitEvent l a s) :
    UnitEvent l a (s.closeHalf l hh m) := by
  unfold State.closeHalf
  refine .judgeHalf (.foldl _ (fun _ _ h => h.reportHalf) _ _ (.setFgc ?_ rfl rfl))
  exact .foldl _ (fun _ _ h => .ite h.log h) _ _ h

/-- R117: a day closes. -/
theorem UnitEvent.closeDay {m : ClosingMark} (h : UnitEvent l a s) : UnitEvent l a (s.closeDay l n m) := by
  unfold State.closeDay
  exact .setFgc (.foldl _ (fun _ _ h => .ite h.log h) _ _ h) rfl rfl

/-! ### SET-TIME at a flue gas unit (R103, R116) -/

theorem UnitEvent.halfSetTime (h : UnitEvent l a s) : UnitEvent l a (s.halfSetTime l p) := by
  unfold State.halfSetTime
  dsimp only
  split
  · exact h.setFgc rfl rfl
  · exact .ite h (.setFgc (.ite h.closeHalf h.closeHalf.closeDay) rfl rfl)

/-- R116: after a SET-TIME a half-hour is in progress. -/
theorem State.halfSetTime_half (s : State) (l : LineId) (p : Nat) : ((s.halfSetTime l p).fgc l).half.isSome = true := by
  unfold State.halfSetTime
  dsimp only
  split
  · rw [State.setFgc_fgc]
    rfl
  · next h open_ =>
    split
    · rw [open_]
      rfl
    · rw [State.setFgc_fgc]
      rfl

/-- R103: the minute in progress is handed on, its values invalid. -/
def State.minuteCut (s : State) (l : LineId) : State :=
  match (s.fgc l).minute with
  | none => s
  | some m => s.handMinute l m (Six.all none) true

theorem UnitEvent.minuteCut (h : UnitEvent l a s) : UnitEvent l a (s.minuteCut l) := by
  unfold State.minuteCut
  split
  · exact h
  · exact h.setFgc rfl rfl

/-- R103, R116: the half-hour at the new time, with the minutes skipped handed on to it. -/
def State.minutesSkipped (s : State) (l : LineId) (p : Nat) : State :=
  let n := ((s.fgc l).minute.map fun m => skippedMinutes m.start p).getD 0
  let u := (s.minuteCut l).halfSetTime l p
  u.setFgc l { u.fgc l with half := (u.fgc l).half.map fun h => h.skip (u.line l).state.operates n }

/-- R103: then a fresh minute opens at the new time. -/
theorem State.fgcSetTime_eq (s : State) (l : LineId) (p : Nat) : s.fgcSetTime l p =
    (s.minutesSkipped l p).setFgc l (((s.minutesSkipped l p).fgc l).openMinute p true) := rfl

theorem UnitEvent.fgcSetTime (l : LineId) (s : State) (p : Nat) : UnitEvent l s (s.fgcSetTime l p) := by
  rw [State.fgcSetTime_eq]
  have skipped : UnitEvent l s (s.minutesSkipped l p) := (UnitEvent.refl l s).minuteCut.halfSetTime.setFgc rfl rfl
  exact skipped.setFgc rfl rfl

/-- R103: a flue gas unit with a fresh minute marked adjusted, opened at `p`, within a half-hour in progress. -/
def Fgc.OpenedAt (f : Fgc) (p : Nat) : Prop := f.minute = some (f.freshMinute p true) ∧ f.half.isSome = true

theorem State.fgcSetTime_opened (s : State) (l : LineId) (p : Nat) : ((s.fgcSetTime l p).fgc l).OpenedAt p := by
  have half : ((s.minutesSkipped l p).fgc l).half.isSome = true := by
    unfold State.minutesSkipped
    rw [State.setFgc_fgc]
    exact Option.isSome_map.trans ((s.minuteCut l).halfSetTime_half l p)
  rw [State.fgcSetTime_eq, State.setFgc_fgc]
  exact ⟨rfl, half⟩

end

end Sys2Proof.Machine
end

