-- ==== Sys2Proof/Proofs/QueueSetTime.lean ====
section
/-! PROOFS. SET-TIME at the schedule queue (R173, R174): what the dispatch unit leaves alone, and what becomes of the blocks and
of the target (R175). -/

namespace Sys2Proof.Machine

section
variable {a s t u : State} {p n : Nat} {b x : Block}

/-! ### What the dispatch unit leaves alone -/

/-- A notice may have been formed and messages sent (R168, R178), with their events. -/
def NoticesMoved (s t : State) : Prop :=
  { t with mgmt := s.mgmt, disp := { t.disp with notice := s.disp.notice, out := s.disp.out } } = s

theorem NoticesMoved.refl (s : State) : NoticesMoved s s := rfl

theorem NoticesMoved.trans (h : NoticesMoved s t) (k : NoticesMoved t u) : NoticesMoved s u := by
  unfold NoticesMoved at *
  rw [← k] at h
  exact h

theorem NoticesMoved.log {src : Source} {name : EventName} {x y z : Int} (h : NoticesMoved s t) :
    NoticesMoved s (t.log src name x y z) := by
  refine h.trans ?_
  unfold State.log
  split <;> rfl

theorem NoticesMoved.ite {d : Prop} [Decidable d] (hs : NoticesMoved a s) (ht : NoticesMoved a t) :
    NoticesMoved a (if d then s else t) := by
  split
  · exact hs
  · exact ht

theorem NoticesMoved.foldl {α : Type} (f : State → α → State) (hf : ∀ s z, NoticesMoved a s → NoticesMoved a (f s z)) :
    ∀ (zs : List α) (s : State), NoticesMoved a s → NoticesMoved a (zs.foldl f s)
  | [], _, h => h
  | z :: zs, s, h => NoticesMoved.foldl f hf zs (f s z) (hf s z h)

theorem NoticesMoved.sendUnit {kind : Byte} {body : List Byte} (h : NoticesMoved a s) :
    NoticesMoved a (s.sendUnit kind n body) := by
  have sent : NoticesMoved a (s.sendTo s.disp.unitUsed kind n body) := by
    unfold State.sendTo State.sendBytes
    exact .ite h h.log
  exact .ite sent h

theorem NoticesMoved.newNotice {r : NoticeReason} (h : NoticesMoved a s) : NoticesMoved a (s.newNotice r) := by
  unfold State.newNotice
  exact .ite (.sendUnit h) h

theorem NoticesMoved.callUnmet (h : NoticesMoved a s) : NoticesMoved a s.callUnmet := by
  unfold State.callUnmet
  exact .ite h (.ite h h.newNotice)

/-- What SET-TIME at the schedule queue leaves alone: all but the points, the turbine interface, the dispatch and
management units and the steps owed. -/
def DispatchFrame (s t : State) : Prop :=
  { t with points := s.points, turb := s.turb, disp := s.disp, mgmt := s.mgmt, owed := s.owed } = s

theorem DispatchFrame.trans (h : DispatchFrame s t) (k : DispatchFrame t u) : DispatchFrame s u := by
  unfold DispatchFrame at *
  rw [← k] at h
  exact h

/-- A step that leaves all but the points, the turbine interface, the dispatch and management units and the steps owed
leaves the clocks, the ring, the segment manager, the queue of commands, the lines and the flue gas units. -/
theorem DispatchFrame.blocks (h : DispatchFrame s t) : t.clock = s.clock ∧ t.ring = s.ring ∧ t.seg = s.seg ∧
    t.pending = s.pending ∧ (∀ l, t.line l = s.line l) ∧ ∀ l, t.fgc l = s.fgc l := by
  unfold DispatchFrame at h
  rw [← h]
  exact ⟨rfl, rfl, rfl, rfl, fun _ => rfl, fun _ => rfl⟩

theorem DispatchFrame.setTurb (h : DispatchFrame s t) (g : Turbine) : DispatchFrame s { t with turb := g } := h

/-- The part with another schedule queue. -/
def State.withQueue (s : State) (q : List Block) : State := { s with disp.queue := q }

theorem NoticesMoved.queue {q : List Block} (h : NoticesMoved (s.withQueue q) t) : t.disp.queue = q :=
  (congrArg (·.disp.queue) h :)

theorem NoticesMoved.frame {q : List Block} (h : NoticesMoved (s.withQueue q) t) : DispatchFrame s t :=
  (congrArg (fun u : State => { u with
    disp := s.disp, points := s.points, turb := s.turb, mgmt := s.mgmt, owed := s.owed }) h :)

theorem DispatchFrame.changeTurbine {new : TurbineState} {cause : TurbCause} (h : DispatchFrame s t) :
    DispatchFrame s (t.changeTurbine new cause) := by
  refine h.trans ?_
  unfold State.changeTurbine State.request DispatchFrame
  simp

theorem DispatchFrame.takeTarget {g : Target} (h : DispatchFrame s t) : DispatchFrame s (t.takeTarget g) := by
  unfold State.takeTarget State.judgeSync
  dsimp only
  split
  · exact .setTurb (.changeTurbine (h.setTurb _)) _
  · exact h

theorem DispatchFrame.chooseTarget (h : DispatchFrame s t) : DispatchFrame s t.chooseTarget := by
  unfold State.chooseTarget
  dsimp only
  split
  · exact h
  · exact .takeTarget h

/-! ### The blocks at the new time (R173, R174) -/

/-- R173: a PENDING block whose start has come is ACTIVE. -/
def Block.started (b : Block) (p : Nat) : Block :=
  if b.status = .pending ∧ b.start ≤ p then { b with status := .active } else b

/-- R176: an ACTIVE FIRM block beyond C_e is UNMET. -/
def Block.judged (b : Block) (cE : Nat) : Block := if b.fails cE then { b with status := .unmet } else b

/-- R174: a block whose start lies ahead again is PENDING. -/
def Block.waiting (b : Block) (p : Nat) : Block :=
  if b.status ≠ .pending ∧ p < b.start then { b with status := .pending } else b

/-- A block of another status, which is PENDING only if its start lies ahead of `p`. -/
structure Block.Begun (p : Nat) (b x : Block) : Prop where
  same   : { x with status := b.status } = b
  status : x.status = .pending → p < x.start

theorem Block.begun_started (b : Block) (p : Nat) : Begun p b (b.started p) := by
  unfold Block.started
  split
  · exact ⟨rfl, nofun⟩
  · next waits => exact ⟨rfl, fun pending => not_le.1 fun come => waits ⟨pending, come⟩⟩

theorem Block.Begun.judged (h : Begun p b x) (cE : Nat) : Begun p b (x.judged cE) := by
  unfold Block.judged
  split
  · exact ⟨h.same, nofun⟩
  · exact h

/-- R174: a block of another status, PENDING exactly when its start lies ahead of `p`. -/
structure Block.Placed (p : Nat) (b x : Block) : Prop where
  same   : { x with status := b.status } = b
  status : x.status = .pending ↔ p < x.start

theorem Block.Begun.placed (h : Begun p b x) : Placed p b (x.waiting p) := by
  unfold Block.waiting
  split
  · next ahead => exact ⟨h.same, fun _ => ahead.2, fun _ => rfl⟩
  · next still => exact ⟨h.same, h.status, fun ahead => not_not.1 fun other => still ⟨other, ahead⟩⟩

theorem Block.Placed.stop (h : Placed p b x) : x.stop = b.stop := (congrArg Block.stop h.same :)

/-- R176: the blocks are judged, and notices formed for those that fail. -/
theorem State.judgeBlocks_moved (s : State) :
    NoticesMoved (s.withQueue (s.disp.queue.map fun b => b.judged s.disp.lastCe)) s.judgeBlocks :=
  .foldl _ (fun _ _ h => h.log.callUnmet) _ _ (.refl _)

/-- R173, R174: every block whose start has come has begun, and nothing else than notices comes of it. -/
theorem State.startAndJudge_moved (s : State) (p : Nat) : ∃ f, (∀ b, Block.Begun p b (f b)) ∧
    NoticesMoved (s.withQueue (s.disp.queue.map f)) (s.startAndJudge p) := by
  unfold State.startAndJudge
  dsimp only
  split
  · refine ⟨fun b => (b.started p).judged s.disp.lastCe, fun b => (b.begun_started p).judged _, ?_⟩
    have judged := (s.withQueue (startBlocks p s.disp.queue)).judgeBlocks_moved
    have both : ((startBlocks p s.disp.queue).map fun b => b.judged s.disp.lastCe) =
        s.disp.queue.map fun b => (b.started p).judged s.disp.lastCe := List.map_map
    rw [← both]
    exact judged
  · exact ⟨fun b => b.started p, fun b => b.begun_started p, .refl _⟩

/-! ### The target (R175) -/

/-- R175: the target chosen is chosen again. -/
theorem Dispatch.chosen_chosen (d : Dispatch) : ({ d with target := d.chosen } : Dispatch).chosen = d.chosen := by
  unfold Dispatch.chosen
  dsimp only
  split
  · rfl
  · split <;> rfl

theorem State.chooseTarget_disp (s : State) : s.chooseTarget.disp = { s.disp with target := s.disp.chosen } := by
  unfold State.chooseTarget
  dsimp only
  split
  · next chosen => rw [chosen]
  · exact (UpdateFrame.judgeSync (.refl _)).disp

/-! ### SET-TIME at the schedule queue (R174) -/

/-- R174: the blocks that have ended by `p` leave the queue, each logged. -/
def State.blocksExpired (s : State) (p : Nat) : State :=
  (s.disp.queue.filter fun (b : Block) => decide (b.stop ≤ p)).foldl
    (init := s.withQueue (s.disp.queue.filter fun (b : Block) => decide (p < b.stop))) fun s b =>
      s.log .dispatch .blockExpired b.order b.index b.status.code

theorem State.blocksExpired_moved (s : State) (p : Nat) :
    NoticesMoved (s.withQueue (s.disp.queue.filter fun (b : Block) => decide (p < b.stop))) (s.blocksExpired p) :=
  .foldl _ (fun _ _ h => h.log) _ _ (.refl _)

/-- R174: the blocks that have ended gone, those whose start has come begun, and those whose start lies ahead again
PENDING. -/
def State.blocksPlaced (s : State) (p : Nat) : State :=
  let u := (s.blocksExpired p).startAndJudge p
  u.withQueue (u.disp.queue.map fun b => b.waiting p)

theorem State.queueSetTime_eq (s : State) (p : Nat) : s.queueSetTime p = (s.blocksPlaced p).chooseTarget := rfl

theorem State.queueSetTime_frame (s : State) (p : Nat) : DispatchFrame s (s.queueSetTime p) := by
  obtain ⟨f, -, moved⟩ := (s.blocksExpired p).startAndJudge_moved p
  have placed : DispatchFrame s (s.blocksPlaced p) := (s.blocksExpired_moved p).frame.trans moved.frame
  exact placed.chooseTarget

/-- R174: the blocks left are those that end after `p`, each PENDING exactly when its start lies ahead. -/
theorem State.queueSetTime_queue (s : State) (p : Nat) : ∃ f, (∀ b, Block.Placed p b (f b)) ∧
    (s.queueSetTime p).disp.queue = (s.disp.queue.filter fun (b : Block) => decide (p < b.stop)).map f := by
  obtain ⟨f, begun, moved⟩ := (s.blocksExpired p).startAndJudge_moved p
  refine ⟨fun b => (f b).waiting p, fun b => (begun b).placed, ?_⟩
  have queue : (s.queueSetTime p).disp.queue =
      ((s.blocksExpired p).startAndJudge p).disp.queue.map fun b => b.waiting p := by
    rw [State.queueSetTime_eq, State.chooseTarget_disp]
    rfl
  rw [queue, moved.queue, (s.blocksExpired_moved p).queue]
  exact List.map_map

theorem State.queueSetTime_target (s : State) (p : Nat) :
    (s.queueSetTime p).disp.target = (s.queueSetTime p).disp.chosen := by
  rw [State.queueSetTime_eq, State.chooseTarget_disp, Dispatch.chosen_chosen]

end

end Sys2Proof.Machine
end

