-- ==== Sys2Proof/Proofs/SetTime.lean ====
section
/-! PROOFS. SET-TIME (O60): the command as a whole (R186). -/

namespace Sys2Proof.Machine

section
variable {s : State} {p : Nat} {c : Line} {value : BitVec 48}

theorem exec_setTimeAbsolute (h : s.Free) :
    exec (.setTimeAbsolute value) s = .next ((s.during .setTime).cmdTimeAbsolute value) :=
  commandForm_of_free (.setTimeAbsolute value) .setTime (fun s => s.cmdTimeAbsolute value) s h

theorem exec_setTimeStep (h : s.Free) : exec (.setTimeStep value) s = .next ((s.during .setTime).cmdTimeStep value) :=
  commandForm_of_free (.setTimeStep value) .setTime (fun s => s.cmdTimeStep value) s h

/-- R186: plant time set, and the line controllers brought to it. -/
def State.linesTimeSet (s : State) (p : Nat) : State :=
  (({ s with clock := { s.clock with plant := some p } } : State).burnSetTime .one p).burnSetTime .two p

theorem State.linesTimeSet_line (s : State) (p : Nat) (l : LineId) :
    (s.linesTimeSet p).line l = (s.line l).timeSet p := by
  unfold State.linesTimeSet
  rw [State.burnSetTime_eq, State.burnSetTime_eq]
  cases l <;> rfl

/-- R186: then the flue gas units. -/
def State.unitsTimeSet (s : State) (p : Nat) : State := ((s.linesTimeSet p).fgcSetTime .one p).fgcSetTime .two p

/-- R186: at the lines and their units SET-TIME leaves the ring, the segment manager, the dispatch unit and the queue of
commands. -/
theorem State.unitsTimeSet_blocks (s : State) (p : Nat) :
    (s.unitsTimeSet p).clock = { s.clock with plant := some p } ∧
    (s.unitsTimeSet p).ring = s.ring ∧ (s.unitsTimeSet p).seg = s.seg ∧ (s.unitsTimeSet p).disp = s.disp ∧
    (s.unitsTimeSet p).pending = s.pending := by
  have lines : UpdateFrame { s with clock := { s.clock with plant := some p } } (s.unitsTimeSet p) :=
    .fgcSetTime (.fgcSetTime (.burnSetTime (.burnSetTime (.refl _))))
  exact ⟨lines.clock, lines.ring, lines.seg, lines.disp, lines.pending⟩

theorem State.unitsTimeSet_opened (s : State) (p : Nat) : ∀ l, ((s.unitsTimeSet p).fgc l).OpenedAt p
  | .one => by
    have kept : (s.unitsTimeSet p).fgc .one = ((s.linesTimeSet p).fgcSetTime .one p).fgc .one :=
      (UnitEvent.fgcSetTime .two _ p).otherFgc
    rw [kept]
    exact State.fgcSetTime_opened ..
  | .two => State.fgcSetTime_opened ..

/-- R87, R127: each line controller is brought to the new time, and stays there unless its line is stopped. -/
theorem State.unitsTimeSet_line (s : State) (p : Nat) (l : LineId) :
    (s.unitsTimeSet p).line l = (s.line l).timeSet p ∨
      (s.line l).state.feeds = true ∧ ((s.unitsTimeSet p).line l).state = .burnout := by
  have one := UnitEvent.fgcSetTime .one (s.linesTimeSet p) p
  have two := UnitEvent.fgcSetTime .two ((s.linesTimeSet p).fgcSetTime .one p) p
  have brought : (s.unitsTimeSet p).line l = (s.linesTimeSet p).line l ∨
      ((s.linesTimeSet p).line l).state.feeds = true ∧ ((s.unitsTimeSet p).line l).state = .burnout := by
    cases l with
    | one =>
      have kept : (s.unitsTimeSet p).line .one = ((s.linesTimeSet p).fgcSetTime .one p).line .one := two.other
      rw [kept]
      exact one.line
    | two =>
      have kept : ((s.linesTimeSet p).fgcSetTime .one p).line .two = (s.linesTimeSet p).line .two := one.other
      rw [← kept]
      exact two.line
  rw [State.linesTimeSet_line, Line.timeSet_state] at brought
  exact brought

/-- R186: a taken SET-TIME. -/
theorem State.setTime_eq (s : State) (mode p : Nat) : s.setTime mode p =
    (((s.unitsTimeSet p).queueSetTime p).log .mgmt .timeSet mode (jumpMinutes s.clock.plant p)
      (if s.clock.plant = none then 1 else 0)).answer .setTime .done := rfl

/-- R87: the burn timing of a line at a SET-TIME to `p`, as it stands before and after. -/
structure Line.TimedAt (p : Nat) (c d : Line) : Prop where
  within : ∀ b, c.burnAt = some b → b ≤ p + 60000 → p < b → d.burnTimer = c.burnTimer ∧ d.burnAt = some b
  beyond : (∀ b, c.burnAt = some b → p + 60000 < b ∨ b ≤ p) → d.burnTimer = none ∧ d.burnAt = some (minuteFrom p)

theorem Line.timeSet_timed (entry : c.entry.isSome = true) : Line.TimedAt p c (c.timeSet p) where
  within := fun b boundary upTo ahead => by
    rw [Line.timeSet_of_within boundary upTo ahead]
    exact ⟨rfl, boundary⟩
  beyond := fun beyond => by
    rw [Line.timeSet_of_beyond entry beyond]
    exact ⟨rfl, rfl⟩

/-- R186: what a SET-TIME to `p` sets, and what it leaves. -/
structure TimeSet (p : Nat) (s t : State) : Prop where
  clock    : t.clock = { s.clock with plant := some p }
  answered : t.Answered .setTime .done []
  ring     : t.ring = s.ring
  seg      : t.seg = s.seg
  pending  : t.pending = s.pending
  unit     : ∀ l, (t.fgc l).OpenedAt p
  line     : ∀ l, (t.line l).state = (s.line l).state → (s.line l).entry.isSome = true → (s.line l).TimedAt p (t.line l)
  blocks   : ∃ f, (∀ b, Block.Placed p b (f b)) ∧
    t.disp.queue = (s.disp.queue.filter fun (b : Block) => decide (p < b.stop)).map f
  target   : t.disp.target = t.disp.chosen

theorem State.setTime_set (s : State) (mode p : Nat) : TimeSet p s (s.setTime mode p) := by
  obtain ⟨clock, ring, seg, disp, pending⟩ := s.unitsTimeSet_blocks p
  obtain ⟨sameClock, sameRing, sameSeg, samePending, lines, fgcs⟩ := ((s.unitsTimeSet p).queueSetTime_frame p).blocks
  rw [State.setTime_eq]
  refine ⟨?_, State.answered .., ?_, ?_, ?_, fun l => ?_, fun l same entry => ?_, ?_, ?_⟩
  · rw [State.answer_clock, State.log_clock, sameClock, clock]
  · rw [State.answer_ring, State.log_ring, sameRing, ring]
  · rw [State.answer_seg, State.log_seg, sameSeg, seg]
  · rw [State.answer_pending, State.log_pending, samePending, pending]
  · rw [State.answer_fgc, State.log_fgc, fgcs]
    exact s.unitsTimeSet_opened p l
  · rw [State.answer_line, State.log_line, lines] at same ⊢
    rcases s.unitsTimeSet_line p l with brought | ⟨feeds, burnt⟩
    · rw [brought]
      exact Line.timeSet_timed entry
    · rw [← same, burnt] at feeds
      cases feeds
  · rw [State.answer_disp, State.log_disp, ← disp]
    exact State.queueSetTime_queue ..
  · rw [State.answer_disp, State.log_disp]
    exact State.queueSetTime_target ..

theorem State.cmdTimeStep_of_unset (h : s.clock.plant = none) : s.cmdTimeStep value = s.answer .setTime .timeUnset := by
  unfold State.cmdTimeStep
  rw [h]

theorem State.cmdTimeStep_of_negative {q : Nat} (h : s.clock.plant = some q) (negative : (q : Int) + value.toInt < 0) :
    s.cmdTimeStep value = s.answer .setTime .badValue := by
  unfold State.cmdTimeStep
  rw [h]
  exact if_pos negative

theorem State.cmdTimeStep_of_set {q : Nat} (h : s.clock.plant = some q) (sound : 0 ≤ (q : Int) + value.toInt) :
    s.cmdTimeStep value = s.setTime 1 (((q : Int) + value.toInt).toNat % 281474976710656) := by
  unfold State.cmdTimeStep
  rw [h]
  exact if_neg (not_lt.2 sound)

end

end Sys2Proof.Machine

open Sys2Proof.Machine in
/-- Settles O60: both modes as one change of plant time, and the refusals of STEP. -/
theorem Sys2Proof.plantTimeIsSet : Obligations.PlantTimeIsSet := fun value s q => by
  intro d set
  have taken : ∀ (i : Instr) (mode p : Nat), exec i s = .next (d.setTime mode p) → set i p := fun i mode p ran => by
    have h := d.setTime_set mode p
    obtain ⟨f, placed, queue⟩ := h.blocks
    refine ⟨_, ran, h.clock, h.answered, h.ring, h.seg, h.pending, fun l => ?_, ?_, ?_, h.target⟩
    · obtain ⟨minute, half⟩ := h.unit l
      exact ⟨minute, half, fun same entry => ⟨(h.line l same entry).within, (h.line l same entry).beyond⟩⟩
    · rw [queue, List.forall_mem_map]
      intro b left
      exact ⟨(placed b).stop ▸ of_decide_eq_true (List.mem_filter.1 left).2, (placed b).status⟩
    · intro b waits later
      rw [queue]
      exact ⟨f b, List.mem_map_of_mem (List.mem_filter.2 ⟨waits, decide_eq_true later⟩), (placed b).same⟩
  refine ⟨taken _ _ _ (exec_setTimeAbsolute q), fun unset => ?_, fun now old => ⟨fun negative => ?_, fun sound => ?_⟩⟩
  · exact (exec_setTimeStep q).trans (congrArg _ (State.cmdTimeStep_of_unset unset))
  · exact (exec_setTimeStep q).trans (congrArg _ (State.cmdTimeStep_of_negative old negative))
  · exact taken _ _ _ ((exec_setTimeStep q).trans (congrArg _ (State.cmdTimeStep_of_set old sound)))
end

