-- ==== Sys2Proof/Proofs/Normalisation.lean ====
section
/-! PROOFS. Normalisation of a sample (O40): the steps of R99, their bounds, and the sample judged on them. -/

namespace Sys2Proof.Machine

section
variable {s : State} {l : LineId} {k : Component} {b : Basis} {o2Ref : Nat} {o2 h2o v : Int}

/-! ### Normalisation (R99) -/

/-- R99, step 1: the moisture that the part takes into account. -/
def moisture (h2o : Int) : Nat := (clampInt h2o 0 4000).toNat

theorem moisture_le (h2o : Int) : moisture h2o ≤ 4000 := by
  unfold moisture clampInt
  omega

theorem normalise_of_high (high : 2000 ≤ toDry b (moisture h2o) o2.toNat) : normalise b o2Ref o2 h2o v = none :=
  if_pos high

theorem normalise_of_below (sound : toDry b (moisture h2o) o2.toNat < 2000)
    (below : toDry b (moisture h2o) o2.toNat ≤ o2Ref) :
    normalise b o2Ref o2 h2o v = some (toDry b (moisture h2o) v.toNat) :=
  (if_neg (not_le.2 sound)).trans (if_neg (not_lt.2 below))

theorem normalise_of_above (sound : toDry b (moisture h2o) o2.toNat < 2000)
    (above : o2Ref < toDry b (moisture h2o) o2.toNat) :
    normalise b o2Ref o2 h2o v = some (toDry b (moisture h2o) v.toNat * (2100 - o2Ref) /
      (2100 - toDry b (moisture h2o) o2.toNat)) :=
  (if_neg (not_le.2 sound)).trans (if_pos above)

/-- R99, step 2: a reading taken to dry gas at its bound, 32,767 at a moisture of 4,000. -/
theorem toDry_le {h : Nat} (wet : h ≤ 4000) (range : v ≤ 32767) : toDry b h v.toNat ≤ 54611 := by
  have reading : v.toNat ≤ 32767 := by omega
  cases b with
  | dry => exact reading.trans (by decide)
  | wet =>
    have scaled : v.toNat * 10000 ≤ 32767 * 10000 := Nat.mul_le_mul_right 10000 reading
    exact Nat.div_le_div (c := 10000 - h) (d := 6000) scaled (by omega) (by decide)

/-- R99, step 4: the reference lies below the oxygen measured, so that the value rises, at most by 1,800 over 101. -/
theorem reference_bounds {c o2Dry : Nat} (low : 300 ≤ o2Ref) (above : o2Ref < o2Dry) (sound : o2Dry < 2000)
    (bound : c ≤ 54611) :
    c ≤ c * (2100 - o2Ref) / (2100 - o2Dry) ∧ c * (2100 - o2Ref) / (2100 - o2Dry) ≤ 973265 := by
  constructor
  · rw [Nat.le_div_iff_mul_le (by omega)]
    exact Nat.mul_le_mul_left c (by omega)
  · have scaled : c * (2100 - o2Ref) ≤ 54611 * 1800 := Nat.mul_le_mul bound (by omega)
    exact Nat.div_le_div (c := 2100 - o2Dry) (d := 101) scaled (by omega) (by decide)

/-- R99: a value at the reference is never below the dry one, and at most 973,265. -/
theorem normalise_bounds {r : Nat} (low : 300 ≤ o2Ref) (range : v ≤ 32767) (h : normalise b o2Ref o2 h2o v = some r) :
    toDry b (moisture h2o) v.toNat ≤ r ∧ r ≤ 973265 := by
  have bound : toDry b (moisture h2o) v.toNat ≤ 54611 := toDry_le (moisture_le h2o) range
  by_cases sound : toDry b (moisture h2o) o2.toNat < 2000
  · by_cases below : toDry b (moisture h2o) o2.toNat ≤ o2Ref
    · obtain rfl : _ = r := Option.some.inj ((normalise_of_below sound below).symm.trans h)
      exact ⟨le_rfl, bound.trans (by decide)⟩
    · obtain rfl : _ = r := Option.some.inj ((normalise_of_above sound (not_le.1 below)).symm.trans h)
      exact reference_bounds low (not_le.1 below) sound bound
  · rw [normalise_of_high (not_lt.1 sound)] at h
    cases h

/-- R98: a sample whose readings are usable and uncalibrated is what normalisation makes of it. -/
theorem State.judgeSample_of_usable (reading : s.read Quality.sumOk k.role (some l) = some v)
    (oxygen : s.read Quality.sumOk .o2Flue (some l) = some o2)
    (water : (s.fgc l).basis.get k = .wet → s.read Quality.sumOk .h2oFlue (some l) = some h2o)
    (still : (s.fgc l).calibrating k = false) :
    s.judgeSample l k = match normalise ((s.fgc l).basis.get k) (s.fgc l).page.o2Ref o2 h2o v with
      | some r => .ok r
      | none => .error 5 := by
  unfold State.judgeSample
  dsimp only
  rw [reading, oxygen, still]
  cases basis : (s.fgc l).basis.get k with
  | dry =>
    have same : normalise .dry (s.fgc l).page.o2Ref o2 ((s.read Quality.sumOk .h2oFlue (some l)).getD 0) v =
      normalise .dry (s.fgc l).page.o2Ref o2 h2o v := rfl
    dsimp only
    rw [same]
    cases normalise .dry (s.fgc l).page.o2Ref o2 h2o v <;> rfl
  | wet =>
    rw [water basis]
    dsimp only [Option.getD_some]
    cases normalise .wet (s.fgc l).page.o2Ref o2 h2o v <;> rfl

end

end Sys2Proof.Machine

open Sys2Proof.Machine in
/-- Settles O40: the steps case by case along the dry oxygen, their bounds, and the sample they judge. -/
theorem Sys2Proof.normalisationSteps : Obligations.NormalisationSteps := fun b o2Ref o2 h2o c high low => by
  intro h dry
  have steps : dry = fun x => toDry b (moisture h2o) x.toNat := by
    funext x
    cases b <;> rfl
  rw [steps]
  have wet : h ≤ 4000 := moisture_le h2o
  refine ⟨normalise_of_high, normalise_of_below, normalise_of_above, toDry_le wet, wet, by omega, fun _ => by omega,
    fun r range => normalise_bounds low range, fun s l k basis ref reading oxygen water still => ?_⟩
  subst basis ref
  refine (State.judgeSample_of_usable reading oxygen water still).trans ?_
  cases normalise ((s.fgc l).basis.get k) (s.fgc l).page.o2Ref o2 h2o c <;> rfl
end

