-- ==== Sys2Proof/Proofs/SampleInstant.lean ====
section
/-! PROOFS. The sample instant of a flue gas unit (O41): each component's share of it, and what it leaves alone. -/

namespace Sys2Proof.Machine

section
variable {s : State} {l : LineId} {c d : Component} {f g : Fgc} {now w : Nat} {r : Option (Except Nat Nat)}

/-! ### The samples of an instant (R98, R101) -/

@[simp] theorem Six.get_set {α : Type} (x : Six α) (c : Component) (y : α) : (x.set c y).get c = y := by cases c <;> rfl

theorem Six.get_set_of_ne {α : Type} (x : Six α) (h : d ≠ c) (y : α) : (x.set c y).get d = x.get d := by
  cases c <;> cases d <;> first | rfl | exact absurd rfl h

/-- R98: a component takes the sample judged, or without a point none. -/
def Fgc.takeSample (f : Fgc) (c : Component) (now : Nat) : Option (Except Nat Nat) → Fgc
  | none => f
  | some r => f.addSample c now r

/-- R98, R101: what a unit holds of one component alone. -/
def Fgc.share (f : Fgc) (c : Component) : Latest × Option MinuteComp :=
  (f.latest.get c, f.minute.map fun m => m.comps.get c)

/-- R98, R101: a component's share once it has taken its sample. -/
def shareAfter (now : Nat) : Option (Except Nat Nat) → Latest × Option MinuteComp → Latest × Option MinuteComp
  | none, h => h
  | some (.ok x), h => ({ h.1 with sample := some (x, now) },
      h.2.map fun k => { k with samples := k.samples + 1, good := k.good + 1, sum := k.sum + x })
  | some (.error e), h => ({ h.1 with reason := e }, h.2.map fun k => { k with samples := k.samples + 1 })

theorem Fgc.takeSample_share (f : Fgc) (c : Component) (now : Nat) (r : Option (Except Nat Nat)) :
    (f.takeSample c now r).share c = shareAfter now r (f.share c) := by
  rcases r with _ | e | x
  · rfl
  · cases h : f.minute <;> simp [Fgc.takeSample, Fgc.addSample, Fgc.share, shareAfter, h]
  · cases h : f.minute <;> simp [Fgc.takeSample, Fgc.addSample, Fgc.share, shareAfter, h]

theorem Fgc.takeSample_share_other (f : Fgc) (h : d ≠ c) (now : Nat) (r : Option (Except Nat Nat)) :
    (f.takeSample c now r).share d = f.share d := by
  rcases r with _ | e | x
  · rfl
  · cases m : f.minute <;> simp [Fgc.takeSample, Fgc.addSample, Fgc.share, Six.get_set_of_ne _ h, m]
  · cases m : f.minute <;> simp [Fgc.takeSample, Fgc.addSample, Fgc.share, Six.get_set_of_ne _ h, m]

/-- R98, R101: samples move the newest samples and the components' shares of the minute, and nothing else. -/
structure Fgc.Sampled (f g : Fgc) : Prop where
  rest  : { g with latest := f.latest, minute := f.minute } = f
  marks : g.minute.map (fun m => (m.start, m.satAll, m.adjusted)) = f.minute.map fun m => (m.start, m.satAll, m.adjusted)

theorem Fgc.Sampled.refl (f : Fgc) : f.Sampled f := ⟨rfl, rfl⟩

theorem Fgc.Sampled.takeSample (h : f.Sampled g) : f.Sampled (g.takeSample c now r) := by
  rcases r with _ | e | x
  · exact h
  · exact ⟨h.rest, (Option.map_map ..).trans h.marks⟩
  · exact ⟨h.rest, (Option.map_map ..).trans h.marks⟩

/-- R98: a sample is judged on the points, the bases in force, the page and the calibration flags. -/
theorem State.judgeSample_congr {t : State} (points : t.points = s.points) (basis : (t.fgc l).basis = (s.fgc l).basis)
    (page : (t.fgc l).page = (s.fgc l).page) (still : (t.fgc l).calibrating c = (s.fgc l).calibrating c) :
    t.judgeSample l c = s.judgeSample l c := by
  have reads : ∀ q m, t.read Quality.sumOk q m = s.read Quality.sumOk q m := fun q m =>
    ((RoleKept.refl q s).of_points points).read _ m
  unfold State.judgeSample
  simp only [reads, basis, page, still]

theorem Fgc.Sampled.judgeSample (h : f.Sampled g) (s : State) (l : LineId) (w : Nat) (c : Component) :
    ((s.reach w).setFgc l g).judgeSample l c = (s.setFgc l f).judgeSample l c := by
  have unit : { g with latest := f.latest, minute := f.minute } = f := h.rest
  refine State.judgeSample_congr rfl ?_ ?_ ?_
  · rw [State.setFgc_fgc, State.setFgc_fgc]
    exact (congrArg Fgc.basis unit :)
  · rw [State.setFgc_fgc, State.setFgc_fgc]
    exact (congrArg Fgc.page unit :)
  · rw [State.setFgc_fgc, State.setFgc_fgc]
    exact (congrArg (·.calibrating c) unit :)

/-- R98: what an instant brings to a component, none where it has no point. -/
def State.sampleOf (s : State) (l : LineId) (c : Component) : Option (Except Nat Nat) :=
  if s.configured l c then some (s.judgeSample l c) else none

/-- R98: the components of a list take their samples one after another. -/
def Fgc.takeSamples (f : Fgc) (now : Nat) (r : Component → Option (Except Nat Nat)) (cs : List Component) : Fgc :=
  cs.foldl (init := f) fun f c => f.takeSample c now (r c)

theorem Fgc.Sampled.takeSamples {r : Component → Option (Except Nat Nat)} :
    ∀ {cs : List Component} {g : Fgc}, f.Sampled g → f.Sampled (g.takeSamples now r cs)
  | [], _, h => h
  | _ :: cs, _, h => Fgc.Sampled.takeSamples (cs := cs) h.takeSample

/-- R98: each component of the list takes its own sample, and no other takes any. -/
theorem Fgc.takeSamples_share (now : Nat) (r : Component → Option (Except Nat Nat)) (c : Component) :
    ∀ (cs : List Component) (f : Fgc), cs.Nodup →
      (f.takeSamples now r cs).share c = if c ∈ cs then shareAfter now (r c) (f.share c) else f.share c
  | [], _, _ => rfl
  | d :: cs, f, distinct => by
    obtain ⟨first, rest⟩ := List.nodup_cons.1 distinct
    have step := Fgc.takeSamples_share now r c cs (f.takeSample d now (r d)) rest
    refine Eq.trans step ?_
    by_cases same : c = d
    · subst same
      rw [if_neg first, if_pos List.mem_cons_self, Fgc.takeSample_share]
    · simp only [Fgc.takeSample_share_other f same, List.mem_cons, same, false_or]

theorem State.sampleComponent_eq (h : f.Sampled g) : ((s.reach w).setFgc l g).sampleComponent l c =
    (s.reach w).setFgc l (g.takeSample c (s.reach w).runTime ((s.setFgc l f).sampleOf l c)) := by
  have found : ((s.reach w).setFgc l g).findPoint c.role (some l) = (s.setFgc l f).findPoint c.role (some l) := rfl
  unfold State.sampleComponent State.sampleOf State.configured
  rw [found, State.setFgc_fgc, h.judgeSample, State.setFgc_runTime]
  split
  · unfold State.setFgc
    rw [Two.set_set]
    rfl
  · rfl

/-- R98: the samples of an instant are judged as if each were the first. -/
theorem State.sampleComponents_eq : ∀ (cs : List Component) {g : Fgc}, f.Sampled g →
    cs.foldl (fun s c => s.sampleComponent l c) ((s.reach w).setFgc l g) =
      (s.reach w).setFgc l (g.takeSamples (s.reach w).runTime (fun c => (s.setFgc l f).sampleOf l c) cs)
  | [], _, _ => rfl
  | c :: cs, g, h => by
    rw [List.foldl_cons, State.sampleComponent_eq h]
    exact State.sampleComponents_eq cs h.takeSample

theorem exec_sampleInstant (q : s.Quiet) : exec (.sampleInstant l) s = .next (s.sampleInstant l) :=
  eventForm_of_quiet (fun s => s.sampleInstant l) s q

/-- R97, R98: the unit as the sample instant opens, the timer restarted and the bases taken from the page. -/
def State.atInstant (s : State) (l : LineId) : Fgc :=
  { (s.fgc l).takeBasis with sampleAt := (s.reach (s.fgc l).sampleAt).runTime + 1000 }

/-- R98: what an instant brings to a component, on the bases of the page. -/
def State.instantSample (s : State) (l : LineId) (c : Component) : Option (Except Nat Nat) :=
  (s.setFgc l (s.fgc l).takeBasis).sampleOf l c

theorem State.instantSample_of_absent (h : s.configured l c = false) : s.instantSample l c = none :=
  if_neg (show ¬s.configured l c = true by rw [h]; decide)

theorem State.instantSample_of_there (h : s.configured l c = true) :
    s.instantSample l c = some ((s.setFgc l (s.fgc l).takeBasis).judgeSample l c) := if_pos h

theorem State.atInstant_sampleOf (s : State) (l : LineId) (c : Component) :
    (s.setFgc l (s.atInstant l)).sampleOf l c = s.instantSample l c := by
  have judged : (s.setFgc l (s.atInstant l)).judgeSample l c = (s.setFgc l (s.fgc l).takeBasis).judgeSample l c := by
    refine State.judgeSample_congr rfl ?_ ?_ ?_ <;> rw [State.setFgc_fgc, State.setFgc_fgc] <;> rfl
  unfold State.instantSample State.sampleOf
  rw [judged]
  rfl

/-- R98, R101: the unit once the six components have taken their samples. -/
def State.sampledUnit (s : State) (l : LineId) : Fgc :=
  (s.atInstant l).takeSamples (s.reach (s.fgc l).sampleAt).runTime (s.instantSample l) Component.all

theorem State.sampleInstant_eq (s : State) (l : LineId) :
    s.sampleInstant l = (s.reach (s.fgc l).sampleAt).setFgc l (s.sampledUnit l) := by
  have taken := State.sampleComponents_eq (s := s) (l := l) (w := (s.fgc l).sampleAt) Component.all (.refl (s.atInstant l))
  simp only [State.atInstant_sampleOf] at taken
  exact taken

theorem State.sampledUnit_sampled (s : State) (l : LineId) : (s.atInstant l).Sampled (s.sampledUnit l) :=
  (Fgc.Sampled.refl _).takeSamples

theorem State.sampledUnit_share (s : State) (l : LineId) (c : Component) : (s.sampledUnit l).share c =
    shareAfter (s.reach (s.fgc l).sampleAt).runTime (s.instantSample l c) ((s.fgc l).share c) := by
  have all : c ∈ Component.all := by cases c <;> decide
  exact (Fgc.takeSamples_share _ _ c Component.all (s.atInstant l) (by decide)).trans (if_pos all)

end

end Sys2Proof.Machine

open Sys2Proof.Machine in
/-- Settles O41: the samples as one change of the unit, and each component's share of it. -/
theorem Sys2Proof.sampleInstantJudges : Obligations.SampleInstantJudges := fun l s q => by
  intro u f bases v
  obtain ⟨rest, marks⟩ := s.sampledUnit_sampled l
  refine ⟨s.sampledUnit l, (exec_sampleInstant q).trans (congrArg _ (s.sampleInstant_eq l)), (congrArg Fgc.sampleAt rest :),
    (congrArg Fgc.basis rest :), (congrArg (fun g : Fgc => { g with sampleAt := f.sampleAt, basis := f.basis }) rest :),
    marks, fun c => ?_⟩
  have taken : ∀ r, s.instantSample l c = r → (s.sampledUnit l).share c = shareAfter u.runTime r (f.share c) :=
    fun r h => h ▸ s.sampledUnit_share l c
  have minutes : ∀ k : MinuteComp → MinuteComp,
      (f.minute.map fun m => m.comps.get c).map k = f.minute.map fun m => k (m.comps.get c) := fun k => Option.map_map ..
  refine ⟨fun absent => ?_, fun x there good => ?_, fun e there bad => ?_⟩
  · have share := taken none (State.instantSample_of_absent absent)
    exact ⟨congrArg Prod.fst share, congrArg Prod.snd share⟩
  · have share := taken (some (.ok x)) ((State.instantSample_of_there there).trans (congrArg some good))
    exact ⟨congrArg Prod.fst share, (congrArg Prod.snd share).trans (minutes ..)⟩
  · have share := taken (some (.error e)) ((State.instantSample_of_there there).trans (congrArg some bad))
    exact ⟨congrArg Prod.fst share, (congrArg Prod.snd share).trans (minutes ..)⟩
end

