-- ==== Sys2Proof/Proofs/AbnormalOperation.lean ====
section
/-! PROOFS. Abnormal operation (R124 to R127): what its judgements move in a flue gas unit and bring to the line, and the
timers of the unit (O43). -/

namespace Sys2Proof.Machine

section
variable {a s t u : State} {l : LineId} {d : DosingLoop} {w : Nat} {cause : StateCause} {q : Role}

/-! ### A line sent to BURNOUT (R68, R80) -/

@[simp] theorem State.withdraw_env (s : State) (l : LineId) : (s.withdraw l).env = s.env := by
  unfold State.withdraw
  split <;> simp [State.dropStroke]

@[simp] theorem State.lineOutputs_env (s : State) (l : LineId) (new : LineState) : (s.lineOutputs l new).env = s.env := by
  cases new <;> simp [State.lineOutputs]

@[simp] theorem State.entered_env (s : State) (l : LineId) (new : LineState) : (s.entered l new).env = s.env := by
  unfold State.entered
  dsimp only
  split <;> simp

/-- R80, R126: the hand-over of a line in BURNOUT. -/
theorem State.handedOver_of_burnout (h : (s.line l).state = .burnout) :
    s.handedOver l .burnout = ((s.capReleaseCore l .feedLimit).oweRun .line).judgeCounting l := by
  refine State.fgcLineState_of_operates ?_
  have burning : (((s.capsLeft l .burnout).oweRun .line).line l).state = .burnout := by
    rw [State.oweRun_line]
    exact (congrArg Line.state (s.capsLeft_line l .burnout) :).trans h
  rw [burning]
  rfl

/-- R60, R80: a line that goes to BURNOUT, as its flue gas unit and its caps are left. -/
theorem State.changeOnce_of_burnout (h : (s.line l).state ≠ .burnout) :
    ∃ u : State, s.changeOnce l .burnout cause = u.judgeCounting l ∧ u.fgc l = s.fgc l ∧
      u.env.caps.get l = (s.env.caps.get l).set .feedLimit none := by
  obtain ⟨state, unit⟩ := s.changeLogged_line l .burnout cause
  rw [State.changeOnce_of_ne h, State.handedOver_of_burnout state]
  refine ⟨_, rfl, ?_, ?_⟩
  · rw [State.oweRun_fgc, State.capReleaseCore_fgc, unit]
  · rw [State.oweRun_env, State.capReleaseCore_caps, State.log_env, State.entered_env]

/-- R126: of its unit a request for BURNOUT moves the second timer alone. -/
theorem State.toBurnout_fgc (s : State) (l : LineId) (cause : StateCause) :
    { (s.toBurnout l cause).fgc l with secondAt := (s.fgc l).secondAt } = s.fgc l := by
  rcases s.toBurnout_cases l cause with stays | ⟨feeds, burning⟩
  · rw [stays]
  · obtain ⟨v, changed, unit, -⟩ := State.changeOnce_of_burnout (cause := cause) (LineState.ne_of_feeds feeds rfl)
    rw [burning, changed, ← unit]
    exact v.judgeCounting_fgc l

/-- R80: of its caps a request for BURNOUT moves the FEED-LIMIT cap alone. -/
theorem State.toBurnout_caps (s : State) (l : LineId) (cause : StateCause) :
    { (s.toBurnout l cause).env.caps.get l with feedLimit := (s.env.caps.get l).feedLimit } = s.env.caps.get l := by
  rcases s.toBurnout_cases l cause with stays | ⟨feeds, burning⟩
  · rw [stays]
  · obtain ⟨v, changed, -, caps⟩ := State.changeOnce_of_burnout (cause := cause) (LineState.ne_of_feeds feeds rfl)
    rw [burning, changed, State.judgeCounting_env, caps]
    rfl

/-! ### What abnormal operation moves (R124 to R127) -/

/-- A judgement of abnormal operation: of its unit the record and the second timer move; a feeding line may be sent to
BURNOUT, which drops its FEED-LIMIT cap, and any other line stays with the caps. -/
structure AbnormalStep (l : LineId) (s t : State) : Prop extends UnitEvent l s t where
  unit : { t.fgc l with abn := (s.fgc l).abn, secondAt := (s.fgc l).secondAt } = s.fgc l
  caps : { t.env.caps.get l with feedLimit := (s.env.caps.get l).feedLimit } = s.env.caps.get l
  idle : (s.line l).state.feeds = false → t.env = s.env

/-- A line that does not feed is left alone. -/
theorem UnitEvent.stays (h : UnitEvent l s t) (idle : (s.line l).state.feeds = false) : t.line l = s.line l := by
  rcases h.line with same | ⟨feeds, -⟩
  · exact same
  · rw [idle] at feeds
    cases feeds

theorem AbnormalStep.refl (l : LineId) (s : State) : AbnormalStep l s s := ⟨.refl l s, rfl, rfl, fun _ => rfl⟩

theorem AbnormalStep.trans (h : AbnormalStep l s t) (k : AbnormalStep l t u) : AbnormalStep l s u := by
  refine ⟨h.toUnitEvent.trans k.toUnitEvent, ?_, ?_, fun idle => ?_⟩
  · have first := h.unit
    have second := k.unit
    rw [← second] at first
    exact first
  · have first := h.caps
    have second := k.caps
    rw [← second] at first
    exact first
  · exact (k.idle (h.stays idle ▸ idle)).trans (h.idle idle)

theorem AbnormalStep.ite {b : Prop} [Decidable b] (hs : AbnormalStep l a s) (ht : AbnormalStep l a t) :
    AbnormalStep l a (if b then s else t) := by
  split
  · exact hs
  · exact ht

/-- A step that leaves flue gas units, caps and line alone. -/
theorem UnitEvent.abnormal (h : UnitEvent l s t) (unit : t.fgc l = s.fgc l) (env : t.env = s.env) : AbnormalStep l s t :=
  ⟨h, by rw [unit], by rw [env], fun _ => env⟩

theorem AbnormalStep.log {src : Source} {name : EventName} {x y z : Int} (h : AbnormalStep l a s) :
    AbnormalStep l a (s.log src name x y z) :=
  h.trans ((UnitEvent.refl l s).log.abnormal (State.log_fgc ..) (State.log_env ..))

theorem AbnormalStep.own {m : Option LineId} {v : Int} (h : AbnormalStep l a s) : AbnormalStep l a (s.own q m v) :=
  h.trans ((UnitEvent.refl l s).own.abnormal (State.own_fgc ..) (State.own_env ..))

theorem AbnormalStep.setFgc {f : Fgc} (h : AbnormalStep l a s)
    (hf : { f with abn := (s.fgc l).abn, secondAt := (s.fgc l).secondAt } = s.fgc l) : AbnormalStep l a (s.setFgc l f) := by
  refine h.trans ⟨(UnitEvent.refl l s).setFgc (congrArg Fgc.page hf :) (congrArg Fgc.dosing hf :), ?_, rfl, fun _ => rfl⟩
  rw [State.setFgc_fgc]
  exact hf

theorem AbnormalStep.judgeCounting (h : AbnormalStep l a s) : AbnormalStep l a (s.judgeCounting l) := by
  obtain ⟨_, counted⟩ := s.judgeCounting_eq l
  rw [counted]
  exact h.setFgc rfl

theorem AbnormalStep.toBurnout (h : AbnormalStep l a s) : AbnormalStep l a (s.toBurnout l cause) := by
  have unit := s.toBurnout_fgc l cause
  refine h.trans ⟨(UnitEvent.refl l s).toBurnout, ?_, s.toBurnout_caps l cause, fun idle => ?_⟩
  · exact (congrArg (fun f : Fgc => { f with abn := (s.fgc l).abn }) unit :)
  · rw [State.toBurnout_of_idle idle]

/-! ### The exhausted condition (R127) -/

/-- R127: the exhausted condition follows from the page and the record, whatever flag stands. -/
theorem Fgc.isExhausted_congr {f g : Fgc} (page : g.page = f.page)
    (record : { g.abn with exhausted := f.abn.exhausted } = f.abn) : g.isExhausted = f.isExhausted := by
  have active : g.abn.active = f.abn.active := (congrArg Abnormal.active record :)
  have consec : g.abn.consec = f.abn.consec := (congrArg Abnormal.consec record :)
  have remaining : g.abn.remaining = f.abn.remaining := (congrArg Abnormal.remaining record :)
  unfold Fgc.isExhausted
  rw [page, active, consec, remaining]

/-- R127: the part with the flag of the exhausted condition as given. -/
def State.flagExhausted (s : State) (l : LineId) (on : Bool) : State :=
  s.setFgc l { s.fgc l with abn.exhausted := on }

theorem State.flagExhausted_fgc (s : State) (l : LineId) (on : Bool) :
    (s.flagExhausted l on).fgc l = { s.fgc l with abn.exhausted := on } := State.setFgc_fgc ..

/-- R127: the part once the exhausted condition has come to hold and is logged. -/
def State.exhaustion (s : State) (l : LineId) : State :=
  (s.flagExhausted l true).log (fgcSource l) .budgetExhausted
    (if (s.fgc l).page.consecLimit ≤ (s.fgc l).abn.consec then 1 else 2) (s.fgc l).abn.consec
    ((s.fgc l).abn.remaining / 60 : Nat)

/-- R127: the flag that stands is left; coming to hold brings a forced-stop request, and ceasing is logged. -/
theorem State.judgeExhausted_cases (s : State) (l : LineId) :
    ((s.fgc l).isExhausted = (s.fgc l).abn.exhausted ∧ s.judgeExhausted l = s) ∨
      ((s.fgc l).isExhausted = true ∧ (s.fgc l).abn.exhausted = false ∧
        s.judgeExhausted l = (s.exhaustion l).toBurnout l .forcedStop) ∨
      ((s.fgc l).isExhausted = false ∧ (s.fgc l).abn.exhausted = true ∧
        s.judgeExhausted l = (s.flagExhausted l false).log (fgcSource l) .exhaustedCleared) := by
  unfold State.judgeExhausted
  dsimp only
  cases holds : (s.fgc l).isExhausted <;> cases flag : (s.fgc l).abn.exhausted
  · exact .inl ⟨rfl, rfl⟩
  · exact .inr (.inr ⟨rfl, rfl, rfl⟩)
  · exact .inr (.inl ⟨rfl, rfl, rfl⟩)
  · exact .inl ⟨rfl, rfl⟩

theorem AbnormalStep.flagExhausted {on : Bool} (h : AbnormalStep l a s) : AbnormalStep l a (s.flagExhausted l on) :=
  h.setFgc rfl

theorem AbnormalStep.judgeExhausted (h : AbnormalStep l a s) : AbnormalStep l a (s.judgeExhausted l) := by
  rcases s.judgeExhausted_cases l with ⟨-, stands⟩ | ⟨-, -, comes⟩ | ⟨-, -, ceases⟩
  · rw [stands]
    exact h
  · rw [comes]
    exact h.flagExhausted.log.toBurnout
  · rw [ceases]
    exact h.flagExhausted.log

/-- R127: only the flag of the record moves, and it is as the condition says. -/
theorem State.judgeExhausted_abn (s : State) (l : LineId) :
    ((s.judgeExhausted l).fgc l).abn = { (s.fgc l).abn with exhausted := (s.fgc l).isExhausted } := by
  rcases s.judgeExhausted_cases l with ⟨same, stands⟩ | ⟨holds, -, comes⟩ | ⟨holds, -, ceases⟩
  · rw [stands, same]
  · have logged : ((s.exhaustion l).fgc l).abn = { (s.fgc l).abn with exhausted := true } := by
      rw [State.exhaustion, State.log_fgc, State.flagExhausted_fgc]
    rw [comes, holds, ← logged]
    rcases (s.exhaustion l).toBurnout_cases l .forcedStop with idle | ⟨-, burning⟩
    · rw [idle]
    · rw [burning, State.changeOnce_abn]
  · rw [ceases, holds, State.log_fgc, State.flagExhausted_fgc]

/-- R127: the condition stands after its judgement as before. -/
theorem State.judgeExhausted_isExhausted (s : State) (l : LineId) :
    ((s.judgeExhausted l).fgc l).isExhausted = (s.fgc l).isExhausted := by
  refine Fgc.isExhausted_congr (LineEvent.judgeExhausted l s).fgcPage ?_
  rw [State.judgeExhausted_abn]

/-- R127: a feeding line on which the condition comes to hold goes to BURNOUT. -/
theorem State.judgeExhausted_burns (holds : (s.fgc l).isExhausted = true) (new : (s.fgc l).abn.exhausted = false)
    (feeds : (s.line l).state.feeds = true) :
    ((s.judgeExhausted l).line l).state = .burnout ∧ (s.judgeExhausted l).Shows .lineState (some l) 3 := by
  have same : (s.exhaustion l).line l = s.line l := (State.log_line ..).trans (State.setFgc_line ..)
  have feeding : ((s.exhaustion l).line l).state.feeds = true := same ▸ feeds
  have elsewhere : ((s.exhaustion l).line l).state ≠ .burnout := LineState.ne_of_feeds feeding rfl
  rcases s.judgeExhausted_cases l with ⟨stands, -⟩ | ⟨-, -, comes⟩ | ⟨ceases, -, -⟩
  · rw [holds, new] at stands
    cases stands
  · rw [comes, State.toBurnout_of_feeds feeding]
    exact ⟨State.changeOnce_state elsewhere, State.changeOnce_shows_lineState elsewhere⟩
  · rw [holds] at ceases
    cases ceases

/-- R127: while the condition does not hold, its judgement moves its flag alone. -/
theorem State.judgeExhausted_of_sound (sound : (s.fgc l).isExhausted = false) : (s.judgeExhausted l).lines = s.lines ∧
    (s.judgeExhausted l).env = s.env ∧ (s.judgeExhausted l).fgc l = { s.fgc l with abn.exhausted := false } := by
  rcases s.judgeExhausted_cases l with ⟨same, stands⟩ | ⟨holds, -, -⟩ | ⟨-, -, ceases⟩
  · rw [stands, ← sound, same]
    exact ⟨rfl, rfl, rfl⟩
  · rw [sound] at holds
    cases holds
  · rw [ceases, State.log_lines, State.log_env, State.log_fgc, State.flagExhausted_fgc]
    exact ⟨rfl, rfl, rfl⟩

/-! ### The timers of a unit (R109, R126) -/

theorem exec_saturationTimerExpiry (h : s.Quiet) : exec (.saturationTimerExpiry l d) s = .next (s.saturationExpiry l d) :=
  eventForm_of_quiet (fun s => s.saturationExpiry l d) s h

theorem exec_abnormalSecond (h : s.Quiet) : exec (.abnormalSecond l) s = .next (s.abnormalSecond l) :=
  eventForm_of_quiet (fun s => s.abnormalSecond l) s h

theorem State.saturationExpiry_of_none (h : ((s.fgc l).loops.get d).satAt = none) : s.saturationExpiry l d = s := by
  unfold State.saturationExpiry
  dsimp only
  rw [h]

theorem State.abnormalSecond_of_none (h : (s.fgc l).secondAt = none) : s.abnormalSecond l = s := by
  unfold State.abnormalSecond
  rw [h]

/-- R109: the part with a loop saturated, its timer gone. -/
def State.saturated (s : State) (l : LineId) (d : DosingLoop) : State :=
  s.setFgc l { s.fgc l with
    loops := (s.fgc l).loops.set d { (s.fgc l).loops.get d with saturated := true, satAt := none } }

theorem LineEvent.saturated (l : LineId) (s : State) (d : DosingLoop) : LineEvent l s (s.saturated l d) :=
  .setFgc rfl rfl

theorem State.saturationExpiry_of_some (h : ((s.fgc l).loops.get d).satAt = some w) : s.saturationExpiry l d =
    ((s.reach w).saturated l d).log (fgcSource l) .dosingSaturated (loopCode d) 1 ((s.fgc l).loops.get d).output := by
  unfold State.saturationExpiry
  dsimp only
  rw [h]
  rfl

/-- R126: the record with one second more of abnormal operation. -/
def Abnormal.counted (x : Abnormal) : Abnormal :=
  { x with consec := min 14400 (x.consec + 1), annual := if x.valid then x.annual - 1 else x.annual }

/-- R126: the part with one second counted and the timer started again. -/
def State.secondCounted (s : State) (l : LineId) : State :=
  s.setFgc l { s.fgc l with abn := (s.fgc l).abn.counted, secondAt := some (s.runTime + 1000) }

/-- R126, R129: a second is counted, BUDGET_REMAINING may be set anew, and the exhausted condition is judged. -/
theorem State.abnormalSecond_of_some (h : (s.fgc l).secondAt = some w) : ∃ u, s.abnormalSecond l = u.judgeExhausted l ∧
    (u = (s.reach w).secondCounted l ∨ u = ((s.reach w).secondCounted l).showBudget l) := by
  unfold State.abnormalSecond
  rw [h]
  exact ⟨_, rfl, ite_eq_or_eq ..⟩

theorem State.showBudget_blocks (s : State) (l : LineId) : (s.showBudget l).fgc l = s.fgc l ∧
    (s.showBudget l).lines = s.lines ∧ (s.showBudget l).env = s.env ∧ LineEvent l s (s.showBudget l) :=
  ⟨State.own_fgc .., State.own_lines .., State.own_env .., .own ..⟩

/-- R126: a second counted, as the exhausted condition is judged on it. -/
structure SecondCounted (l : LineId) (s u : State) : Prop where
  event : LineEvent l s u
  unit  : u.fgc l = { s.fgc l with abn := (s.fgc l).abn.counted, secondAt := some (s.runTime + 1000) }
  lines : u.lines = s.lines
  env   : u.env = s.env

theorem State.abnormalSecond_counted (h : (s.fgc l).secondAt = some w) :
    ∃ u, s.abnormalSecond l = u.judgeExhausted l ∧ SecondCounted l (s.reach w) u := by
  obtain ⟨u, judged, counted⟩ := State.abnormalSecond_of_some h
  have plain : SecondCounted l (s.reach w) ((s.reach w).secondCounted l) :=
    ⟨.setFgc rfl rfl, State.setFgc_fgc .., rfl, rfl⟩
  refine ⟨u, judged, ?_⟩
  rcases counted with rfl | rfl
  · exact plain
  · obtain ⟨unit, lines, env, event⟩ := ((s.reach w).secondCounted l).showBudget_blocks l
    exact ⟨plain.event.trans event, unit.trans plain.unit, lines.trans plain.lines, env.trans plain.env⟩

end

end Sys2Proof.Machine

open Sys2Proof.Machine in
/-- Settles O43: the saturation timer as a change of its loop, the abnormal second as a change of the record on which the
exhausted condition is judged. -/
theorem Sys2Proof.flueGasTimers : Obligations.FlueGasTimers := fun l s q => by
  intro f
  refine ⟨fun d w timer => ?_, fun w timer => ?_,
    fun d idle => (exec_saturationTimerExpiry q).trans (congrArg _ (State.saturationExpiry_of_none idle)),
    fun idle => (exec_abnormalSecond q).trans (congrArg _ (State.abnormalSecond_of_none idle))⟩
  · refine ⟨_, (exec_saturationTimerExpiry q).trans (congrArg _ (State.saturationExpiry_of_some timer)),
      .trans (.saturated l _ d) (.log l _ _ _ _ _ _), ?_, State.log_lines .., State.log_points .., State.log_env ..,
      State.log_owed .., fun room => State.logged_of_room _ _ _ _ _ _ room⟩
    rw [State.log_fgc, State.saturated, State.setFgc_fgc]
    rfl
  · obtain ⟨u, judged, event, unit, lines, env⟩ := State.abnormalSecond_counted timer
    have holds : ((u.judgeExhausted l).fgc l).isExhausted = (u.fgc l).isExhausted := u.judgeExhausted_isExhausted l
    refine ⟨_, (exec_abnormalSecond q).trans (congrArg _ judged), event.trans (.judgeExhausted l u), ?_,
      fun new comes feeds => ?_, fun sound => ?_⟩
    · rw [holds, State.judgeExhausted_abn, unit]
      rfl
    · have line : u.line l = s.line l := congrArg (·.get l) lines
      have flag : (u.fgc l).abn.exhausted = false := by
        rw [unit]
        exact new
      exact State.judgeExhausted_burns (holds ▸ comes) flag (line ▸ feeds)
    · obtain ⟨sameLines, sameEnv, judgedUnit⟩ := State.judgeExhausted_of_sound (holds ▸ sound)
      refine ⟨sameLines.trans lines, sameEnv.trans env, ?_⟩
      rw [judgedUnit, unit]
end

