-- ==== Sys2Proof/Proofs/DosingLoops.lean ====
section
/-! PROOFS. The dosing loops (O44): one run of a loop, the loops of a trigger, and the loops at a change of line state. -/

namespace Sys2Proof.Machine

section
variable {a s t u : State} {l : LineId} {d : DosingLoop} {base output : Nat} {trim : Int}

/-! ### Frames (R105) -/

/-- What a run of a loop leaves as it was: all but points, flue gas units and events. -/
def LoopFrame (s t : State) : Prop := { t with points := s.points, fgcs := s.fgcs, mgmt := s.mgmt } = s

theorem LoopFrame.trans (h : LoopFrame s t) (k : LoopFrame t u) : LoopFrame s u := by
  unfold LoopFrame at *
  rw [← k] at h
  exact h

theorem LoopFrame.setFgc {f : Fgc} (h : LoopFrame a s) : LoopFrame a (s.setFgc l f) := h

theorem LoopFrame.own {r : Role} {m : Option LineId} {v : Int} (h : LoopFrame a s) : LoopFrame a (s.own r m v) := by
  refine h.trans ?_
  rcases s.own_cases r m v with same | ⟨_, -, -, set⟩
  · rw [same]
    rfl
  · rw [set]
    rfl

theorem LoopFrame.log {src : Source} {name : EventName} {x y z : Int} (h : LoopFrame a s) :
    LoopFrame a (s.log src name x y z) := by
  refine h.trans ?_
  unfold State.log
  split <;> rfl

theorem LoopFrame.clearSaturated (h : LoopFrame a s) : LoopFrame a (s.clearSaturated l d) := by
  unfold State.clearSaturated
  dsimp only
  split
  · exact h.setFgc.log
  · exact h.setFgc

theorem LoopFrame.judgeSaturation (h : LoopFrame a s) : LoopFrame a (s.judgeSaturation l d) := by
  unfold State.judgeSaturation
  dsimp only
  split
  · split
    · exact h.setFgc
    · exact h
  · exact h.clearSaturated

/-! ### One run of a loop (R105 to R109) -/

/-- R106: the sample of a component that a loop may use. -/
theorem recentSample_eq (now : Nat) (r : Latest) : recentSample now r =
    r.sample.elim none fun x => if now ≤ x.2 + 60000 then some x.1 else none := by
  unfold recentSample
  cases r.sample with
  | none => rfl
  | some x => exact if_congr (by omega) rfl rfl

/-- R105, R108: the output is the base and the trim within 0 and the output maximum, CARBON's the base alone. -/
theorem loopOutput_eq (p : LoopPage) (d : DosingLoop) (base : Nat) (trim : Int) :
    loopOutput p d base trim = (clampInt (base + (if d = .carbon then 0 else trim)) 0 p.outputMax).toNat := by
  cases d with
  | carbon => rw [if_pos rfl, Int.add_zero]; rfl
  | urea => rfl
  | lime => rfl

theorem loopOutput_le (p : LoopPage) (d : DosingLoop) (base : Nat) (trim : Int) : loopOutput p d base trim ≤ p.outputMax := by
  rw [loopOutput_eq]
  unfold clampInt
  omega

/-- R105: a loop with base, trim and output of its run, its saturation not yet judged. -/
def Loop.withResults (x : Loop) (base : Nat) (trim : Int) (output : Nat) : Loop :=
  { x with base := base, trim := trim, output := output }

/-- R105: the part with the loop driven and its output shown, before its saturation is judged. -/
def State.loopDriven (s : State) (l : LineId) (d : DosingLoop) (base : Nat) (trim : Int) (output : Nat) : State :=
  (s.setFgc l { s.fgc l with
    loops := (s.fgc l).loops.set d (((s.fgc l).loops.get d).withResults base trim output) }).own (loopRole d) (some l) output

theorem State.loopDriven_fgc (s : State) (l : LineId) (d : DosingLoop) (base : Nat) (trim : Int) (output : Nat) :
    (s.loopDriven l d base trim output).fgc l = { s.fgc l with
      loops := (s.fgc l).loops.set d (((s.fgc l).loops.get d).withResults base trim output) } := by
  rw [State.loopDriven, State.own_fgc, State.setFgc_fgc]

theorem State.loopDriven_runTime (s : State) (l : LineId) (d : DosingLoop) (base : Nat) (trim : Int) (output : Nat) :
    (s.loopDriven l d base trim output).runTime = s.runTime := State.own_runTime ..

theorem State.loopDriven_mgmt (s : State) (l : LineId) (d : DosingLoop) (base : Nat) (trim : Int) (output : Nat) :
    (s.loopDriven l d base trim output).mgmt = s.mgmt := State.own_mgmt ..

/-- R109: at the output maximum the timer starts, unless it runs or the flag stands. -/
def Loop.timed (x : Loop) (p : LoopPage) (now : Nat) : Loop :=
  { x with satAt := if x.satAt = none ∧ x.saturated = false then some (now + 1000 * p.satTime) else x.satAt }

theorem Loop.timed_of_new {x : Loop} {p : LoopPage} {now : Nat} (h : x.satAt = none ∧ x.saturated = false) :
    x.timed p now = { x with satAt := some (now + 1000 * p.satTime) } := by
  unfold Loop.timed
  rw [if_pos h]

theorem Loop.timed_of_not {x : Loop} {p : LoopPage} {now : Nat} (h : ¬(x.satAt = none ∧ x.saturated = false)) :
    x.timed p now = x := by
  unfold Loop.timed
  rw [if_neg h]

theorem State.setFgc_self (s : State) (l : LineId) : s.setFgc l (s.fgc l) = s := by
  unfold State.setFgc State.fgc
  rw [Two.set_get]

theorem State.judgeSaturation_of_full (h : ((s.fgc l).loops.get d).output = ((s.fgc l).dosing.get d).outputMax) :
    s.judgeSaturation l d = s.setFgc l { s.fgc l with
      loops := (s.fgc l).loops.set d (((s.fgc l).loops.get d).timed ((s.fgc l).dosing.get d) s.runTime) } := by
  refine (if_pos h).trans ?_
  by_cases starts : ((s.fgc l).loops.get d).satAt = none ∧ ((s.fgc l).loops.get d).saturated = false
  · rw [Loop.timed_of_new starts]
    exact if_pos starts
  · rw [Loop.timed_of_not starts, Three.set_get]
    exact (if_neg starts).trans (s.setFgc_self l).symm

theorem State.judgeSaturation_of_below (h : ((s.fgc l).loops.get d).output ≠ ((s.fgc l).dosing.get d).outputMax) :
    s.judgeSaturation l d = s.clearSaturated l d := if_neg h

/-- R109: a flag that clears is logged. -/
theorem State.clearSaturated_logged (stood : ((s.fgc l).loops.get d).saturated = true) (room : s.mgmt.events.length < 64) :
    (s.clearSaturated l d).Logged (fgcSource l) .dosingSaturated (loopCode d) 0 0 := by
  have cleared : s.clearSaturated l d = State.log _ (fgcSource l) .dosingSaturated (loopCode d) 0 0 := if_pos stood
  rw [cleared]
  exact State.logged_of_room _ _ _ _ _ _ room

/-- R105, R109: a loop has run, its base, trim and output as given: what that sets, and what it leaves. -/
structure LoopRan (l : LineId) (d : DosingLoop) (base : Nat) (trim : Int) (output : Nat) (s t : State) : Prop where
  event  : LineEvent l s t
  frame  : LoopFrame s t
  bound  : output ≤ ((s.fgc l).dosing.get d).outputMax
  shows  : t.Shows (loopRole d) (some l) output
  full   : output = ((s.fgc l).dosing.get d).outputMax → t.fgc l = { s.fgc l with
    loops := (s.fgc l).loops.set d
      ((((s.fgc l).loops.get d).withResults base trim output).timed ((s.fgc l).dosing.get d) s.runTime) }
  below  : output < ((s.fgc l).dosing.get d).outputMax → t.fgc l = { s.fgc l with
    loops := (s.fgc l).loops.set d
      { ((s.fgc l).loops.get d).withResults base trim output with satAt := none, saturated := false }
    minute := (s.fgc l).minute.map fun m => { m with satAll := m.satAll.set d false } }
  logged : output < ((s.fgc l).dosing.get d).outputMax → ((s.fgc l).loops.get d).saturated = true →
    s.mgmt.events.length < 64 → t.Logged (fgcSource l) .dosingSaturated (loopCode d) 0 0

theorem State.runLoop_ran
    (hb : base = loopBase d ((s.fgc l).dosing.get d).ratio (s.line l).qIn (s.line l).mReq)
    (ht : trim = loopTrim ((s.fgc l).dosing.get d) ((s.fgc l).loops.get d).trim (trimInput s.runTime (s.fgc l) d))
    (ho : output = loopOutput ((s.fgc l).dosing.get d) d base trim) : LoopRan l d base trim output s (s.runLoop l d) := by
  have ran : s.runLoop l d = (s.loopDriven l d base trim output).judgeSaturation l d := by
    rw [ho, ht, hb]
    rfl
  have unit := s.loopDriven_fgc l d base trim output
  have loop : ((s.loopDriven l d base trim output).fgc l).loops.get d = ((s.fgc l).loops.get d).withResults base trim output := by
    rw [unit, Three.get_set]
  have page : ((s.loopDriven l d base trim output).fgc l).dosing = (s.fgc l).dosing := by rw [unit]
  have shown : (s.loopDriven l d base trim output).Shows (loopRole d) (some l) output :=
    State.own_shows _ (.inl (by cases d <;> rfl))
  have clears : output < ((s.fgc l).dosing.get d).outputMax →
      s.runLoop l d = (s.loopDriven l d base trim output).clearSaturated l d := fun below => by
    rw [ran]
    refine State.judgeSaturation_of_below ?_
    rw [loop, page]
    exact below.ne
  refine ⟨.runLoop l s d, ?_, ho ▸ loopOutput_le .., ?_, fun full => ?_, fun below => ?_, fun below stood room => ?_⟩
  · rw [ran]
    exact LoopFrame.judgeSaturation (LoopFrame.own (LoopFrame.setFgc (rfl : LoopFrame s s)))
  · rw [ran]
    exact (RoleKept.refl _ _).judgeSaturation.shows shown
  · have drives := State.judgeSaturation_of_full (s := s.loopDriven l d base trim output) (l := l) (d := d)
      (by rw [loop, page]; exact full)
    rw [ran, drives, State.setFgc_fgc, loop, page, State.loopDriven_runTime, unit, Three.set_set]
  · rw [clears below, State.clearSaturated_fgc, loop, unit, Three.set_set]
  · rw [clears below]
    refine State.clearSaturated_logged ?_ ?_
    · rw [loop]
      exact stood
    · rw [State.loopDriven_mgmt]
      exact room

/-! ### The loops of a trigger (R105) -/

theorem LineState.operates_iff (st : LineState) : st.operates = true ↔ st.feeds = true ∨ st = .burnout := by
  cases st <;> decide

/-- R105: the line states in which a trigger's event comes: a minute also closes in BURNOUT. -/
theorem triggerComes_iff (g : Trigger) (st : LineState) :
    triggerComes g st = true ↔ st.feeds = true ∨ g = .minute ∧ st = .burnout := by
  cases g with
  | minute => simp [triggerComes, LineState.operates_iff]
  | controlPeriod => simp [triggerComes]
  | strokeDone => simp [triggerComes]

theorem State.runLoop_loop (s : State) (l : LineId) (d : DosingLoop) : ((s.runLoop l d).fgc l).loops.get d =
    (s.fgc l).loopRun d (s.line l).qIn (s.line l).mReq s.runTime := by
  obtain ⟨_, unit⟩ := s.runLoop_fgc l d
  rw [unit]
  exact Three.get_set ..

/-! ### A change of line state (R110, R122) -/

section
variable (h : (s.line l).state.operates = false)
include h

theorem State.fgcLineState_fgc_of_stopped : ((s.fgcLineState l).fgc l).capAsked = none ∧
    ((s.fgcLineState l).fgc l).lowCloses = 0 ∧
    ∀ d, ((s.fgcLineState l).fgc l).loops.get d = ((s.fgc l).loops.get d).stopped := by
  have counted := ((s.stopLoops l).dropRestraint l).judgeCounting_fgc l
  rw [State.dropRestraint_fgc, ← State.fgcLineState_of_stopped h] at counted
  have loops : ((s.fgcLineState l).fgc l).loops = ((s.stopLoops l).fgc l).loops := (congrArg Fgc.loops counted :)
  refine ⟨(congrArg Fgc.capAsked counted :), (congrArg Fgc.lowCloses counted :), fun d => ?_⟩
  rw [loops]
  exact (s.stopLoops_fgc l).1 d

theorem State.fgcLineState_shows_of_stopped (d : DosingLoop) : (s.fgcLineState l).Shows (loopRole d) (some l) 0 := by
  have apart : loopRole d ≠ .effectiveCap := by cases d <;> decide
  rw [State.fgcLineState_of_stopped h]
  exact ((RoleKept.refl _ _).dropRestraint apart).judgeCounting.shows (s.stopLoops_shows l d)

end

end

end Sys2Proof.Machine

open Sys2Proof.Machine in
/-- Settles O44: a loop's run on what the model forms of base, trim and output, the loops of a trigger one by one, and the
loops in a line that operates and in one that does not. -/
theorem Sys2Proof.dosingLoopsRun : Obligations.DosingLoopsRun := fun l s => by
  intro f c
  refine ⟨fun d => ?_, fun g d => ?_, fun stopped => ?_, fun operating => ?_⟩
  · intro t p old recent load base input trim output full
    have recents : ∀ k, recent k = recentSample s.runTime (f.latest.get k) := fun k => by
      rw [recentSample_eq]
      dsimp only [recent]
      cases (f.latest.get k).sample <;> rfl
    have loads : ∀ k, load k = acidLoad s.runTime f k := fun k => congrArg (Option.map _) (recents k)
    have inputs : input = trimInput s.runTime f d := by
      cases d with
      | urea => exact recents .nox
      | lime =>
        dsimp only [input, trimInput]
        rw [loads, loads]
        cases acidLoad s.runTime f .so2 <;> cases acidLoad s.runTime f .hcl <;> rfl
      | carbon => rfl
    have bases : base = loopBase d p.ratio c.qIn c.mReq := by cases d <;> rfl
    have trims : trim = loopTrim p old.trim (trimInput s.runTime f d) := by
      rw [← inputs]
      dsimp only [trim]
      cases input <;> rfl
    have ran := State.runLoop_ran bases trims (loopOutput_eq p d base trim).symm
    exact ⟨ran.event, ran.frame, ran.bound, ran.shows, ran.full, fun below => ⟨ran.below below, ran.logged below⟩⟩
  · rw [State.runLoops_loops, State.runLoop_loop]
    exact if_congr (and_congr_right' (triggerComes_iff g c.state)) rfl rfl
  · have still : (s.line l).state.operates = false := by
      rcases stopped with off | tripped
      · exact congrArg LineState.operates off
      · exact congrArg LineState.operates tripped
    obtain ⟨asked, lows, loops⟩ := State.fgcLineState_fgc_of_stopped still
    exact ⟨asked, lows, fun d => ⟨loops d, State.fgcLineState_shows_of_stopped still d⟩⟩
  · have operates : (s.line l).state.operates = true := by
      rcases operating with feeding | hold | burnout
      · exact congrArg LineState.operates feeding
      · exact congrArg LineState.operates hold
      · exact congrArg LineState.operates burnout
    have counted := s.judgeCounting_fgc l
    rw [← State.fgcLineState_of_operates operates] at counted
    exact ⟨(congrArg Fgc.loops counted :), (congrArg Fgc.capAsked counted :), (congrArg Fgc.lowCloses counted :)⟩
end

