-- ==== Sys2Proof/Proofs/Restraint.lean ====
section
/-! PROOFS. Restraint at a minute close (R119 to R121): the EMISSION cap lowered, raised and released, and the findings that
bring it. -/

namespace Sys2Proof.Machine

section
variable {s t : State} {l : LineId} {c : Component} {asked x : Option Nat} {lows v n : Nat} {i : Int} {finds : Six Finding}
  {hh : HalfHour} {marks : Three Bool}

/-! ### The components of a record -/

@[simp] theorem Six.get_of {α : Type} (f : Component → α) (c : Component) : (Six.of f).get c = f c := by cases c <;> rfl

theorem Component.mem_all (c : Component) : c ∈ Component.all := by cases c <;> decide

theorem Component.any_all_iff (p : Component → Bool) : Component.all.any p = true ↔ ∃ c, p c = true := by
  rw [List.any_eq_true]
  exact exists_congr fun c => and_iff_right c.mem_all

/-! ### What restraint moves (R119 to R121) -/

/-- The cap of restraint clamped as a request for a cap is (R133). -/
theorem clampInt_nat (v : Nat) : (clampInt v 0 2000).toNat = min v 2000 := by
  unfold clampInt
  omega

/-- A step of restraint that leaves this cap asked for and this count of low closes: of its unit no more moves but the
second timer, and the line's OPERATOR and BYPASS caps stay. -/
structure Restrained (l : LineId) (s t : State) (asked : Option Nat) (lows : Nat) : Prop where
  event    : LineEvent l s t
  unit     : { t.fgc l with secondAt := (s.fgc l).secondAt } = { s.fgc l with capAsked := asked, lowCloses := lows }
  operator : (t.env.caps.get l).operator = (s.env.caps.get l).operator
  bypass   : (t.env.caps.get l).bypass = (s.env.caps.get l).bypass

theorem Restrained.refl (l : LineId) (s : State) : Restrained l s s (s.fgc l).capAsked (s.fgc l).lowCloses :=
  ⟨.refl l s, rfl, rfl, rfl⟩

theorem Restrained.capAsked (h : Restrained l s t asked lows) : (t.fgc l).capAsked = asked := (congrArg Fgc.capAsked h.unit :)

theorem Restrained.lowCloses (h : Restrained l s t asked lows) : (t.fgc l).lowCloses = lows :=
  (congrArg Fgc.lowCloses h.unit :)

/-- The part with another cap asked for. -/
def State.asking (s : State) (l : LineId) (x : Option Nat) : State := s.setFgc l { s.fgc l with capAsked := x }

/-- The part with another count of low closes. -/
def State.counting (s : State) (l : LineId) (n : Nat) : State := s.setFgc l { s.fgc l with lowCloses := n }

theorem Restrained.asking (h : Restrained l s t asked lows) : Restrained l s (t.asking l x) x lows where
  event := h.event.trans (.setFgc rfl rfl)
  unit := by
    rw [State.asking, State.setFgc_fgc]
    exact (congrArg (fun f : Fgc => { f with capAsked := x }) h.unit :)
  operator := h.operator
  bypass := h.bypass

theorem Restrained.counting (h : Restrained l s t asked lows) : Restrained l s (t.counting l n) asked n where
  event := h.event.trans (.setFgc rfl rfl)
  unit := by
    rw [State.counting, State.setFgc_fgc]
    exact (congrArg (fun f : Fgc => { f with lowCloses := n }) h.unit :)
  operator := h.operator
  bypass := h.bypass

/-- A step that leaves the unit but for its second timer, and of the caps moves EMISSION and FEED-LIMIT alone. -/
theorem Restrained.step {u : State} (h : Restrained l s t asked lows) (event : LineEvent l t u)
    (unit : { u.fgc l with secondAt := (t.fgc l).secondAt } = t.fgc l)
    (caps : { u.env.caps.get l with
      emission := (t.env.caps.get l).emission, feedLimit := (t.env.caps.get l).feedLimit } = t.env.caps.get l) :
    Restrained l s u asked lows where
  event := h.event.trans event
  unit := by
    have moved := h.unit
    rw [← unit] at moved
    exact moved
  operator := (congrArg CapList.operator caps :).trans h.operator
  bypass := (congrArg CapList.bypass caps :).trans h.bypass

theorem Restrained.log {src : Source} {name : EventName} {y z w : Int} (h : Restrained l s t asked lows) :
    Restrained l s (t.log src name y z w) asked lows :=
  h.step (.log l _ _ _ _ _ _) (by rw [State.log_fgc]) (by rw [State.log_env])

theorem Restrained.toBurnout {cause : StateCause} (h : Restrained l s t asked lows) :
    Restrained l s (t.toBurnout l cause) asked lows := by
  have caps := t.toBurnout_caps l cause
  exact h.step (.toBurnout l t cause) (t.toBurnout_fgc l cause)
    (congrArg (fun x : CapList => { x with emission := (t.env.caps.get l).emission }) caps :)

/-- R80: a request for BURNOUT leaves the EMISSION cap. -/
theorem State.toBurnout_emission (s : State) (l : LineId) (cause : StateCause) :
    ((s.toBurnout l cause).env.caps.get l).emission = (s.env.caps.get l).emission :=
  (congrArg CapList.emission (s.toBurnout_caps l cause) :)

/-! ### The EMISSION cap set and released (R133) -/

theorem State.capSetCore_caps (s : State) (l : LineId) (src : CapSource) (i : Int) :
    ∃ e, (s.capSetCore l src i).env.caps.get l = (s.env.caps.get l).set src e := by
  rcases s.capSetCore_cases l src i with ⟨-, stands⟩ | set
  · refine ⟨(s.env.caps.get l).get src, ?_⟩
    rw [stands]
    cases src <;> rfl
  · exact ⟨_, by rw [set, State.oweRun_env, State.formCap_caps, State.log_env, State.withCap_caps]⟩

theorem Restrained.capSet (h : Restrained l s t asked lows) : Restrained l s (t.capSet l .emission i) asked lows := by
  have core : Restrained l s (t.capSetCore l .emission i) asked lows := by
    obtain ⟨_, caps⟩ := t.capSetCore_caps l .emission i
    refine h.step (.capSetCore l t _ _) ?_ (by rw [caps]; rfl)
    rw [State.fgc, State.capSetCore_fgcs]
    rfl
  rcases t.capSet_cases l .emission i with set | burns
  · rw [set]
    exact core
  · rw [burns]
    exact core.toBurnout

theorem Restrained.capRelease (h : Restrained l s t asked lows) : Restrained l s (t.capRelease l .emission) asked lows := by
  have core : Restrained l s (t.capReleaseCore l .emission) asked lows := by
    refine h.step (.capReleaseCore l t _) (by rw [State.capReleaseCore_fgc]) ?_
    rw [State.capReleaseCore_caps]
    rfl
  rcases t.capRelease_cases l .emission with released | burns
  · rw [released]
    exact core
  · rw [burns]
    exact core.toBurnout

/-- R133: the entry holds the cap asked for, limited to 2,000. -/
theorem State.capSet_emission (s : State) (l : LineId) (v : Nat) :
    ((s.capSet l .emission v).env.caps.get l).emission.map (·.value) = some (min v 2000) := by
  have core : ((s.capSetCore l .emission v).env.caps.get l).emission.map (·.value) = some (min v 2000) :=
    (s.capSetCore_capOf l .emission v).trans (congrArg some (clampInt_nat v))
  rcases s.capSet_cases l .emission v with set | burns
  · rw [set, core]
  · rw [burns, State.toBurnout_emission, core]

theorem State.capRelease_emission (s : State) (l : LineId) :
    ((s.capRelease l .emission).env.caps.get l).emission = none := by
  have core : ((s.capReleaseCore l .emission).env.caps.get l).emission = none := by
    rw [State.capReleaseCore_caps]
    rfl
  rcases s.capRelease_cases l .emission with released | burns
  · rw [released, core]
  · rw [burns, State.toBurnout_emission, core]

/-! ### The cap lowered (R120) -/

/-- R120: the cap asked for when a component is found above its limit. -/
def State.loweredCap (s : State) (l : LineId) : Nat :=
  (max (restraintBase (s.fgc l).capAsked (s.read Quality.lineOk .steamFlow (some l)) (s.line l).page.fMax -
    (s.fgc l).page.restraintStep) (s.line l).page.fFloor).toNat

theorem State.lowerEmission_of_asked (h : (s.fgc l).capAsked = some (s.loweredCap l)) : s.lowerEmission l c = s := if_pos h

/-- R120, R133: another cap is asked for and set, and the beginning of restraint is logged. -/
theorem State.lowerEmission_of_other (h : (s.fgc l).capAsked ≠ some (s.loweredCap l)) :
    s.lowerEmission l c = (s.asking l (some (s.loweredCap l))).capSet l .emission (s.loweredCap l) ∨
      s.lowerEmission l c = ((s.asking l (some (s.loweredCap l))).capSet l .emission (s.loweredCap l)).log (fgcSource l)
        .restraintRaised c.code (s.loweredCap l) :=
  (ite_eq_or_eq ..).symm.imp (if_neg h).trans (if_neg h).trans

theorem Restrained.lowerEmission (h : Restrained l s t asked lows) :
    Restrained l s (t.lowerEmission l c) (some (t.loweredCap l)) lows := by
  by_cases stands : (t.fgc l).capAsked = some (t.loweredCap l)
  · rw [State.lowerEmission_of_asked stands, ← stands, h.capAsked]
    exact h
  · rcases State.lowerEmission_of_other (c := c) stands with set | logged
    · rw [set]
      exact h.asking.capSet
    · rw [logged]
      exact h.asking.capSet.log

theorem State.lowerEmission_emission (h : (s.fgc l).capAsked ≠ some (s.loweredCap l)) :
    ((s.lowerEmission l c).env.caps.get l).emission.map (·.value) = some (min (s.loweredCap l) 2000) := by
  rcases State.lowerEmission_of_other (c := c) h with set | logged
  · rw [set, State.capSet_emission]
  · rw [logged, State.log_env, State.capSet_emission]

/-! ### The cap raised (R121) -/

theorem State.raiseEmission_of_none (h : (s.fgc l).capAsked = none) : s.raiseEmission l = s := by
  unfold State.raiseEmission
  dsimp only
  rw [h]

section
variable (h : (s.fgc l).capAsked = some v)
include h

theorem State.raiseEmission_of_top (top : (s.line l).page.fMax ≤ v + (s.fgc l).page.restraintStep) :
    s.raiseEmission l = ((s.asking l none).capRelease l .emission).log (fgcSource l) .restraintReleased 0 0 := by
  unfold State.raiseEmission
  dsimp only
  rw [h]
  exact if_pos top

theorem State.raiseEmission_of_below (below : v + (s.fgc l).page.restraintStep < (s.line l).page.fMax) :
    s.raiseEmission l = (s.asking l (some (v + (s.fgc l).page.restraintStep))).capSet l .emission
      (v + (s.fgc l).page.restraintStep : Nat) := by
  unfold State.raiseEmission
  dsimp only
  rw [h]
  exact if_neg (not_le.2 below)

end

theorem Restrained.raiseEmission (h : Restrained l s t asked lows) : ∃ x, Restrained l s (t.raiseEmission l) x lows := by
  cases stands : (t.fgc l).capAsked with
  | none =>
    rw [State.raiseEmission_of_none stands]
    exact ⟨_, h⟩
  | some v =>
    rcases le_or_gt (t.line l).page.fMax (v + (t.fgc l).page.restraintStep) with top | below
    · rw [State.raiseEmission_of_top stands top]
      exact ⟨_, h.asking.capRelease.log⟩
    · rw [State.raiseEmission_of_below stands below]
      exact ⟨_, h.asking.capSet⟩

/-! ### One evaluation (R119) -/

theorem State.restrain_of_above (h : (Component.all.find? fun c => decide (finds.get c = .above)) = some c) :
    s.restrain l finds = (s.counting l 0).lowerEmission l c := by
  unfold State.restrain
  dsimp only
  rw [h]
  rfl

section
variable (sound : ∀ c, finds.get c ≠ .above)
include sound

/-- R119: with no component above its limit the others decide. -/
theorem State.restrain_of_no_above : s.restrain l finds =
    if Component.all.any fun c => decide (finds.get c = .between) then s.counting l 0
    else if Component.all.any fun c => decide (finds.get c = .low) then
      if 3 ≤ (s.fgc l).lowCloses + 1 then (s.counting l 0).raiseEmission l
      else s.counting l ((s.fgc l).lowCloses + 1)
    else s := by
  have absent : (Component.all.find? fun c => decide (finds.get c = .above)) = none :=
    List.find?_eq_none.2 fun c _ => by simp [sound c]
  unfold State.restrain
  dsimp only
  rw [absent]
  rfl

theorem State.restrain_of_between (h : ∃ c, finds.get c = .between) : s.restrain l finds = s.counting l 0 := by
  rw [State.restrain_of_no_above sound]
  exact if_pos ((Component.any_all_iff _).2 (by simpa using h))

theorem State.restrain_of_low (between : ∀ c, finds.get c ≠ .between) (low : ∃ c, finds.get c = .low) :
    s.restrain l finds = if 3 ≤ (s.fgc l).lowCloses + 1 then (s.counting l 0).raiseEmission l
      else s.counting l ((s.fgc l).lowCloses + 1) := by
  rw [State.restrain_of_no_above sound, if_neg, if_pos]
  · exact (Component.any_all_iff _).2 (by simpa using low)
  · exact mt (Component.any_all_iff _).1 (by simpa using between)

theorem State.restrain_of_unjudged (between : ∀ c, finds.get c ≠ .between) (low : ∀ c, finds.get c ≠ .low) :
    s.restrain l finds = s := by
  rw [State.restrain_of_no_above sound, if_neg, if_neg]
  · exact mt (Component.any_all_iff _).1 (by simpa using low)
  · exact mt (Component.any_all_iff _).1 (by simpa using between)

end

theorem State.restrain_restrained (s : State) (l : LineId) (finds : Six Finding) :
    ∃ asked lows, Restrained l s (s.restrain l finds) asked lows := by
  have start := Restrained.refl l s
  cases found : Component.all.find? fun c => decide (finds.get c = .above) with
  | some c =>
    rw [State.restrain_of_above found]
    exact ⟨_, _, start.counting.lowerEmission⟩
  | none =>
    have sound : ∀ c, finds.get c ≠ .above := fun c => by
      simpa using List.find?_eq_none.1 found c c.mem_all
    rw [State.restrain_of_no_above sound]
    split
    · exact ⟨_, _, start.counting⟩
    · split
      · split
        · obtain ⟨x, raised⟩ := (start.counting (n := 0)).raiseEmission
          exact ⟨x, _, raised⟩
        · exact ⟨_, _, start.counting⟩
      · exact ⟨_, _, start⟩

/-- R119: the findings of the components on the half-hour in progress. -/
def State.findings (s : State) (l : LineId) (hh : HalfHour) (marks : Three Bool) : Six Finding :=
  Six.of fun c => finding (s.configured l c) (s.fgc l) hh marks c

theorem State.evaluateRestraint_of_idle (h : (s.line l).state.feeds = false ∨ (s.fgc l).half = none) :
    s.evaluateRestraint l marks = s := by
  unfold State.evaluateRestraint
  dsimp only
  cases half : (s.fgc l).half with
  | none => rfl
  | some x =>
    have idle : (s.line l).state.feeds = false := h.resolve_right (by rw [half]; nofun)
    exact if_neg (by rw [idle]; decide)

theorem State.evaluateRestraint_of_feeding (half : (s.fgc l).half = some hh) (feeds : (s.line l).state.feeds = true) :
    s.evaluateRestraint l marks = s.restrain l (s.findings l hh marks) := by
  unfold State.evaluateRestraint
  dsimp only
  rw [half]
  exact if_pos feeds

theorem State.evaluateRestraint_restrained (s : State) (l : LineId) (marks : Three Bool) :
    ∃ asked lows, Restrained l s (s.evaluateRestraint l marks) asked lows := by
  by_cases idle : (s.line l).state.feeds = false ∨ (s.fgc l).half = none
  · rw [State.evaluateRestraint_of_idle idle]
    exact ⟨_, _, .refl l s⟩
  · obtain ⟨feeds, half⟩ := not_or.1 idle
    obtain ⟨h, half⟩ := Option.ne_none_iff_exists'.1 half
    rw [State.evaluateRestraint_of_feeding half (Bool.of_not_eq_false feeds)]
    exact s.restrain_restrained l _

end

end Sys2Proof.Machine
end

