-- ==== Sys2Proof/Proofs/HalfHourClose.lean ====
section
/-! PROOFS. The close of a half-hour and of a day (R115, R117), and abnormal operation as it is judged there (R124, R125). -/

namespace Sys2Proof.Machine

section
variable {a s t u : State} {l : LineId} {b n : Nat} {h : HalfHour} {r : HalfRecord} {mark : ClosingMark}

/-! ### Abnormal operation at a half-hour close (R124, R125) -/

/-- R124: the record once a half-hour limit is exceeded. -/
def Abnormal.exceeding (x : Abnormal) (now : Nat) : Abnormal :=
  { x with
    active := true, exceedance := true, equipment := x.active && x.equipment
    beganAt := if x.active then x.beganAt else now }

/-- R125: the record of a unit back in normal operation. -/
def Abnormal.ended (x : Abnormal) : Abnormal :=
  { x with active := false, exceedance := false, equipment := false, consec := 0, exhausted := false }

/-- R124: the cause is recorded, and then counting and the exhausted condition are judged. -/
theorem State.enterAbnormal_exceeding (s : State) (l : LineId) : ∃ u : State,
    s.enterAbnormal l false = (u.judgeCounting l).judgeExhausted l ∧
      (u.fgc l).abn = (s.fgc l).abn.exceeding s.runTime := by
  refine ⟨_, rfl, ?_⟩
  unfold Abnormal.exceeding
  cases stands : (s.fgc l).abn.active with
  | true =>
    rw [if_pos rfl, State.setFgc_fgc]
    simp
  | false =>
    rw [if_neg (by decide), State.log_fgc, State.setFgc_fgc]
    simp

/-- R124, R127: the record after an exceedance, its exhausted condition judged. -/
theorem State.enterAbnormal_abn (s : State) (l : LineId) : ((s.enterAbnormal l false).fgc l).abn =
    { (s.fgc l).abn.exceeding s.runTime with exhausted := ((s.enterAbnormal l false).fgc l).isExhausted } := by
  obtain ⟨u, entered, record⟩ := s.enterAbnormal_exceeding l
  have counted : ((u.judgeCounting l).fgc l).abn = (u.fgc l).abn := (congrArg Fgc.abn (u.judgeCounting_fgc l) :)
  rw [entered, State.judgeExhausted_isExhausted, State.judgeExhausted_abn, counted, record]

/-- R125: normal operation: nothing is counted, and nothing is exhausted. -/
theorem State.endAbnormal_fgc (s : State) (l : LineId) :
    (s.endAbnormal l).fgc l = { s.fgc l with abn := (s.fgc l).abn.ended, secondAt := none } := by
  have ends : s.endAbnormal l = ((s.log (fgcSource l) .abnormalEnd 0 (s.fgc l).abn.consec
      ((s.fgc l).abn.remaining / 60 : Nat)).setFgc l { s.fgc l with
        abn := { (s.fgc l).abn with active := false, exceedance := false, equipment := false, consec := 0 }
        secondAt := none }).judgeExhausted l := rfl
  obtain ⟨-, -, unit⟩ := State.judgeExhausted_of_sound (l := l)
    (s := (s.log (fgcSource l) .abnormalEnd 0 (s.fgc l).abn.consec
      ((s.fgc l).abn.remaining / 60 : Nat)).setFgc l { s.fgc l with
        abn := { (s.fgc l).abn with active := false, exceedance := false, equipment := false, consec := 0 }
        secondAt := none }) (by rw [State.setFgc_fgc]; rfl)
  rw [ends, unit, State.setFgc_fgc]
  rfl

/-- R125: a boundary ends an episode when no component is exceeded and none INVALID. -/
theorem endsEpisode_iff (r : HalfRecord) :
    endsEpisode r = true ↔ (r.mark = .boundary ∧ r.exceeded = false) ∧ ∀ c, (r.comps.get c).status ≠ .invalid := by
  unfold endsEpisode
  rw [Bool.and_eq_true, Bool.and_eq_true, decide_eq_true_eq, Bool.not_eq_true', List.all_eq_true]
  refine and_congr_right' (forall_congr' fun c => ?_)
  rw [forall_prop_of_true c.mem_all]
  cases (r.comps.get c).status <;> decide

theorem State.judgeHalf_of_exceeded (high : r.exceeded = true) : s.judgeHalf l r = s.enterAbnormal l false := if_pos high

section
variable (below : r.exceeded = false)
include below

theorem State.judgeHalf_of_below : s.judgeHalf l r =
    if (s.fgc l).abn.active ∧ endsEpisode r ∧ (s.fgc l).trainFault = false then s.endAbnormal l else s :=
  if_neg (by rw [below]; decide)

theorem State.judgeHalf_of_ends (ends : (s.fgc l).abn.active ∧ endsEpisode r ∧ (s.fgc l).trainFault = false) :
    s.judgeHalf l r = s.endAbnormal l := (State.judgeHalf_of_below below).trans (if_pos ends)

theorem State.judgeHalf_of_not (stays : ¬((s.fgc l).abn.active ∧ endsEpisode r ∧ (s.fgc l).trainFault = false)) :
    s.judgeHalf l r = s := (State.judgeHalf_of_below below).trans (if_neg stays)

end

theorem AbnormalStep.enterAbnormal {e : Bool} (h : AbnormalStep l a s) : AbnormalStep l a (s.enterAbnormal l e) := by
  unfold State.enterAbnormal
  exact .judgeExhausted (.judgeCounting (.ite (h.setFgc rfl) (.log (h.setFgc rfl))))

theorem AbnormalStep.endAbnormal (h : AbnormalStep l a s) : AbnormalStep l a (s.endAbnormal l) := by
  unfold State.endAbnormal
  exact .judgeExhausted (h.log.setFgc (by rw [State.log_fgc]))

theorem AbnormalStep.judgeHalf (h : AbnormalStep l a s) : AbnormalStep l a (s.judgeHalf l r) :=
  .ite h.enterAbnormal (.ite h.endAbnormal h)

/-! ### Reports and events (R115, R117) -/

/-- A step that touches events and owners' points alone. -/
structure ShownOnly (l : LineId) (s t : State) : Prop extends LineEvent l s t where
  lines : t.lines = s.lines
  fgcs  : t.fgcs = s.fgcs
  env   : t.env = s.env

theorem ShownOnly.refl (l : LineId) (s : State) : ShownOnly l s s := ⟨.refl l s, rfl, rfl, rfl⟩

theorem ShownOnly.log {src : Source} {name : EventName} {x y z : Int} (h : ShownOnly l a s) :
    ShownOnly l a (s.log src name x y z) :=
  ⟨h.toLineEvent.trans (.log l _ _ _ _ _ _), (State.log_lines ..).trans h.lines, (State.log_fgcs ..).trans h.fgcs,
    (State.log_env ..).trans h.env⟩

theorem ShownOnly.own {q : Role} {m : Option LineId} {v : Int} (h : ShownOnly l a s) : ShownOnly l a (s.own q m v) :=
  ⟨h.toLineEvent.trans (.own l _ _ _ _), (State.own_lines ..).trans h.lines, (State.own_fgcs ..).trans h.fgcs,
    (State.own_env ..).trans h.env⟩

theorem ShownOnly.ite {d : Prop} [Decidable d] (hs : ShownOnly l a s) (ht : ShownOnly l a t) :
    ShownOnly l a (if d then s else t) := by
  split
  · exact hs
  · exact ht

theorem ShownOnly.foldl {α : Type} (f : State → α → State) (hf : ∀ s z, ShownOnly l a s → ShownOnly l a (f s z)) :
    ∀ (zs : List α) (s : State), ShownOnly l a s → ShownOnly l a (zs.foldl f s)
  | [], _, h => h
  | z :: zs, s, h => ShownOnly.foldl f hf zs (f s z) (hf s z h)

theorem ShownOnly.reportHalf {c : Component} (h : ShownOnly l a s) : ShownOnly l a (s.reportHalf l r c) := by
  unfold State.reportHalf
  split
  · exact h.own
  · exact h

/-! ### What the closes move -/

/-- A close of half-hour or day: of its unit the half-hour, the table, the days and abnormal operation move; a feeding line
may be sent to BURNOUT, which drops its FEED-LIMIT cap, and any other line stays with the caps. -/
structure PeriodClosed (l : LineId) (s t : State) : Prop extends UnitEvent l s t where
  unit : { t.fgc l with
    half := (s.fgc l).half, table := (s.fgc l).table, dayLatest := (s.fgc l).dayLatest, dayPrev := (s.fgc l).dayPrev
    abn := (s.fgc l).abn, secondAt := (s.fgc l).secondAt } = s.fgc l
  caps : { t.env.caps.get l with feedLimit := (s.env.caps.get l).feedLimit } = s.env.caps.get l
  idle : (s.line l).state.feeds = false → t.env = s.env

theorem PeriodClosed.refl (l : LineId) (s : State) : PeriodClosed l s s := ⟨.refl l s, rfl, rfl, fun _ => rfl⟩

theorem PeriodClosed.abnormal (h : PeriodClosed l a s) (k : AbnormalStep l s t) : PeriodClosed l a t := by
  refine ⟨h.toUnitEvent.trans k.toUnitEvent, ?_, ?_, fun idle => ?_⟩
  · have first := h.unit
    have second := k.unit
    rw [← second] at first
    exact first
  · have first := h.caps
    have second := k.caps
    rw [← second] at first
    exact first
  · exact (k.idle (h.stays idle ▸ idle)).trans (h.idle idle)

theorem PeriodClosed.setFgc {f : Fgc} (h : PeriodClosed l a s) (hf : { f with
    half := (s.fgc l).half, table := (s.fgc l).table, dayLatest := (s.fgc l).dayLatest, dayPrev := (s.fgc l).dayPrev
    abn := (s.fgc l).abn, secondAt := (s.fgc l).secondAt } = s.fgc l) : PeriodClosed l a (s.setFgc l f) where
  toUnitEvent := h.toUnitEvent.setFgc (congrArg Fgc.page hf :) (congrArg Fgc.dosing hf :)
  unit := by
    have first := h.unit
    rw [← hf] at first
    rw [State.setFgc_fgc]
    exact first
  caps := h.caps
  idle := h.idle

theorem PeriodClosed.shown (h : PeriodClosed l a s) (k : ShownOnly l s t) : PeriodClosed l a t := by
  have line : t.line l = s.line l := congrArg (·.get l) k.lines
  have unit : t.fgc l = s.fgc l := congrArg (·.get l) k.fgcs
  exact h.abnormal ((k.toLineEvent.unit line).abnormal unit k.env)

/-! ### The half-hour closes (R115) -/

/-- R115: the record depends on the points configured and on the page. -/
theorem State.halfRecord_congr (page : (t.fgc l).page = (s.fgc l).page)
    (configured : ∀ c, t.configured l c = s.configured l c) : t.halfRecord l h mark = s.halfRecord l h mark := by
  unfold State.halfRecord halfComp
  simp only [page, configured]

/-- R115, step 1: the exceeded components are logged. -/
def State.halfLogged (s : State) (l : LineId) (r : HalfRecord) : State :=
  Component.all.foldl (init := s) fun s c => s.logExceeded l r c

/-- R115, step 2: the record takes its place in the table. -/
def State.halfPlaced (s : State) (l : LineId) (r : HalfRecord) : State :=
  s.setFgc l { s.fgc l with table := (s.fgc l).table.set (halfIndex r.start) (some r) }

/-- R115, step 3: the VALID components are reported. -/
def State.halfReported (s : State) (l : LineId) (r : HalfRecord) : State :=
  Component.all.foldl (init := s) fun s c => s.reportHalf l r c

/-- R115: the part once the record stands in the table, logged and reported. -/
def State.halfTabled (s : State) (l : LineId) (r : HalfRecord) : State :=
  ((s.halfLogged l r).halfPlaced l r).halfReported l r

theorem State.closeHalf_eq (s : State) (l : LineId) (h : HalfHour) (mark : ClosingMark) :
    s.closeHalf l h mark = (s.halfTabled l (s.halfRecord l h mark)).judgeHalf l (s.halfRecord l h mark) := rfl

theorem ShownOnly.halfLogged (l : LineId) (s : State) (r : HalfRecord) : ShownOnly l s (s.halfLogged l r) :=
  .foldl _ (fun _ _ h => .ite h.log h) _ _ (.refl l s)

theorem ShownOnly.halfReported (l : LineId) (s : State) (r : HalfRecord) : ShownOnly l s (s.halfReported l r) :=
  .foldl _ (fun _ _ h => h.reportHalf) _ _ (.refl l s)

theorem PeriodClosed.halfPlaced (h : PeriodClosed l a s) : PeriodClosed l a (s.halfPlaced l r) := h.setFgc rfl

theorem PeriodClosed.halfTabled (l : LineId) (s : State) (r : HalfRecord) : PeriodClosed l s (s.halfTabled l r) :=
  (((PeriodClosed.refl l s).shown (.halfLogged l s r)).halfPlaced).shown (.halfReported l _ r)

theorem State.halfTabled_fgc (s : State) (l : LineId) (r : HalfRecord) : (s.halfTabled l r).fgc l =
    { s.fgc l with table := (s.fgc l).table.set (halfIndex r.start) (some r) } := by
  have logged : (s.halfLogged l r).fgc l = s.fgc l := congrArg (·.get l) (ShownOnly.halfLogged l s r).fgcs
  have reported := congrArg (·.get l) (ShownOnly.halfReported l ((s.halfLogged l r).halfPlaced l r) r).fgcs
  refine reported.trans ((State.setFgc_fgc ..).trans ?_)
  rw [logged]

theorem State.halfTabled_runTime (s : State) (l : LineId) (r : HalfRecord) : (s.halfTabled l r).runTime = s.runTime :=
  congrArg (·.tenths / 10) (PeriodClosed.halfTabled l s r).clock

theorem State.closeHalf_abnormal (s : State) (l : LineId) (h : HalfHour) (mark : ClosingMark) :
    AbnormalStep l (s.halfTabled l (s.halfRecord l h mark)) (s.closeHalf l h mark) := (AbnormalStep.refl l _).judgeHalf

theorem PeriodClosed.closeHalf (l : LineId) (s : State) (h : HalfHour) (mark : ClosingMark) :
    PeriodClosed l s (s.closeHalf l h mark) :=
  (PeriodClosed.halfTabled l s _).abnormal (s.closeHalf_abnormal l h mark)

/-- R115: the record takes its place in the table. -/
theorem State.closeHalf_fgc (s : State) (l : LineId) (h : HalfHour) (mark : ClosingMark) :
    { (s.closeHalf l h mark).fgc l with abn := (s.fgc l).abn, secondAt := (s.fgc l).secondAt } =
      { s.fgc l with table := (s.fgc l).table.set (halfIndex h.start) (some (s.halfRecord l h mark)) } := by
  have judged := (s.closeHalf_abnormal l h mark).unit
  rw [State.halfTabled_fgc] at judged
  exact judged

section
variable (high : (s.halfRecord l h mark).exceeded = true)
include high

/-- R124: an exceeded component brings abnormal operation. -/
theorem State.closeHalf_abn_of_exceeded : ((s.closeHalf l h mark).fgc l).abn =
    { (s.fgc l).abn.exceeding s.runTime with exhausted := ((s.closeHalf l h mark).fgc l).isExhausted } := by
  have entered := (s.halfTabled l (s.halfRecord l h mark)).enterAbnormal_abn l
  rw [State.halfTabled_fgc, State.halfTabled_runTime, ← State.judgeHalf_of_exceeded high, ← State.closeHalf_eq] at entered
  exact entered

end

section
variable (below : (s.halfRecord l h mark).exceeded = false)
include below

/-- R125: a half-hour that ends an episode. -/
theorem State.closeHalf_abn_of_ends
    (ends : (s.fgc l).abn.active ∧ endsEpisode (s.halfRecord l h mark) ∧ (s.fgc l).trainFault = false) :
    ((s.closeHalf l h mark).fgc l).abn = (s.fgc l).abn.ended ∧ ((s.closeHalf l h mark).fgc l).secondAt = none := by
  have judged := (s.halfTabled l (s.halfRecord l h mark)).endAbnormal_fgc l
  rw [← State.judgeHalf_of_ends below (by rw [State.halfTabled_fgc]; exact ends), ← State.closeHalf_eq,
    State.halfTabled_fgc] at judged
  rw [judged]
  exact ⟨rfl, rfl⟩

/-- R124, R125: any other half-hour leaves abnormal operation as it stands. -/
theorem State.closeHalf_abn_of_not
    (stays : ¬((s.fgc l).abn.active ∧ endsEpisode (s.halfRecord l h mark) ∧ (s.fgc l).trainFault = false)) :
    ((s.closeHalf l h mark).fgc l).abn = (s.fgc l).abn := by
  rw [State.closeHalf_eq, State.judgeHalf_of_not below (by rw [State.halfTabled_fgc]; exact stays), State.halfTabled_fgc]

end

/-! ### The day closes (R117) -/

theorem State.logDay_shown (s : State) (l : LineId) (r : DayRecord) :
    ShownOnly l s (Component.all.foldl (init := s) fun s c => s.logDay l r c) :=
  .foldl _ (fun _ _ h => .ite h.log h) _ _ (.refl l s)

theorem PeriodClosed.closeDay (h : PeriodClosed l a s) : PeriodClosed l a (s.closeDay l n mark) :=
  (h.shown (s.logDay_shown l _)).setFgc rfl

theorem State.closeDay_fgc (s : State) (l : LineId) (n : Nat) (mark : ClosingMark) : (s.closeDay l n mark).fgc l =
    { s.fgc l with
      dayLatest := some (daySummary (s.fgc l) (n / 86400000 * 86400000) mark)
      dayPrev := (s.fgc l).dayLatest
      table := List.replicate 48 none } := by
  have logged := congrArg (·.get l) (s.logDay_shown l (daySummary (s.fgc l) (n / 86400000 * 86400000) mark)).fgcs
  unfold State.closeDay
  dsimp only
  rw [State.setFgc_fgc]
  exact congrArg (fun f : Fgc => { f with
    dayLatest := some (daySummary (s.fgc l) (n / 86400000 * 86400000) mark), dayPrev := f.dayLatest
    table := List.replicate 48 none }) logged

/-! ### A boundary of plant time (R114, R115, R117) -/

theorem State.boundaryCloses_of_within (within : b % 1800000 ≠ 0) : s.boundaryCloses l b = s := if_neg within

theorem State.boundaryCloses_of_none (empty : (s.fgc l).half = none) : s.boundaryCloses l b = s := by
  unfold State.boundaryCloses
  rw [empty]
  exact ite_self s

/-- R115, R117: the part with its half-hour, and at a day boundary its day, closed. -/
def State.periodsClosed (s : State) (l : LineId) (b : Nat) (h : HalfHour) : State :=
  if b % 86400000 = 0 then (s.closeHalf l h .boundary).closeDay l h.start .boundary else s.closeHalf l h .boundary

theorem State.boundaryCloses_of_half (half : (s.fgc l).half = some h) (boundary : b % 1800000 = 0) :
    s.boundaryCloses l b = (s.periodsClosed l b h).setFgc l
      { (s.periodsClosed l b h).fgc l with half := some (.fresh b false) } := by
  unfold State.boundaryCloses
  rw [if_pos boundary, half]
  rfl

theorem PeriodClosed.boundaryCloses (l : LineId) (s : State) (b : Nat) : PeriodClosed l s (s.boundaryCloses l b) := by
  by_cases boundary : b % 1800000 = 0
  · cases half : (s.fgc l).half with
    | none =>
      rw [State.boundaryCloses_of_none half]
      exact .refl l s
    | some h =>
      have closed : PeriodClosed l s (s.periodsClosed l b h) := by
        unfold State.periodsClosed
        split
        · exact (PeriodClosed.closeHalf l s h .boundary).closeDay
        · exact .closeHalf l s h .boundary
      rw [State.boundaryCloses_of_half half boundary]
      exact closed.setFgc rfl
  · rw [State.boundaryCloses_of_within boundary]
    exact .refl l s

section
variable (half : (s.fgc l).half = some h) (boundary : b % 1800000 = 0)
include half boundary

/-- R115: at a half-hour boundary a fresh half-hour opens on the unit as the close has left it. -/
theorem State.boundaryCloses_fgc_of_half (day : b % 86400000 ≠ 0) : (s.boundaryCloses l b).fgc l =
    { (s.closeHalf l h .boundary).fgc l with half := some (.fresh b false) } := by
  rw [State.boundaryCloses_of_half half boundary, State.setFgc_fgc, State.periodsClosed, if_neg day]

/-- R117: at a day boundary the day's summary is formed, and the table emptied. -/
theorem State.boundaryCloses_fgc_of_day (day : b % 86400000 = 0) : (s.boundaryCloses l b).fgc l =
    { (s.closeHalf l h .boundary).fgc l with
      half := some (.fresh b false)
      dayLatest := some (daySummary ((s.closeHalf l h .boundary).fgc l) (h.start / 86400000 * 86400000) .boundary)
      dayPrev := ((s.closeHalf l h .boundary).fgc l).dayLatest
      table := List.replicate 48 none } := by
  rw [State.boundaryCloses_of_half half boundary, State.setFgc_fgc, State.periodsClosed, if_pos day, State.closeDay_fgc]

/-- R117: the close of a day leaves abnormal operation, its exhausted condition and its timer as they stand. -/
theorem State.boundaryCloses_abn : ((s.boundaryCloses l b).fgc l).abn = ((s.closeHalf l h .boundary).fgc l).abn ∧
    ((s.boundaryCloses l b).fgc l).isExhausted = ((s.closeHalf l h .boundary).fgc l).isExhausted ∧
    ((s.boundaryCloses l b).fgc l).secondAt = ((s.closeHalf l h .boundary).fgc l).secondAt ∧
    ((s.boundaryCloses l b).fgc l).half = some (.fresh b false) := by
  by_cases day : b % 86400000 = 0
  · rw [State.boundaryCloses_fgc_of_day half boundary day]
    exact ⟨rfl, rfl, rfl, rfl⟩
  · rw [State.boundaryCloses_fgc_of_half half boundary day]
    exact ⟨rfl, rfl, rfl, rfl⟩

end

end

end Sys2Proof.Machine
end

