-- ==== Sys2Proof/Proofs/MinuteClose.lean ====
section
/-! PROOFS. FGC_MINUTE_CLOSE (O42): the minute handed on, restraint evaluated, the loops run and a fresh minute opened, and
then the closes of a boundary. -/

namespace Sys2Proof.Machine

section
variable {s t u w : State} {l : LineId} {b : Nat} {h : HalfHour} {m : Minute} {c : Component} {asked : Option Nat} {lows n : Nat}

/-! ### The minute handed on (R102, R114) -/

/-- R102: the values of the components at the close of a minute. -/
def State.minuteValues (s : State) (l : LineId) (m : Minute) : Six (Option Nat) :=
  Six.of fun c => minuteValue (s.configured l c) (s.fgc l).page.minuteThr (m.comps.get c)

/-- R114: a half-hour with a minute added to it. -/
def State.addMinute (s : State) (l : LineId) (m : Minute) (h : HalfHour) : HalfHour :=
  h.add (s.minuteValues l m) (s.line l).state.operates (Component.all.any fun c => (m.comps.get c).touched) m.adjusted

/-- R102, R114: the part at the boundary of a minute, with the minute added to its half-hour. -/
def State.minuteHanded (s : State) (l : LineId) (m : Minute) : State :=
  (s.reachPlant (nextMinute m.start)).setFgc l { s.fgc l with half := (s.fgc l).half.map (s.addMinute l m) }

theorem State.minuteHanded_fgc (s : State) (l : LineId) (m : Minute) :
    (s.minuteHanded l m).fgc l = { s.fgc l with half := (s.fgc l).half.map (s.addMinute l m) } := State.setFgc_fgc ..

theorem State.minuteHanded_line (s : State) (l : LineId) (m : Minute) : (s.minuteHanded l m).line l = s.line l :=
  (State.setFgc_line ..).trans (State.reachPlant_line ..)

theorem State.minuteHanded_env (s : State) (l : LineId) (m : Minute) : (s.minuteHanded l m).env = s.env :=
  State.reachPlant_env ..

theorem State.minuteHanded_points (s : State) (l : LineId) (m : Minute) : (s.minuteHanded l m).points = s.points :=
  State.reachPlant_points ..

theorem State.configured_congr (h : t.points = s.points) : t.configured l c = s.configured l c := by
  unfold State.configured State.findPoint
  rw [h]

theorem State.handMinute_eq (s : State) (l : LineId) (m : Minute) :
    (s.reachPlant (nextMinute m.start)).handMinute l m
      ((s.reachPlant (nextMinute m.start)).minuteValues l m) m.adjusted = s.minuteHanded l m := by
  have values : (s.reachPlant (nextMinute m.start)).minuteValues l m = s.minuteValues l m := by
    unfold State.minuteValues
    rw [State.reachPlant_fgc]
    simp only [State.configured_congr (State.reachPlant_points s (nextMinute m.start))]
  unfold State.handMinute State.minuteHanded
  dsimp only
  rw [values, State.reachPlant_fgc, State.reachPlant_line]
  rfl

/-! ### The minute up to its boundary (R102, R105, R119) -/

/-- R102, step 3: the part with a fresh minute opened. -/
def State.minuteOpened (s : State) (l : LineId) (b : Nat) : State := s.setFgc l ((s.fgc l).openMinute b false)

/-- R119: the part once restraint has been evaluated on the minute. -/
def State.minuteJudged (s : State) (l : LineId) (m : Minute) : State := (s.minuteHanded l m).evaluateRestraint l m.satAll

/-- R102: the part with everything done of a minute close but the closes of the boundary. -/
def State.minuteRun (s : State) (l : LineId) (m : Minute) : State :=
  ((s.minuteJudged l m).runLoops l .minute).minuteOpened l (nextMinute m.start)

theorem exec_fgcMinuteClose (h : s.Quiet) : exec (.fgcMinuteClose l) s = .next (s.fgcMinuteClose l) :=
  eventForm_of_quiet (fun s => s.fgcMinuteClose l) s h

theorem State.fgcMinuteClose_of_none (h : (s.fgc l).minute = none) : s.fgcMinuteClose l = s := by
  unfold State.fgcMinuteClose
  rw [h]

theorem State.fgcMinuteClose_of_some (h : (s.fgc l).minute = some m) :
    s.fgcMinuteClose l = (s.minuteRun l m).boundaryCloses l (nextMinute m.start) := by
  unfold State.fgcMinuteClose State.minuteRun State.minuteJudged
  rw [h, ← State.handMinute_eq]
  rfl

/-- R105: of the unit the loops move, and the minute's marks. -/
theorem State.triggered_rest (s : State) (l : LineId) (g : Trigger) (d : DosingLoop) :
    { (s.triggered l g d).fgc l with loops := (s.fgc l).loops, minute := (s.fgc l).minute } = s.fgc l := by
  obtain ⟨_, unit⟩ := s.triggered_fgc l g d
  rw [unit]

theorem State.runLoops_rest (s : State) (l : LineId) (g : Trigger) :
    { (s.runLoops l g).fgc l with loops := (s.fgc l).loops, minute := (s.fgc l).minute } = s.fgc l := by
  have urea := s.triggered_rest l g .urea
  have lime := (s.triggered l g .urea).triggered_rest l g .lime
  have carbon := ((s.triggered l g .urea).triggered l g .lime).triggered_rest l g .carbon
  rw [← carbon] at lime
  rw [← lime] at urea
  exact urea

/-- R43: a point stays configured whatever its consumers bring. -/
theorem UpdateFrame.configured (h : UpdateFrame s t) : t.configured l c = s.configured l c := by
  unfold State.configured
  rw [State.findPoint_congr h.length fun i => (h.points i).sameSettings]

/-- R102, R105, R119: what a minute close has moved up to the closes of its boundary. -/
structure MinuteRun (l : LineId) (m : Minute) (s u : State) : Prop where
  event      : LineEvent l (s.reachPlant (nextMinute m.start)) u
  unit       : { u.fgc l with
    capAsked := (s.fgc l).capAsked, lowCloses := (s.fgc l).lowCloses, secondAt := (s.fgc l).secondAt
    loops := (s.fgc l).loops, minute := (s.fgc l).minute } =
      { s.fgc l with half := (s.fgc l).half.map (s.addMinute l m) }
  opened     : (u.fgc l).minute = some ((u.fgc l).freshMinute (nextMinute m.start) false)
  configured : ∀ c, u.configured l c = s.configured l c
  asked      : (u.fgc l).capAsked = ((s.minuteJudged l m).fgc l).capAsked
  lows       : (u.fgc l).lowCloses = ((s.minuteJudged l m).fgc l).lowCloses
  line       : u.line l = (s.minuteJudged l m).line l
  env        : u.env = (s.minuteJudged l m).env

theorem State.minuteRun_run (s : State) (l : LineId) (m : Minute) : MinuteRun l m s (s.minuteRun l m) := by
  obtain ⟨asked, lows, judged⟩ := (s.minuteHanded l m).evaluateRestraint_restrained l m.satAll
  have unit := judged.unit
  rw [State.minuteHanded_fgc] at unit
  have rest := (s.minuteJudged l m).runLoops_rest l .minute
  have opened : (s.minuteRun l m).fgc l =
      (((s.minuteJudged l m).runLoops l .minute).fgc l).openMinute (nextMinute m.start) false := State.setFgc_fgc ..
  have handed : LineEvent l (s.reachPlant (nextMinute m.start)) (s.minuteHanded l m) :=
    .setFgc (by rw [State.reachPlant_fgc]) (by rw [State.reachPlant_fgc])
  refine ⟨handed.trans (judged.event.trans (.trans (.runLoops l _ _) (.setFgc rfl rfl))), ?_, ?_, fun c => ?_, ?_, ?_,
    State.runLoops_line .., State.runLoops_env ..⟩
  · rw [opened]
    have moved := congrArg (fun f : Fgc => { f with
      capAsked := (s.fgc l).capAsked, lowCloses := (s.fgc l).lowCloses, loops := (s.fgc l).loops
      minute := (s.fgc l).minute }) unit
    rw [← State.minuteJudged, ← rest] at moved
    exact moved
  · rw [opened]
    rfl
  · have frame : UpdateFrame (s.minuteHanded l m) (s.minuteRun l m) :=
      .setFgc (.runLoops (.evaluateRestraint (.refl _))) id id
    exact frame.configured.trans (State.configured_congr (s.minuteHanded_points l m))
  · rw [opened]
    exact (congrArg Fgc.capAsked rest :)
  · rw [opened]
    exact (congrArg Fgc.lowCloses rest :)

/-! ### Restraint at the close of a minute (R119 to R121) -/

/-- What the rest of a minute close leaves of the verdict on restraint. -/
structure RestraintKept (l : LineId) (w t : State) : Prop where
  asked    : (t.fgc l).capAsked = (w.fgc l).capAsked
  lows     : (t.fgc l).lowCloses = (w.fgc l).lowCloses
  emission : (t.env.caps.get l).emission = (w.env.caps.get l).emission
  operator : (t.env.caps.get l).operator = (w.env.caps.get l).operator
  bypass   : (t.env.caps.get l).bypass = (w.env.caps.get l).bypass

theorem PeriodClosed.restraint (h : PeriodClosed l s t) : RestraintKept l s t :=
  ⟨(congrArg Fgc.capAsked h.unit :), (congrArg Fgc.lowCloses h.unit :), (congrArg CapList.emission h.caps :),
    (congrArg CapList.operator h.caps :), (congrArg CapList.bypass h.caps :)⟩

theorem State.minuteClose_restraint (s : State) (l : LineId) (m : Minute) (b : Nat) :
    RestraintKept l (s.minuteJudged l m) ((s.minuteRun l m).boundaryCloses l b) := by
  have run := s.minuteRun_run l m
  have kept := (PeriodClosed.boundaryCloses l (s.minuteRun l m) b).restraint
  have env := congrArg (fun e : Envelope => e.caps.get l) run.env
  exact ⟨kept.asked.trans run.asked, kept.lows.trans run.lows, kept.emission.trans (congrArg CapList.emission env),
    kept.operator.trans (congrArg CapList.operator env), kept.bypass.trans (congrArg CapList.bypass env)⟩

/-- R119: what a step of restraint sets, and the caps that it leaves, from the beginning to the end of a minute close. -/
structure RestraintLeft (l : LineId) (s t : State) (asked : Option Nat) (lows : Nat) : Prop where
  asked    : (t.fgc l).capAsked = asked
  lows     : (t.fgc l).lowCloses = lows
  operator : (t.env.caps.get l).operator = (s.env.caps.get l).operator
  bypass   : (t.env.caps.get l).bypass = (s.env.caps.get l).bypass

theorem RestraintKept.left (h : RestraintKept l w t) (k : Restrained l (s.minuteHanded l m) w asked lows) :
    RestraintLeft l s t asked lows := by
  have operator := k.operator
  have bypass := k.bypass
  rw [State.minuteHanded_env] at operator bypass
  exact ⟨h.asked.trans k.capAsked, h.lows.trans k.lowCloses, h.operator.trans operator, h.bypass.trans bypass⟩

theorem State.counting_self (s : State) (l : LineId) : s.counting l (s.fgc l).lowCloses = s := s.setFgc_self l

/-- R119: a count of low closes moves nothing else. -/
theorem State.counted_restrained (s : State) (l : LineId) (m : Minute) (n : Nat) :
    Restrained l (s.minuteHanded l m) ((s.minuteHanded l m).counting l n) (s.fgc l).capAsked n := by
  have start := (Restrained.refl l (s.minuteHanded l m)).counting (n := n)
  rw [State.minuteHanded_fgc] at start
  exact start

theorem State.minuteHanded_counting (s : State) (l : LineId) (m : Minute) :
    (s.minuteHanded l m).counting l (s.fgc l).lowCloses = s.minuteHanded l m := by
  have self := (s.minuteHanded l m).counting_self l
  rw [State.minuteHanded_fgc] at self
  exact self

theorem State.minuteCounted_fgc (s : State) (l : LineId) (m : Minute) (n : Nat) :
    ((s.minuteHanded l m).counting l n).fgc l =
      { s.fgc l with half := (s.fgc l).half.map (s.addMinute l m), lowCloses := n } := by
  rw [State.counting, State.setFgc_fgc, State.minuteHanded_fgc]

theorem State.minuteCounted_line (s : State) (l : LineId) (m : Minute) (n : Nat) :
    ((s.minuteHanded l m).counting l n).line l = s.line l := (State.setFgc_line ..).trans (s.minuteHanded_line l m)

theorem State.minuteHanded_findings (s : State) (l : LineId) (m : Minute) (h : HalfHour) (c : Component) :
    ((s.minuteHanded l m).findings l h m.satAll).get c = finding (s.configured l c) (s.fgc l) h m.satAll c := by
  rw [State.findings, Six.get_of, State.configured_congr (s.minuteHanded_points l m), State.minuteHanded_fgc]
  rfl

theorem State.minuteHanded_loweredCap (s : State) (l : LineId) (m : Minute) (n : Nat) :
    ((s.minuteHanded l m).counting l n).loweredCap l = s.loweredCap l := by
  have reads : ((s.minuteHanded l m).counting l n).read Quality.lineOk .steamFlow (some l) =
      s.read Quality.lineOk .steamFlow (some l) :=
    ((RoleKept.refl .steamFlow s).of_points (s.minuteHanded_points l m)).setFgc.read _ _
  unfold State.loweredCap
  rw [reads, State.minuteCounted_line, State.minuteCounted_fgc]

section
variable (half : (s.fgc l).half = some h) (feeds : (s.line l).state.feeds = true)
include half feeds

/-- R119: on a feeding line restraint is evaluated on the half-hour with the minute added. -/
theorem State.minuteJudged_of_feeding : s.minuteJudged l m =
    (s.minuteHanded l m).restrain l ((s.minuteHanded l m).findings l (s.addMinute l m h) m.satAll) := by
  refine State.evaluateRestraint_of_feeding ?_ ?_
  · rw [State.minuteHanded_fgc, half]
    rfl
  · rw [State.minuteHanded_line]
    exact feeds

/-- R120: a component above its limit. -/
theorem State.minuteJudged_of_above (above : (Component.all.find? fun c =>
      decide (finding (s.configured l c) (s.fgc l) (s.addMinute l m h) m.satAll c = .above)) = some c) :
    Restrained l (s.minuteHanded l m) (s.minuteJudged l m) (some (s.loweredCap l)) 0 ∧
    ((s.fgc l).capAsked ≠ some (s.loweredCap l) →
      ((s.minuteJudged l m).env.caps.get l).emission.map (·.value) = some (min (s.loweredCap l) 2000)) ∧
    ((s.fgc l).capAsked = some (s.loweredCap l) →
      ((s.minuteJudged l m).env.caps.get l).emission = (s.env.caps.get l).emission) := by
  simp only [← State.minuteHanded_findings] at above
  have cap := s.minuteHanded_loweredCap l m 0
  have stands : (((s.minuteHanded l m).counting l 0).fgc l).capAsked = (s.fgc l).capAsked := by
    rw [State.minuteCounted_fgc]
  have lowered := ((Restrained.refl l (s.minuteHanded l m)).counting (n := 0)).lowerEmission (c := c)
  rw [cap] at lowered
  rw [State.minuteJudged_of_feeding half feeds, State.restrain_of_above above]
  refine ⟨lowered, fun other => ?_, fun same => ?_⟩
  · rw [State.lowerEmission_emission (by rw [stands, cap]; exact other), cap]
  · rw [State.lowerEmission_of_asked (by rw [stands, cap]; exact same), State.counting, State.setFgc_env,
      State.minuteHanded_env]

section
variable (sound : ∀ c, finding (s.configured l c) (s.fgc l) (s.addMinute l m h) m.satAll c ≠ .above)
include sound

/-- R121: with none above, a component between the thresholds. -/
theorem State.minuteJudged_of_between
    (between : ∃ c, finding (s.configured l c) (s.fgc l) (s.addMinute l m h) m.satAll c = .between) :
    s.minuteJudged l m = (s.minuteHanded l m).counting l 0 := by
  simp only [← State.minuteHanded_findings] at sound between
  rw [State.minuteJudged_of_feeding half feeds, State.restrain_of_between sound between]

/-- R119: with no component judged, restraint stays. -/
theorem State.minuteJudged_of_unjudged
    (unjudged : ∀ c, finding (s.configured l c) (s.fgc l) (s.addMinute l m h) m.satAll c = .unjudged) :
    s.minuteJudged l m = (s.minuteHanded l m).counting l (s.fgc l).lowCloses := by
  simp only [← State.minuteHanded_findings] at sound unjudged
  rw [State.minuteJudged_of_feeding half feeds, State.minuteHanded_counting]
  exact State.restrain_of_unjudged sound (fun c => by rw [unjudged c]; decide) fun c => by rw [unjudged c]; decide

/-- R121: none above and none between, and one low. -/
theorem State.minuteJudged_of_low
    (between : ∀ c, finding (s.configured l c) (s.fgc l) (s.addMinute l m h) m.satAll c ≠ .between)
    (low : ∃ c, finding (s.configured l c) (s.fgc l) (s.addMinute l m h) m.satAll c = .low) :
    s.minuteJudged l m = if 3 ≤ (s.fgc l).lowCloses + 1 then ((s.minuteHanded l m).counting l 0).raiseEmission l
      else (s.minuteHanded l m).counting l ((s.fgc l).lowCloses + 1) := by
  have count : ((s.minuteHanded l m).fgc l).lowCloses = (s.fgc l).lowCloses := by rw [State.minuteHanded_fgc]
  simp only [← State.minuteHanded_findings] at sound between low
  rw [State.minuteJudged_of_feeding half feeds, State.restrain_of_low sound between low, count]

end

end

/-- R119: where restraint has moved the count of low closes alone, the rest of the close leaves it at that. -/
theorem RestraintKept.counted (h : RestraintKept l (s.minuteJudged l m) t)
    (judged : s.minuteJudged l m = (s.minuteHanded l m).counting l n) : (t.fgc l).lowCloses = n ∧
      (t.fgc l).capAsked = (s.fgc l).capAsked ∧ (t.env.caps.get l).emission = (s.env.caps.get l).emission := by
  rw [judged] at h
  have left := h.left (s.counted_restrained l m n)
  refine ⟨left.lows, left.asked, h.emission.trans ?_⟩
  rw [State.counting, State.setFgc_env, State.minuteHanded_env]

section
variable (judged : s.minuteJudged l m = ((s.minuteHanded l m).counting l 0).raiseEmission l)
  (kept : RestraintKept l (s.minuteJudged l m) t)
include judged kept

/-- R121: at the third low close in a row a cap that does not stand is not raised. -/
theorem RestraintKept.unraised (absent : (s.fgc l).capAsked = none) : (t.fgc l).capAsked = none ∧
    (t.env.caps.get l).emission = (s.env.caps.get l).emission := by
  have stays := State.raiseEmission_of_none (s := (s.minuteHanded l m).counting l 0) (l := l)
    (by rw [State.minuteCounted_fgc]; exact absent)
  obtain ⟨-, asked, emission⟩ := kept.counted (judged.trans stays)
  exact ⟨asked.trans absent, emission⟩

section
variable {v : Nat} (stands : (s.fgc l).capAsked = some v)
include stands

/-- R121: a cap that a step brings to F_max is released. -/
theorem RestraintKept.released (top : (s.line l).page.fMax ≤ v + (s.fgc l).page.restraintStep) :
    (t.fgc l).capAsked = none ∧ (t.env.caps.get l).emission = none := by
  have unit := s.minuteCounted_fgc l m 0
  have released := State.raiseEmission_of_top (s := (s.minuteHanded l m).counting l 0) (l := l) (v := v)
    (by rw [unit]; exact stands) (by rw [unit, State.minuteCounted_line]; exact top)
  rw [judged, released] at kept
  have left := kept.left (s.counted_restrained l m 0).asking.capRelease.log
  refine ⟨left.asked, kept.emission.trans ?_⟩
  rw [State.log_env, State.capRelease_emission]

/-- R121: any other is raised by the step. -/
theorem RestraintKept.raised (below : v + (s.fgc l).page.restraintStep < (s.line l).page.fMax) :
    (t.fgc l).capAsked = some (v + (s.fgc l).page.restraintStep) ∧
      (t.env.caps.get l).emission.map (·.value) = some (min (v + (s.fgc l).page.restraintStep) 2000) := by
  have unit := s.minuteCounted_fgc l m 0
  have raised := State.raiseEmission_of_below (s := (s.minuteHanded l m).counting l 0) (l := l) (v := v)
    (by rw [unit]; exact stands) (by rw [unit, State.minuteCounted_line]; exact below)
  rw [unit] at raised
  rw [judged, raised] at kept
  have left := kept.left (s.counted_restrained l m 0).asking.capSet
  refine ⟨left.asked, ?_⟩
  rw [kept.emission, State.capSet_emission]

end

/-- R121: at the third low close in a row the count is 0 again. -/
theorem RestraintKept.recounted : (t.fgc l).lowCloses = 0 := by
  obtain ⟨_, raised⟩ := (s.counted_restrained l m 0).raiseEmission
  rw [judged] at kept
  exact (kept.left raised).lows

end

/-- R119: a line that does not feed, and a unit without a half-hour, are not evaluated, and no close moves their caps. -/
theorem State.minuteClose_of_idle (idle : (s.line l).state.feeds = false ∨ (s.fgc l).half = none) :
    s.minuteJudged l m = (s.minuteHanded l m).counting l (s.fgc l).lowCloses ∧
      ((s.minuteRun l m).boundaryCloses l b).env = s.env := by
  have judged : s.minuteJudged l m = s.minuteHanded l m := by
    refine State.evaluateRestraint_of_idle ?_
    rw [State.minuteHanded_line, State.minuteHanded_fgc]
    exact idle.imp_right (congrArg (Option.map (s.addMinute l m)))
  have run := s.minuteRun_run l m
  have env : (s.minuteRun l m).env = s.env := run.env.trans ((congrArg State.env judged).trans (s.minuteHanded_env l m))
  refine ⟨judged.trans (s.minuteHanded_counting l m).symm, ?_⟩
  rcases idle with idle | empty
  · have line : (s.minuteRun l m).line l = s.line l :=
      run.line.trans ((congrArg (·.line l) judged).trans (s.minuteHanded_line l m))
    exact ((PeriodClosed.boundaryCloses l _ b).idle (line ▸ idle)).trans env
  · have half : ((s.minuteRun l m).fgc l).half = none :=
      (congrArg Fgc.half run.unit :).trans (congrArg (Option.map (s.addMinute l m)) empty)
    rw [State.boundaryCloses_of_none half, env]

/-! ### The closes of the boundary (R114, R115, R117, R124, R125) -/

/-- R117: the summary of a day depends on the page and on the table. -/
theorem daySummary_congr {f g : Fgc} {n : Nat} {mark : ClosingMark} (page : g.page = f.page) (table : g.table = f.table) :
    daySummary g n mark = daySummary f n mark := by
  unfold daySummary dayComp
  simp only [page, table]

section
variable (run : MinuteRun l m s u)
include run

theorem MinuteRun.runTime : u.runTime = (s.reachPlant (nextMinute m.start)).runTime :=
  congrArg (·.tenths / 10) run.event.clock

theorem MinuteRun.halfRecord : u.halfRecord l h .boundary = s.halfRecord l h .boundary :=
  State.halfRecord_congr (congrArg Fgc.page run.unit :) run.configured

theorem MinuteRun.half : (u.fgc l).half = (s.fgc l).half.map (s.addMinute l m) := (congrArg Fgc.half run.unit :)

/-- R114: the blocks of the unit that only a close of its half-hour moves. -/
theorem MinuteRun.kept : (u.fgc l).table = (s.fgc l).table ∧ (u.fgc l).dayLatest = (s.fgc l).dayLatest ∧
    (u.fgc l).abn = (s.fgc l).abn ∧ (u.fgc l).trainFault = (s.fgc l).trainFault :=
  ⟨(congrArg Fgc.table run.unit :), (congrArg Fgc.dayLatest run.unit :), (congrArg Fgc.abn run.unit :),
    (congrArg Fgc.trainFault run.unit :)⟩

/-- R102: the fresh minute stands, on the unit as the closes leave it. -/
theorem MinuteRun.minute (b : Nat) : ((u.boundaryCloses l b).fgc l).minute =
      some (((u.boundaryCloses l b).fgc l).freshMinute (nextMinute m.start) false) ∧
    ((u.boundaryCloses l b).fgc l).latest = (s.fgc l).latest := by
  have closed := (PeriodClosed.boundaryCloses l u b).unit
  have minute : ((u.boundaryCloses l b).fgc l).minute = (u.fgc l).minute := (congrArg Fgc.minute closed :)
  have fresh : ((u.boundaryCloses l b).fgc l).freshMinute (nextMinute m.start) false =
      (u.fgc l).freshMinute (nextMinute m.start) false :=
    (congrArg (·.freshMinute (nextMinute m.start) false) closed :)
  have latest : ((u.boundaryCloses l b).fgc l).latest = (u.fgc l).latest := (congrArg Fgc.latest closed :)
  exact ⟨minute.trans (run.opened.trans (congrArg some fresh.symm)),
    latest.trans (congrArg Fgc.latest run.unit :)⟩

/-- R115: the half-hour with the minute added, as its close leaves table and days. -/
theorem MinuteRun.closeHalf : ((u.closeHalf l (s.addMinute l m h) .boundary).fgc l).table =
      (s.fgc l).table.set (halfIndex h.start) (some (s.halfRecord l (s.addMinute l m h) .boundary)) ∧
    ((u.closeHalf l (s.addMinute l m h) .boundary).fgc l).dayLatest = (s.fgc l).dayLatest ∧
    ((u.closeHalf l (s.addMinute l m h) .boundary).fgc l).page = (s.fgc l).page := by
  have closed := u.closeHalf_fgc l (s.addMinute l m h) .boundary
  obtain ⟨table, day, -⟩ := run.kept
  rw [run.halfRecord, table] at closed
  have page : (u.fgc l).page = (s.fgc l).page := (congrArg Fgc.page run.unit :)
  exact ⟨(congrArg Fgc.table closed :), (congrArg Fgc.dayLatest closed :).trans day,
    (congrArg Fgc.page closed :).trans page⟩

/-- R125: what ends an episode, of the record and of the unit. -/
theorem MinuteRun.ends_iff (below : (s.halfRecord l (s.addMinute l m h) .boundary).exceeded = false) :
    (u.fgc l).abn.active ∧ endsEpisode (u.halfRecord l (s.addMinute l m h) .boundary) ∧
      (u.fgc l).trainFault = false ↔
    (s.fgc l).abn.active = true ∧ (s.fgc l).trainFault = false ∧
      ∀ c, ((s.halfRecord l (s.addMinute l m h) .boundary).comps.get c).status ≠ .invalid := by
  obtain ⟨-, -, abn, fault⟩ := run.kept
  have record : (s.halfRecord l (s.addMinute l m h) .boundary).mark = .boundary ∧
    (s.halfRecord l (s.addMinute l m h) .boundary).exceeded = false := ⟨rfl, below⟩
  rw [run.halfRecord, abn, fault, endsEpisode_iff, and_iff_right record]
  exact and_congr_right' and_comm

section
variable (half : (s.fgc l).half = some h)
include half

theorem MinuteRun.half_some : (u.fgc l).half = some (s.addMinute l m h) := run.half.trans (by rw [half]; rfl)

section
variable (boundary : b % 1800000 = 0)
include boundary

/-- R115: at a boundary within the day the record joins the table. -/
theorem MinuteRun.table_of_half (day : b % 86400000 ≠ 0) : ((u.boundaryCloses l b).fgc l).table =
      (s.fgc l).table.set (halfIndex h.start) (some (s.halfRecord l (s.addMinute l m h) .boundary)) ∧
    ((u.boundaryCloses l b).fgc l).dayLatest = (s.fgc l).dayLatest := by
  obtain ⟨table, latest, -⟩ := run.closeHalf (h := h)
  rw [State.boundaryCloses_fgc_of_half (run.half_some half) boundary day]
  exact ⟨table, latest⟩

/-- R117: at a day boundary the day is summed up on the table with the record, and the table emptied. -/
theorem MinuteRun.table_of_day (day : b % 86400000 = 0) :
    ((u.boundaryCloses l b).fgc l).table = List.replicate 48 none ∧
    ((u.boundaryCloses l b).fgc l).dayPrev = (s.fgc l).dayLatest ∧
    ((u.boundaryCloses l b).fgc l).dayLatest = some (daySummary
      { s.fgc l with
        table := (s.fgc l).table.set (halfIndex h.start) (some (s.halfRecord l (s.addMinute l m h) .boundary)) }
      (h.start / 86400000 * 86400000) .boundary) := by
  obtain ⟨table, latest, page⟩ := run.closeHalf (h := h)
  rw [State.boundaryCloses_fgc_of_day (run.half_some half) boundary day]
  exact ⟨rfl, latest, congrArg some (daySummary_congr page table)⟩

/-- R124: an exceeded half-hour. -/
theorem MinuteRun.abn_of_exceeded (high : (s.halfRecord l (s.addMinute l m h) .boundary).exceeded = true) :
    ((u.boundaryCloses l b).fgc l).abn =
      { (s.fgc l).abn.exceeding (s.reachPlant (nextMinute m.start)).runTime with
        exhausted := ((u.boundaryCloses l b).fgc l).isExhausted } := by
  obtain ⟨record, holds, -, -⟩ := State.boundaryCloses_abn (run.half_some half) boundary
  obtain ⟨-, -, abn, -⟩ := run.kept
  rw [record, holds, State.closeHalf_abn_of_exceeded (run.halfRecord ▸ high), abn, run.runTime]

section
variable (below : (s.halfRecord l (s.addMinute l m h) .boundary).exceeded = false)
include below

theorem MinuteRun.abn_of_ends (ends : (s.fgc l).abn.active = true ∧ (s.fgc l).trainFault = false ∧
      ∀ c, ((s.halfRecord l (s.addMinute l m h) .boundary).comps.get c).status ≠ .invalid) :
    ((u.boundaryCloses l b).fgc l).abn = (s.fgc l).abn.ended ∧ ((u.boundaryCloses l b).fgc l).secondAt = none := by
  obtain ⟨record, -, second, -⟩ := State.boundaryCloses_abn (run.half_some half) boundary
  obtain ⟨-, -, abn, -⟩ := run.kept
  have ended := State.closeHalf_abn_of_ends (run.halfRecord ▸ below) ((run.ends_iff below).2 ends)
  rw [abn] at ended
  rw [record, second]
  exact ended

theorem MinuteRun.abn_of_not (stays : ¬((s.fgc l).abn.active = true ∧ (s.fgc l).trainFault = false ∧
      ∀ c, ((s.halfRecord l (s.addMinute l m h) .boundary).comps.get c).status ≠ .invalid)) :
    ((u.boundaryCloses l b).fgc l).abn = (s.fgc l).abn := by
  obtain ⟨record, -, -, -⟩ := State.boundaryCloses_abn (run.half_some half) boundary
  obtain ⟨-, -, abn, -⟩ := run.kept
  rw [record, State.closeHalf_abn_of_not (run.halfRecord ▸ below) (mt (run.ends_iff below).1 stays), abn]

end

end

end

end

end

end Sys2Proof.Machine

open Sys2Proof.Machine in
/-- Settles O42: the minute handed on and its restraint, and the closes of its boundary. -/
theorem Sys2Proof.minuteCloses : Obligations.MinuteCloses := fun l s q _ => by
  intro f
  refine ⟨fun empty => (exec_fgcMinuteClose q).trans (congrArg _ (State.fgcMinuteClose_of_none empty)), fun m minute => ?_⟩
  intro b values add
  have run := s.minuteRun_run l m
  have closed := PeriodClosed.boundaryCloses l (s.minuteRun l m) b
  have kept := s.minuteClose_restraint l m b
  obtain ⟨fresh, latest⟩ := run.minute b
  obtain ⟨table, day, abn, -⟩ := run.kept
  refine ⟨_, (exec_fgcMinuteClose q).trans (congrArg _ (State.fgcMinuteClose_of_some minute)),
    run.event.trans closed.toLineEvent, fresh, latest, fun within => ?_, fun empty => ?_, fun h half boundary => ?_,
    fun idle => ?_, fun h c half feeds above => ?_, fun h half feeds => ?_, fun still => ?_, fun h half boundary => ?_⟩
  · rw [State.boundaryCloses_of_within within]
    exact ⟨run.half, table, day⟩
  · have half : ((s.minuteRun l m).fgc l).half = none := run.half.trans (congrArg (Option.map _) empty)
    rw [State.boundaryCloses_of_none half]
    exact ⟨half, table⟩
  · obtain ⟨-, -, -, opened⟩ := State.boundaryCloses_abn (run.half_some half) boundary
    exact ⟨opened, run.table_of_half half boundary, run.table_of_day half boundary⟩
  · obtain ⟨judged, env⟩ := State.minuteClose_of_idle (m := m) (b := b) idle
    obtain ⟨lows, asked, -⟩ := kept.counted judged
    exact ⟨congrArg Envelope.caps env, asked, lows⟩
  · obtain ⟨lowered, set, stands⟩ := State.minuteJudged_of_above half feeds above
    have left := kept.left lowered
    exact ⟨left.lows, left.asked, fun other => kept.emission ▸ set other, fun same => kept.emission.trans (stands same),
      left.operator, left.bypass⟩
  · intro found old new sound
    obtain ⟨_, _, restrained⟩ := (s.minuteHanded l m).evaluateRestraint_restrained l m.satAll
    have left := kept.left restrained
    refine ⟨left.operator, left.bypass, fun between => kept.counted (State.minuteJudged_of_between half feeds sound between),
      fun unjudged => kept.counted (State.minuteJudged_of_unjudged half feeds sound unjudged), fun between low => ?_⟩
    have judged := State.minuteJudged_of_low half feeds sound between low
    refine ⟨fun few => kept.counted (judged.trans (if_neg (not_le.2 few))), fun third => ?_⟩
    have raised := judged.trans (if_pos third)
    exact ⟨kept.recounted raised, kept.unraised raised, fun v stands => ⟨kept.released raised stands, kept.raised raised stands⟩⟩
  · have same : (s.minuteRun l m).boundaryCloses l b = s.minuteRun l m := by
      rcases still with empty | within
      · exact State.boundaryCloses_of_none (run.half.trans (congrArg (Option.map _) empty))
      · exact State.boundaryCloses_of_within within
    rw [same]
    exact abn
  · exact ⟨run.abn_of_exceeded half boundary, run.abn_of_ends half boundary, run.abn_of_not half boundary⟩
end
